-- ==== Sys2Proof/Word.lean ====
section
/-! DEFINITION. The plain data the whole model is written in: bytes, words, a thing per channel or per
granule (`Two`), a thing per window or table slot (`Three`), and an array of 576 lines (`Lines`).
Numbering follows R9 (bit 31 is the most significant of a word). -/

namespace Sys2Proof

/-- A byte of the input stream, of the frame buffer or of the reservoir. -/
abbrev Byte := BitVec 8

/-- A 32-bit host register or command word (R9, R32). -/
abbrev Word := BitVec 32

/-- One value for index 0 and one for index 1: per channel, per granule. -/
structure Two (α : Type) where
  c0 : α
  c1 : α
deriving DecidableEq, Repr, Inhabited

/-- The value at index `c`. -/
def Two.get {α : Type} (t : Two α) (c : Fin 2) : α :=
  if c = 0 then t.c0 else t.c1

/-- `t` with `x` at index `c`. -/
def Two.set {α : Type} (t : Two α) (c : Fin 2) (x : α) : Two α :=
  if c = 0 then { t with c0 := x } else { t with c1 := x }

/-- One value for each of the indexes 0, 1, 2: per window of a short block, per table slot. -/
structure Three (α : Type) where
  w0 : α
  w1 : α
  w2 : α
deriving DecidableEq, Repr, Inhabited

/-- The value at index `w`; every index past 1 reads the last. -/
def Three.get {α : Type} (t : Three α) (w : Nat) : α :=
  if w = 0 then t.w0 else if w = 1 then t.w1 else t.w2

/-- The array of `n` values of which entry `j` is `f j`. -/
def tabulate {α : Type} (n : Nat) (f : Nat → α) : Vector α n :=
  ⟨((List.range n).map f).toArray, by simp⟩

/-- One value per spectral line of a granule and channel (R8: 576 lines). -/
abbrev Lines (α : Type) := Vector α 576

end Sys2Proof
end

