-- ==== Sys2Proof/Syntax.lean ====
section
/-! DEFINITION. The 20 commands of R103, one constructor per row of spec/opcode_table.json.
`gr` is the granule operand (bit 9 of the word), `ch` the channel operand (bit 8), `imm` the unsigned
16-bit immediate (bits 31:16), as R101 and R104 assemble them. -/

namespace Sys2Proof

/-- A command of the block (R103). -/
inductive Instr where
  /-- NOP, R410. -/
  | nop
  /-- RESET_STREAM, R411. -/
  | resetStream
  /-- DECODE_FRAME, R420. -/
  | decodeFrame
  /-- SYNC, R150. -/
  | sync
  /-- READ_SIDE_INFO, R231. -/
  | readSideInfo
  /-- LOAD_MAIN_DATA, R208. -/
  | loadMainData
  /-- RB_PUT_BYTE, R202: the byte is `imm[7:0]`. -/
  | rbPutByte (imm : BitVec 16)
  /-- RB_READ_BITS, R203: `imm` is a bit count. -/
  | rbReadBits (imm : BitVec 16)
  /-- RB_REWIND_BITS, R205: `imm` is a bit count. -/
  | rbRewindBits (imm : BitVec 16)
  /-- RB_REWIND_BYTES, R206: `imm` is a byte count. -/
  | rbRewindBytes (imm : BitVec 16)
  /-- RB_TELL, R204. -/
  | rbTell
  /-- READ_SCALEFACTORS, R240. -/
  | readScalefactors (gr ch : Fin 2)
  /-- HUFFMAN_DECODE, R285. -/
  | huffmanDecode (gr ch : Fin 2)
  /-- DEQUANTIZE, R310. -/
  | dequantize (gr ch : Fin 2)
  /-- REORDER, R321. -/
  | reorder (gr ch : Fin 2)
  /-- STEREO, R340: it has no channel operand. -/
  | stereo (gr : Fin 2)
  /-- ANTIALIAS, R370. -/
  | antialias (gr ch : Fin 2)
  /-- HYBRID, R380. -/
  | hybrid (gr ch : Fin 2)
  /-- FREQ_INVERT, R390. -/
  | freqInvert (gr ch : Fin 2)
  /-- EMIT, R392. -/
  | emit (gr ch : Fin 2)
deriving DecidableEq, Repr, Inhabited

end Sys2Proof
end

