-- ==== Sys2Proof/WellFormed.lean ====
section
/-! DEFINITION. Which terms of `Instr` are commands of the block: the immediate constraints of R103
(IMM <= 0xFF, IMM <= 32, any, IMM <= 4096). Everything else R102 forbids has no term of `Instr`. -/

namespace Sys2Proof

/-- The largest immediate a command takes, for the commands that take one (R103). -/
def Instr.immLimit : Instr → Nat
  | .rbPutByte _ => 0xFF
  | .rbReadBits _ => 32
  | .rbRewindBits _ => 0xFFFF
  | .rbRewindBytes _ => 4096
  | .nop => 0
  | .resetStream => 0
  | .decodeFrame => 0
  | .sync => 0
  | .readSideInfo => 0
  | .loadMainData => 0
  | .rbTell => 0
  | .readScalefactors _ _ => 0
  | .huffmanDecode _ _ => 0
  | .dequantize _ _ => 0
  | .reorder _ _ => 0
  | .stereo _ => 0
  | .antialias _ _ => 0
  | .hybrid _ _ => 0
  | .freqInvert _ _ => 0
  | .emit _ _ => 0

/-- The immediate field of a command; 0 for a command that takes none (R102, R103). -/
def Instr.imm : Instr → BitVec 16
  | .rbPutByte imm => imm
  | .rbReadBits imm => imm
  | .rbRewindBits imm => imm
  | .rbRewindBytes imm => imm
  | .nop => 0
  | .resetStream => 0
  | .decodeFrame => 0
  | .sync => 0
  | .readSideInfo => 0
  | .loadMainData => 0
  | .rbTell => 0
  | .readScalefactors _ _ => 0
  | .huffmanDecode _ _ => 0
  | .dequantize _ _ => 0
  | .reorder _ _ => 0
  | .stereo _ => 0
  | .antialias _ _ => 0
  | .hybrid _ _ => 0
  | .freqInvert _ _ => 0
  | .emit _ _ => 0

/-- The term is a command of R103: its immediate meets the opcode's constraint. -/
def Instr.wf (i : Instr) : Bool :=
  decide (i.imm.toNat ≤ i.immLimit)

end Sys2Proof
end

