-- ==== Sys2Proof/Decode.lean ====
section
/-! DEFINITION. The command decoder (R100-R105) and the encoder written from the same tables (R101,
R103, R130). A command is exactly one 32-bit word (R105), so decoding is a total function of the word:
it answers the command, or names the reason of R102 that makes the word illegal. -/

namespace Sys2Proof

/-- Why a word is no command (R102). All four end the command with ILLEGAL_CMD. -/
inductive Reject where
  /-- its OPC is not in R103's table -/
  | unknownOpcode
  /-- RSV (bits 15:10) is not 0 -/
  | reservedBits
  /-- a field the opcode does not use is not 0 -/
  | unusedField
  /-- its IMM breaks the opcode's immediate constraint -/
  | immediateRange
deriving DecidableEq, Repr

/-- The decoder's answer. -/
inductive Decoded where
  | ok (i : Instr)
  | rejected (r : Reject)
deriving DecidableEq, Repr

/-- The five fields of a command word (R101). -/
structure Fields where
  opc : BitVec 8
  ch  : BitVec 1
  gr  : BitVec 1
  rsv : BitVec 6
  imm : BitVec 16
deriving DecidableEq, Repr

/-- R101: OPC 7:0, CH 8, GR 9, RSV 15:10, IMM 31:16. -/
def fieldsOf (w : Word) : Fields where
  opc := w.extractLsb' 0 8
  ch  := w.extractLsb' 8 1
  gr  := w.extractLsb' 9 1
  rsv := w.extractLsb' 10 6
  imm := w.extractLsb' 16 16

/-- A one-bit operand as a channel or granule number (R104). -/
def bitOperand (b : BitVec 1) : Fin 2 := b.toFin

/-- An opcode that uses no field: CH, GR and IMM must be 0. -/
def decodeBare (f : Fields) (i : Instr) : Decoded :=
  if f.ch ≠ 0 ∨ f.gr ≠ 0 ∨ f.imm ≠ 0 then .rejected .unusedField else .ok i

/-- An opcode that uses IMM only, up to `limit`. -/
def decodeImm (f : Fields) (limit : Nat) (mk : BitVec 16 → Instr) : Decoded :=
  if f.ch ≠ 0 ∨ f.gr ≠ 0 then .rejected .unusedField
  else if limit < f.imm.toNat then .rejected .immediateRange
  else .ok (mk f.imm)

/-- An opcode that uses GR and CH. -/
def decodeGrCh (f : Fields) (mk : Fin 2 → Fin 2 → Instr) : Decoded :=
  if f.imm ≠ 0 then .rejected .unusedField else .ok (mk (bitOperand f.gr) (bitOperand f.ch))

/-- An opcode that uses GR only. -/
def decodeGr (f : Fields) (mk : Fin 2 → Instr) : Decoded :=
  if f.ch ≠ 0 ∨ f.imm ≠ 0 then .rejected .unusedField else .ok (mk (bitOperand f.gr))

/-- R103, row by row. -/
def decodeFields (f : Fields) : Decoded :=
  if f.rsv ≠ 0 then .rejected .reservedBits
  else match f.opc.toNat with
    | 0x00 => decodeBare f .nop
    | 0x01 => decodeBare f .resetStream
    | 0x02 => decodeBare f .decodeFrame
    | 0x10 => decodeBare f .sync
    | 0x11 => decodeBare f .readSideInfo
    | 0x12 => decodeBare f .loadMainData
    | 0x20 => decodeImm f 0xFF .rbPutByte
    | 0x21 => decodeImm f 32 .rbReadBits
    | 0x22 => decodeImm f 0xFFFF .rbRewindBits
    | 0x23 => decodeImm f 4096 .rbRewindBytes
    | 0x24 => decodeBare f .rbTell
    | 0x30 => decodeGrCh f .readScalefactors
    | 0x31 => decodeGrCh f .huffmanDecode
    | 0x32 => decodeGrCh f .dequantize
    | 0x33 => decodeGrCh f .reorder
    | 0x34 => decodeGr f .stereo
    | 0x35 => decodeGrCh f .antialias
    | 0x36 => decodeGrCh f .hybrid
    | 0x37 => decodeGrCh f .freqInvert
    | 0x38 => decodeGrCh f .emit
    | _ => .rejected .unknownOpcode

/-- The command of a word, or the reason R102 refuses it. -/
def decode (w : Word) : Decoded := decodeFields (fieldsOf w)

/-- R101: the word of five fields. -/
def packFields (f : Fields) : Word :=
  (f.imm ++ (f.rsv ++ (f.gr ++ (f.ch ++ f.opc))))

/-- The fields of a word that uses no operand. -/
def bare (opc : BitVec 8) : Fields :=
  { opc := opc, ch := 0, gr := 0, rsv := 0, imm := 0 }

/-- The fields of a word with an immediate. -/
def withImm (opc : BitVec 8) (imm : BitVec 16) : Fields :=
  { bare opc with imm := imm }

/-- The fields of a word with a granule and a channel. -/
def withGrCh (opc : BitVec 8) (gr ch : Fin 2) : Fields :=
  { bare opc with gr := BitVec.ofFin gr, ch := BitVec.ofFin ch }

/-- R103, R130: the fields of a command. -/
def encodeFields : Instr → Fields
  | .nop => bare 0x00
  | .resetStream => bare 0x01
  | .decodeFrame => bare 0x02
  | .sync => bare 0x10
  | .readSideInfo => bare 0x11
  | .loadMainData => bare 0x12
  | .rbPutByte imm => withImm 0x20 imm
  | .rbReadBits imm => withImm 0x21 imm
  | .rbRewindBits imm => withImm 0x22 imm
  | .rbRewindBytes imm => withImm 0x23 imm
  | .rbTell => bare 0x24
  | .readScalefactors gr ch => withGrCh 0x30 gr ch
  | .huffmanDecode gr ch => withGrCh 0x31 gr ch
  | .dequantize gr ch => withGrCh 0x32 gr ch
  | .reorder gr ch => withGrCh 0x33 gr ch
  | .stereo gr => withGrCh 0x34 gr 0
  | .antialias gr ch => withGrCh 0x35 gr ch
  | .hybrid gr ch => withGrCh 0x36 gr ch
  | .freqInvert gr ch => withGrCh 0x37 gr ch
  | .emit gr ch => withGrCh 0x38 gr ch

/-- The word of a command. -/
def encode (i : Instr) : Word := packFields (encodeFields i)

/-- The command our decoder reads from a table row's word of `nbits` bits; every bit of the command
word above `nbits` is 0. A command is one 32-bit word, so no longer word is one. -/
def decodeTableWord (nbits w : Nat) : Option Instr :=
  if 32 < nbits then none
  else match decode (BitVec.ofNat 32 (w % 2 ^ nbits)) with
    | .ok i => some i
    | .rejected _ => none

end Sys2Proof
end

