-- ==== Sys2Proof/Config.lean ====
section
/-! DEFINITION. What an implementation fixes (R7), the value type NUM and the exact real expressions
that are rounded to it (R12), and the model's free values, which have no body. -/

namespace Sys2Proof

/-- NUM (R7, R12): OPEN in the spec. A value is zero, or a sign and a code; WHICH magnitude a code
stands for is not said here. Every format with a zero and an exact negation (R390) fits. -/
inductive Num where
  | zero
  | nonzero (negative : Bool) (code : Nat)
deriving DecidableEq, Repr, Inhabited

/-- An exact real number, as the expression the rules write for it (R12: `+ - * /`, `pow`, `sqrt`,
`sin`, `cos` are the exact real operations). Machine/Numeric.lean builds these; Laws/Exact.lean gives
each the real number it stands for. -/
inductive Exact where
  /-- 0 -/
  | zero
  /-- the value of a stored NUM -/
  | num (x : Num)
  /-- `p / q` -/
  | frac (p : Int) (q : Nat)
  /-- `2^(p / q)`, TWO_POW of R63 -/
  | twoPow (p : Int) (q : Nat)
  /-- `k^(4/3)`, POW43 of R62 -/
  | pow43 (k : Nat)
  /-- square root -/
  | sqrt (a : Exact)
  /-- `sin (π p / q)` -/
  | sinPi (p q : Nat)
  /-- `cos (π p / q)` -/
  | cosPi (p q : Nat)
  | neg (a : Exact)
  | add (a b : Exact)
  | sub (a b : Exact)
  | mul (a b : Exact)
  | div (a b : Exact)
deriving DecidableEq, Repr, Inhabited

namespace Config

/-- RESV_BYTES (R7). -/
def resvBytes : Nat := 4096

/-- RESV_BITS (R7). -/
def resvBits : Nat := 8 * resvBytes

/-- FRAME_BUF_BYTES (R7). -/
def frameBufBytes : Nat := 1732

/-- PB_BYTES (R7). -/
def pbBytes : Nat := frameBufBytes + 4

/-- MAX_SAMPLES_PER_FRAME (R7). -/
def maxSamplesPerFrame : Nat := 2 * 1152

/-- STRICT_COMPARE_LAYER (R7, R155). -/
def strictCompareLayer : Bool := true

/-- LSF_L2_HALVE (R7, R160). -/
def lsfL2Halve : Bool := true

/-- REGION1_SHORT_8K (R7, R284): OPEN in the spec (default 36), so it has no value here. Log entry 4. -/
opaque region1Short8k : Nat

/-- The contents of the big-values codebooks 2..31 of HUFF_ROM (R7, R70, R280): OPEN in the spec, so
they have no value here. Machine/Rom.lean takes them only where they are well-formed. Log entry 3. -/
opaque openCodebook : Nat → List (List Bool × (Nat × Nat))

/-- rnd_NUM (R7, R12): OPEN in the spec, an uninterpreted function of the exact value's expression.
Machine/Numeric.lean applies it, except to a value NUM already holds. Log entry 1. -/
opaque rnd : Exact → Num

/-- The free values of the model, one for each count of draws and index within a draw: what the spec
leaves unspecified after a fault (R201, R438) and on a read while busy (R90). Log entry 5. -/
opaque freeNat : Nat → Nat → Nat

/-- The free spectral values of the model, one for each count of draws and line (R201, R438). Log
entry 5. -/
opaque freeNum : Nat → Nat → Num

end Config

end Sys2Proof
end

