-- ==== Sys2Proof/Machine/State.lean ====
section
/-! DEFINITION. The state of the block as plain data (10_state.md), the world at its ports (R110-R113),
the command in progress (R30, R427), the two stop types of the host's interface, and power-on reset
(R460, R461). -/

namespace Sys2Proof.Machine

/-- No command, event or wait of this block ends a run: the spec gives each an effect (R100, R102,
R425, R427, R430), and what it leaves unspecified are values. So no fault exists. -/
inductive Fault
deriving DecidableEq, Repr

/-- Raised by `exec` alone, for a constructor without a meaning; safe. -/
inductive Refusal where
  /-- the command `mnemonic` has no meaning in this model; raised by its arm of `exec`; safe -/
  | notModelled (mnemonic : String)
deriving DecidableEq, Repr

/-- The error codes of R431. -/
inductive Err where
  | ok
  | illegalCmd
  | endOfStream
  | badOperand
  | notLayer3
  | sequence
  | sideinfoInvalid
  | unsupported
  | crcReject
  | frameSkipped
  | resvOverread
  | resvOverrewind
  | resvOverflow
  | huffmanInvalid
  | frameBufOverread
  | fatalIo
deriving DecidableEq, Repr, Inhabited

/-- Byte cells by address: addresses strictly rising, no entry equal to `Memory.unlisted`. -/
abbrev Memory := List Host.Cell

/-- What an unlisted cell reads as: `FB` and `RESV` are all 0 after power-on reset (R40, R42, R461). -/
def Memory.unlisted : Byte := 0

/-- The canonical form of a memory. -/
def Memory.wf : Memory → Bool
  | [] => true
  | [c] => c.2 != Memory.unlisted
  | c :: d :: m => (c.2 != Memory.unlisted) && decide (c.1 < d.1) && Memory.wf (d :: m)

/-- CTRL.CHSEL (R33). -/
inductive ChSel where
  | both | left | right | downmix
deriving DecidableEq, Repr, Inhabited

/-- CTRL (R33). The reserved bits read 0 and ignore writes, so they are no state. -/
structure Ctrl where
  irqEn     : Bool
  chsel     : ChSel
  crcStrict : Bool
deriving DecidableEq, Repr

/-- The STATUS bits (R34) but BUSY, which is `held` below, and FAULT, which is in `FaultLog`. -/
structure Status where
  done        : Bool
  eos         : Bool
  skipped     : Bool
  crcMismatch : Bool
  fatal       : Bool
  overrun     : Bool
  err         : Err
  nch2        : Bool
  hdrValid    : Bool
  layer3      : Bool
  lsf         : Bool
deriving DecidableEq, Repr

/-- VERSION (R36). -/
inductive Version where
  | mpeg1 | mpeg2 | mpeg25
deriving DecidableEq, Repr, Inhabited

/-- What ParseHeader gives (R156) of the fields of R36. NCH and NGR are computed from these two by
`Header.nch` and `Header.ngr`. -/
structure Header where
  version : Version
  layer   : Fin 4
  prot    : Bool
  brIdx   : BitVec 4
  srIdx   : BitVec 2
  padding : Bool
  mode    : BitVec 2
  modeExt : BitVec 2
  sfreq   : Fin 9
deriving DecidableEq, Repr

/-- NCH (R36): 1 if MODE = 3 (SINGLE_CHANNEL), else 2. -/
def Header.nch (h : Header) : Nat := if h.mode = 3 then 1 else 2

/-- NGR (R36): 2 if VERSION = MPEG1, else 1. -/
def Header.ngr (h : Header) : Nat := if h.version = .mpeg1 then 2 else 1

/-- The header state of R36: the accepted word HDR, its fields, FRAME_SIZE and SLOTS. -/
structure FrameHead where
  hdr       : Word
  fields    : Header
  frameSize : Nat
  slots     : Nat
deriving DecidableEq, Repr

/-- SYNC_MODE (R37). -/
inductive SyncMode where
  | initial | strict
deriving DecidableEq, Repr, Inhabited

/-- The strict-sync reference (R37). -/
structure SyncRef where
  word     : Word
  mode     : SyncMode
  singleCh : Bool
deriving DecidableEq, Repr

/-- The reservoir frame bookkeeping, three s32 (R38). -/
structure Book where
  frameStart  : Word
  mainDataEnd : Word
  discard     : Word
deriving DecidableEq, Repr

/-- CRC_READ, CRC_CALC and the CRC engine register (R39, R170, R461). -/
structure Crc where
  crcRead : BitVec 16
  crcCalc : BitVec 16
  engine  : BitVec 16
deriving DecidableEq, Repr

/-- The frame buffer (R40): FB, FB_LEN, FB_BITPOS. -/
structure FrameBuf where
  cells  : Memory
  len    : Nat
  bitpos : Nat
deriving DecidableEq, Repr

/-- The bit reservoir (R42, R43). `cells` holds RESV eight cells to the byte, cell `8 a + i` being bit
`7 - i` of byte `a`; `wbyte` is RB_WPTR / 8, since RB_WPTR is always a multiple of 8. -/
structure Resv where
  cells  : Memory
  wbyte  : BitVec 12
  rptr   : BitVec 15
  totbit : Word
  avail  : Nat
  hist   : Nat
deriving DecidableEq, Repr

/-- Fault recording (R430). `sticky` is STATUS.FAULT; `first` is the first fault the command in progress
recorded. `tainted` and `draws` are the model's own: a fault was recorded since the last RESET_STREAM
or power-on reset, so values are unspecified (R201, R438); how many free values were drawn. -/
structure FaultLog where
  sticky  : Bool
  first   : Option Err
  tainted : Bool
  draws   : Nat
deriving DecidableEq, Repr

/-- The reservoir with the fault log its primitives write (R201). -/
structure RS where
  resv : Resv
  log  : FaultLog
deriving DecidableEq, Repr

/-- STAGE[ch] (R45). -/
inductive Stage where
  | idle | si | md | sf | huf | dq | ro | st | aa | hy | fi | em
deriving DecidableEq, Repr, Inhabited

/-- One granule-channel block of the side-info store (R47). -/
structure GranuleInfo where
  part23Length      : BitVec 12
  bigValues         : BitVec 9
  globalGain        : BitVec 8
  scalefacCompress  : BitVec 9
  windowSwitching   : Bool
  blockType         : BitVec 2
  mixedBlock        : Bool
  tableSelect       : Three (BitVec 5)
  subblockGain      : Three (BitVec 3)
  region0Count      : BitVec 4
  region1Count      : BitVec 5
  preflag           : Bool
  scalefacScale     : Bool
  count1TableSelect : Bool
deriving DecidableEq, Repr

/-- The side-info store SI (R47). Bit `3 - i` of `scfsi[ch]` is SI.scfsi[ch][i]; `gc` is indexed by
granule, then channel. -/
structure SideInfo where
  mainDataBegin : BitVec 9
  privateBits   : BitVec 5
  scfsi         : Two (BitVec 4)
  gc            : Two (Two GranuleInfo)
deriving DecidableEq, Repr

/-- The scale-factor store of a channel (R48): L[0..22] and S[0..2][0..12]. -/
structure Scf where
  L : Vector (BitVec 5) 23
  S : Three (Vector (BitVec 5) 13)
deriving DecidableEq, Repr

/-- The LSF scale-factor bookkeeping of a channel (R49). -/
structure LsfInfo where
  slen         : Vector (Fin 6) 4
  blockNum     : Fin 6
  blockTypeNum : Fin 3
deriving DecidableEq, Repr

/-- What belongs to one channel (R45, R46, R48-R55). -/
structure Chan where
  stage     : Stage
  grp       : Fin 2
  nonzero   : Nat
  scf       : Scf
  lsf       : LsfInfo
  part2Start : Word
  part23End  : Word
  is        : Lines Int
  xr        : Lines Num
  hout      : Lines Num
  prev      : Lines Num
deriving DecidableEq, Repr

/-- NEXT_GC and PART_OPEN (R45). -/
structure PartOrder where
  nextGc   : BitVec 3
  partOpen : Bool
deriving DecidableEq, Repr

/-- One sample word of the output port (R112). -/
structure Sample where
  ch    : Fin 2
  ss    : BitVec 5
  sb    : BitVec 5
  value : Num
deriving DecidableEq, Repr

/-- What the block sends on the output port: sample words and the two strobes (R112). -/
inductive OutWord where
  | sample (w : Sample)
  | frameEnd
  | streamReset
deriving DecidableEq, Repr

/-- One transfer of the input byte port (R110). -/
inductive Transfer where
  | data (b : Byte)
  | eof
  | ioerr
deriving DecidableEq, Repr

/-- The width of a host bus access (R80). -/
inductive Width where
  | w8 | w16 | w32
deriving DecidableEq, Repr

/-- What the outside world does at the block's interfaces (R110-R112, R460). -/
inductive Event where
  /-- a host bus write -/
  | write (off : BitVec 8) (width : Width) (data : Word)
  /-- a host bus read -/
  | read (off : BitVec 8) (width : Width)
  /-- the byte source will present these transfers after those it already has -/
  | present (l : List Transfer)
  /-- the byte source is repositioned: it presents these transfers from now on -/
  | reposition (l : List Transfer)
  /-- the sink is ready for `n` further sample words -/
  | sinkReady (n : Nat)
  /-- power-on reset is asserted and released -/
  | powerOnReset
deriving DecidableEq, Repr

/-- The world at the block's interfaces; the model's own, no state of the block. `host` is what happens
next, in order; `port` what the byte source presents; `sink` how many words the sink will take; `out`
what has left the output port, in order; `rdata` what the last host read returned. -/
structure Env where
  host  : List Event
  port  : List Transfer
  sink  : Nat
  out   : List OutWord
  rdata : Word
deriving DecidableEq, Repr

/-- Where SYNC waits for its next input byte (R150-R158). -/
inductive SyncPhase where
  /-- the window `h` still lacks `k + 1` of its four bytes (R151) -/
  | fill (k : Nat) (h : Word)
  /-- the window `h` matched nothing; the next byte shifts in (R151) -/
  | shift (h : Word)
  /-- of the six bytes of an ID3 tag header after the window, these are taken, latest first (R152) -/
  | tag (rev : List Byte)
  /-- `n + 1` bytes of the tag are still to be skipped (R152) -/
  | skip (n : Nat)
  /-- of the body of the candidate `h`, these bytes are taken, latest first, and `left + 1` are not (R162) -/
  | body (h : Word) (left : Nat) (rev : List Byte)
  /-- the body of `h` is taken, and these bytes of the next-header probe, latest first (R158) -/
  | probe (h : Word) (body : List Byte) (rev : List Byte)
deriving DecidableEq, Repr

/-- A part of DECODE_FRAME's granule loop (R420). -/
inductive Job where
  /-- READ_SCALEFACTORS, HUFFMAN_DECODE, DEQUANTIZE, REORDER of (gr, ch) -/
  | front (gr ch : Fin 2)
  /-- STEREO gr -/
  | stereo (gr : Fin 2)
  /-- ANTIALIAS, HYBRID, FREQ_INVERT, EMIT of (gr, ch) -/
  | back (gr ch : Fin 2)
deriving DecidableEq, Repr

/-- How far the command in progress has got at the port it waits on (R30, R427). -/
inductive Progress where
  /-- SYNC, or the SYNC of DECODE_FRAME (`frame`), waits in InByte -/
  | sync (phase : SyncPhase) (frame : Bool)
  /-- EMIT waits in Emit with these words of channel `ch` unsent; DECODE_FRAME then goes on with the
  jobs, having counted `n` words -/
  | emit (ch : Fin 2) (left : List Sample) (frame : Option (List Job × Nat))
deriving DecidableEq, Repr

/-- The state of the machine: the block's, item by item as in R461, and the world at its ports. -/
structure State where
  ctrl    : Ctrl
  /-- the CTRL value the command in progress sampled when it started (R33, R425) -/
  cmdCtrl : Ctrl
  status  : Status
  result  : Word
  head    : FrameHead
  ref     : SyncRef
  book    : Book
  crc     : Crc
  fb      : FrameBuf
  /-- the pushback buffer PB (R41) -/
  pb      : List Byte
  /-- the end-of-stream latch IN_EOF (R41) -/
  inEof   : Bool
  rs      : RS
  /-- RESYNC_COUNT (R44) -/
  resync  : Word
  order   : PartOrder
  si      : SideInfo
  chan    : Two Chan
  /-- the command in progress, waiting on a port; STATUS.BUSY is `held.isSome` -/
  held    : Option Progress
  env     : Env
deriving DecidableEq, Repr

/-- STATUS.BUSY (R34): a command is executing. -/
def State.busy (s : State) : Bool := s.held.isSome

/-! ### Power-on reset (R461) -/

def Ctrl.reset : Ctrl := { irqEn := false, chsel := .both, crcStrict := false }

def Status.reset : Status where
  done := false
  eos := false
  skipped := false
  crcMismatch := false
  fatal := false
  overrun := false
  err := .ok
  nch2 := false
  hdrValid := false
  layer3 := false
  lsf := false

/-- All 0; VERSION 0 is the first of R36's list, with which NGR = 2 and NCH = 2. Log entry 8. -/
def Header.reset : Header where
  version := .mpeg1
  layer := 0
  prot := false
  brIdx := 0
  srIdx := 0
  padding := false
  mode := 0
  modeExt := 0
  sfreq := 0

def FrameHead.reset : FrameHead :=
  { hdr := 0, fields := .reset, frameSize := 0, slots := 0 }

def SyncRef.reset : SyncRef := { word := 0, mode := .initial, singleCh := false }

def Book.reset : Book := { frameStart := 0, mainDataEnd := 0, discard := 0 }

def Crc.reset : Crc := { crcRead := 0, crcCalc := 0, engine := 0 }

def FrameBuf.reset : FrameBuf := { cells := [], len := 0, bitpos := 0 }

def Resv.reset : Resv :=
  { cells := [], wbyte := 0, rptr := 0, totbit := 0, avail := 0, hist := 0 }

def FaultLog.reset : FaultLog :=
  { sticky := false, first := none, tainted := false, draws := 0 }

def RS.reset : RS := { resv := .reset, log := .reset }

def GranuleInfo.reset : GranuleInfo where
  part23Length := 0
  bigValues := 0
  globalGain := 0
  scalefacCompress := 0
  windowSwitching := false
  blockType := 0
  mixedBlock := false
  tableSelect := ⟨0, 0, 0⟩
  subblockGain := ⟨0, 0, 0⟩
  region0Count := 0
  region1Count := 0
  preflag := false
  scalefacScale := false
  count1TableSelect := false

def SideInfo.reset : SideInfo where
  mainDataBegin := 0
  privateBits := 0
  scfsi := ⟨0, 0⟩
  gc := ⟨⟨.reset, .reset⟩, ⟨.reset, .reset⟩⟩

def Scf.reset : Scf :=
  { L := tabulate 23 fun _ => 0
    S := ⟨tabulate 13 fun _ => 0, tabulate 13 fun _ => 0, tabulate 13 fun _ => 0⟩ }

def LsfInfo.reset : LsfInfo :=
  { slen := tabulate 4 fun _ => 0, blockNum := 0, blockTypeNum := 0 }

/-- 576 zero lines. -/
def Lines.zeros : Lines Num := tabulate 576 fun _ => .zero

def Chan.reset : Chan where
  stage := .idle
  grp := 0
  nonzero := 0
  scf := .reset
  lsf := .reset
  part2Start := 0
  part23End := 0
  is := tabulate 576 fun _ => 0
  xr := Lines.zeros
  hout := Lines.zeros
  prev := Lines.zeros

def PartOrder.reset : PartOrder := { nextGc := 0, partOpen := false }

/-- Nothing has happened yet at the ports. Log entry 7. -/
def Env.reset : Env := { host := [], port := [], sink := 0, out := [], rdata := 0 }

/-- The machine right after power-on reset (R460, R461). -/
def State.reset : State where
  ctrl := .reset
  cmdCtrl := .reset
  status := .reset
  result := 0
  head := .reset
  ref := .reset
  book := .reset
  crc := .reset
  fb := .reset
  pb := []
  inEof := false
  rs := .reset
  resync := 0
  order := .reset
  si := .reset
  chan := ⟨.reset, .reset⟩
  held := none
  env := .reset

end Sys2Proof.Machine
end

