-- ==== Sys2Proof/Machine/Rom.lean ====
section
/-! DEFINITION. The ROM tables of 10_state.md rules R60-R70 and the recovered codebooks of R288, R289,
each with the default contents the spec gives; no command writes one (R93, R462). The window and
antialias coefficients (R69, R71) are in Machine/Numeric.lean, REORDER_MAP (R72) in
Machine/Dequant.lean. -/

namespace Sys2Proof.Machine

/-- BITRATE_KBPS (R60) for indexes 1..14; 0 elsewhere, where there is no rate. -/
def bitrateKbps (v : Version) (layer : Fin 4) (idx : BitVec 4) : Nat :=
  let row : List Nat :=
    match v, layer with
    | .mpeg1, 1 => [32, 64, 96, 128, 160, 192, 224, 256, 288, 320, 352, 384, 416, 448]
    | .mpeg1, 2 => [32, 48, 56, 64, 80, 96, 112, 128, 160, 192, 224, 256, 320, 384]
    | .mpeg1, 3 => [32, 40, 48, 56, 64, 80, 96, 112, 128, 160, 192, 224, 256, 320]
    | .mpeg2, 1 | .mpeg25, 1 => [32, 48, 56, 64, 80, 96, 112, 128, 144, 160, 176, 192, 224, 256]
    | .mpeg2, _ | .mpeg25, _ => [8, 16, 24, 32, 40, 48, 56, 64, 80, 96, 112, 128, 144, 160]
    | .mpeg1, 0 => []
  if idx.toNat = 0 then 0 else row.getD (idx.toNat - 1) 0

/-- SAMPLE_RATE_HZ (R61); index 3 is reserved. -/
def sampleRateHz (v : Version) (idx : BitVec 2) : Nat :=
  let row : List Nat :=
    match v with
    | .mpeg1 => [44100, 48000, 32000]
    | .mpeg2 => [22050, 24000, 16000]
    | .mpeg25 => [11025, 12000, 8000]
  row.getD idx.toNat 0

/-- SFB_LONG (R64). -/
def sfbLongRow (sfreq : Fin 9) : List Nat :=
  match sfreq with
  | 0 | 2 | 6 | 7 =>
    [0, 6, 12, 18, 24, 30, 36, 44, 54, 66, 80, 96, 116, 140, 168, 200, 238, 284, 336, 396, 464, 522, 576]
  | 1 => [0, 6, 12, 18, 24, 30, 36, 44, 54, 66, 80, 96, 114, 136, 162, 194, 232, 278, 332, 394, 464, 540, 576]
  | 3 => [0, 4, 8, 12, 16, 20, 24, 30, 36, 44, 52, 62, 74, 90, 110, 134, 162, 196, 238, 288, 342, 418, 576]
  | 4 => [0, 4, 8, 12, 16, 20, 24, 30, 36, 42, 50, 60, 72, 88, 106, 128, 156, 190, 230, 276, 330, 384, 576]
  | 5 => [0, 4, 8, 12, 16, 20, 24, 30, 36, 44, 54, 66, 82, 102, 126, 156, 194, 240, 296, 364, 448, 550, 576]
  | 8 => [0, 12, 24, 36, 48, 60, 72, 88, 108, 132, 160, 192, 232, 280, 336, 400, 476, 566, 568, 570, 572, 574, 576]

/-- SFB_SHORT (R64). -/
def sfbShortRow (sfreq : Fin 9) : List Nat :=
  match sfreq with
  | 0 => [0, 4, 8, 12, 18, 24, 32, 42, 56, 74, 100, 132, 174, 192]
  | 1 => [0, 4, 8, 12, 18, 26, 36, 48, 62, 80, 104, 136, 180, 192]
  | 2 | 6 | 7 => [0, 4, 8, 12, 18, 26, 36, 48, 62, 80, 104, 134, 174, 192]
  | 3 => [0, 4, 8, 12, 16, 22, 30, 40, 52, 66, 84, 106, 136, 192]
  | 4 => [0, 4, 8, 12, 16, 22, 28, 38, 50, 64, 80, 100, 126, 192]
  | 5 => [0, 4, 8, 12, 16, 22, 30, 42, 58, 78, 104, 138, 180, 192]
  | 8 => [0, 8, 16, 24, 36, 52, 72, 96, 124, 160, 162, 164, 166, 192]

/-- SFB_LONG[SFREQ][b]. -/
def sfbLong (sfreq : Fin 9) (b : Nat) : Nat := (sfbLongRow sfreq).getD b 576

/-- SFB_SHORT[SFREQ][b]. -/
def sfbShort (sfreq : Fin 9) (b : Nat) : Nat := (sfbShortRow sfreq).getD b 192

/-- The band `b` below `n` of the boundary function with `f b <= j < f (b + 1)`. -/
def bandOf (f : Nat → Nat) (n j : Nat) : Nat :=
  ((List.range n).find? fun b => decide (f b ≤ j) && decide (j < f (b + 1))).getD 0

/-- The long band of line `j` (R312): `l[b] <= j < l[b+1]`. -/
def longBand (sfreq : Fin 9) (j : Nat) : Nat := bandOf (sfbLong sfreq) 22 j

/-- The short band of line `j` (R312): `3 s[b] <= j < 3 s[b+1]`. -/
def shortBand (sfreq : Fin 9) (j : Nat) : Nat := bandOf (fun b => 3 * sfbShort sfreq b) 13 j

/-- PRETAB (R65). -/
def pretab (b : Nat) : Nat :=
  [0, 0, 0, 0, 0, 0, 0, 0, 0, 0, 0, 1, 1, 1, 1, 2, 2, 3, 3, 3, 2, 0, 0].getD b 0

/-- SLEN[0] (R66). -/
def slen0 (sc : Nat) : Nat := [0, 0, 0, 0, 3, 1, 1, 1, 2, 2, 2, 3, 3, 3, 4, 4].getD sc 0

/-- SLEN[1] (R66). -/
def slen1 (sc : Nat) : Nat := [0, 1, 2, 3, 0, 1, 2, 3, 1, 2, 3, 1, 2, 3, 2, 3].getD sc 0

/-- NR_OF_SFB_BLOCK[blocknumber][blocktypenumber] (R67). -/
def nrOfSfbBlock (bn : Fin 6) (btn : Fin 3) : List Nat :=
  match bn, btn with
  | 0, 0 => [6, 5, 5, 5]
  | 0, 1 => [9, 9, 9, 9]
  | 0, 2 => [6, 9, 9, 9]
  | 1, 0 => [6, 5, 7, 3]
  | 1, 1 => [9, 9, 12, 6]
  | 1, 2 => [6, 9, 12, 6]
  | 2, 0 => [11, 10, 0, 0]
  | 2, 1 => [18, 18, 0, 0]
  | 2, 2 => [15, 18, 0, 0]
  | 3, 0 => [7, 7, 7, 0]
  | 3, 1 => [12, 12, 12, 0]
  | 3, 2 => [6, 15, 12, 0]
  | 4, 0 => [6, 6, 6, 3]
  | 4, 1 => [12, 9, 9, 6]
  | 4, 2 => [6, 12, 9, 6]
  | 5, 0 => [8, 8, 5, 0]
  | 5, 1 => [15, 12, 9, 0]
  | 5, 2 => [6, 18, 9, 0]

/-- LINBITS (R68). -/
def linbits (t : Nat) : Nat :=
  [0, 0, 0, 0, 0, 0, 0, 0, 0, 0, 0, 0, 0, 0, 0, 0,
   1, 2, 3, 4, 6, 8, 10, 13, 4, 5, 6, 7, 8, 9, 11, 13].getD t 0

/-- A codebook: codewords, first bit first, with their symbols (R280). -/
abbrev Codebook (σ : Type) := List (List Bool × σ)

/-- R280's well-formedness of a codebook: codewords non-empty, at most 19 bits, and none a prefix of
another's. -/
def Codebook.wellFormed {σ : Type} : Codebook σ → Bool
  | [] => true
  | c :: rest =>
    !c.1.isEmpty && decide (c.1.length ≤ 19) &&
      rest.all (fun d => !(c.1.isPrefixOf d.1) && !(d.1.isPrefixOf c.1)) && Codebook.wellFormed rest

/-- Table 1 (R289). -/
def codebook1 : Codebook (Nat × Nat) :=
  [([true], (0, 0)), ([false, false, true], (0, 1)), ([false, true], (1, 0)), ([false, false, false], (1, 1))]

/-- The big-values codebook `t` of HUFF_ROM (R280, R281, R289). Tables 4 and 14 do not exist; table 0 is
never walked (R282). Tables 2..31 are the open parameter, which R280 requires to be well-formed with
symbols up to 15: contents that are not stand for no ROM and count as none. -/
def bigCodebook (t : Nat) : Codebook (Nat × Nat) :=
  if t = 0 ∨ t = 4 ∨ t = 14 then []
  else if t = 1 then codebook1
  else
    let book := Config.openCodebook t
    if Codebook.wellFormed book && book.all (fun c => decide (c.2.1 ≤ 15) && decide (c.2.2 ≤ 15)) then book
    else []

/-- A count1 symbol `(v, w, x, y)`. -/
abbrev Quad := Bool × Bool × Bool × Bool

/-- Table 32 (R288), a row to each vwxy. -/
def codebook32 : Codebook Quad :=
  [([true], (false, false, false, false)),
   ([false, true, false, true], (false, false, false, true)),
   ([false, true, false, false], (false, false, true, false)),
   ([false, false, true, false, true], (false, false, true, true)),
   ([false, true, true, false], (false, true, false, false)),
   ([false, false, false, true, false, true], (false, true, false, true)),
   ([false, false, true, false, false], (false, true, true, false)),
   ([false, false, false, true, false, false], (false, true, true, true)),
   ([false, true, true, true], (true, false, false, false)),
   ([false, false, false, true, true], (true, false, false, true)),
   ([false, false, true, true, false], (true, false, true, false)),
   ([false, false, false, false, false, false], (true, false, true, true)),
   ([false, false, true, true, true], (true, true, false, false)),
   ([false, false, false, false, true, false], (true, true, false, true)),
   ([false, false, false, false, true, true], (true, true, true, false)),
   ([false, false, false, false, false, true], (true, true, true, true))]

/-- The two values of a bit. -/
def bits : List Bool := [false, true]

/-- Table 33 (R288): four bits `b3 b2 b1 b0` give `(1-b3, 1-b2, 1-b1, 1-b0)`. -/
def codebook33 : Codebook Quad :=
  bits.flatMap fun b3 => bits.flatMap fun b2 => bits.flatMap fun b1 => bits.map fun b0 =>
    ([b3, b2, b1, b0], (!b3, !b2, !b1, !b0))

/-- The count1 codebook that `count1table_select` selects (R124): 0 is table 32, 1 is table 33. -/
def quadCodebook (select : Bool) : Codebook Quad :=
  if select then codebook33 else codebook32

end Sys2Proof.Machine
end

