-- ==== Sys2Proof/Machine/Numeric.lean ====
section
/-! DEFINITION. Exact real arithmetic (R12): building the expressions, with the identities of the exact
reals that R12 lets a claim rely on, and rounding an expression to NUM. Laws/Exact.lean shows that every
operation here is the real operation it is named after. -/

namespace Sys2Proof

/-- Exact negation of a NUM (R390: negation is exact, with no rounding). -/
def Num.neg : Num → Num
  | .zero => .zero
  | .nonzero n c => .nonzero (!n) c

namespace Exact

/-- The exact value of a NUM. -/
def ofNum : Num → Exact
  | .zero => .zero
  | .nonzero n c => .num (.nonzero n c)

/-- `p / q` in lowest terms. -/
def ratio (p : Int) (q : Nat) : Exact :=
  if p = 0 then .zero else .frac (p / (Nat.gcd p.natAbs q : Int)) (q / Nat.gcd p.natAbs q)

def ofInt (p : Int) : Exact := ratio p 1

def one : Exact := .frac 1 1

def negate : Exact → Exact
  | .zero => .zero
  | .num x => .num x.neg
  | .frac p q => .frac (-p) q
  | .neg a => a
  | a => .neg a

/-- `a + b`. -/
def plus (a b : Exact) : Exact :=
  if a = .zero then b
  else if b = .zero then a
  else if a = negate b then .zero
  else match a, b with
    | .frac p q, .frac p' q' =>
      if q * q' = 0 then .add a b else ratio (p * q' + p' * q) (q * q')
    | a, b => .add a b

/-- `a - b`. -/
def minus (a b : Exact) : Exact :=
  if b = .zero then a
  else if a = .zero then negate b
  else if a = b then .zero
  else match a, b with
    | .frac p q, .frac p' q' =>
      if q * q' = 0 then .sub a b else ratio (p * q' - p' * q) (q * q')
    | a, b => .sub a b

/-- `a * b`. -/
def times (a b : Exact) : Exact :=
  if a = .zero then .zero
  else if b = .zero then .zero
  else if a = one then b
  else if b = one then a
  else match a, b with
    | .frac p q, .frac p' q' => ratio (p * p') (q * q')
    | a, b => .mul a b

/-- `a / b`, for `b` not 0. -/
def quot (a b : Exact) : Exact :=
  if a = .zero then .zero
  else if b = one then a
  else .div a b

/-- `2^(p / q)` (R63). -/
def powTwo (p : Int) (q : Nat) : Exact :=
  if p % (q : Int) = 0 then
    match p / (q : Int) with
    | .ofNat n => .frac (2 ^ n : Nat) 1
    | .negSucc n => .frac 1 (2 ^ (n + 1))
  else .twoPow p q

/-- `k^(4/3)` (R62). -/
def powFourThirds (k : Nat) : Exact :=
  match (List.range 21).find? fun m => m ^ 3 = k with
  | some m => ofInt ((m ^ 4 : Nat) : Int)
  | none => .pow43 k

/-- `sin (π p / q)`. -/
def sine (p q : Nat) : Exact :=
  if p = 0 then .zero
  else if 2 * p = q then one
  else if 6 * p = q then .frac 1 2
  else .sinPi p q

/-- `cos (π p / q)`. -/
def cosine (p q : Nat) : Exact :=
  if p = 0 then one
  else if 2 * p = q then .zero
  else if 3 * p = q then .frac 1 2
  else .cosPi p q

/-- `sqrt 2`. -/
def sqrtTwo : Exact := .sqrt (.frac 2 1)

/-- The sum of `f 0, …, f (n - 1)`, from the left. -/
def sum (f : Nat → Exact) : Nat → Exact
  | 0 => .zero
  | n + 1 => plus (sum f n) (f n)

end Exact

namespace Machine

open Sys2Proof (Exact)

/-- rnd_NUM (R12): what NUM holds for an exact value. A value NUM already holds is itself. -/
def roundNum : Exact → Num
  | .zero => .zero
  | .num x => x
  | e => Config.rnd e

/-- AA_C (R69) as fractions. -/
def aaC (i : Nat) : Exact :=
  match i with
  | 0 => Exact.ratio (-6) 10
  | 1 => Exact.ratio (-535) 1000
  | 2 => Exact.ratio (-33) 100
  | 3 => Exact.ratio (-185) 1000
  | 4 => Exact.ratio (-95) 1000
  | 5 => Exact.ratio (-41) 1000
  | 6 => Exact.ratio (-142) 10000
  | _ => Exact.ratio (-37) 10000

/-- `sqrt (1 + AA_C[i]^2)`. -/
def aaNorm (i : Nat) : Exact :=
  .sqrt (Exact.plus Exact.one (Exact.times (aaC i) (aaC i)))

/-- AA_CS[i] = 1 / sqrt(1 + AA_C[i]^2) (R69). -/
def aaCs (i : Nat) : Exact := Exact.quot Exact.one (aaNorm i)

/-- AA_CA[i] = AA_C[i] / sqrt(1 + AA_C[i]^2) (R69). -/
def aaCa (i : Nat) : Exact := Exact.quot (aaC i) (aaNorm i)

/-- IMDCT_WIN[t][i] (R71, R378). -/
def imdctWin (t : BitVec 2) (i : Nat) : Exact :=
  let long := Exact.sine (2 * i + 1) 72
  match t.toNat with
  | 0 => if i < 36 then long else .zero
  | 1 =>
    if i < 18 then long
    else if i < 24 then Exact.one
    else if i < 30 then Exact.sine (2 * (i - 18) + 1) 24
    else .zero
  | 2 => if i < 12 then Exact.sine (2 * i + 1) 24 else .zero
  | _ =>
    if i < 6 then .zero
    else if i < 12 then Exact.sine (2 * (i - 6) + 1) 24
    else if i < 18 then Exact.one
    else if i < 36 then long
    else .zero

end Machine

end Sys2Proof
end

