-- ==== Sys2Proof/Machine/Ops.lean ====
section
/-! DEFINITION. The named operations over the block's memories and ports: byte cells, the reservoir
primitives (R200-R206), FbRead (R214), InByte and Unread (R86, R87), Emit (R92, R112), the stores of the
granule arrays, and the life cycle of a command with its errors (R425, R430), which is this hardware's
whole exception mechanism (R438: no trap entry and no return exist). -/

namespace Sys2Proof.Machine

/-- What `exec` and `step` answer. -/
abbrev Outcome := Host.Outcome State Fault Refusal

/-! ### Byte cells -/

/-- The byte at address `p`. -/
def Memory.get : Memory → Nat → Byte
  | [], _ => Memory.unlisted
  | c :: m, p => if c.1 = p then c.2 else Memory.get m p

/-- The memory with `v` at address `p`, in canonical form. -/
def Memory.set : Memory → Nat → Byte → Memory
  | [], p, v => if v = Memory.unlisted then [] else [(p, v)]
  | c :: m, p, v =>
    if p < c.1 then (if v = Memory.unlisted then c :: m else (p, v) :: c :: m)
    else if p = c.1 then (if v = Memory.unlisted then m else (p, v) :: m)
    else c :: Memory.set m p v

/-- The memory with the bytes `l` at `p, p + 1, …`. -/
def Memory.fill : Memory → Nat → List Byte → Memory
  | m, _, [] => m
  | m, p, b :: l => Memory.fill (m.set p b) (p + 1) l

/-- Bit `p` of the bytes in address order, the most significant bit of a byte first (R10, R84). -/
def Memory.bit (m : Memory) (p : Nat) : Bool := (m.get (p / 8)).getMsbD (p % 8)

/-- The unsigned number whose bits, first to last, are `f 0, …, f (n - 1)` (R10). -/
def gather (f : Nat → Bool) : Nat → Nat
  | 0 => 0
  | n + 1 => 2 * gather f n + (f n).toNat

/-! ### Faults and free values (R201, R430, R438) -/

/-- `err <- e` (R430): the first fault of a command is kept; STATUS.FAULT is sticky; from here on values
are unspecified. -/
def FaultLog.record (e : Err) (l : FaultLog) : FaultLog :=
  { l with sticky := true, first := some (l.first.getD e), tainted := true }

/-- `err <- e` if `c`. -/
def FaultLog.recordIf (c : Bool) (e : Err) (l : FaultLog) : FaultLog :=
  if c then l.record e else l

/-- One free value has been drawn. -/
def FaultLog.drawn (l : FaultLog) : FaultLog := { l with draws := l.draws + 1 }

/-! ### The bit reservoir -/

/-- RESV cell `i mod RESV_BITS` (R84). -/
def Resv.bit (r : Resv) (i : Nat) : Bool := r.cells.bit (i % Config.resvBits)

/-- The `n` bits from the read cursor on, the first as the most significant (R84, R203). -/
def Resv.peek (r : Resv) (n : Nat) : Nat := gather (fun i => r.bit (r.rptr.toNat + i)) n

/-- RB_WPTR as the host reads it (R32, R42). -/
def Resv.wptr (r : Resv) : Nat := 8 * r.wbyte.toNat

/-- The cursor movement of RbRead(n) (R203). -/
def Resv.advance (n : Nat) (r : Resv) : Resv :=
  { r with
    rptr := r.rptr + BitVec.ofNat 15 n
    totbit := r.totbit + BitVec.ofNat 32 n
    hist := r.hist + min n r.avail
    avail := r.avail - n }

/-- The cursor movement of RbRewind(n) (R205). -/
def Resv.retreat (n : Nat) (r : Resv) : Resv :=
  { r with
    rptr := r.rptr - BitVec.ofNat 15 n
    totbit := r.totbit - BitVec.ofNat 32 n
    avail := min (r.avail + n) Config.resvBits
    hist := r.hist - n }

/-- The write of RbPut(b) (R202): bit 7 of `b` goes to cell RB_WPTR. -/
def Resv.append (b : Byte) (r : Resv) : Resv :=
  let avail := min (r.avail + 8) Config.resvBits
  { r with
    cells := r.cells.set r.wbyte.toNat b
    wbyte := r.wbyte + 1
    avail := avail
    hist := min r.hist (Config.resvBits - avail) }

/-- RbRead(n) (R203). A value read by an over-read, or after a fault, is free (R201). That it has
`n` bits, as every value read has, is the model's: DESIGN CHOICE, log entry 5. RESULT does not show it. -/
def RS.read (n : Nat) (r : RS) : Nat × RS :=
  let log := r.log.recordIf (decide (r.resv.avail < n)) .resvOverread
  let moved := r.resv.advance n
  if log.tainted && decide (n ≠ 0) then
    (Config.freeNat log.draws 0 % 2 ^ n, { resv := moved, log := log.drawn })
  else (r.resv.peek n, { resv := moved, log := log })

/-- RbPut(b) (R202). -/
def RS.put (b : Byte) (r : RS) : RS where
  log := r.log.recordIf (decide (Config.resvBits < r.resv.avail + 8)) .resvOverflow
  resv := r.resv.append b

/-- RbRewind(n) (R205). -/
def RS.rewind (n : Nat) (r : RS) : RS where
  log := r.log.recordIf (decide (r.resv.hist < n)) .resvOverrewind
  resv := r.resv.retreat n

/-- RbTell() (R204). -/
def RS.tell (r : RS) : Nat := r.resv.totbit.toNat

/-- `RbRead(w)` for each width in turn: the values, in order. -/
def RS.readMany : List Nat → RS → List Nat × RS
  | [], r => ([], r)
  | w :: ws, r =>
    let v := r.read w
    let rest := RS.readMany ws v.2
    (v.1 :: rest.1, rest.2)

/-- `RbPut` for each byte in turn. -/
def RS.putMany : List Byte → RS → RS
  | [], r => r
  | b :: l, r => RS.putMany l (r.put b)

/-- RbRead(8) `n` times, the bytes dropped (R212). -/
def RS.skipBytes : Nat → RS → RS
  | 0, r => r
  | n + 1, r => RS.skipBytes n (r.read 8).2

/-! ### The frame buffer -/

/-- Bit `p` of the frame body; 0 past FB_LEN (R214). -/
def FrameBuf.bit (fb : FrameBuf) (p : Nat) : Bool :=
  decide (p < 8 * fb.len) && fb.cells.bit p

/-- FbRead(n) (R214): the value, the buffer and the fault log. A value read after a fault is free (R201,
R438), of `n` bits: DESIGN CHOICE, log entry 5. -/
def FrameBuf.read (n : Nat) (fb : FrameBuf) (log : FaultLog) : Nat × FrameBuf × FaultLog :=
  let moved := { fb with bitpos := min (fb.bitpos + n) (8 * fb.len) }
  let log' := log.recordIf (decide (8 * fb.len < fb.bitpos + n)) .frameBufOverread
  if log.tainted && decide (n ≠ 0) then (Config.freeNat log.draws 0 % 2 ^ n, moved, log'.drawn)
  else (gather (fun i => fb.bit (fb.bitpos + i)) n, moved, log')

/-- The bytes FB[a], …, FB[a + n - 1]. -/
def FrameBuf.bytes (fb : FrameBuf) (a n : Nat) : List Byte :=
  (List.range n).map fun i => fb.cells.get (a + i)

/-! ### The input port and the pushback buffer -/

/-- The byte stream a command sees: PB, the latch IN_EOF, and the port (R41, R86). -/
structure InStream where
  pb    : List Byte
  inEof : Bool
  port  : List Transfer
deriving DecidableEq, Repr

/-- The outcomes of InByte (R86); `nothing` is the wait: the port presents nothing yet. -/
inductive InByte where
  | byte (b : Byte)
  | eof
  | ioerr
  | nothing
deriving DecidableEq, Repr

/-- InByte() (R86): PB first, then the port. `eof` and `ioerr` consume nothing; `eof` sets IN_EOF. -/
def InStream.take (i : InStream) : InByte × InStream :=
  match i.pb with
  | b :: pb => (.byte b, { i with pb := pb })
  | [] =>
    if i.inEof then (.eof, i)
    else match i.port with
      | [] => (.nothing, i)
      | .data b :: port => (.byte b, { i with port := port })
      | .eof :: _ => (.eof, { i with inEof := true })
      | .ioerr :: _ => (.ioerr, i)

/-- Unread(s) (R87). -/
def InStream.unread (l : List Byte) (i : InStream) : InStream := { i with pb := l ++ i.pb }

/-- The stream as the state holds it. -/
def State.stream (s : State) : InStream := { pb := s.pb, inEof := s.inEof, port := s.env.port }

/-- The state with the stream `i`. -/
def State.withStream (i : InStream) (s : State) : State :=
  { s with pb := i.pb, inEof := i.inEof, env := { s.env with port := i.port } }

/-! ### The output port -/

/-- A word or a strobe leaves the output port. -/
def State.strobe (w : OutWord) (s : State) : State :=
  { s with env := { s.env with out := s.env.out ++ [w] } }

/-- Emit, for words in order, as far as the sink is ready (R92): the state, and the words left. -/
def State.send (ws : List Sample) (s : State) : State × List Sample :=
  let k := min ws.length s.env.sink
  ({ s with env := { s.env with
      sink := s.env.sink - k
      out := s.env.out ++ (ws.take k).map OutWord.sample } }, ws.drop k)

/-! ### Stores of a channel's items

After a fault every value a command computes is unspecified until RESET_STREAM (R201, R438, R478), so a
store then leaves free values, within the item's bounds, and what is computed or sent from them later in the
command is free with them. -/

/-- The state with channel `ch` changed by `f`. -/
def State.mapChan (ch : Fin 2) (f : Chan → Chan) (s : State) : State :=
  { s with chan := s.chan.set ch (f (s.chan.get ch)) }

/-- The state with the reservoir and the fault log `r`. -/
def State.withRs (r : RS) (s : State) : State := { s with rs := r }

/-- STAGE[ch] <- x. -/
def State.setStage (ch : Fin 2) (x : Stage) (s : State) : State :=
  s.mapChan ch fun c => { c with stage := x }

/-- STAGE[0] <- x; STAGE[1] <- x. -/
def State.setStages (x : Stage) (s : State) : State := (s.setStage 0 x).setStage 1 x

/-- One free value has been drawn. -/
def State.drawn (s : State) : State := { s with rs := { s.rs with log := s.rs.log.drawn } }

/-- `store x`, or a store of the free value `free k` after a fault. -/
def State.storeOrFree {α : Type} (x : α) (free : Nat → α) (store : α → State → State) (s : State) : State :=
  if s.rs.log.tainted then store (free s.rs.log.draws) s.drawn else store x s

/-- 576 free spectral values. -/
def freeLines (k : Nat) : Lines Num := tabulate 576 fun j => Config.freeNum k j

/-- Free scale factors. -/
def freeScf (k : Nat) : Scf where
  L := tabulate 23 fun b => BitVec.ofNat 5 (Config.freeNat k b)
  S := ⟨tabulate 13 fun b => BitVec.ofNat 5 (Config.freeNat k (23 + b)),
        tabulate 13 fun b => BitVec.ofNat 5 (Config.freeNat k (36 + b)),
        tabulate 13 fun b => BitVec.ofNat 5 (Config.freeNat k (49 + b))⟩

/-- Free LSF bookkeeping. -/
def freeLsf (k : Nat) : LsfInfo where
  slen := tabulate 4 fun i => Fin.ofNat 6 (Config.freeNat k i)
  blockNum := Fin.ofNat 6 (Config.freeNat k 4)
  blockTypeNum := Fin.ofNat 3 (Config.freeNat k 5)

/-- NONZERO and IS of a channel: 576 lines, 0 from NONZERO on (R46, R51). -/
structure Quantised where
  nonzero : Nat
  is      : Lines Int
deriving DecidableEq, Repr

/-- Quantised lines of which the first `n` are `f 0, f 1, …` and the rest 0. -/
def Quantised.of (n : Nat) (f : Nat → Int) : Quantised where
  nonzero := n
  is := tabulate 576 fun j => if j < n then f j else 0

/-- Free quantised lines, in the range of R51. -/
def freeQuantised (k : Nat) : Quantised :=
  Quantised.of (Config.freeNat k 576 % 577) fun j => ((Config.freeNat k j % 16413 : Nat) : Int) - 8206

/-- NONZERO[ch], IS[ch] <- v. -/
def State.storeQuantised (ch : Fin 2) (v : Quantised) : State → State :=
  State.storeOrFree v freeQuantised fun v => State.mapChan ch fun c => { c with nonzero := v.nonzero, is := v.is }

/-- SCF[ch] <- v. -/
def State.storeScf (ch : Fin 2) (v : Scf) : State → State :=
  State.storeOrFree v freeScf fun v => State.mapChan ch fun c => { c with scf := v }

/-- LSF_SLEN[ch], LSF_BLOCKNUM[ch], LSF_BLOCKTYPENUM[ch] <- v. -/
def State.storeLsf (ch : Fin 2) (v : LsfInfo) : State → State :=
  State.storeOrFree v freeLsf fun v => State.mapChan ch fun c => { c with lsf := v }

/-- XR[ch] <- v. -/
def State.storeXr (ch : Fin 2) (v : Lines Num) : State → State :=
  State.storeOrFree v freeLines fun v => State.mapChan ch fun c => { c with xr := v }

/-- HOUT[ch] <- v. -/
def State.storeHout (ch : Fin 2) (v : Lines Num) : State → State :=
  State.storeOrFree v freeLines fun v => State.mapChan ch fun c => { c with hout := v }

/-- PREV[ch] <- v. -/
def State.storePrev (ch : Fin 2) (v : Lines Num) : State → State :=
  State.storeOrFree v freeLines fun v => State.mapChan ch fun c => { c with prev := v }

/-- RESULT <- w (R35). -/
def State.answer (w : Word) : State → State :=
  State.storeOrFree w (fun k => BitVec.ofNat 32 (Config.freeNat k 0)) fun w s => { s with result := w }

/-! ### The state after a fault (R438, R478)

When a command ends with a fault recorded since the last RESET_STREAM, the state is unspecified: every item that
holds a value is free, also one that the command did not write. What stays exact is what other rules say of a
state after a fault: the cursors (R201, R437), what the checks of later commands read, which an error never blocks
(R438), and what RESET_STREAM keeps for them (R411). FB and RESV stay as written (R202), since every read of them
is free. Log entries 5 and 10. -/

/-- A free bit. -/
def freeBool (k i : Nat) : Bool := decide (Config.freeNat k i % 2 = 1)

/-- A free field of `n` bits. -/
def freeBits (n k i : Nat) : BitVec n := BitVec.ofNat n (Config.freeNat k i)

/-- Free header state; the fields that the checks of later commands read stay. -/
def freeHead (k : Nat) (h : FrameHead) : FrameHead where
  hdr := freeBits 32 k 0
  fields := { h.fields with
    brIdx := freeBits 4 k 1
    srIdx := freeBits 2 k 2
    padding := freeBool k 3
    modeExt := freeBits 2 k 4
    sfreq := Fin.ofNat 9 (Config.freeNat k 5) }
  frameSize := Config.freeNat k 6 % 2 ^ 32
  slots := Config.freeNat k 7 % 2 ^ 32

/-- Free frame bookkeeping. -/
def freeBook (k : Nat) : Book := ⟨freeBits 32 k 8, freeBits 32 k 9, freeBits 32 k 10⟩

/-- A free CRC state. -/
def freeCrc (k : Nat) : Crc := ⟨freeBits 16 k 11, freeBits 16 k 12, freeBits 16 k 13⟩

/-- A free granule-channel block, from index `i` of the draw on. -/
def freeInfo (k i : Nat) : GranuleInfo where
  part23Length := freeBits 12 k i
  bigValues := freeBits 9 k (i + 1)
  globalGain := freeBits 8 k (i + 2)
  scalefacCompress := freeBits 9 k (i + 3)
  windowSwitching := freeBool k (i + 4)
  blockType := freeBits 2 k (i + 5)
  mixedBlock := freeBool k (i + 6)
  tableSelect := ⟨freeBits 5 k (i + 7), freeBits 5 k (i + 8), freeBits 5 k (i + 9)⟩
  subblockGain := ⟨freeBits 3 k (i + 10), freeBits 3 k (i + 11), freeBits 3 k (i + 12)⟩
  region0Count := freeBits 4 k (i + 13)
  region1Count := freeBits 5 k (i + 14)
  preflag := freeBool k (i + 15)
  scalefacScale := freeBool k (i + 16)
  count1TableSelect := freeBool k (i + 17)

/-- Free side info. -/
def freeSideInfo (k : Nat) : SideInfo where
  mainDataBegin := freeBits 9 k 14
  privateBits := freeBits 5 k 15
  scfsi := ⟨freeBits 4 k 16, freeBits 4 k 17⟩
  gc := ⟨⟨freeInfo k 18, freeInfo k 36⟩, ⟨freeInfo k 54, freeInfo k 72⟩⟩

/-- A channel with free values, from draw `k` on; STAGE and GRP stay. -/
def freeChan (k : Nat) (c : Chan) : Chan where
  stage := c.stage
  grp := c.grp
  nonzero := (freeQuantised k).nonzero
  scf := freeScf (k + 1)
  lsf := freeLsf (k + 2)
  part2Start := freeBits 32 (k + 2) 6
  part23End := freeBits 32 (k + 2) 7
  is := (freeQuantised k).is
  xr := freeLines k
  hout := freeLines (k + 1)
  prev := freeLines (k + 2)

/-- The state that a command leaves, if a fault has been recorded since the last RESET_STREAM: seven draws. -/
def State.settle (s : State) : State :=
  if s.rs.log.tainted then
    let k := s.rs.log.draws
    { s with
      head := freeHead k s.head
      book := freeBook k
      crc := freeCrc k
      si := freeSideInfo k
      chan := ⟨freeChan (k + 1) s.chan.c0, freeChan (k + 4) s.chan.c1⟩
      rs := { s.rs with log := { s.rs.log with draws := k + 7 } } }
  else s

/-! ### The life cycle of a command and its errors (R425, R430) -/

/-- How a command's effects come to a stop: it ends, with the code its rule raised (`ok` for none), or it
waits on a port (R427). -/
inductive Ran where
  | ended (s : State) (raised : Err)
  | waiting (p : Progress) (s : State)
deriving DecidableEq, Repr

/-- Step 1 of R425, and no fault recorded yet (R430). RESULT is 0 until a rule writes it (R35). BUSY is 1
from here to `finish`: a state is seen in between only where the command waits, and `complete` then
holds it. -/
def State.start (s : State) : State :=
  { s with
    cmdCtrl := s.ctrl
    result := 0
    status := { s.status with done := false, eos := false, skipped := false, err := .ok }
    rs := { s.rs with log := { s.rs.log with first := none } } }

/-- STATUS.ERR at the end of a command (R430): FATAL_IO if raised, else the first fault, else the code
raised. -/
def finalErr (raised : Err) (first : Option Err) : Err :=
  if raised = .fatalIo then .fatalIo else first.getD raised

/-- Step 4 of R425. A command that a rule ended with a code leaves RESULT at 0 (R35). -/
def State.finish (raised : Err) (s : State) : State :=
  { s with
    held := none
    result := if raised = .ok then s.result else 0
    status := { s.status with done := true, err := finalErr raised s.rs.log.first } }

/-- The state after a command has run as far as it can. -/
def complete : Ran → State
  | .ended s e => s.settle.finish e
  | .waiting p s => { s with held := some p }

/-- A command whose checks are `guard` and whose effects are `run`: R425, R428. -/
def command (guard : State → Option Err) (run : State → Ran) (s : State) : Outcome :=
  let b := s.start
  if b.status.fatal then .next (b.finish .fatalIo)
  else match guard b with
    | some e => .next (b.finish e)
    | none => .next (complete (run b))

/-- The end of a command word that R102 makes illegal: ILLEGAL_CMD, checked before FATAL (R100). -/
def illegalCommand (s : State) : State := s.start.finish .illegalCmd

/-- Effects that end without a raise. -/
def ending (body : State → State) (s : State) : Ran := .ended (body s) .ok

/-- `run X` of R420: X's checks after FATAL, then its effects; the state and the code raised. -/
def runStage (guard : State → Option Err) (body : State → State × Err) (s : State) : State × Err :=
  match guard s with
  | some e => (s, e)
  | none => body s

end Sys2Proof.Machine
end

