-- ==== Sys2Proof/Machine/Operands.lean ====
section
/-! DEFINITION. The operand checks of R104 and the stage interlock of R421: what each command needs
before it has an effect, in the order of R433. A check answers the error code the command ends with. -/

namespace Sys2Proof.Machine

/-- No check beyond those of every command. -/
def noGuard (_ : State) : Option Err := none

/-- STATUS.HDR_VALID = 1 and STATUS.LAYER3 = 1, else NOT_LAYER3 (R104, R208, R231). -/
def guardLayer3 (s : State) : Option Err :=
  if s.status.hdrValid && s.status.layer3 then none else some .notLayer3

/-- NCH of the current header (R36). -/
def State.nch (s : State) : Nat := s.head.fields.nch

/-- NGR of the current header (R36). -/
def State.ngr (s : State) : Nat := s.head.fields.ngr

/-- `e` unless `c`. -/
def require (c : Bool) (e : Err) : Option Err := if c then none else some e

/-- The second check if the first passes. -/
def thenCheck (a b : Option Err) : Option Err :=
  match a with
  | some e => some e
  | none => b

/-- The operands of a granule command (R104): NOT_LAYER3 first, then BAD_OPERAND. -/
def guardGranule (gr ch : Fin 2) (s : State) : Option Err :=
  thenCheck (guardLayer3 s) (require (decide (gr.val < s.ngr) && decide (ch.val < s.nch)) .badOperand)

/-- The channels of the current header, ascending. -/
def State.channels (s : State) : List (Fin 2) := if s.nch = 1 then [0] else [0, 1]

/-- The granules of the current header, ascending. -/
def State.granules (s : State) : List (Fin 2) := if s.ngr = 1 then [0] else [0, 1]

/-- STAGE[ch] = x and GRP[ch] = gr. -/
def State.at (x : Stage) (gr ch : Fin 2) (s : State) : Bool :=
  decide ((s.chan.get ch).stage = x) && decide ((s.chan.get ch).grp = gr)

/-- The interlock of every granule command but SF and ST (R421): STAGE[ch] = `before`, GRP[ch] = gr. -/
def guardStage (before : Stage) (gr ch : Fin 2) (s : State) : Option Err :=
  thenCheck (guardGranule gr ch s) (require (s.at before gr ch) .sequence)

/-- What SF needs of the stage (R421). -/
def State.readyForPart2 (gr ch : Fin 2) (s : State) : Bool :=
  (if gr = 0 then decide ((s.chan.get ch).stage = .md)
   else decide (s.ngr = 2) && s.at .em 0 ch) &&
    !s.order.partOpen && decide (s.order.nextGc.toNat = gr.val * s.nch + ch.val)

/-- The interlock of READ_SCALEFACTORS (R240, R421). -/
def guardScalefactors (gr ch : Fin 2) (s : State) : Option Err :=
  thenCheck (guardGranule gr ch s) (require (s.readyForPart2 gr ch) .sequence)

/-- The checks of STEREO (R104, R340, R421): it has no CH operand. -/
def guardStereo (gr : Fin 2) (s : State) : Option Err :=
  thenCheck (guardLayer3 s)
    (thenCheck (require (decide (gr.val < s.ngr)) .badOperand)
      (require (s.channels.all fun c => s.at .ro gr c) .sequence))

/-- The checks of READ_SIDE_INFO (R231): `FB_BITPOS` = 16 * (1 - PROT). -/
def guardSideInfo (s : State) : Option Err :=
  thenCheck (guardLayer3 s)
    (require (decide (s.chan.c0.stage = .idle) &&
      decide (s.fb.bitpos = if s.head.fields.prot then 0 else 16)) .sequence)

/-- The checks of LOAD_MAIN_DATA (R208). Its FB_BITPOS is what READ_SIDE_INFO leaves, no check. -/
def guardMainData (s : State) : Option Err :=
  thenCheck (guardLayer3 s) (require (decide (s.chan.c0.stage = .si)) .sequence)

/-- SI.gr[gr][ch], the rules' `g`. -/
def State.info (gr ch : Fin 2) (s : State) : GranuleInfo := (s.si.gc.get gr).get ch

/-- SHORT (44_dequant_reorder.md): a short block. -/
def GranuleInfo.short (g : GranuleInfo) : Bool := g.windowSwitching && decide (g.blockType = 2)

/-- MIXED: a short block whose two lowest subbands are coded long. -/
def GranuleInfo.mixed (g : GranuleInfo) : Bool := g.short && g.mixedBlock

/-- MODE = JOINT_STEREO (R106). -/
def State.joint (s : State) : Bool := decide (s.head.fields.mode = 1)

/-- IS_ON (R107, 42_sideinfo_scalefactors.md). -/
def State.isOn (s : State) : Bool := s.joint && s.head.fields.modeExt.getLsbD 0

/-- MS_ON (R107, 42_sideinfo_scalefactors.md). -/
def State.msOn (s : State) : Bool := s.joint && s.head.fields.modeExt.getLsbD 1

end Sys2Proof.Machine
end

