-- ==== Sys2Proof/Machine/Flags.lean ====
section
/-! DEFINITION. The host-visible words: the error codes (R431), STATUS (R34), CTRL (R33), the register
map (R32), `irq` (R440), and host reads and writes of the registers (R80, R88, R90) other than CMD. -/

namespace Sys2Proof.Machine

/-- The code of an error (R431). -/
def Err.code : Err → BitVec 8
  | .ok => 0x00
  | .illegalCmd => 0x01
  | .endOfStream => 0x02
  | .badOperand => 0x03
  | .notLayer3 => 0x04
  | .sequence => 0x05
  | .sideinfoInvalid => 0x10
  | .unsupported => 0x11
  | .crcReject => 0x12
  | .frameSkipped => 0x13
  | .resvOverread => 0x20
  | .resvOverrewind => 0x21
  | .resvOverflow => 0x22
  | .huffmanInvalid => 0x23
  | .frameBufOverread => 0x24
  | .fatalIo => 0x30

/-- A bit as a one-bit field. -/
def bit (b : Bool) : BitVec 1 := BitVec.ofBool b

/-- STATUS as the host reads it (R34). -/
def State.statusWord (s : State) : Word :=
  let st := s.status
  (0 : BitVec 12) ++ (bit st.lsf ++ (bit st.layer3 ++ (bit st.hdrValid ++ (bit st.nch2 ++
    (st.err.code ++ (bit st.overrun ++ (bit st.fatal ++ (bit s.rs.log.sticky ++ (bit st.crcMismatch ++
      (bit st.skipped ++ (bit st.eos ++ (bit st.done ++ bit s.busy))))))))))))

/-- CHSEL's two bits (R33). -/
def ChSel.code : ChSel → BitVec 2
  | .both => 0
  | .left => 1
  | .right => 2
  | .downmix => 3

def ChSel.ofCode (b : BitVec 2) : ChSel :=
  match b.toNat with
  | 0 => .both
  | 1 => .left
  | 2 => .right
  | _ => .downmix

/-- CTRL as the host reads it (R33). -/
def Ctrl.word (c : Ctrl) : Word :=
  (0 : BitVec 28) ++ (bit c.crcStrict ++ (c.chsel.code ++ bit c.irqEn))

/-- What a write of `w` to CTRL stores (R33): reserved bits are ignored. -/
def Ctrl.ofWord (w : Word) : Ctrl where
  irqEn := w.getLsbD 0
  chsel := .ofCode (w.extractLsb' 1 2)
  crcStrict := w.getLsbD 3

/-- The interrupt output (R113, R440), a level of the CTRL register as it stands: an IRQ_EN write acts on it at once,
also while a command waits, where R33 and R472 say that a CTRL write takes effect for the next command. DEDUCED, log
entry 22. -/
def State.irq (s : State) : Bool := s.ctrl.irqEn && s.status.done

/-- The number of a stage (R45). -/
def Stage.code : Stage → BitVec 4
  | .idle => 0
  | .si => 1
  | .md => 2
  | .sf => 3
  | .huf => 4
  | .dq => 5
  | .ro => 6
  | .st => 7
  | .aa => 8
  | .hy => 9
  | .fi => 10
  | .em => 11

/-- The STAGE register (R32, R45). -/
def State.stageWord (s : State) : Word :=
  (0 : BitVec 18) ++ (bit s.order.partOpen ++ (s.order.nextGc ++
    (BitVec.ofFin s.chan.c1.grp ++ (BitVec.ofFin s.chan.c0.grp ++
      ((s.chan.c1.stage.code ++ s.chan.c0.stage.code : BitVec 8) : BitVec 8) : BitVec 9) : BitVec 10)))

/-- The NONZERO register (R32, R46). -/
def State.nonzeroWord (s : State) : Word :=
  (0 : BitVec 6) ++ (BitVec.ofNat 10 s.chan.c1.nonzero ++
    ((0 : BitVec 6) ++ BitVec.ofNat 10 s.chan.c0.nonzero : BitVec 16) : BitVec 26)

/-- The SYNC_CFG register (R32). -/
def State.syncCfgWord (s : State) : Word :=
  (0 : BitVec 30) ++ (bit s.ref.singleCh ++ bit (decide (s.ref.mode = .strict)))

/-- The word at register offset `off` (R32); CMD and the reserved offsets read 0. -/
def State.register (s : State) (off : BitVec 8) : Word :=
  match off.toNat with
  | 0x00 => s.ctrl.word
  | 0x04 => 0
  | 0x08 => s.statusWord
  | 0x0C => s.result
  | 0x10 => s.head.hdr
  | 0x14 => BitVec.ofNat 32 s.head.frameSize
  | 0x18 => BitVec.ofNat 32 s.head.slots
  | 0x1C => s.ref.word
  | 0x20 => s.syncCfgWord
  | 0x24 => s.book.frameStart
  | 0x28 => s.book.mainDataEnd
  | 0x2C => s.book.discard
  | 0x30 => s.rs.resv.totbit
  | 0x34 => BitVec.ofNat 32 s.rs.resv.wptr
  | 0x38 => BitVec.ofNat 32 s.rs.resv.rptr.toNat
  | 0x3C => s.crc.crcCalc ++ s.crc.crcRead
  | 0x40 => s.resync
  | 0x44 => BitVec.ofNat 32 s.fb.bitpos
  | 0x48 => s.stageWord
  | 0x4C => s.nonzeroWord
  | _ => 0

/-- A defined access: 32 bits wide at an offset that is a multiple of 4 (R80). -/
def aligned (off : BitVec 8) (width : Width) : Bool :=
  decide (width = .w32) && decide (off.toNat % 4 = 0)

/-- The word returned to the host, which no state of the block holds. -/
def State.returns (w : Word) (s : State) : State := { s with env := { s.env with rdata := w } }

/-- A register of the map, not one of the reserved offsets 0x50 to 0xFF (R32). -/
def mapped (off : BitVec 8) : Bool := decide (off.toNat < 0x50)

/-- A host read (R80, R88, R90): 0 if not an aligned 32-bit read; while busy every register but STATUS
returns an unspecified value. -/
def hostRead (off : BitVec 8) (width : Width) (s : State) : State :=
  if aligned off width then
    if s.busy && mapped off && decide (off ≠ 0x08) then
      s.drawn.returns (BitVec.ofNat 32 (Config.freeNat s.rs.log.draws 0))
    else s.returns (s.register off)
  else s.returns 0

/-- A host write to a register other than CMD (R32, R33, R80): only CTRL is writable. -/
def hostWriteRegister (off : BitVec 8) (data : Word) (s : State) : State :=
  if off = 0x00 then { s with ctrl := .ofWord data } else s

end Sys2Proof.Machine
end

