-- ==== Sys2Proof/Machine/Sync.lean ====
section
/-! DEFINITION. SYNC, the frame synchroniser and header parser (40_sync_header.md): the scan for a
candidate, the ID3 skip, ParseHeader, FrameSize, SlotCount, the next-sync check, Accept, and the CRC
engine. The scan is a machine that takes one InByte at a time, so that it can wait at any of them. -/

namespace Sys2Proof.Machine

/-! ### The CRC engine (R170) -/

/-- CrcBit(d). -/
def crcBit (d : Bool) (crc : BitVec 16) : BitVec 16 :=
  if (crc.msb ^^ d) then (crc <<< 1) ^^^ 0x8005#16 else crc <<< 1

/-- CrcBit for the low `n` bits of `v`, the most significant first. -/
def crcBits : Nat → Nat → BitVec 16 → BitVec 16
  | 0, _, crc => crc
  | n + 1, v, crc => crcBits n v (crcBit (v.testBit n) crc)

/-- CrcStart(h): header bits 15:0. -/
def crcStart (h : Word) : BitVec 16 := crcBits 16 h.toNat 0xFFFF#16

/-! ### The header (R106, R154-R156, R160, R161) -/

/-- STRICT_MASK (R155). -/
def strictMask : Word := if Config.strictCompareLayer then 0xFFFE0C00 else 0xFFF80C00

/-- MODE of a header word is SINGLE_CHANNEL. -/
def singleChannel (h : Word) : Bool := decide (h.extractLsb' 6 2 = 3)

/-- IsSyncMark(h, mode) (R154), the mode and the reference being `ref`. -/
def isSyncMark (h : Word) (ref : SyncRef) : Bool :=
  (match ref.mode with
    | .initial => decide (h.extractLsb' 21 11 = 0x7FF)
    | .strict => decide (h &&& strictMask = ref.word) && (singleChannel h == ref.singleCh)) &&
  decide (h.extractLsb' 10 2 ≠ 3) && decide (h.extractLsb' 17 2 ≠ 0) && decide (h.extractLsb' 19 2 ≠ 1)

/-- VERSION of a version_id (R156); 1 is excluded by R154. -/
def versionOf (id : BitVec 2) : Version :=
  match id.toNat with
  | 0 => .mpeg25
  | 3 => .mpeg1
  | _ => .mpeg2

/-- SFREQ = SR_IDX + 3, 0 or 6 (R36, R156). -/
def sfreqOf (v : Version) (sr : BitVec 2) : Fin 9 :=
  Fin.ofNat 9 (sr.toNat + match v with
    | .mpeg1 => 3
    | .mpeg2 => 0
    | .mpeg25 => 6)

/-- ParseHeader(h) (R156). -/
def parseHeader (h : Word) : Header where
  version := versionOf (h.extractLsb' 19 2)
  layer := Fin.ofNat 4 (4 - (h.extractLsb' 17 2).toNat)
  prot := h.getLsbD 16
  brIdx := h.extractLsb' 12 4
  srIdx := h.extractLsb' 10 2
  padding := h.getLsbD 9
  mode := h.extractLsb' 6 2
  modeExt := h.extractLsb' 4 2
  sfreq := sfreqOf (versionOf (h.extractLsb' 19 2)) (h.extractLsb' 10 2)

/-- FrameSize(hd) (R160). -/
def frameSize (hd : Header) : Nat :=
  let br := 1000 * bitrateKbps hd.version hd.layer hd.brIdx
  let fs := sampleRateHz hd.version hd.srIdx
  let pad := hd.padding.toNat
  if hd.layer = 1 then (12 * br / fs + pad) * 4 - 4
  else
    let t := 144 * br / fs
    let t := if hd.version ≠ .mpeg1 ∧ (hd.layer = 3 ∨ Config.lsfL2Halve) then t / 2 else t
    t + pad - 4

/-- SIDEINFO_BYTES(VERSION, NCH) (R123). -/
def sideinfoBytes (hd : Header) : Nat :=
  if hd.version = .mpeg1 then (if hd.nch = 1 then 17 else 32) else (if hd.nch = 1 then 9 else 17)

/-- SlotCount(hd, fsz) (R161). -/
def slotCount (hd : Header) (fsz : Nat) : Nat :=
  if hd.layer = 3 then fsz - sideinfoBytes hd - (if hd.prot then 0 else 2) else 0

/-! ### The scan (R150-R153, R158, R159, R162) -/

/-- `H <- (H << 8) OR b` (R151). -/
def shiftIn (h : Word) (b : Byte) : Word := (h <<< 8) ||| b.zeroExtend 32

/-- The word of four bytes, the first most significant (R82). -/
def wordOf (l : List Byte) : Word := l.foldl shiftIn 0

/-- The size in an ID3 tag header (R152): `rev` holds s3, s2, s1, s0, flags, rev. -/
def tagSize (rev : List Byte) : Nat :=
  ((rev.getD 3 0).toNat % 128) * 2 ^ 21 + ((rev.getD 2 0).toNat % 128) * 2 ^ 14 +
    ((rev.getD 1 0).toNat % 128) * 2 ^ 7 + (rev.getD 0 0).toNat % 128

/-- The scan in progress: where it is, the stream, RESYNC_COUNT. -/
structure Scan where
  phase  : SyncPhase
  stream : InStream
  resync : Word
deriving DecidableEq, Repr

/-- How a scan goes on after one InByte, or stops. -/
inductive ScanMove where
  /-- it goes on -/
  | go (sc : Scan)
  /-- the frame `h` with `body` passed every check -/
  | accept (h : Word) (body : List Byte) (sc : Scan)
  /-- the stream ended (R163) -/
  | ended (sc : Scan)
  /-- the port reported an I/O error (R163, R434) -/
  | failed (sc : Scan)
  /-- the port presents nothing: the scan waits -/
  | waits (sc : Scan)
deriving DecidableEq, Repr

/-- An empty window (R151). -/
def SyncPhase.begin : SyncPhase := .fill 3 0

/-- The scan resumes with an empty window after a rejected candidate (R150, R159). -/
def Scan.reject (sc : Scan) : Scan := { sc with phase := .begin, resync := sc.resync + 1 }

/-- A full window `h` (R151): ID3 first, then a sync mark; a candidate goes on to its body unless it has
no frame size (R159, R162). A window that is no sync mark is no candidate and is not counted: R44, R150 and R151
against R435, which also counts a header that fails the strict compare. DEDUCED, log entry 21. -/
def Scan.window (h : Word) (ref : SyncRef) (sc : Scan) : Scan :=
  if h.extractLsb' 8 24 = 0x494433#24 then { sc with phase := .tag [] }
  else if isSyncMark h ref then
    let hd := parseHeader h
    let fsz := frameSize hd
    if hd.brIdx = 0 ∨ hd.brIdx = 15 ∨ Config.frameBufBytes < fsz then sc.reject
    else match fsz with
      | 0 => { sc with phase := .probe h [] [] }
      | n + 1 => { sc with phase := .body h n [] }
  else { sc with phase := .shift h }

/-- The scan after the byte `b`. -/
def Scan.byte (b : Byte) (ref : SyncRef) (sc : Scan) : ScanMove :=
  match sc.phase with
  | .fill 0 h => .go (sc.window (shiftIn h b) ref)
  | .fill (k + 1) h => .go { sc with phase := .fill k (shiftIn h b) }
  | .shift h => .go (sc.window (shiftIn h b) ref)
  | .tag rev =>
    if rev.length < 5 then .go { sc with phase := .tag (b :: rev) }
    else match tagSize (b :: rev) with
      | 0 => .go { sc with phase := .begin }
      | n + 1 => .go { sc with phase := .skip n }
  | .skip 0 => .go { sc with phase := .begin }
  | .skip (n + 1) => .go { sc with phase := .skip n }
  | .body h 0 rev => .go { sc with phase := .probe h (b :: rev).reverse [] }
  | .body h (n + 1) rev => .go { sc with phase := .body h n (b :: rev) }
  | .probe h body rev =>
    if rev.length < 3 then .go { sc with phase := .probe h body (b :: rev) }
    else
      let p := (b :: rev).reverse
      if isSyncMark (wordOf p) ref then .accept h body { sc with stream := sc.stream.unread p }
      else .go { sc.reject with stream := sc.stream.unread (body ++ p) }

/-- The scan at end of stream: the probe stops there (R158); everywhere else the stream has ended. -/
def Scan.eof (sc : Scan) : ScanMove :=
  match sc.phase with
  | .probe h body [] => .accept h body sc
  | .probe _ body (b :: rev) => .go { sc.reject with stream := sc.stream.unread (body ++ (b :: rev).reverse) }
  | .fill _ _ => .ended sc
  | .shift _ => .ended sc
  | .tag _ => .ended sc
  | .skip _ => .ended sc
  | .body _ _ _ => .ended sc

/-- One InByte of the scan. -/
def Scan.next (ref : SyncRef) (sc : Scan) : ScanMove :=
  let t := sc.stream.take
  let sc := { sc with stream := t.2 }
  match t.1 with
  | .byte b => sc.byte b ref
  | .eof => sc.eof
  | .ioerr => .failed sc
  | .nothing => .waits sc

/-- The scan to its end or its next wait, in at most `fuel` InBytes. -/
def Scan.run (ref : SyncRef) : Nat → Scan → ScanMove
  | 0, sc => .waits sc
  | fuel + 1, sc =>
    match sc.next ref with
    | .go sc => Scan.run ref fuel sc
    | m => m

/-- The bytes a scan has taken and may unread. -/
def SyncPhase.retained : SyncPhase → Nat
  | .fill _ _ => 0
  | .shift _ => 0
  | .tag _ => 0
  | .skip _ => 0
  | .body _ _ rev => rev.length
  | .probe _ bs rev => bs.length + rev.length

/-- More InBytes than any scan of this stream makes before it ends or waits: each candidate costs its
four header bytes for good and takes at most PB_BYTES bytes that may come back. -/
def Scan.fuel (sc : Scan) : Nat :=
  2000 * (sc.stream.pb.length + sc.stream.port.length + sc.phase.retained + 2)

/-! ### The command -/

/-- The strict-sync reference after the frame `h` is accepted (R157): captured in INITIAL mode. -/
def SyncRef.capture (h : Word) (ref : SyncRef) : SyncRef :=
  match ref.mode with
  | .initial => { word := h &&& strictMask, mode := .strict, singleCh := singleChannel h }
  | .strict => ref

/-- `if PROT = 0: CRC_READ <- FbRead(16) else CRC_READ <- 0` (R157). -/
def readCrcWord (prot : Bool) (fb : FrameBuf) (log : FaultLog) : Nat × FrameBuf × FaultLog :=
  if prot then (0, fb, log) else fb.read 16 log

/-- FB[0 .. fsz-1] <- body; FB_LEN <- fsz; FB_BITPOS <- 0 (R157). -/
def FrameBuf.load (body : List Byte) (fb : FrameBuf) : FrameBuf :=
  { cells := fb.cells.fill 0 body, len := body.length, bitpos := 0 }

/-- Accept(h, hd, fsz, body) (R157), `fsz` being the body's length. -/
def accept (h : Word) (body : List Byte) (s : State) : State :=
  let hd := parseHeader h
  let read := readCrcWord hd.prot (s.fb.load body) s.rs.log
  { s with
    ref := s.ref.capture h
    head := { hdr := h, fields := hd, frameSize := body.length, slots := slotCount hd body.length }
    fb := read.2.1
    rs := { s.rs with log := read.2.2 }
    crc := { s.crc with engine := crcStart h, crcRead := BitVec.ofNat 16 read.1 }
    status := { s.status with
      hdrValid := true
      layer3 := decide (hd.layer = 3)
      lsf := decide (hd.version ≠ .mpeg1)
      nch2 := decide (hd.nch = 2) } }

/-- What SYNC does before its scan (R150). -/
def syncStart (s : State) : State :=
  { s.setStages .idle with
    status := { s.status with hdrValid := false, crcMismatch := false } }

/-- The scan as the state holds it. -/
def State.scan (phase : SyncPhase) (s : State) : Scan :=
  { phase := phase, stream := s.stream, resync := s.resync }

/-- The state after a scan. -/
def State.withScan (sc : Scan) (s : State) : State :=
  { s.withStream sc.stream with resync := sc.resync }

/-- SYNC's loop from `phase` on (R150), then `andThen` on the state with the accepted frame. `frame` says
whether it is the SYNC of DECODE_FRAME. -/
def syncFrom (frame : Bool) (andThen : State → Ran) (phase : SyncPhase) (s : State) : Ran :=
  let sc := s.scan phase
  match Scan.run s.ref sc.fuel sc with
  | .accept h body sc => andThen (accept h body (s.withScan sc))
  | .ended sc => .ended { s.withScan sc with status := { s.status with eos := true } } .endOfStream
  | .failed sc => .ended { s.withScan sc with status := { s.status with fatal := true } } .fatalIo
  | .waits sc => .waiting (.sync sc.phase frame) (s.withScan sc)
  | .go sc => .waiting (.sync sc.phase frame) (s.withScan sc)

/-- The end of SYNC: RESULT <- h (R150). -/
def syncEnd (s : State) : Ran := .ended (s.answer s.head.hdr) .ok

/-- SYNC (R150). -/
def execSync (s : State) : Outcome :=
  command noGuard (fun s => syncFrom false syncEnd .begin (syncStart s)) s

end Sys2Proof.Machine
end

