-- ==== Sys2Proof/Machine/SideInfo.lean ====
section
/-! DEFINITION. READ_SIDE_INFO (R230-R234): the side-information fields read from the frame buffer in the
order of R120-R122, the derived fields of R232, the encodings that reject a frame (R124, R233). -/

namespace Sys2Proof.Machine

/-- The frame buffer with the fault log and the CRC engine that a side-info read feeds. -/
structure SideRead where
  fb  : FrameBuf
  log : FaultLog
  crc : BitVec 16
deriving DecidableEq, Repr

/-- rd(n) (R231): FbRead(n), every bit fed to the CRC engine. -/
def SideRead.rd (n : Nat) (r : SideRead) : Nat × SideRead :=
  let v := r.fb.read n r.log
  (v.1, { fb := v.2.1, log := v.2.2, crc := crcBits n v.1 r.crc })

/-- One bit of rd. -/
def SideRead.flag (r : SideRead) : Bool × SideRead :=
  let v := r.rd 1
  (decide (v.1 = 1), v.2)

/-- The window-switching branch of a granule-channel block (R121). -/
structure BlockFields where
  blockType    : BitVec 2
  mixedBlock   : Bool
  tableSelect  : Three (BitVec 5)
  subblockGain : Three (BitVec 3)
  region0Count : BitVec 4
  region1Count : BitVec 5
deriving DecidableEq, Repr

/-- window_switching_flag = 1 (R121, R232). -/
def readSwitched (r : SideRead) : BlockFields × SideRead :=
  let blockType := r.rd 2
  let mixed := blockType.2.flag
  let t0 := mixed.2.rd 5
  let t1 := t0.2.rd 5
  let g0 := t1.2.rd 3
  let g1 := g0.2.rd 3
  let g2 := g1.2.rd 3
  let region0 : Nat := if blockType.1 = 2 ∧ mixed.1 = false then 8 else 7
  ({ blockType := BitVec.ofNat 2 blockType.1
     mixedBlock := mixed.1
     tableSelect := ⟨BitVec.ofNat 5 t0.1, BitVec.ofNat 5 t1.1, 0⟩
     subblockGain := ⟨BitVec.ofNat 3 g0.1, BitVec.ofNat 3 g1.1, BitVec.ofNat 3 g2.1⟩
     region0Count := BitVec.ofNat 4 region0
     region1Count := BitVec.ofNat 5 (20 - region0) }, g2.2)

/-- window_switching_flag = 0 (R121, R232). -/
def readPlain (r : SideRead) : BlockFields × SideRead :=
  let t0 := r.rd 5
  let t1 := t0.2.rd 5
  let t2 := t1.2.rd 5
  let region0 := t2.2.rd 4
  let region1 := region0.2.rd 3
  ({ blockType := 0
     mixedBlock := false
     tableSelect := ⟨BitVec.ofNat 5 t0.1, BitVec.ofNat 5 t1.1, BitVec.ofNat 5 t2.1⟩
     subblockGain := ⟨0, 0, 0⟩
     region0Count := BitVec.ofNat 4 region0.1
     region1Count := BitVec.ofNat 5 region1.1 }, region1.2)

/-- ReadGranuleChannel (R121, R232): `sc_w` is 4 for MPEG1 and 9 for LSF. -/
def readGranuleChannel (mpeg1 : Bool) (r : SideRead) : GranuleInfo × SideRead :=
  let part23 := r.rd 12
  let big := part23.2.rd 9
  let gain := big.2.rd 8
  let compress := gain.2.rd (if mpeg1 then 4 else 9)
  let switched := compress.2.flag
  let block := if switched.1 then readSwitched switched.2 else readPlain switched.2
  let preflag := if mpeg1 then block.2.flag else (false, block.2)
  let scale := preflag.2.flag
  let count1 := scale.2.flag
  ({ part23Length := BitVec.ofNat 12 part23.1
     bigValues := BitVec.ofNat 9 big.1
     globalGain := BitVec.ofNat 8 gain.1
     scalefacCompress := BitVec.ofNat 9 compress.1
     windowSwitching := switched.1
     blockType := block.1.blockType
     mixedBlock := block.1.mixedBlock
     tableSelect := block.1.tableSelect
     subblockGain := block.1.subblockGain
     region0Count := block.1.region0Count
     region1Count := block.1.region1Count
     preflag := preflag.1
     scalefacScale := scale.1
     count1TableSelect := count1.1 }, count1.2)

/-- The granule-channels of the current header, granule-major (R120, R122). -/
def State.granuleChannels (s : State) : List (Fin 2 × Fin 2) :=
  s.granules.flatMap fun gr => s.channels.map fun ch => (gr, ch)

/-- ReadGranuleChannel for each granule-channel in turn, into `si` (R231). -/
def readGranuleChannels (mpeg1 : Bool) : List (Fin 2 × Fin 2) → SideInfo → SideRead → SideInfo × SideRead
  | [], si, r => (si, r)
  | (gr, ch) :: rest, si, r =>
    let g := readGranuleChannel mpeg1 r
    readGranuleChannels mpeg1 rest { si with gc := si.gc.set gr ((si.gc.get gr).set ch g.1) } g.2

/-- SI.scfsi[ch][0..3] for each channel in turn (R120). -/
def readScfsi : List (Fin 2) → SideInfo → SideRead → SideInfo × SideRead
  | [], si, r => (si, r)
  | ch :: rest, si, r =>
    let v := r.rd 4
    readScfsi rest { si with scfsi := si.scfsi.set ch (BitVec.ofNat 4 v.1) } v.2

/-- All fields of the side info (R231). A mono LSF frame clears SI.scfsi of both channels: R231's pseudocode says
so, its corner case says that SI.scfsi[1] is unchanged in mono. DESIGN CHOICE, log entry 20. -/
def readFields (s : State) (r : SideRead) : SideInfo × SideRead :=
  if s.head.fields.version = .mpeg1 then
    let begin_ := r.rd 9
    let priv := begin_.2.rd (if s.nch = 1 then 5 else 3)
    let si := { s.si with mainDataBegin := BitVec.ofNat 9 begin_.1, privateBits := BitVec.ofNat 5 priv.1 }
    let scfsi := readScfsi s.channels si priv.2
    readGranuleChannels true s.granuleChannels scfsi.1 scfsi.2
  else
    let begin_ := r.rd 8
    let priv := begin_.2.rd (if s.nch = 1 then 1 else 2)
    let si := { s.si with
      mainDataBegin := BitVec.ofNat 9 begin_.1
      privateBits := BitVec.ofNat 5 priv.1
      scfsi := ⟨0, 0⟩ }
    readGranuleChannels false s.granuleChannels si priv.2

/-! ### Regions (R281, R284) -/

/-- region1Start (R284). -/
def region1Start (sfreq : Fin 9) (g : GranuleInfo) : Nat :=
  if g.short then (if sfreq = 8 then Config.region1Short8k else 36)
  else sfbLong sfreq (g.region0Count.toNat + 1)

/-- region2Start (R284). -/
def region2Start (sfreq : Fin 9) (g : GranuleInfo) : Nat :=
  if g.short then 576
  else sfbLong sfreq (min (g.region0Count.toNat + g.region1Count.toNat + 2) 22)

/-- The tables of the regions that hold at least one pair (R281). -/
def usedTables (sfreq : Fin 9) (g : GranuleInfo) : List (BitVec 5) :=
  let lines := 2 * g.bigValues.toNat
  let r1 := region1Start sfreq g
  let r2 := region2Start sfreq g
  (if 0 < min lines r1 then [g.tableSelect.w0] else []) ++
  (if r1 < min lines r2 then [g.tableSelect.w1] else []) ++
  (if r2 < min lines 576 then [g.tableSelect.w2] else [])

/-! ### Rejection (R124, R233) -/

/-- Window switching with block type 0. -/
def badBlockType (g : GranuleInfo) : Bool := g.windowSwitching && decide (g.blockType = 0)

/-- big_values > 288. -/
def badBigValues (g : GranuleInfo) : Bool := decide (288 < g.bigValues.toNat)

/-- A used table 4 or 14. -/
def badTable (sfreq : Fin 9) (g : GranuleInfo) : Bool :=
  (usedTables sfreq g).any fun t => decide (t = 4) || decide (t = 14)

/-- A mixed short block at SFREQ = 8. -/
def badMixed (sfreq : Fin 9) (g : GranuleInfo) : Bool := g.mixed && decide (sfreq = 8)

/-- Invalid() and its code (R233): the first row that applies to any of the blocks just read. -/
def invalidCode (sfreq : Fin 9) (gs : List GranuleInfo) : Option Err :=
  if gs.any badBlockType then some .sideinfoInvalid
  else if gs.any badBigValues then some .sideinfoInvalid
  else if gs.any (badTable sfreq) then some .sideinfoInvalid
  else if gs.any (badMixed sfreq) then some .unsupported
  else none

/-- RejectFrame (R233), but for its raise: the frame's slots still enter the reservoir. -/
def rejectFrame (s : State) : State :=
  let slots := s.fb.bytes (s.fb.bitpos / 8) s.head.slots
  let s := { s with
    rs := s.rs.putMany slots
    fb := { s.fb with bitpos := 8 * s.fb.len }
    book := { s.book with frameStart := s.book.frameStart + BitVec.ofNat 32 s.head.slots }
    status := { s.status with skipped := true } }
  s.setStages .idle

/-- PROT = 0 and CRC_CALC != CRC_READ (R172). -/
def State.crcMismatch (s : State) : Bool :=
  !s.head.fields.prot && decide (s.crc.crcCalc ≠ s.crc.crcRead)

/-- The code that rejects the frame, the rows of R233 first, CRC_REJECT last. -/
def State.rejection (s : State) : Option Err :=
  match invalidCode s.head.fields.sfreq (s.granuleChannels.map fun p => s.info p.1 p.2) with
  | some e => some e
  | none => if s.crcMismatch && s.cmdCtrl.crcStrict then some .crcReject else none

/-- READ_SIDE_INFO's reads, with CRC_CALC and CRC_MISMATCH (R171, R172, R231). With PROT = 1 CRC_CALC keeps
its value, as the pseudocode of R231 says, which R103 names as the command's semantics, and as program P5 of 95_test_vectors.md
has it, against R171's summary of it. DEDUCED, log entry 14. -/
def takeSideInfo (s : State) : State :=
  let v := readFields s { fb := s.fb, log := s.rs.log, crc := s.crc.engine }
  let s := { s with
    si := v.1
    fb := v.2.fb
    rs := { s.rs with log := v.2.log }
    crc := { s.crc with
      engine := v.2.crc
      crcCalc := if s.head.fields.prot then s.crc.crcCalc else v.2.crc } }
  { s with status := { s.status with crcMismatch := s.status.crcMismatch || s.crcMismatch } }

/-- READ_SIDE_INFO after its checks (R231). -/
def readSideInfo (s : State) : State × Err :=
  let s := takeSideInfo s
  match s.rejection with
  | some e => (rejectFrame s, e)
  | none => (s.setStages .si, .ok)

/-- READ_SIDE_INFO (R231). -/
def execReadSideInfo (s : State) : Outcome :=
  command guardSideInfo (fun s => .ended (readSideInfo s).1 (readSideInfo s).2) s

end Sys2Proof.Machine
end

