-- ==== Sys2Proof/Machine/Scalefactors.lean ====
section
/-! DEFINITION. READ_SCALEFACTORS (R240-R247): the MPEG1 layouts of R243 and R244, and the LSF method
GetLSFScaleData with its flat buffer (R245, R246). -/

namespace Sys2Proof.Machine

/-- One scale factor of a channel. -/
inductive Slot where
  | L (b : Nat)
  | S (w b : Nat)
deriving DecidableEq, Repr

/-- SCF with `v` in one slot. -/
def Scf.store (slot : Slot) (v : Nat) (f : Scf) : Scf :=
  let x := BitVec.ofNat 5 v
  match slot with
  | .L b => { f with L := f.L.setIfInBounds b x }
  | .S 0 b => { f with S := { f.S with w0 := f.S.w0.setIfInBounds b x } }
  | .S 1 b => { f with S := { f.S with w1 := f.S.w1.setIfInBounds b x } }
  | .S _ b => { f with S := { f.S with w2 := f.S.w2.setIfInBounds b x } }

/-- Each slot with its value, in turn. -/
def Scf.storeAll : List (Slot × Nat) → Scf → Scf
  | [], f => f
  | p :: rest, f => Scf.storeAll rest (f.store p.1 p.2)

/-- SCF[ch].L[b]. -/
def Scf.long (f : Scf) (b : Nat) : Nat := (f.L[b]?.getD 0).toNat

/-- SCF[ch].S[w][b]. -/
def Scf.shortAt (f : Scf) (w b : Nat) : Nat := ((f.S.get w)[b]?.getD 0).toNat

/-- The long bands `a, …, a + n - 1`. -/
def longSlots (a n : Nat) : List Slot := (List.range n).map fun i => .L (a + i)

/-- The short bands `a, …, a + n - 1`, band-major and window-minor. -/
def shortSlots (a n : Nat) : List Slot :=
  (List.range n).flatMap fun i => (List.range 3).map fun w => .S w (a + i)

/-- The slots that a block type leaves at 0: `L[21..22]`, or `S[0..2][12]`. -/
def zeroSlots (short : Bool) : List (Slot × Nat) :=
  if short then [(.S 0 12, 0), (.S 1 12, 0), (.S 2 12, 0)] else [(.L 21, 0), (.L 22, 0)]

/-- SI.scfsi[ch][i]. -/
def SideInfo.scfsiBit (si : SideInfo) (ch : Fin 2) (i : Nat) : Bool := (si.scfsi.get ch).getMsbD i

/-- What an MPEG1 granule-channel reads, slot by slot with its width (R243, R244). -/
def mpeg1Schedule (g : GranuleInfo) (shared : Nat → Bool) : List (Slot × Nat) :=
  let s1 := slen0 g.scalefacCompress.toNat
  let s2 := slen1 g.scalefacCompress.toNat
  let wide (w : Nat) (l : List Slot) : List (Slot × Nat) := l.map fun x => (x, w)
  if g.short then
    if g.mixedBlock then
      wide s1 (longSlots 0 8) ++ wide s1 (shortSlots 3 3) ++ wide s2 (shortSlots 6 6)
    else wide s1 (shortSlots 0 6) ++ wide s2 (shortSlots 6 6)
  else
    (if shared 0 then [] else wide s1 (longSlots 0 6)) ++
    (if shared 1 then [] else wide s1 (longSlots 6 5)) ++
    (if shared 2 then [] else wide s2 (longSlots 11 5)) ++
    (if shared 3 then [] else wide s2 (longSlots 16 5))

/-- The reads of `schedule`, into `f`. -/
def readSchedule (schedule : List (Slot × Nat)) (f : Scf) (r : RS) : Scf × RS :=
  let v := r.readMany (schedule.map (·.2))
  (f.storeAll ((schedule.map (·.1)).zip v.1), v.2)

/-- ReadScfMPEG1(gr, ch) (R242-R244). -/
def readScfMpeg1 (gr ch : Fin 2) (s : State) : State :=
  let g := s.info gr ch
  let shared (i : Nat) : Bool := decide (gr = 1) && s.si.scfsiBit ch i
  let v := readSchedule (mpeg1Schedule g shared) (s.chan.get ch).scf s.rs
  (s.withRs v.2).storeScf ch (v.1.storeAll (zeroSlots g.short))

/-- slen, preflag and blocknumber of R245. -/
structure LsfScale where
  slen     : Nat × Nat × Nat × Nat
  preflag  : Bool
  blockNum : Fin 6
deriving DecidableEq, Repr

/-- R245's ranges of `scalefac_compress`; `intensity` is IS_ON and ch = 1. -/
def lsfScale (intensity : Bool) (sc : Nat) : LsfScale :=
  if intensity then
    let isc := sc / 2
    if isc < 180 then
      { slen := (isc / 36, isc % 36 / 6, isc % 36 % 6, 0), preflag := false, blockNum := 3 }
    else if isc < 244 then
      let t := isc - 180
      { slen := (t % 64 / 16, t % 16 / 4, t % 4, 0), preflag := false, blockNum := 4 }
    else
      let t := isc - 244
      { slen := (t / 3, t % 3, 0, 0), preflag := false, blockNum := 5 }
  else if sc < 400 then
    { slen := (sc / 16 / 5, sc / 16 % 5, sc % 16 / 4, sc % 4), preflag := false, blockNum := 0 }
  else if sc < 500 then
    let t := sc - 400
    { slen := (t / 4 / 5, t / 4 % 5, t % 4, 0), preflag := false, blockNum := 1 }
  else
    let t := sc - 500
    { slen := (t / 3, t % 3, 0, 0), preflag := true, blockNum := 2 }

/-- LSF_BLOCKTYPENUM (R245). -/
def lsfBlockTypeNum (g : GranuleInfo) : Fin 3 :=
  if g.short then (if g.mixedBlock then 2 else 1) else 0

/-- The four slen values as the bookkeeping holds them (R49). -/
def slenVector (l : Nat × Nat × Nat × Nat) : Vector (Fin 6) 4 :=
  #v[Fin.ofNat 6 l.1, Fin.ofNat 6 l.2.1, Fin.ofNat 6 l.2.2.1, Fin.ofNat 6 l.2.2.2]

/-- GetLSFScaleData(ch) (R245). -/
def getLsfScaleData (ch : Fin 2) (s : State) : State :=
  let g := s.info 0 ch
  let v := lsfScale (s.isOn && decide (ch = 1)) g.scalefacCompress.toNat
  let s := { s with
    si := { s.si with gc := s.si.gc.set 0 ((s.si.gc.get 0).set ch { g with preflag := v.preflag }) } }
  s.storeLsf ch { slen := slenVector v.slen, blockNum := v.blockNum, blockTypeNum := lsfBlockTypeNum g }

/-- The widths of the flat buffer's entries, in order (R246). -/
def lsfWidths (i : LsfInfo) : List Nat :=
  ((nrOfSfbBlock i.blockNum i.blockTypeNum).zip (i.slen.toList.map (·.val))).flatMap fun p =>
    List.replicate p.1 p.2

/-- Where the flat buffer's entries go, in order (R246). -/
def lsfSlots (btn : Fin 3) : List Slot :=
  match btn with
  | 0 => longSlots 0 21
  | 1 => shortSlots 0 12
  | 2 => longSlots 0 6 ++ shortSlots 3 9

/-- ReadScfLSF(ch) (R246). -/
def readScfLsf (ch : Fin 2) (s : State) : State :=
  let s := getLsfScaleData ch s
  let i := (s.chan.get ch).lsf
  let v := s.rs.readMany (lsfWidths i)
  let scf := ((s.chan.get ch).scf.storeAll ((lsfSlots i.blockTypeNum).zip v.1)).storeAll
    (zeroSlots (decide (i.blockTypeNum ≠ 0)))
  (s.withRs v.2).storeScf ch scf

/-- READ_SCALEFACTORS after its checks (R240). -/
def readScalefactors (gr ch : Fin 2) (s : State) : State :=
  let s := { s with order := { s.order with partOpen := true } }
  let s := s.mapChan ch fun c => { c with grp := gr, part2Start := s.rs.resv.totbit }
  let s := if s.head.fields.version = .mpeg1 then readScfMpeg1 gr ch s else readScfLsf ch s
  s.setStage ch .sf

/-- READ_SCALEFACTORS (R240). -/
def execReadScalefactors (gr ch : Fin 2) (s : State) : Outcome :=
  command (guardScalefactors gr ch) (ending (readScalefactors gr ch)) s

end Sys2Proof.Machine
end

