-- ==== Sys2Proof/Machine/Huffman.lean ====
section
/-! DEFINITION. HUFFMAN_DECODE (R280-R287): the codebook walk, the pairs of the big-values region with
their escapes and signs, the quads of the count1 region, and the end of part 3. -/

namespace Sys2Proof.Machine

/-- HuffSym's loop (R280): `pre` is the bits read so far; 19 bits end it. -/
def huffWalk {σ : Type} (book : Codebook σ) (none_ : σ) : Nat → List Bool → RS → σ × RS
  | 0, _, r => (none_, { r with log := r.log.record .huffmanInvalid })
  | fuel + 1, pre, r =>
    let v := r.read 1
    let pre := pre ++ [decide (v.1 = 1)]
    match book.lookup pre with
    | some sym => (sym, v.2)
    | none =>
      if book.all (fun c => !(pre.isPrefixOf c.1)) then
        (none_, { v.2 with log := v.2.log.record .huffmanInvalid })
      else huffWalk book none_ fuel pre v.2

/-- HuffSym of a codebook: at most 19 bits; an invalid walk gives `none_` and a fault (R280). -/
def huffSym {σ : Type} (book : Codebook σ) (none_ : σ) (r : RS) : σ × RS := huffWalk book none_ 19 [] r

/-- The escape of a value (R283): in a table with linbits, 15 has that many further bits added. -/
def readEscape (bits x : Nat) (r : RS) : Nat × RS :=
  if 0 < bits ∧ x = 15 then
    let v := r.read bits
    (x + v.1, v.2)
  else (x, r)

/-- The sign bit of a non-zero value (R283, R285): 1 is negative. -/
def readSign (x : Nat) (r : RS) : Int × RS :=
  if x = 0 then (0, r)
  else
    let v := r.read 1
    (if v.1 = 1 then -(x : Int) else (x : Int), v.2)

/-- HuffPair(t) (R282, R283): x-escape, x-sign, y-escape, y-sign. -/
def huffPair (t : Nat) (r : RS) : (Int × Int) × RS :=
  let sym := if t = 0 then ((0, 0), r) else huffSym (bigCodebook t) (0, 0) r
  let xe := readEscape (linbits t) sym.1.1 sym.2
  let x := readSign xe.1 xe.2
  let ye := readEscape (linbits t) sym.1.2 x.2
  let y := readSign ye.1 ye.2
  ((x.1, y.1), y.2)

/-- The table of pair `i` (R284). -/
def pairTable (sfreq : Fin 9) (g : GranuleInfo) (i : Nat) : Nat :=
  if 2 * i < region1Start sfreq g then g.tableSelect.w0.toNat
  else if 2 * i < region2Start sfreq g then g.tableSelect.w1.toNat
  else g.tableSelect.w2.toNat

/-- `n` pairs from pair `i` on: their values in line order (R285). -/
def bigValues (table : Nat → Nat) : Nat → Nat → RS → List Int × RS
  | 0, _, r => ([], r)
  | n + 1, i, r =>
    let p := huffPair (table i) r
    let rest := bigValues table n (i + 1) p.2
    (p.1.1 :: p.1.2 :: rest.1, rest.2)

/-- The four signed values of a quad (R285). -/
def huffQuad (book : Codebook Quad) (r : RS) : List Int × RS :=
  let sym := huffSym book (false, false, false, false) r
  let v := readSign sym.1.1.toNat sym.2
  let w := readSign sym.1.2.1.toNat v.2
  let x := readSign sym.1.2.2.1.toNat w.2
  let y := readSign sym.1.2.2.2.toNat x.2
  ([v.1, w.1, x.1, y.1], y.2)

/-- The count1 loop (R285) from line `index` on; 145 rounds pass line 576 from any start. -/
def count1 (book : Codebook Quad) (stop : Nat) : Nat → Nat → RS → List Int × RS
  | 0, _, r => ([], r)
  | fuel + 1, index, r =>
    if r.tell < stop ∧ index < 576 then
      let q := huffQuad book r
      let rest := count1 book stop fuel (index + 4) q.2
      (q.1 ++ rest.1, rest.2)
    else ([], r)

/-- The stuffing loop (R285, R287): 32 bits at a time up to `stop`. -/
def stuffing (stop : Nat) : Nat → RS → RS
  | 0, r => r
  | fuel + 1, r =>
    if r.tell < stop then stuffing stop fuel (r.read (min 32 (stop - r.tell))).2 else r

/-- Part 3 of a granule-channel from `r` to `stop` (R285): the quantised lines, and the reservoir. -/
def decodePart3 (sfreq : Fin 9) (g : GranuleInfo) (stop : Nat) (r : RS) : Quantised × RS :=
  let big := bigValues (pairTable sfreq g) g.bigValues.toNat 0 r
  let quads := count1 (quadCodebook g.count1TableSelect) stop 145 big.1.length big.2
  let values := big.1 ++ quads.1
  let past := decide (stop < quads.2.tell)
  let r := if past then quads.2.rewind (quads.2.tell - stop) else quads.2
  let index := if past then values.length - 4 else values.length
  let r := stuffing stop ((stop - r.tell) / 32 + 1) r
  (Quantised.of (min index 576) fun j => values.getD j 0, r)

/-- HUFFMAN_DECODE after its checks (R285, R286). -/
def huffmanDecode (gr ch : Fin 2) (s : State) : State :=
  let g := s.info gr ch
  let stop := (s.chan.get ch).part2Start + g.part23Length.zeroExtend 32
  let v := decodePart3 s.head.fields.sfreq g stop.toNat s.rs
  let s := (s.withRs v.2).mapChan ch fun c => { c with part23End := stop }
  let s := s.storeQuantised ch v.1
  let s := { s with order := { nextGc := s.order.nextGc + 1, partOpen := false } }
  s.setStage ch .huf

/-- HUFFMAN_DECODE (R285). -/
def execHuffmanDecode (gr ch : Fin 2) (s : State) : Outcome :=
  command (guardStage .sf gr ch) (ending (huffmanDecode gr ch)) s

end Sys2Proof.Machine
end

