-- ==== Sys2Proof/Machine/Dequant.lean ====
section
/-! DEFINITION. DEQUANTIZE (R310-R313) and REORDER (R320-R322). -/

namespace Sys2Proof.Machine

/-- The value of line `j`; there are 576. -/
def lineAt (v : Lines Num) (j : Nat) : Num := v[j]?.getD .zero

/-- IS[ch][j]. -/
def quantAt (v : Lines Int) (j : Nat) : Int := v[j]?.getD 0

/-- Short scaling applies to line `j` (R312, R313): line 36 is the mixed-block transition. -/
def shortScaled (g : GranuleInfo) (j : Nat) : Bool := g.short && (!g.mixed || decide (36 ≤ j))

/-- The window of line `j` of short band `b`, in decode order (R312). -/
def decodeWindow (sfreq : Fin 9) (b j : Nat) : Nat :=
  (j - 3 * sfbShort sfreq b) / (sfbShort sfreq (b + 1) - sfbShort sfreq b)

/-- `-2 * Exp(j)` (R312): the attenuation of line `j` in half powers of two. -/
def attenuation (sfreq : Fin 9) (g : GranuleInfo) (f : Scf) (j : Nat) : Nat :=
  let scale := 1 + g.scalefacScale.toNat
  if shortScaled g j then
    let b := shortBand sfreq j
    let w := decodeWindow sfreq b j
    scale * f.shortAt w b + 4 * (g.subblockGain.get w).toNat
  else
    let b := longBand sfreq j
    scale * (f.long b + g.preflag.toNat * pretab b)

/-- The dequantised value before rounding (R310, R311): sign, gain, power, band exponent. -/
def dequantised (sfreq : Fin 9) (g : GranuleInfo) (f : Scf) (j : Nat) (q : Int) : Exact :=
  Exact.times
    (Exact.times
      (Exact.times (Exact.ofInt q.sign) (Exact.powTwo ((g.globalGain.toNat : Int) - 210) 4))
      (Exact.powFourThirds q.natAbs))
    (Exact.powTwo (-(attenuation sfreq g f j : Int)) 2)

/-- XR[ch] of DEQUANTIZE (R310). -/
def dequantLines (sfreq : Fin 9) (g : GranuleInfo) (c : Chan) : Lines Num :=
  tabulate 576 fun j =>
    if c.nonzero ≤ j then .zero else roundNum (dequantised sfreq g c.scf j (quantAt c.is j))

/-- DEQUANTIZE after its checks. -/
def dequantize (gr ch : Fin 2) (s : State) : State :=
  (s.storeXr ch (dequantLines s.head.fields.sfreq (s.info gr ch) (s.chan.get ch))).setStage ch .dq

/-- DEQUANTIZE (R310). -/
def execDequantize (gr ch : Fin 2) (s : State) : Outcome :=
  command (guardStage .huf gr ch) (ending (dequantize gr ch)) s

/-- REORDER_MAP[SFREQ][mixed][k] (R72, R320): the source line of output line `k`. -/
def reorderMap (sfreq : Fin 9) (mixed : Bool) (k : Nat) : Nat :=
  if mixed ∧ k < 3 * sfbShort sfreq 3 then k
  else
    let b := shortBand sfreq k
    let start := 3 * sfbShort sfreq b
    let width := sfbShort sfreq (b + 1) - sfbShort sfreq b
    start + (k - start) % 3 * width + (k - start) / 3

/-- XR[ch] of REORDER (R321). -/
def reorderLines (sfreq : Fin 9) (g : GranuleInfo) (xr : Lines Num) : Lines Num :=
  tabulate 576 fun k => lineAt xr (reorderMap sfreq g.mixed k)

/-- REORDER after its checks: a long block is left unchanged. -/
def reorder (gr ch : Fin 2) (s : State) : State :=
  let g := s.info gr ch
  let s := if g.short then s.storeXr ch (reorderLines s.head.fields.sfreq g (s.chan.get ch).xr) else s
  s.setStage ch .ro

/-- REORDER (R321). -/
def execReorder (gr ch : Fin 2) (s : State) : Outcome :=
  command (guardStage .dq gr ch) (ending (reorder gr ch)) s

end Sys2Proof.Machine
end

