-- ==== Sys2Proof/Machine/Hybrid.lean ====
section
/-! DEFINITION. ANTIALIAS (R370), HYBRID (R378-R383), FREQ_INVERT (R390) and EMIT (R392). -/

namespace Sys2Proof.Machine

/-- The number of subband boundaries ANTIALIAS processes (R370). -/
def aliasBoundaries (g : GranuleInfo) : Nat :=
  if g.short then (if g.mixed then 1 else 0) else 31

/-- Line `j` after ANTIALIAS (R370): the boundary above subband `sb` pairs line `18 sb + 17 - i` with
line `18 sb + 18 + i`, i in 0..7; the pairs are disjoint. -/
def aliasLine (n : Nat) (xr : Lines Num) (j : Nat) : Num :=
  let sb := j / 18
  let k := j % 18
  let x := Exact.ofNum (lineAt xr j)
  if 10 ≤ k ∧ sb < n then
    let i := 17 - k
    let bd := Exact.ofNum (lineAt xr (18 * sb + 18 + i))
    roundNum (Exact.minus (Exact.times x (aaCs i)) (Exact.times bd (aaCa i)))
  else if k ≤ 7 ∧ 1 ≤ sb ∧ sb - 1 < n then
    let bu := Exact.ofNum (lineAt xr (18 * (sb - 1) + 17 - k))
    roundNum (Exact.plus (Exact.times x (aaCs k)) (Exact.times bu (aaCa k)))
  else lineAt xr j

/-- XR[ch] of ANTIALIAS. -/
def aliasLines (g : GranuleInfo) (xr : Lines Num) : Lines Num :=
  tabulate 576 fun j => aliasLine (aliasBoundaries g) xr j

/-- ANTIALIAS after its checks: a pure short block is left unchanged. -/
def antialias (gr ch : Fin 2) (s : State) : State :=
  let g := s.info gr ch
  let s := if g.short && !g.mixed then s else s.storeXr ch (aliasLines g (s.chan.get ch).xr)
  s.setStage ch .aa

/-- ANTIALIAS (R370). -/
def execAntialias (gr ch : Fin 2) (s : State) : Outcome :=
  command (guardStage .st gr ch) (ending (antialias gr ch)) s

/-- Output `i` of the 36-point transform of a subband `x` (R379). -/
def longImdct (t : BitVec 2) (x : Nat → Exact) (i : Nat) : Exact :=
  Exact.times (imdctWin t i)
    (Exact.sum (fun k => Exact.times (x k) (Exact.cosine ((2 * i + 19) * (2 * k + 1)) 72)) 18)

/-- `y` of window `w` at `i` (R379). -/
def shortImdct (x : Nat → Exact) (w i : Nat) : Exact :=
  Exact.sum (fun k => Exact.times (x (3 * k + w)) (Exact.cosine ((2 * i + 7) * (2 * k + 1)) 24)) 6

/-- Output `m` of the three interleaved 12-point transforms (R379). -/
def shortImdcts (x : Nat → Exact) (m : Nat) : Exact :=
  Exact.sum (fun w =>
    if 6 + 6 * w ≤ m ∧ m < 18 + 6 * w then
      Exact.times (imdctWin 2 (m - (6 + 6 * w))) (shortImdct x w (m - (6 + 6 * w)))
    else .zero) 3

/-- out[i] of Imdct(X, t) (R379). -/
def imdct (x : Nat → Exact) (t : BitVec 2) (i : Nat) : Exact :=
  if t = 2 then shortImdcts x i else longImdct t x i

/-- The block type of subband `sb` (R380, R381). -/
def subbandType (g : GranuleInfo) (sb : Nat) : BitVec 2 := if g.mixed ∧ sb < 2 then 0 else g.blockType

/-- out[i] of subband `sb` (R380). -/
def subbandOut (g : GranuleInfo) (xr : Lines Num) (sb i : Nat) : Exact :=
  imdct (fun k => Exact.ofNum (lineAt xr (18 * sb + k))) (subbandType g sb) i

/-- HOUT[ch] of HYBRID (R380, R382): the first half, added to the stored tail. -/
def hybridOut (g : GranuleInfo) (xr prev : Lines Num) : Lines Num :=
  tabulate 576 fun j =>
    roundNum (Exact.plus (subbandOut g xr (j / 18) (j % 18)) (Exact.ofNum (lineAt prev j)))

/-- PREV[ch] of HYBRID (R380, R382): the last half. -/
def hybridTail (g : GranuleInfo) (xr : Lines Num) : Lines Num :=
  tabulate 576 fun j => roundNum (subbandOut g xr (j / 18) (18 + j % 18))

/-- HYBRID after its checks. -/
def hybrid (gr ch : Fin 2) (s : State) : State :=
  let g := s.info gr ch
  let c := s.chan.get ch
  ((s.storeHout ch (hybridOut g c.xr c.prev)).storePrev ch (hybridTail g c.xr)).setStage ch .hy

/-- HYBRID (R380). -/
def execHybrid (gr ch : Fin 2) (s : State) : Outcome :=
  command (guardStage .aa gr ch) (ending (hybrid gr ch)) s

/-- HOUT[ch] of FREQ_INVERT (R390): the odd slots of the odd subbands are negated. -/
def invertLines (hout : Lines Num) : Lines Num :=
  tabulate 576 fun j =>
    if j / 18 % 2 = 1 ∧ j % 18 % 2 = 1 then (lineAt hout j).neg else lineAt hout j

/-- FREQ_INVERT after its checks. -/
def freqInvert (ch : Fin 2) (s : State) : State :=
  (s.storeHout ch (invertLines (s.chan.get ch).hout)).setStage ch .fi

/-- FREQ_INVERT (R390). -/
def execFreqInvert (gr ch : Fin 2) (s : State) : Outcome :=
  command (guardStage .hy gr ch) (ending (freqInvert ch)) s

/-- The words of EMIT in order (R392): ss outer, sb inner. -/
def emitWords (ch : Fin 2) (hout : Lines Num) : List Sample :=
  (List.range 576).map fun n =>
    { ch := ch
      ss := BitVec.ofNat 5 (n / 32)
      sb := BitVec.ofNat 5 (n % 32)
      value := lineAt hout (18 * (n % 32) + n / 32) }

/-- The end of EMIT: RESULT <- 576, STAGE[ch] <- EM (R392). -/
def emitEnd (ch : Fin 2) (s : State) : State := (s.setStage ch .em).answer 576

/-- Sends `ws` and then ends EMIT of channel `ch` and goes on with `andThen`; waits while the sink is not
ready (R92, R427). `frame` is what is left of DECODE_FRAME, if it is its EMIT. -/
def sendFrom (ch : Fin 2) (frame : Option (List Job × Nat)) (andThen : State → Ran) (ws : List Sample)
    (s : State) : Ran :=
  match s.send ws with
  | (s, []) => andThen (emitEnd ch s)
  | (s, w :: left) => .waiting (.emit ch (w :: left) frame) s

/-- The end of a command that raises nothing. -/
def ended (s : State) : Ran := .ended s .ok

/-- EMIT (R392). -/
def execEmit (gr ch : Fin 2) (s : State) : Outcome :=
  command (guardStage .fi gr ch) (fun s => sendFrom ch none ended (emitWords ch (s.chan.get ch).hout) s) s

end Sys2Proof.Machine
end

