-- ==== Sys2Proof/Machine/Reservoir.lean ====
section
/-! DEFINITION. The reservoir commands RB_* (R202-R207) and LOAD_MAIN_DATA (R208-R213). -/

namespace Sys2Proof.Machine

/-- RB_PUT_BYTE (R202). -/
def execRbPutByte (imm : BitVec 16) (s : State) : Outcome :=
  command noGuard (ending fun s => s.withRs (s.rs.put (imm.truncate 8))) s

/-- RB_READ_BITS (R203): n = 0 returns 0 in every case; after an over-read RESULT is any word. -/
def rbReadBits (n : Nat) (s : State) : State :=
  let v := s.rs.read n
  if n = 0 then { s.withRs v.2 with result := 0 } else (s.withRs v.2).answer (BitVec.ofNat 32 v.1)

def execRbReadBits (imm : BitVec 16) (s : State) : Outcome :=
  command noGuard (ending (rbReadBits imm.toNat)) s

/-- RB_REWIND_BITS (R205). -/
def execRbRewindBits (imm : BitVec 16) (s : State) : Outcome :=
  command noGuard (ending fun s => s.withRs (s.rs.rewind imm.toNat)) s

/-- RB_REWIND_BYTES (R206). -/
def execRbRewindBytes (imm : BitVec 16) (s : State) : Outcome :=
  command noGuard (ending fun s => s.withRs (s.rs.rewind (8 * imm.toNat))) s

/-- RB_TELL (R204). -/
def execRbTell (s : State) : Outcome :=
  command noGuard (ending fun s => s.answer s.rs.resv.totbit) s

/-- The frame buffer with the reservoir it is copied to. -/
structure Copy where
  fb : FrameBuf
  rs : RS
deriving DecidableEq, Repr

/-- `RbPut(FbRead(8))`, `n` times (R208). -/
def Copy.slots : Nat → Copy → Copy
  | 0, c => c
  | n + 1, c =>
    let v := c.fb.read 8 c.rs.log
    Copy.slots n { fb := v.2.1, rs := RS.put (BitVec.ofNat 8 v.1) { c.rs with log := v.2.2 } }

/-- The byte-alignment flush (R209): the reservoir, and MAIN_DATA_END. -/
def flush (r : RS) : RS × Word :=
  let whole := BitVec.ofNat 32 (r.tell / 8)
  if r.tell % 8 ≠ 0 then ((r.read (8 - r.tell % 8)).2, whole + 1) else (r, whole)

/-- Renormalise() on the reservoir counter (R211). -/
def Resv.renormalise (r : Resv) : Resv :=
  { r with totbit := r.totbit - BitVec.ofNat 32 Config.resvBits }

/-- The frame's slots appended to the reservoir (R208). -/
def State.copied (s : State) : Copy := Copy.slots s.head.slots { fb := s.fb, rs := s.rs }

/-- MAIN_DATA_END of LOAD_MAIN_DATA (R209). -/
def State.newMainDataEnd (s : State) : Word := (flush s.copied.rs).2

/-- DISCARD of LOAD_MAIN_DATA (R210). -/
def State.newDiscard (s : State) : Word :=
  s.book.frameStart - s.newMainDataEnd - s.si.mainDataBegin.zeroExtend 32

/-- FRAME_START of LOAD_MAIN_DATA before the wrap guard. -/
def State.newFrameStart (s : State) : Word := s.book.frameStart + BitVec.ofNat 32 s.head.slots

/-- The wrap guard applies: MAIN_DATA_END > RESV_BYTES (R211). -/
def State.wrapGuard (s : State) : Bool := decide ((Config.resvBytes : Int) < s.newMainDataEnd.toInt)

/-- The reservoir appended to, aligned, renormalised where the guard applies, and read up to the frame's main
data (R208, R209, R211, R212). -/
def State.loadedRs (s : State) : RS :=
  let r := (flush s.copied.rs).1
  RS.skipBytes s.newDiscard.toNat { r with resv := if s.wrapGuard then r.resv.renormalise else r.resv }

/-- STAGE[ch] <- MD and GRP[ch] <- 0 for every ch < NCH (R208). -/
def State.enterMd (s : State) : State :=
  s.channels.foldl (fun s ch => s.mapChan ch fun c => { c with stage := .md, grp := 0 }) s

/-- LOAD_MAIN_DATA after its checks (R208): the skip of R210, or the load. -/
def loadMainData (s : State) : State × Err :=
  if s.newDiscard.toInt < 0 then
    ({ s with
        fb := s.copied.fb
        rs := (flush s.copied.rs).1
        book := { frameStart := s.newFrameStart, mainDataEnd := s.newMainDataEnd, discard := s.newDiscard }
        status := { s.status with skipped := true }
        chan := (s.setStages .idle).chan }, .frameSkipped)
  else
    ({ s with
        fb := s.copied.fb
        rs := s.loadedRs
        book := {
          frameStart :=
            if s.wrapGuard then s.newFrameStart - BitVec.ofNat 32 Config.resvBytes else s.newFrameStart
          mainDataEnd := s.newMainDataEnd
          discard := s.newDiscard }
        order := { nextGc := 0, partOpen := false }
        chan := s.enterMd.chan }, .ok)

/-- LOAD_MAIN_DATA (R208). -/
def execLoadMainData (s : State) : Outcome :=
  command guardMainData (fun s => .ended (loadMainData s).1 (loadMainData s).2) s

end Sys2Proof.Machine
end

