-- ==== Sys2Proof/Machine/Stereo.lean ====
section
/-! DEFINITION. STEREO (R340-R347) and the channel selection that ends it (R350). -/

namespace Sys2Proof.Machine

/-! ### The intensity region (R342-R345) -/

/-- One more than the largest number below `n` that meets `p`; 0 if none does. -/
def boundAbove (p : Nat → Bool) : Nat → Nat
  | 0 => 0
  | n + 1 => if p n then n + 1 else boundAbove p n

/-- Line `j` of the right channel is not zero. -/
def nonzeroAt (b : Lines Num) (j : Nat) : Bool := decide (lineAt b j ≠ .zero)

/-- bL of R343, scanning the first `n` lines: the band after the highest with a non-zero line. -/
def longBound (sfreq : Fin 9) (b : Lines Num) (n : Nat) : Nat :=
  match boundAbove (nonzeroAt b) n with
  | 0 => 0
  | top + 1 => longBand sfreq top + 1

/-- Window `w` of short band `bb` has a non-zero line (R344). -/
def shortBandNonzero (sfreq : Fin 9) (b : Lines Num) (w bb : Nat) : Bool :=
  (List.range (sfbShort sfreq (bb + 1) - sfbShort sfreq bb)).any fun f =>
    nonzeroAt b (3 * sfbShort sfreq bb + 3 * f + w)

/-- bS[w] of R344 and R345, scanning the bands from `first` on. -/
def shortBound (sfreq : Fin 9) (b : Lines Num) (first w : Nat) : Nat :=
  max first (boundAbove (fun bb => decide (first ≤ bb) && shortBandNonzero sfreq b w bb) 13)

/-- Where an intensity line takes its position from: the position `p`, and the flat index of its band
(R247) for the LSF illegal position. -/
structure Position where
  p   : Nat
  idx : Nat
deriving DecidableEq, Repr

/-- A long band's position (R343, R346): band 21 takes band 20's. -/
def longPosition (f : Scf) (bb : Nat) : Position :=
  let b := min bb 20
  { p := f.long b, idx := b }

/-- A short band's position (R247, R344, R346): band 12 takes band 11's. -/
def shortPosition (mixed : Bool) (f : Scf) (w bb : Nat) : Position :=
  let b := min bb 11
  { p := f.shortAt w b, idx := if mixed then 6 + 3 * (b - 3) + w else 3 * b + w }

/-- nL of R345: the long bands of a mixed block. -/
def mixedLongBands (v : Version) : Nat := if v = .mpeg1 then 8 else 6

/-- What R342-R345 need of the right channel: its block, its scale factors, its lines. -/
structure RightChannel where
  version : Version
  sfreq   : Fin 9
  g1      : GranuleInfo
  scf     : Scf
  b       : Lines Num

/-- The window of line `j` of short band `bb` after REORDER (R322). -/
def lineWindow (sfreq : Fin 9) (bb j : Nat) : Nat := (j - 3 * sfbShort sfreq bb) % 3

/-- The short-part position of line `j`, if it is an intensity line (R344, R345). -/
def shortIntensity (r : RightChannel) (first j : Nat) : Option Position :=
  let bb := shortBand r.sfreq j
  let w := lineWindow r.sfreq bb j
  if shortBound r.sfreq r.b first w ≤ bb then some (shortPosition r.g1.mixed r.scf w bb) else none

/-- The long-part position of line `j`, if it is an intensity line by a scan of `n` lines (R343). -/
def longIntensity (r : RightChannel) (n j : Nat) : Option Position :=
  let bb := longBand r.sfreq j
  if longBound r.sfreq r.b n ≤ bb then some (longPosition r.scf bb) else none

/-- Some window of a mixed block has a non-zero line in the short part (R345). -/
def mixedShortNonzero (r : RightChannel) : Bool :=
  (List.range 3).any fun w => decide (3 < shortBound r.sfreq r.b 3 w)

/-- The position of line `j` if it is an intensity line (R343-R345). -/
def intensityPosition (r : RightChannel) (j : Nat) : Option Position :=
  if r.g1.short then
    if r.g1.mixed then
      if 36 ≤ j then shortIntensity r 3 j
      else if mixedShortNonzero r then none
      else if longBand r.sfreq j < mixedLongBands r.version then longIntensity r 36 j
      else none
    else shortIntensity r 0 j
  else longIntensity r 576 j

/-! ### Legal positions and gains (R247, R346) -/

/-- The smallest `i` with `idx` below the sum of the first `i + 1` counts. -/
def partOf : List Nat → Nat → Nat
  | [], _ => 0
  | n :: ns, idx => if idx < n then 0 else partOf ns (idx - n) + 1

/-- ISMAX(ch, idx) (R247) of a channel's LSF bookkeeping. -/
def isMax (i : LsfInfo) (idx : Nat) : Nat :=
  2 ^ (i.slen[partOf (nrOfSfbBlock i.blockNum i.blockTypeNum) idx]?.getD 0).val - 1

/-- A position is legal (R346). -/
def legalPosition (v : Version) (i : LsfInfo) (x : Position) : Bool :=
  if v = .mpeg1 then decide (x.p ≤ 6) else decide (x.p ≠ isMax i x.idx)

/-- The MPEG1 gains of position `p` (R346): `sin θ / (sin θ + cos θ)`, `cos θ / (sin θ + cos θ)` with
θ = pπ/12. At p = 3 the sine and the cosine are equal. -/
def mpeg1Gains (p : Nat) : Exact × Exact :=
  if p = 3 then (.frac 1 2, .frac 1 2)
  else
    let s := Exact.sine p 12
    let c := Exact.cosine p 12
    (Exact.quot s (Exact.plus s c), Exact.quot c (Exact.plus s c))

/-- `io^n` (R346): io is 2^(-1/4) if scalefac_compress is even, 2^(-1/2) if odd. -/
def ioPower (g1 : GranuleInfo) (n : Nat) : Exact :=
  Exact.powTwo (-(n : Int)) (if g1.scalefacCompress.toNat % 2 = 0 then 4 else 2)

/-- The LSF gain pair (k0, k1) of position `p` (R346). -/
def lsfGains (g1 : GranuleInfo) (p : Nat) : Exact × Exact :=
  if p = 0 then (Exact.one, Exact.one)
  else if p % 2 = 1 then (ioPower g1 ((p + 1) / 2), Exact.one)
  else (Exact.one, ioPower g1 (p / 2))

/-- The gains of a position. -/
def gains (v : Version) (g1 : GranuleInfo) (p : Nat) : Exact × Exact :=
  if v = .mpeg1 then mpeg1Gains p else lsfGains g1 p

/-! ### The command -/

/-- MS reconstruction (R341): `(a + b) k` and `(a - b) k` with `k = 1/√2`. -/
def msPair (a b : Num) : Num × Num :=
  (roundNum (Exact.quot (Exact.plus (.ofNum a) (.ofNum b)) Exact.sqrtTwo),
   roundNum (Exact.quot (Exact.minus (.ofNum a) (.ofNum b)) Exact.sqrtTwo))

/-- Intensity reconstruction (R346). -/
def intensityPair (k : Exact × Exact) (a : Num) : Num × Num :=
  (roundNum (Exact.times (.ofNum a) k.1), roundNum (Exact.times (.ofNum a) k.2))

/-- IsLine(j) (R346): the position of line `j` if it is an intensity line and legal. -/
def legalIntensity (r : RightChannel) (i : LsfInfo) (j : Nat) : Option Position :=
  (intensityPosition r j).filter fun x => legalPosition r.version i x

/-- Both channels' values of line `j` after STEREO (R340). -/
def stereoPair (isOn msOn : Bool) (r : RightChannel) (i : LsfInfo) (a : Lines Num) (j : Nat) : Num × Num :=
  match if isOn then legalIntensity r i j else none with
  | some x => intensityPair (gains r.version r.g1 x.p) (lineAt a j)
  | none => if msOn then msPair (lineAt a j) (lineAt r.b j) else (lineAt a j, lineAt r.b j)

/-- The right channel of granule `gr` as STEREO finds it. -/
def State.rightChannel (gr : Fin 2) (s : State) : RightChannel where
  version := s.head.fields.version
  sfreq := s.head.fields.sfreq
  g1 := s.info gr 1
  scf := s.chan.c1.scf
  b := s.chan.c1.xr

/-- XR[0] and XR[1] of STEREO (R340). -/
def stereoLines (gr : Fin 2) (s : State) : State :=
  if s.nch = 2 then
    let pair := stereoPair s.isOn s.msOn (s.rightChannel gr) s.chan.c1.lsf s.chan.c0.xr
    (s.storeXr 0 (tabulate 576 fun j => (pair j).1)).storeXr 1 (tabulate 576 fun j => (pair j).2)
  else s

/-- SEL (R350), ascending. -/
def State.sel (s : State) : List (Fin 2) :=
  if s.nch = 1 then [0]
  else match s.cmdCtrl.chsel with
    | .both => [0, 1]
    | .left => [0]
    | .right => [1]
    | .downmix => [0]

/-- The average of two values (R350). -/
def average (a b : Num) : Num :=
  roundNum (Exact.quot (Exact.plus (.ofNum a) (.ofNum b)) (.frac 2 1))

/-- Select() (R350). -/
def select (s : State) : State :=
  let s := if s.nch = 2 ∧ s.cmdCtrl.chsel = .downmix then
      s.storeXr 0 (tabulate 576 fun j => average (lineAt s.chan.c0.xr j) (lineAt s.chan.c1.xr j))
    else s
  let sel := s.sel
  s.channels.foldl (fun s ch => s.setStage ch (if sel.contains ch then .st else .em)) s

/-- STEREO after its checks. -/
def stereo (gr : Fin 2) (s : State) : State := select (stereoLines gr s)

/-- STEREO (R340). -/
def execStereo (gr : Fin 2) (s : State) : Outcome :=
  command (guardStereo gr) (ending (stereo gr)) s

end Sys2Proof.Machine
end

