-- ==== Sys2Proof/Machine/Control.lean ====
section
/-! DEFINITION. NOP (R410), RESET_STREAM (R411), DECODE_FRAME (R420, R422), and how a command that waits
on a port goes on (R427). -/

namespace Sys2Proof.Machine

/-- NOP (R410): the only command that runs after FATAL (R428). RESULT <- 0. -/
def execNop (s : State) : Outcome := .next ({ s.start with result := 0 }.finish .ok)

/-- What RESET_STREAM keeps of the reservoir: its cells (R411, R463). -/
def Resv.clear (r : Resv) : Resv := { Resv.reset with cells := r.cells }

/-- What RESET_STREAM does to a channel (R411). -/
def Chan.clear (c : Chan) : Chan := { c with stage := .idle, grp := 0, prev := Lines.zeros }

/-- RESET_STREAM after its checks (R411). The state counts as defined again (R438). -/
def resetStream (s : State) : State :=
  { s with
    rs := { resv := s.rs.resv.clear, log := { s.rs.log with tainted := false } }
    book := .reset
    chan := { c0 := s.chan.c0.clear, c1 := s.chan.c1.clear }
    pb := []
    inEof := false
    fb := { s.fb with len := 0, bitpos := 0 }
    order := .reset
    status := { s.status with hdrValid := false, layer3 := false, lsf := false, nch2 := false, crcMismatch := false }
    result := 0
    env := { s.env with out := s.env.out ++ [.streamReset] } }

/-- RESET_STREAM (R411). -/
def execResetStream (s : State) : Outcome := command noGuard (ending resetStream) s

/-! ### DECODE_FRAME (R420) -/

/-- READ_SCALEFACTORS, HUFFMAN_DECODE, DEQUANTIZE, REORDER, EMIT and so on as `run X` runs them: no
raise of their own. -/
def runPlain (guard : State → Option Err) (body : State → State) : State → State × Err :=
  runStage guard fun s => (body s, .ok)

/-- The second stage if the first raised nothing. -/
def thenStage (a b : State → State × Err) (s : State) : State × Err :=
  let r := a s
  if r.2 = .ok then b r.1 else r

/-- READ_SCALEFACTORS, HUFFMAN_DECODE, DEQUANTIZE, REORDER of (gr, ch). -/
def runFront (gr ch : Fin 2) : State → State × Err :=
  thenStage (runPlain (guardScalefactors gr ch) (readScalefactors gr ch))
    (thenStage (runPlain (guardStage .sf gr ch) (huffmanDecode gr ch))
      (thenStage (runPlain (guardStage .huf gr ch) (dequantize gr ch))
        (runPlain (guardStage .dq gr ch) (reorder gr ch))))

/-- ANTIALIAS, HYBRID, FREQ_INVERT of (gr, ch), and the checks of EMIT. -/
def runBack (gr ch : Fin 2) : State → State × Err :=
  thenStage (runPlain (guardStage .st gr ch) (antialias gr ch))
    (thenStage (runPlain (guardStage .aa gr ch) (hybrid gr ch))
      (thenStage (runPlain (guardStage .hy gr ch) (freqInvert ch))
        (runPlain (guardStage .fi gr ch) id)))

/-- The granule loop of R420 for a frame of granules `grs` and channels `chs`, with SEL `sel`. -/
def frameJobs (grs chs sel : List (Fin 2)) : List Job :=
  grs.flatMap fun gr => chs.map (.front gr) ++ .stereo gr :: sel.map (.back gr)

/-- The end of DECODE_FRAME (R420): `frame_end` if a sample was emitted, RESULT <- n. -/
def frameEnd (n : Nat) (s : State) : Ran :=
  let s := if 0 < n then s.strobe .frameEnd else s
  .ended (s.answer (BitVec.ofNat 32 n)) .ok

/-- Goes on with the jobs, `n` words having been counted. -/
def runJobs : List Job → Nat → State → Ran
  | [], n, s => frameEnd n s
  | .front gr ch :: jobs, n, s =>
    match runFront gr ch s with
    | (s, .ok) => runJobs jobs n s
    | (s, e) => .ended s e
  | .stereo gr :: jobs, n, s =>
    match runPlain (guardStereo gr) (stereo gr) s with
    | (s, .ok) => runJobs jobs n s
    | (s, e) => .ended s e
  | .back gr ch :: jobs, n, s =>
    match runBack gr ch s with
    | (s, .ok) =>
      sendFrom ch (some (jobs, n)) (runJobs jobs (n + 576)) (emitWords ch (s.chan.get ch).hout) s
    | (s, e) => .ended s e

/-- DECODE_FRAME after its SYNC has accepted a frame (R420, R422). -/
def frameBody (s : State) : Ran :=
  if s.head.fields.layer ≠ 3 then .ended { s with status := { s.status with skipped := true } } .notLayer3
  else
    match thenStage (runStage guardSideInfo readSideInfo) (runStage guardMainData loadMainData) s with
    | (s, .ok) => runJobs (frameJobs s.granules s.channels s.sel) 0 s
    | (s, e) => .ended s e

/-- DECODE_FRAME (R420). -/
def execDecodeFrame (s : State) : Outcome :=
  command noGuard (fun s => syncFrom true frameBody .begin (syncStart s)) s

/-! ### Waits (R427) -/

/-- The command in progress goes on from where it waits. -/
def resume (p : Progress) (s : State) : Ran :=
  match p with
  | .sync phase false => syncFrom false syncEnd phase s
  | .sync phase true => syncFrom true frameBody phase s
  | .emit ch left none => sendFrom ch none ended left s
  | .emit ch left (some (jobs, n)) => sendFrom ch (some (jobs, n)) (runJobs jobs (n + 576)) left s

/-- The block after something happened at a port: a command that waits goes on as far as it can; an idle
block changes no state (R450). -/
def proceed (s : State) : State :=
  match s.held with
  | none => s
  | some p => complete (resume p s)

end Sys2Proof.Machine
end

