-- ==== Sys2Proof/Machine/Dispatch.lean ====
section
/-! DEFINITION. What each command does (R103): one arm per constructor, each the command's own meaning. -/

namespace Sys2Proof.Machine

def exec (i : Instr) (s : State) : Host.Outcome State Fault Refusal :=
  match i with
  | .nop => Sys2Proof.Machine.execNop s
  | .resetStream => Sys2Proof.Machine.execResetStream s
  | .decodeFrame => Sys2Proof.Machine.execDecodeFrame s
  | .sync => Sys2Proof.Machine.execSync s
  | .readSideInfo => Sys2Proof.Machine.execReadSideInfo s
  | .loadMainData => Sys2Proof.Machine.execLoadMainData s
  | .rbPutByte imm => Sys2Proof.Machine.execRbPutByte imm s
  | .rbReadBits imm => Sys2Proof.Machine.execRbReadBits imm s
  | .rbRewindBits imm => Sys2Proof.Machine.execRbRewindBits imm s
  | .rbRewindBytes imm => Sys2Proof.Machine.execRbRewindBytes imm s
  | .rbTell => Sys2Proof.Machine.execRbTell s
  | .readScalefactors gr ch => Sys2Proof.Machine.execReadScalefactors gr ch s
  | .huffmanDecode gr ch => Sys2Proof.Machine.execHuffmanDecode gr ch s
  | .dequantize gr ch => Sys2Proof.Machine.execDequantize gr ch s
  | .reorder gr ch => Sys2Proof.Machine.execReorder gr ch s
  | .stereo gr => Sys2Proof.Machine.execStereo gr s
  | .antialias gr ch => Sys2Proof.Machine.execAntialias gr ch s
  | .hybrid gr ch => Sys2Proof.Machine.execHybrid gr ch s
  | .freqInvert gr ch => Sys2Proof.Machine.execFreqInvert gr ch s
  | .emit gr ch => Sys2Proof.Machine.execEmit gr ch s

end Sys2Proof.Machine
end

