-- ==== Sys2Proof/Machine/Bus.lean ====
section
/-! DEFINITION. What an event at the block's interfaces does: the CMD register (R100, R426), the other
registers (R80), the input port (R91), the sink (R92), power-on reset (R460). -/

namespace Sys2Proof.Machine

/-- A host write of `w` to CMD (R100, R425, R426). -/
def writeCmd (w : Word) (s : State) : Outcome :=
  if s.busy then .next { s with status := { s.status with overrun := true } }
  else match decode w with
    | .ok i => exec i s
    | .rejected _ => .next (illegalCommand s)

/-- A host write (R80): ignored if not an aligned 32-bit write. -/
def hostWrite (off : BitVec 8) (width : Width) (data : Word) (s : State) : Outcome :=
  if aligned off width then
    if off = 0x04 then writeCmd data s else .next (hostWriteRegister off data s)
  else .next s

/-- Power-on reset (R460, R461): every state item of the block; the world at its ports stays, and so does the
model's own count of free values, so that those drawn after it are further ones. -/
def powerOn (s : State) : State :=
  { State.reset with
    rs := { RS.reset with log := { FaultLog.reset with draws := s.rs.log.draws } }
    env := s.env }

/-- One event. -/
def event (e : Event) (s : State) : Outcome :=
  match e with
  | .write off width data => hostWrite off width data s
  | .read off width => .next (hostRead off width s)
  | .present l => .next (proceed { s with env := { s.env with port := s.env.port ++ l } })
  | .reposition l => .next (proceed { s with env := { s.env with port := l } })
  | .sinkReady n => .next (proceed { s with env := { s.env with sink := s.env.sink + n } })
  | .powerOnReset => .next (powerOn s)

/-- The next event has happened. -/
def State.dropEvent (s : State) : State := { s with env := { s.env with host := s.env.host.tail } }

/-- The state whose next event is a host write of `w` to CMD, with no command in progress. -/
def State.withCommand (w : Word) (s : State) : State :=
  { s with held := none, env := { s.env with host := .write 0x04 .w32 w :: s.env.host } }

end Sys2Proof.Machine
end

