-- ==== Sys2Proof/Machine/Step.lean ====
section
/-! DEFINITION. One step: the next event at the block's interfaces, and what the block does on it up to
its next wait (R485: a command is one atomic step from CMD write to DONE, apart from its waits). -/

namespace Sys2Proof.Machine

/-- One step. With no event left the block goes on by itself: a waiting command as far as its port lets
it, an idle block not at all (R450). -/
def step (s : State) : Host.Outcome State Fault Refusal :=
  match s.env.host with
  | [] => .next (proceed s)
  | e :: _ => event e s.dropEvent

/-- `s` with the table word `w` of `nbits` bits as the next host write to CMD, which is where this machine
takes its commands from (R30, R32). -/
def State.withFetchWord (s : State) (nbits w : Nat) : State :=
  s.withCommand (BitVec.ofNat 32 (w % 2 ^ nbits))

end Sys2Proof.Machine
end

