-- ==== Sys2Proof/Safety.lean ====
section
/-! DEFINITION. The terms claims are written in: the real number an exact value stands for (R12), what a
command that ends on a check leaves, and the invariants of the machine. -/

namespace Sys2Proof

/-! ### The reals behind the exact values (R12) -/

/-- A reading of NUM as real numbers that keeps zero and exact negation (R12, R390). Nothing else about NUM
is known, so a claim holds for every such reading. -/
def Valuation (val : Num → ℝ) : Prop := val .zero = 0 ∧ ∀ x, val x.neg = -val x

/-- The real number an exact value stands for, NUM read by `val`. -/
noncomputable def Exact.real (val : Num → ℝ) : Exact → ℝ
  | .zero => 0
  | .num x => val x
  | .frac p q => (p : ℝ) / (q : ℝ)
  | .twoPow p q => (2 : ℝ) ^ ((p : ℝ) / (q : ℝ))
  | .pow43 k => (k : ℝ) ^ ((4 : ℝ) / 3)
  | .sqrt a => Real.sqrt (a.real val)
  | .sinPi p q => Real.sin (Real.pi * p / q)
  | .cosPi p q => Real.cos (Real.pi * p / q)
  | .neg a => -a.real val
  | .add a b => a.real val + b.real val
  | .sub a b => a.real val - b.real val
  | .mul a b => a.real val * b.real val
  | .div a b => a.real val / b.real val

/-- IMDCT_WIN[t][i] as the table of R378 gives it. -/
noncomputable def windowReal (t i : Nat) : ℝ :=
  let long := Real.sin (Real.pi / 36 * (i + 1 / 2))
  if t = 0 then (if i < 36 then long else 0)
  else if t = 1 then
    if i < 18 then long
    else if i < 24 then 1
    else if i < 30 then Real.sin (Real.pi / 12 * ((i : ℝ) - 18 + 1 / 2))
    else 0
  else if t = 2 then (if i < 12 then Real.sin (Real.pi / 12 * (i + 1 / 2)) else 0)
  else
    if i < 6 then 0
    else if i < 12 then Real.sin (Real.pi / 12 * ((i : ℝ) - 6 + 1 / 2))
    else if i < 18 then 1
    else if i < 36 then long
    else 0

/-- AA_C (R69). -/
noncomputable def aliasReal (i : Nat) : ℝ :=
  ([-0.6, -0.535, -0.33, -0.185, -0.095, -0.041, -0.0142, -0.0037] : List ℝ).getD i 0

namespace Machine

/-- `x` is a rounding of the real number `r` (R12): rnd_NUM of an exact value that is `r`, whatever
numbers the codes of NUM stand for. -/
def Rounds (x : Num) (r : (Num → ℝ) → ℝ) : Prop :=
  ∃ e : Exact, x = roundNum e ∧ ∀ val, Valuation val → e.real val = r val

/-- `sign(q) * 2^(0.25 (gain - 210)) * |q|^(4/3) * 2^e` (R310, R311). -/
noncomputable def dequantReal (q : Int) (gain : Nat) (e : ℝ) : ℝ :=
  (q.sign : ℝ) * (2 : ℝ) ^ ((0.25 : ℝ) * ((gain : ℝ) - 210)) * (q.natAbs : ℝ) ^ ((4 : ℝ) / 3) * (2 : ℝ) ^ e

/-- AA_CS[i] and AA_CA[i] (R69). -/
noncomputable def aliasCs (i : Nat) : ℝ := 1 / √(1 + aliasReal i ^ 2)

noncomputable def aliasCa (i : Nat) : ℝ := aliasReal i / √(1 + aliasReal i ^ 2)

/-- out[i] of Imdct(x, t) (R379). -/
noncomputable def imdctReal (x : Nat → ℝ) (t i : Nat) : ℝ :=
  if t = 2 then
    ∑ w ∈ Finset.range 3,
      if 6 + 6 * w ≤ i ∧ i < 18 + 6 * w then
        windowReal 2 (i - (6 + 6 * w)) *
          ∑ k ∈ Finset.range 6,
            x (3 * k + w) * Real.cos (Real.pi / 24 * (2 * ((i - (6 + 6 * w) : Nat) : ℝ) + 7) * (2 * k + 1))
      else 0
  else
    windowReal t i *
      ∑ k ∈ Finset.range 18, x k * Real.cos (Real.pi / 72 * (2 * (i : ℝ) + 19) * (2 * k + 1))

/-- The gains of L and R of a legal intensity position `p` (R346); `odd` says that the right channel's
scalefac_compress is odd. -/
noncomputable def intensityGains (mpeg1 odd : Bool) (p : Nat) : ℝ × ℝ :=
  let θ := (p : ℝ) * Real.pi / 12
  let io : ℝ := if odd then (2 : ℝ) ^ (-(1 : ℝ) / 2) else (2 : ℝ) ^ (-(1 : ℝ) / 4)
  if mpeg1 then (Real.sin θ / (Real.sin θ + Real.cos θ), Real.cos θ / (Real.sin θ + Real.cos θ))
  else if p = 0 then (1, 1)
  else if p % 2 = 1 then (io ^ ((p + 1) / 2), 1)
  else (1, io ^ (p / 2))

/-! ### What a command leaves (R425) -/

/-- STATUS after a command that ended with `e` and touched no other bit. -/
def State.endStatus (e : Err) (s : State) : Status :=
  { s.status with done := true, eos := false, skipped := false, err := e }

/-- The fault log with no fault recorded by the command that ended. -/
def State.freshLog (s : State) : FaultLog := { s.rs.log with first := none }

/-- The state after a command that ended with `e` and had no effect but the life-cycle ones (R425, R432). -/
def State.endedWith (e : Err) (s : State) : State :=
  { s with
    cmdCtrl := s.ctrl
    result := 0
    held := none
    status := s.endStatus e
    rs := { s.rs with log := s.freshLog } }

/-- No fault has been recorded since the last RESET_STREAM or power-on reset, so every value is the one
the rules give (R438). -/
def State.clean (s : State) : Prop := s.rs.log.tainted = false

/-- The block will run a command other than NOP: FATAL is 0 (R428). -/
def State.live (s : State) : Prop := s.status.fatal = false

/-- The channel `c` with the values of `d`; STAGE and GRP are those of `c`. -/
def Chan.withValuesOf (d c : Chan) : Chan := { d with stage := c.stage, grp := c.grp }

/-- `u` with the values of `t`: everything that is unspecified after a fault (R438) is that of `t`, everything else
that of `u`. -/
def State.withValuesOf (t u : State) : State :=
  { u with
    head := { t.head with fields := { t.head.fields with
      version := u.head.fields.version
      layer := u.head.fields.layer
      prot := u.head.fields.prot
      mode := u.head.fields.mode } }
    book := t.book
    crc := t.crc
    si := t.si
    chan := ⟨t.chan.c0.withValuesOf u.chan.c0, t.chan.c1.withValuesOf u.chan.c1⟩
    rs := { u.rs with log := { u.rs.log with draws := t.rs.log.draws } } }

/-- `t` agrees with `u`, the state that the rules give: it is `u` if no fault has been recorded since the last
RESET_STREAM, and `u` but for what is unspecified after one (R438, R478; log entries 5 and 10). -/
def State.Agrees (t u : State) : Prop := (u.clean → t = u) ∧ t = State.withValuesOf t u

/-- The state after a granule command of channel `ch` that ended with OK: the channel is `c`, everything else is
as the life cycle leaves it. -/
def State.granuleDone (ch : Fin 2) (c : Chan) (s : State) : State :=
  { s.endedWith .ok with chan := s.chan.set ch c }

/-- SEL (R350) of a STEREO that starts now. -/
def State.willSelect (s : State) : List (Fin 2) :=
  if s.nch = 1 then [0]
  else match s.ctrl.chsel with
    | .both => [0, 1]
    | .left => [0]
    | .right => [1]
    | .downmix => [0]

/-- The state after STEREO (R340, R350) with XR[0] = `l` and XR[1] = `r`. -/
def State.stereoDone (l r : Lines Num) (s : State) : State :=
  { s.endedWith .ok with
    chan := {
      c0 := { s.chan.c0 with stage := if 0 ∈ s.willSelect then .st else .em, xr := l }
      c1 := { s.chan.c1 with
        stage := if s.nch = 1 then s.chan.c1.stage else if 1 ∈ s.willSelect then .st else .em
        xr := r } } }

/-- Commands one after the other: the RESULT of each, and the last state. -/
def runCommands : List Instr → State → List Word × State
  | [], s => ([], s)
  | i :: rest, s =>
    match exec i s with
    | .next t => (t.result :: (runCommands rest t).1, (runCommands rest t).2)
    | .fault _ => ([], s)
    | .refused _ => ([], s)

/-- The commands that DECODE_FRAME runs after SYNC for `ngr` granules, `nch` channels and the channels `sel`
(R420), granule by granule. -/
def frameCommands (ngr nch : Nat) (sel : List (Fin 2)) : List Instr :=
  .readSideInfo :: .loadMainData ::
    (([0, 1] : List (Fin 2)).filter fun gr => decide (gr.val < ngr)).flatMap fun gr =>
      ((([0, 1] : List (Fin 2)).filter fun ch => decide (ch.val < nch)).flatMap fun ch =>
        [.readScalefactors gr ch, .huffmanDecode gr ch, .dequantize gr ch, .reorder gr ch]) ++
      .stereo gr ::
      sel.flatMap fun ch => [.antialias gr ch, .hybrid gr ch, .freqInvert gr ch, .emit gr ch]

/-! ### What a command needs (R104, R421) -/

/-- STATUS.HDR_VALID = 1 and STATUS.LAYER3 = 1. -/
def State.layer3Frame (s : State) : Prop := s.status.hdrValid = true ∧ s.status.layer3 = true

/-- `gr < NGR` and `ch < NCH`. -/
def State.hasOperands (gr ch : Fin 2) (s : State) : Prop := gr.val < s.ngr ∧ ch.val < s.nch

/-- STAGE[ch] = x and GRP[ch] = gr. -/
def State.stageIs (x : Stage) (gr ch : Fin 2) (s : State) : Prop :=
  (s.chan.get ch).stage = x ∧ (s.chan.get ch).grp = gr

/-- What R421's table requires before READ_SCALEFACTORS. -/
def State.beforeScalefactors (gr ch : Fin 2) (s : State) : Prop :=
  (gr = 0 → (s.chan.get ch).stage = .md) ∧
  (gr = 1 → s.ngr = 2 ∧ (s.chan.get ch).stage = .em ∧ (s.chan.get ch).grp = 0) ∧
  s.order.partOpen = false ∧ s.order.nextGc.toNat = gr.val * s.nch + ch.val

/-- What R421's table requires before STEREO. -/
def State.beforeStereo (gr : Fin 2) (s : State) : Prop := ∀ ch : Fin 2, ch.val < s.nch → s.stageIs .ro gr ch

/-- A command of (gr, ch) that needs STAGE[ch] = x executes normally. -/
def State.ready (x : Stage) (gr ch : Fin 2) (s : State) : Prop :=
  s.live ∧ s.layer3Frame ∧ s.hasOperands gr ch ∧ s.stageIs x gr ch

/-- READ_SCALEFACTORS executes normally. -/
def State.readyScalefactors (gr ch : Fin 2) (s : State) : Prop :=
  s.live ∧ s.layer3Frame ∧ s.hasOperands gr ch ∧ s.beforeScalefactors gr ch

/-- STEREO executes normally. -/
def State.readyStereo (gr : Fin 2) (s : State) : Prop :=
  s.live ∧ s.layer3Frame ∧ gr.val < s.ngr ∧ s.beforeStereo gr

/-! ### The command table (R103) -/

/-- A row of R103: the opcode, which of GR and CH it uses, the largest IMM. -/
structure OpcodeRow where
  opc   : Nat
  gr    : Bool
  ch    : Bool
  limit : Nat

/-- R103. -/
def opcodeTable : List OpcodeRow :=
  [⟨0x00, false, false, 0⟩, ⟨0x01, false, false, 0⟩, ⟨0x02, false, false, 0⟩,
   ⟨0x10, false, false, 0⟩, ⟨0x11, false, false, 0⟩, ⟨0x12, false, false, 0⟩,
   ⟨0x20, false, false, 0xFF⟩, ⟨0x21, false, false, 32⟩, ⟨0x22, false, false, 65535⟩,
   ⟨0x23, false, false, 4096⟩, ⟨0x24, false, false, 0⟩,
   ⟨0x30, true, true, 0⟩, ⟨0x31, true, true, 0⟩, ⟨0x32, true, true, 0⟩, ⟨0x33, true, true, 0⟩,
   ⟨0x34, true, false, 0⟩, ⟨0x35, true, true, 0⟩, ⟨0x36, true, true, 0⟩, ⟨0x37, true, true, 0⟩,
   ⟨0x38, true, true, 0⟩]

/-- The word is a command by R102: its OPC is a row's, RSV is 0, the fields the row does not use are 0, and
IMM is within the row's limit. -/
def LegalWord (w : Word) : Prop :=
  ∃ row ∈ opcodeTable, w.extractLsb' 0 8 = BitVec.ofNat 8 row.opc ∧ w.extractLsb' 10 6 = 0 ∧
    (row.gr = false → w.getLsbD 9 = false) ∧ (row.ch = false → w.getLsbD 8 = false) ∧
    (w.extractLsb' 16 16).toNat ≤ row.limit

/-! ### Fields of the reservoir and of the frame buffer -/

/-- The `n` bits of the reservoir that begin `off` bits after the read cursor, the first as the most
significant (R84). -/
def Resv.field (r : Resv) (off n : Nat) : Nat := gather (fun i => r.bit (r.rptr.toNat + off + i)) n

/-- The `n` bits of the frame body that begin at bit `a` (R10). -/
def FrameBuf.field (fb : FrameBuf) (a n : Nat) : Nat := gather (fun i => fb.cells.bit (a + i)) n

/-- The granule-channel block that begins at bit `a` of the frame body, field by field at its place (R121,
R232). -/
def FrameBuf.block (mpeg1 : Bool) (fb : FrameBuf) (a : Nat) : GranuleInfo :=
  let w := if mpeg1 then 4 else 9
  let b := a + 30 + w
  let switched := fb.field (a + 29 + w) 1 = 1
  let blockType := fb.field b 2
  let mixed := fb.field (b + 2) 1 = 1
  let region0 : Nat := if blockType = 2 ∧ ¬mixed then 8 else 7
  let f5 (p : Nat) : BitVec 5 := BitVec.ofNat 5 (fb.field p 5)
  let f3 (p : Nat) : BitVec 3 := BitVec.ofNat 3 (fb.field p 3)
  let tail := b + 22 + (if mpeg1 then 1 else 0)
  { part23Length := BitVec.ofNat 12 (fb.field a 12)
    bigValues := BitVec.ofNat 9 (fb.field (a + 12) 9)
    globalGain := BitVec.ofNat 8 (fb.field (a + 21) 8)
    scalefacCompress := BitVec.ofNat 9 (fb.field (a + 29) w)
    windowSwitching := decide switched
    blockType := if switched then BitVec.ofNat 2 blockType else 0
    mixedBlock := decide (switched ∧ mixed)
    tableSelect := if switched then ⟨f5 (b + 3), f5 (b + 8), 0⟩ else ⟨f5 b, f5 (b + 5), f5 (b + 10)⟩
    subblockGain := if switched then ⟨f3 (b + 13), f3 (b + 16), f3 (b + 19)⟩ else ⟨0, 0, 0⟩
    region0Count := if switched then BitVec.ofNat 4 region0 else BitVec.ofNat 4 (fb.field (b + 15) 4)
    region1Count := if switched then BitVec.ofNat 5 (20 - region0) else BitVec.ofNat 5 (fb.field (b + 19) 3)
    preflag := decide (mpeg1 = true ∧ fb.field (b + 22) 1 = 1)
    scalefacScale := decide (fb.field tail 1 = 1)
    count1TableSelect := decide (fb.field (tail + 1) 1 = 1) }

/-- Where the frame body's side info begins (R109). -/
def State.sideInfoStart (s : State) : Nat := if s.head.fields.prot then 0 else 16

/-- The widths of main_data_begin, private_bits and all scfsi bits, and of a granule-channel block (R120-R122). -/
def State.sideInfoWidths (s : State) : Nat × Nat × Nat × Nat :=
  if s.head.fields.version = .mpeg1 then (9, if s.nch = 1 then 5 else 3, 4 * s.nch, 59)
  else (8, if s.nch = 1 then 1 else 2, 0, 63)

/-- The block of (gr, ch) in the frame body (R120-R122): the blocks stand granule by granule. -/
def State.sideInfoBlock (gr ch : Fin 2) (s : State) : GranuleInfo :=
  let w := s.sideInfoWidths
  s.fb.block (decide (s.head.fields.version = .mpeg1))
    (s.sideInfoStart + w.1 + w.2.1 + w.2.2.1 + w.2.2.2 * (s.nch * gr.val + ch.val))

/-! ### Scale factors in stream order (R243-R247) -/

/-- The flat index of a band's factor: the place at which the stream has it (R243, R244, R247). `longs` is the
number of long bands a mixed block has. -/
def flatShort (mixed : Bool) (longs w b : Nat) : Nat := if mixed then longs + 3 * (b - 3) + w else 3 * b + w

/-- The width of factor `k` of an MPEG1 granule-channel in stream order (R242-R244); 0 for one that is not
read because its partition is shared. -/
def mpeg1Width (g : GranuleInfo) (shared : Nat → Bool) (k : Nat) : Nat :=
  let s1 := slen0 g.scalefacCompress.toNat
  let s2 := slen1 g.scalefacCompress.toNat
  if g.short then (if k < (if g.mixedBlock then 17 else 18) then s1 else s2)
  else if k < 6 then (if shared 0 then 0 else s1)
  else if k < 11 then (if shared 1 then 0 else s1)
  else if k < 16 then (if shared 2 then 0 else s2)
  else (if shared 3 then 0 else s2)

/-- The partition of long band `b` (R243). -/
def scfPartition (b : Nat) : Nat := if b < 6 then 0 else if b < 11 then 1 else if b < 16 then 2 else 3

/-- How many factors a block has in the stream: 21 long, 36 short, 35 or 33 mixed (R243, R244, R246). -/
def scfCount (g : GranuleInfo) (longs : Nat) : Nat :=
  if g.short then (if g.mixedBlock then longs + 27 else 36) else 21

/-- The width of factor `k` of an LSF granule-channel (R245, R246): the slen of the partition that `k` is in. -/
def lsfWidth (n slen : List Nat) (k : Nat) : Nat :=
  match n, slen with
  | c :: n, w :: slen => if k < c then w else lsfWidth n slen (k - c)
  | _, _ => 0

/-- `v` is factor `k` in stream order: the field of its width after all factors before it (R246). -/
def ScfField (r : Resv) (width : Nat → Nat) (k v : Nat) : Prop :=
  v = r.field (∑ i ∈ Finset.range k, width i) (width k)

/-- The factors of channel state `c` after READ_SCALEFACTORS found `old` and read the stream `r` (R243, R244,
R246): each factor of the block from its place, a shared one kept, the last bands 0, every other kept. -/
structure ScfRead (r : Resv) (g : GranuleInfo) (longs : Nat) (width : Nat → Nat) (shared : Nat → Bool)
    (old new : Scf) : Prop where
  long : g.short = false → ∀ b < 21,
    (shared (scfPartition b) = true → new.long b = old.long b) ∧
    (shared (scfPartition b) = false → ScfField r width b (new.long b))
  longTop : g.short = false → new.long 21 = 0 ∧ new.long 22 = 0 ∧ new.S = old.S
  short : g.short = true → ∀ w < 3, ∀ b < 12, (g.mixedBlock = true → 3 ≤ b) →
    ScfField r width (flatShort g.mixedBlock longs w b) (new.shortAt w b)
  shortTop : g.short = true → ∀ w < 3, new.shortAt w 12 = 0
  mixed : g.short = true → g.mixedBlock = true →
    (∀ b < longs, ScfField r width b (new.long b)) ∧ (∀ b, longs ≤ b → new.long b = old.long b) ∧
    (∀ w < 3, ∀ b < 3, new.shortAt w b = old.shortAt w b)
  pure : g.short = true → g.mixedBlock = false → new.L = old.L

/-! ### Huffman codes as an encoder writes them (R280-R285) -/

/-- The `n` low bits of `v`, the most significant first. -/
def bitsOf (n v : Nat) : List Bool := (List.range n).map fun i => v.testBit (n - 1 - i)

/-- The escape and the sign of a value `v` coded as `x` in table `t` (R283). -/
def valueBits (t x : Nat) (v : Int) : List Bool :=
  (if 0 < linbits t ∧ x = 15 then bitsOf (linbits t) (v.natAbs - 15) else []) ++
    (if v = 0 then [] else [decide (v < 0)])

/-- `x` is how table `t` codes the magnitude of `v`: 15 and an escape from 15 on where there are linbits. -/
def Codes (t x : Nat) (v : Int) : Prop :=
  if 0 < linbits t ∧ x = 15 then 15 ≤ v.natAbs ∧ v.natAbs < 15 + 2 ^ linbits t else v.natAbs = x

/-- `code` is the bits of the pair `(u, v)` in table `t` (R282, R283). -/
def PairCode (t : Nat) (u v : Int) (code : List Bool) : Prop :=
  if t = 0 then u = 0 ∧ v = 0 ∧ code = []
  else ∃ word x y, (word, (x, y)) ∈ bigCodebook t ∧ Codes t x u ∧ Codes t y v ∧
    code = word ++ valueBits t x u ++ valueBits t y v

/-- A sign bit for a value that is not 0 (R285). -/
def signBits (v : Int) : List Bool := if v = 0 then [] else [decide (v < 0)]

/-- `code` is the bits of the quad `(v, w, x, y)` in a count1 table (R285). -/
def QuadCode (book : Codebook Quad) (v w x y : Int) (code : List Bool) : Prop :=
  ∃ word a b c d, (word, (a, b, c, d)) ∈ book ∧ v.natAbs = Bool.toNat a ∧ w.natAbs = Bool.toNat b ∧
    x.natAbs = Bool.toNat c ∧ y.natAbs = Bool.toNat d ∧
    code = word ++ signBits v ++ signBits w ++ signBits x ++ signBits y

/-- `code` is the bits of the pairs `i, i + 1, …`, pair `j` in table `table j`; `values` are their values. -/
inductive PairsCode (table : Nat → Nat) : Nat → List Int → List Bool → Prop where
  | nil (i : Nat) : PairsCode table i [] []
  | cons (i : Nat) (u v : Int) (values : List Int) (code rest : List Bool) : PairCode (table i) u v code →
      PairsCode table (i + 1) values rest → PairsCode table i (u :: v :: values) (code ++ rest)

/-- `code` is the bits of quads one after the other; `values` are their values. -/
inductive QuadsCode (book : Codebook Quad) : List Int → List Bool → Prop where
  | nil : QuadsCode book [] []
  | cons (v w x y : Int) (values : List Int) (code rest : List Bool) : QuadCode book v w x y code →
      QuadsCode book values rest → QuadsCode book (v :: w :: x :: y :: values) (code ++ rest)

/-! ### Stereo, line by line (R340-R346) -/

/-- Line `j` after STEREO where it is no legal intensity line: MS if MS_ON (R341), else unchanged. -/
def PlainLine (msOn : Bool) (a b l r : Lines Num) (j : Nat) : Prop :=
  if msOn then
    Rounds (lineAt l j) (fun val => (val (lineAt a j) + val (lineAt b j)) / √2) ∧
    Rounds (lineAt r j) (fun val => (val (lineAt a j) - val (lineAt b j)) / √2)
  else lineAt l j = lineAt a j ∧ lineAt r j = lineAt b j

/-- Line `j` after STEREO where it is a legal intensity line with the gains `k` (R346). -/
def IntensityLine (k : ℝ × ℝ) (a l r : Lines Num) (j : Nat) : Prop :=
  Rounds (lineAt l j) (fun val => val (lineAt a j) * k.1) ∧
  Rounds (lineAt r j) (fun val => val (lineAt a j) * k.2)

/-- The position `p` of a band with flat index `idx` is illegal (R247, R346). -/
def IllegalPosition (v : Version) (i : LsfInfo) (idx p : Nat) : Prop :=
  if v = .mpeg1 then 7 ≤ p
  else ∃ part < 4, ((nrOfSfbBlock i.blockNum i.blockTypeNum).take part).sum ≤ idx ∧
    idx < ((nrOfSfbBlock i.blockNum i.blockTypeNum).take (part + 1)).sum ∧
    p = 2 ^ (i.slen.toList.map Fin.val).getD part 0 - 1

/-- The right channel is 0 in window `w` of every short band from `bb` on (R344). -/
def SilentFrom (sfreq : Fin 9) (b : Lines Num) (w bb : Nat) : Prop :=
  ∀ bb' < 13, bb ≤ bb' → ∀ f, f < sfbShort sfreq (bb' + 1) - sfbShort sfreq bb' →
    lineAt b (3 * sfbShort sfreq bb' + 3 * f + w) = .zero

/-- Line `j` of an intensity-coded frame: if `inRegion`, with position `p` of flat index `idx`, it is an
intensity line unless the position is illegal; in every other case it is a plain line (R340, R346). -/
def StereoLine (s : State) (gr : Fin 2) (inRegion : Prop) (p idx : Nat) (l r : Lines Num) (j : Nat) : Prop :=
  let a := s.chan.c0.xr
  let b := s.chan.c1.xr
  let v := s.head.fields.version
  let k := intensityGains (decide (v = .mpeg1)) ((s.info gr 1).scalefacCompress.getLsbD 0) p
  (inRegion ∧ ¬IllegalPosition v s.chan.c1.lsf idx p → IntensityLine k a l r j) ∧
  (¬(inRegion ∧ ¬IllegalPosition v s.chan.c1.lsf idx p) → PlainLine s.msOn a b l r j)

/-- STEREO gr completes, with lines `l` and `r` that meet `rel` before the channel selection of R350: its
downmix rounds their average into XR[0]. -/
def StereoRuns (gr : Fin 2) (s : State) (rel : Lines Num → Lines Num → Prop) : Prop :=
  ∃ l r l' t, exec (.stereo gr) s = .next t ∧ t.Agrees (s.stereoDone l' r) ∧
    (s.clean → rel l r ∧
      (s.nch = 2 ∧ s.ctrl.chsel = .downmix → ∀ j < 576,
        Rounds (lineAt l' j) fun val => (val (lineAt l j) + val (lineAt r j)) / 2) ∧
      (¬(s.nch = 2 ∧ s.ctrl.chsel = .downmix) → l' = l))

/-! ### The input stream and a frame in it (R82, R86, R150-R158) -/

/-- The four bytes of a header word, the most significant first (R82). -/
def headerBytes (h : Word) : List Byte :=
  [h.extractLsb' 24 8, h.extractLsb' 16 8, h.extractLsb' 8 8, h.extractLsb' 0 8]

/-- Bytes as the port presents them. -/
def asData (l : List Byte) : List Transfer := l.map Transfer.data

/-- The next bytes of the stream `i` are `l`, and then it is `j`: they stand in PB, or PB and then the port present
them (R86). -/
def InStream.Gives (l : List Byte) (i j : InStream) : Prop :=
  (i.pb = l ++ j.pb ∧ j.inEof = i.inEof ∧ j.port = i.port) ∨
  (i.inEof = false ∧ j.pb = [] ∧ j.inEof = false ∧ ∃ a, l = i.pb ++ a ∧ i.port = asData a ++ j.port)

/-- The next InByte reports the end of the stream (R86). -/
def InStream.AtEnd (i : InStream) : Prop := i.pb = [] ∧ (i.inEof = true ∨ ∃ l, i.port = .eof :: l)

/-- The next InByte reports an I/O error (R86). -/
def InStream.AtError (i : InStream) : Prop := i.pb = [] ∧ i.inEof = false ∧ ∃ l, i.port = .ioerr :: l

/-- The next InByte does not wait. -/
def InStream.Ready (i : InStream) : Prop := i.pb ≠ [] ∨ i.inEof = true ∨ i.port ≠ []

/-- A header word that SYNC may accept: not reserved (R108), in the rate table (R159), its body in FB (R162). -/
def LegalHeader (h : Word) : Prop :=
  h.extractLsb' 10 2 ≠ 3 ∧ h.extractLsb' 17 2 ≠ 0 ∧ h.extractLsb' 19 2 ≠ 1 ∧
  h.extractLsb' 12 4 ≠ 0 ∧ h.extractLsb' 12 4 ≠ 15 ∧ frameSize (parseHeader h) ≤ Config.frameBufBytes

/-- `h` is a sync mark in the mode in force (R154). -/
def State.marks (h : Word) (s : State) : Prop := h.extractLsb' 21 11 = 0x7FF#11 ∧ isSyncMark h s.ref = true

/-- `h` is a header with a frame size, and `body` is as long as that. -/
def State.frameOf (h : Word) (body : List Byte) (s : State) : Prop :=
  s.marks h ∧ LegalHeader h ∧ body.length = frameSize (parseHeader h)

/-- The frame `h` with `body` is next in the stream, wherever the split between PB and the port, and the end of the
stream or another sync mark follows (R158); `k` is the stream that remains, a following header pushed back. -/
def State.hasFrame (h : Word) (body : List Byte) (k : InStream) (s : State) : Prop :=
  s.frameOf h body ∧ ∃ j, s.stream.Gives (headerBytes h ++ body) j ∧
    ((j.AtEnd ∧ k = { j with inEof := true }) ∨
     ∃ q r, isSyncMark q s.ref = true ∧ j.Gives (headerBytes q) r ∧ k = { r with pb := headerBytes q ++ r.pb })

/-- The size in an ID3 tag header (R152). -/
def id3Size (s0 s1 s2 s3 : Byte) : Nat :=
  (s0.toNat % 128) * 2 ^ 21 + (s1.toNat % 128) * 2 ^ 14 + (s2.toNat % 128) * 2 ^ 7 + s3.toNat % 128

/-- The bytes `l` from an empty window on leave SYNC inside something that needs further bytes: a first window
(R151), an ID3 tag (R152) or the body of a candidate (R162). -/
def State.Unfinished (l : List Byte) (s : State) : Prop :=
  l.length < 4 ∨
  (∃ tag, l = [0x49, 0x44, 0x33] ++ tag ∧
    (tag.length < 7 ∨
      tag.length < 7 + id3Size (tag.getD 3 0) (tag.getD 4 0) (tag.getD 5 0) (tag.getD 6 0))) ∨
  ∃ h body, l = headerBytes h ++ body ∧ s.marks h ∧ LegalHeader h ∧ body.length < frameSize (parseHeader h)

/-! ### The output of a command that waits (R92, R427) -/

/-- How many sample words there are. -/
def sampleCount (l : List OutWord) : Nat :=
  (l.filter fun w => match w with
    | .sample _ => true
    | .frameEnd => false
    | .streamReset => false).length

/-- Events one after the other, for as long as the command in progress waits. -/
def whileBusy : List Event → State → State
  | [], s => s
  | e :: rest, s =>
    if s.busy then
      match event e s with
      | .next t => whileBusy rest t
      | .fault _ => s
      | .refused _ => s
    else s

/-! ### Invariants -/

/-- A memory in canonical form that lists only addresses below `n`. -/
def Memory.Within (m : Memory) (n : Nat) : Prop := m.wf = true ∧ ∀ c ∈ m, c.1 < n

/-- The bytes of the frame body that a scan has taken or will take for its candidate. -/
def SyncPhase.bodySize : SyncPhase → Nat
  | .fill _ _ => 0
  | .shift _ => 0
  | .tag _ => 0
  | .skip _ => 0
  | .body _ left rev => rev.length + left + 1
  | .probe _ bs _ => bs.length

/-- The bytes of the next-header probe that a scan has taken. -/
def SyncPhase.probeSize : SyncPhase → Nat
  | .fill _ _ => 0
  | .shift _ => 0
  | .tag _ => 0
  | .skip _ => 0
  | .body _ _ _ => 0
  | .probe _ _ rev => rev.length

/-- The scan the command in progress waits in; a scan not begun if it waits in none. -/
def State.phase (s : State) : SyncPhase :=
  match s.held with
  | some (.sync p _) => p
  | some (.emit _ _ _) => .begin
  | none => .begin

/-- FB and RESV are in canonical form and inside their arrays, and the cursors keep their bounds and their
relations (R40, R42, R43, R201). -/
structure StorageInv (s : State) : Prop where
  resvCells : s.rs.resv.cells.Within Config.resvBytes
  fbCells   : s.fb.cells.Within Config.frameBufBytes
  fbLen     : s.fb.len ≤ Config.frameBufBytes
  fbCursor  : s.fb.bitpos ≤ 8 * s.fb.len
  history   : s.rs.resv.avail + s.rs.resv.hist ≤ Config.resvBits
  tell      : s.rs.resv.totbit.toNat % Config.resvBits = s.rs.resv.rptr.toNat
  ring      : s.clean → (s.rs.resv.rptr.toNat + s.rs.resv.avail) % Config.resvBits = s.rs.resv.wptr
  scan      : s.phase.bodySize ≤ Config.frameBufBytes

/-- PB stays within PB_BYTES, with what the scan in progress may still unread (R41, R87). -/
structure PushbackInv (s : State) : Prop where
  bound : s.pb.length + s.phase.retained ≤ Config.pbBytes
  scan  : s.phase.bodySize ≤ Config.frameBufBytes
  probe : s.phase.probeSize ≤ 3

/-- NONZERO, the zero fill and the range of the quantised lines (R46, R51). -/
structure QuantInv (s : State) : Prop where
  count : ∀ ch, (s.chan.get ch).nonzero ≤ 576
  zeros : ∀ ch j, (s.chan.get ch).nonzero ≤ j → quantAt (s.chan.get ch).is j = 0
  range : ∀ ch j, (quantAt (s.chan.get ch).is j).natAbs ≤ 8206

/-- The granule-channel that READ_SCALEFACTORS opened and HUFFMAN_DECODE has not closed is NEXT_GC, and
NEXT_GC counts to 4 (R45, R421). -/
structure OrderInv (s : State) : Prop where
  next : s.order.nextGc.toNat ≤ 4
  opened : ∀ ch, (s.chan.get ch).stage = .sf →
    s.status.hdrValid = true ∧ s.status.layer3 = true ∧ ch.val < s.nch ∧ s.order.partOpen = true ∧
    s.order.nextGc.toNat = (s.chan.get ch).grp.val * s.nch + ch.val ∧ s.order.nextGc.toNat < 4
  scan : ∀ p f, s.held = some (.sync p f) → ∀ ch, (s.chan.get ch).stage = .idle

/-- A scan in the body or the probe of a candidate is about a legal header, with the body its rule gives. -/
def SyncPhase.Legal : SyncPhase → Prop
  | .fill _ _ => True
  | .shift _ => True
  | .tag _ => True
  | .skip _ => True
  | .body h left rev => LegalHeader h ∧ rev.length + left + 1 = frameSize (parseHeader h)
  | .probe h bs _ => LegalHeader h ∧ bs.length = frameSize (parseHeader h)

/-- HDR_VALID = 1, and the header state is specified (R438). -/
def State.headerKnown (s : State) : Prop := s.status.hdrValid = true ∧ s.clean

/-- While HDR_VALID = 1 the header state is what the rules derive from HDR (R36, R157, R160, R161); of the values
that are unspecified after a fault (R438) only with none recorded. -/
structure HeaderInv (s : State) : Prop where
  legal  : s.headerKnown → LegalHeader s.head.hdr
  fields : s.headerKnown → s.head.fields = parseHeader s.head.hdr
  size   : s.headerKnown → s.head.frameSize = frameSize s.head.fields
  slots  : s.headerKnown → s.head.slots = slotCount s.head.fields s.head.frameSize
  body   : s.headerKnown → s.fb.len = s.head.frameSize
  flags  : s.status.hdrValid = true →
    (s.status.layer3 = true ↔ s.head.fields.layer = 3) ∧
    (s.status.lsf = true ↔ s.head.fields.version ≠ .mpeg1) ∧
    (s.status.nch2 = true ↔ s.head.fields.nch = 2)
  mode   : s.status.hdrValid = true → s.ref.mode = .strict
  scan   : s.phase.Legal

/-- The life cycle of a command (R425-R428, R430, R438): while one waits, DONE is 0, ERR is 0 and FATAL is
0; a wait in Emit has words left, at most a granule's; after a fault, FAULT is 1. -/
structure LifeInv (s : State) : Prop where
  waiting : s.busy = true → s.status.done = false ∧ s.status.err = .ok ∧ s.status.fatal = false
  words   : ∀ ch l f, s.held = some (.emit ch l f) → l ≠ [] ∧ l.length ≤ 576
  fault   : s.rs.log.tainted = true → s.rs.log.sticky = true

/-- A command in progress is held only by a port (R91, R92, R427): in InByte there is no byte to take and no
end of stream, in Emit the sink takes no word. -/
structure WaitInv (s : State) : Prop where
  input  : ∀ p f, s.held = some (.sync p f) → s.pb = [] ∧ s.inEof = false ∧ s.env.port = []
  output : ∀ ch l f, s.held = some (.emit ch l f) → s.env.sink = 0

end Machine

end Sys2Proof
end

