-- ==== Sys2Proof/Certificates/Slice0/Obligations.lean ====
section
/-! DEFINITION. The statements for the provers. `exec` is a command (R103), `hostWrite` and `hostRead` a bus
access (R80), `event` anything at the block's interfaces, `step` the next such event. `endedWith` is what the
life cycle alone leaves (R425); a record update of it says that everything it does not name is unchanged. A
statement about values has `clean` as a premise: no fault recorded (R201, R438). `t.Agrees u` says that t is u, but
for the values that are unspecified if a fault has been recorded. Wherever no `clean` is a premise, that the other items
(cursors, stages, STATUS) are exact then is the model's reading of R438: log entry 10 (DEDUCED). -/

open Sys2Proof Sys2Proof.Machine

/-! ### Command words (R100-R105, R130) -/

/-- Words written out from R130 and R101 decode to their commands, every operand at its bits. -/
def Obligations.WrittenWordsDecode : Prop :=
  decode 0x00000000#32 = .ok .nop ∧
  decode 0x00000012#32 = .ok .loadMainData ∧
  decode 0x00A50020#32 = .ok (.rbPutByte 0xA5#16) ∧
  decode 0x00200021#32 = .ok (.rbReadBits 32#16) ∧
  decode 0xFFFF0022#32 = .ok (.rbRewindBits 0xFFFF#16) ∧
  decode 0x00000130#32 = .ok (.readScalefactors 0 1) ∧
  decode 0x00000234#32 = .ok (.stereo 1) ∧
  decode 0x00000338#32 = .ok (.emit 1 1)

/-- Decoding the word of a well-formed command gives the command back, with every operand. -/
def Obligations.DecodeOfEncode : Prop := ∀ i : Instr, i.wf = true → decode (encode i) = .ok i

/-- A word that decodes to a command is the word of that command, and the command is well-formed. -/
def Obligations.EncodeOfDecode : Prop := ∀ (w : Word) (i : Instr), decode w = .ok i → encode i = w ∧ i.wf = true

/-- R102: with no command in progress, a word that R103's table allows executes a command; any other word ends
with ILLEGAL_CMD and nothing else but the life-cycle effects. -/
def Obligations.CommandWordLegality : Prop :=
  ∀ (w : Word) (s : State), s.busy = false →
    (LegalWord w → ∃ i, decode w = .ok i ∧ hostWrite 0x04 .w32 w s = exec i s) ∧
    (¬LegalWord w → hostWrite 0x04 .w32 w s = .next (s.endedWith .illegalCmd))

/-- A step whose event is a host write of a command word to CMD is `exec` of that command (R100), and the word that
`withFetchWord` places is the next command the machine runs (log entry 7). -/
def Obligations.StepRunsTheCommand : Prop :=
  (∀ (s : State) (w : Word) (i : Instr) (rest : List Event), s.busy = false →
    s.env.host = .write 0x04 .w32 w :: rest → decode w = .ok i →
    step s = exec i { s with env := { s.env with host := rest } }) ∧
  ∀ (s : State) (w : Nat) (i : Instr), decodeTableWord 32 w = some i →
    step (s.withFetchWord 32 w) = exec i { s with held := none }

/-! ### The host's bus, STATUS and irq -/

/-- R426: a CMD write while BUSY = 1 changes nothing but STATUS.OVERRUN, which stays until power-on reset. -/
def Obligations.CommandWhileBusy : Prop :=
  (∀ (w : Word) (s : State), s.busy = true →
    hostWrite 0x04 .w32 w s = .next { s with status := { s.status with overrun := true } }) ∧
  ∀ s t : State, s.status.overrun = true → s.env.host.head? ≠ some .powerOnReset → step s = .next t →
    t.status.overrun = true

/-- R428: after FATAL every command but NOP ends with FATAL_IO and no effect; NOP runs; FATAL stays until
power-on reset, which clears it. -/
def Obligations.FatalLocksOut : Prop :=
  (∀ (i : Instr) (s : State), s.status.fatal = true → i ≠ .nop → exec i s = .next (s.endedWith .fatalIo)) ∧
  (∀ s : State, s.status.fatal = true → exec .nop s = .next (s.endedWith .ok)) ∧
  (∀ s t : State, s.status.fatal = true → s.env.host.head? ≠ some .powerOnReset → step s = .next t →
    t.status.fatal = true) ∧
  ∀ s t : State, s.env.host.head? = some .powerOnReset → step s = .next t → t.status.fatal = false

/-- R32, R80, R88, R90: a narrow or misaligned write is ignored and such a read returns 0; an aligned write to a
read-only or reserved offset, which is every one but CTRL and CMD, is ignored; a read changes no state of the block,
and while no command is in progress returns the register; STATUS is always current. -/
def Obligations.BusAccesses : Prop :=
  ∀ (off : BitVec 8) (width : Width) (w : Word) (s : State),
    (¬(width = .w32 ∧ off.toNat % 4 = 0) →
      hostWrite off width w s = .next s ∧ hostRead off width s = s.returns 0) ∧
    (off ≠ 0x00 → off ≠ 0x04 → hostWrite off width w s = .next s) ∧
    (∃ v k, hostRead off width s = { s with
      env := { s.env with rdata := v }
      rs := { s.rs with log := { s.rs.log with draws := k } } }) ∧
    (width = .w32 → off.toNat % 4 = 0 → s.busy = false → hostRead off width s = s.returns (s.register off)) ∧
    hostRead 0x08 .w32 s = s.returns s.statusWord

/-- R32, R34: the register at every offset, and the places of the fields in STATUS, STAGE, NONZERO, CRC and SYNC_CFG;
CMD and the reserved offsets read 0. R431, R45: the number that
STATUS.ERR shows for each error code and STAGE for each stage. -/
def Obligations.RegisterLayout : Prop :=
  ∀ s : State,
    (let w := s.register 0x08
     w.getLsbD 0 = s.busy ∧ w.getLsbD 1 = s.status.done ∧ w.getLsbD 2 = s.status.eos ∧
     w.getLsbD 3 = s.status.skipped ∧ w.getLsbD 4 = s.status.crcMismatch ∧ w.getLsbD 5 = s.rs.log.sticky ∧
     w.getLsbD 6 = s.status.fatal ∧ w.getLsbD 7 = s.status.overrun ∧ w.extractLsb' 8 8 = s.status.err.code ∧
     w.getLsbD 16 = s.status.nch2 ∧ w.getLsbD 17 = s.status.hdrValid ∧ w.getLsbD 18 = s.status.layer3 ∧
     w.getLsbD 19 = s.status.lsf ∧ w.extractLsb' 20 12 = 0 ∧
     ∀ e n, (e, n) ∈ [(Err.ok, 0x00#8), (.illegalCmd, 0x01), (.endOfStream, 0x02), (.badOperand, 0x03),
         (.notLayer3, 0x04), (.sequence, 0x05), (.sideinfoInvalid, 0x10), (.unsupported, 0x11), (.crcReject, 0x12),
         (.frameSkipped, 0x13), (.resvOverread, 0x20), (.resvOverrewind, 0x21), (.resvOverflow, 0x22),
         (.huffmanInvalid, 0x23), (.frameBufOverread, 0x24), (.fatalIo, 0x30)] →
       (s.status.err = e ↔ w.extractLsb' 8 8 = n)) ∧
    (let w := s.register 0x48
     w.extractLsb' 0 4 = s.chan.c0.stage.code ∧ w.extractLsb' 4 4 = s.chan.c1.stage.code ∧
     w.getLsbD 8 = decide (s.chan.c0.grp = 1) ∧ w.getLsbD 9 = decide (s.chan.c1.grp = 1) ∧
     w.extractLsb' 10 3 = s.order.nextGc ∧ w.getLsbD 13 = s.order.partOpen ∧ w.extractLsb' 14 18 = 0 ∧
     ∀ x n, (x, n) ∈ [(Stage.idle, 0#4), (.si, 1), (.md, 2), (.sf, 3), (.huf, 4), (.dq, 5), (.ro, 6), (.st, 7),
         (.aa, 8), (.hy, 9), (.fi, 10), (.em, 11)] →
       (s.chan.c0.stage = x ↔ w.extractLsb' 0 4 = n) ∧ (s.chan.c1.stage = x ↔ w.extractLsb' 4 4 = n)) ∧
    (let w := s.register 0x4C
     w.extractLsb' 0 10 = BitVec.ofNat 10 s.chan.c0.nonzero ∧ w.extractLsb' 10 6 = 0 ∧
     w.extractLsb' 16 10 = BitVec.ofNat 10 s.chan.c1.nonzero ∧ w.extractLsb' 26 6 = 0) ∧
    (let w := s.register 0x3C
     w.extractLsb' 0 16 = s.crc.crcRead ∧ w.extractLsb' 16 16 = s.crc.crcCalc) ∧
    (let w := s.register 0x20
     w.getLsbD 0 = decide (s.ref.mode = .strict) ∧ w.getLsbD 1 = s.ref.singleCh ∧ w.extractLsb' 2 30 = 0) ∧
    (s.register 0x0C = s.result ∧ s.register 0x10 = s.head.hdr ∧ s.register 0x1C = s.ref.word ∧
     s.register 0x24 = s.book.frameStart ∧ s.register 0x28 = s.book.mainDataEnd ∧ s.register 0x2C = s.book.discard ∧
     s.register 0x30 = s.rs.resv.totbit ∧ s.register 0x40 = s.resync ∧
     (s.register 0x14).toNat = s.head.frameSize % 2 ^ 32 ∧ (s.register 0x18).toNat = s.head.slots % 2 ^ 32 ∧
     (s.register 0x34).toNat = 8 * s.rs.resv.wbyte.toNat ∧ (s.register 0x38).toNat = s.rs.resv.rptr.toNat ∧
     (s.register 0x44).toNat = s.fb.bitpos % 2 ^ 32) ∧
    s.register 0x04 = 0 ∧ ∀ off : BitVec 8, 0x50 ≤ off.toNat → s.register off = 0

/-- R33: CTRL is stored from bits 3:0 and reads back with the reserved bits 0; a write to it changes nothing
else, not what a command in progress sampled. -/
def Obligations.CtrlWrite : Prop :=
  ∀ (w : Word) (s : State), ∃ c : Ctrl, hostWrite 0x00 .w32 w s = .next { s with ctrl := c } ∧
    ({ s with ctrl := c } : State).register 0x00 = w &&& 0xF#32 ∧ c.irqEn = w.getLsbD 0 ∧
    c.crcStrict = w.getLsbD 3 ∧
    (c.chsel = .both ↔ w.extractLsb' 1 2 = 0) ∧ (c.chsel = .left ↔ w.extractLsb' 1 2 = 1) ∧
    (c.chsel = .right ↔ w.extractLsb' 1 2 = 2) ∧ (c.chsel = .downmix ↔ w.extractLsb' 1 2 = 3)

/-- R440: `irq` is IRQ_EN AND DONE: raised when a command ends, at once or after a wait, whatever its code; cleared by
a CMD write whose command waits and by writing IRQ_EN = 0; an ignored CMD write does not change it. (That an
IRQ_EN written while a command waits acts on it at once is the model's reading: log entry 22.) -/
def Obligations.IrqFollowsDone : Prop :=
  (∀ s : State, s.irq = (s.ctrl.irqEn && s.status.done)) ∧
  (∀ (w : Word) (s t : State), s.busy = false → hostWrite 0x04 .w32 w s = .next t →
    t.irq = (s.ctrl.irqEn && !t.busy)) ∧
  (∀ (e : Event) (s t : State), e ≠ .powerOnReset → s.busy = true → event e s = .next t → t.busy = false →
    t.irq = t.ctrl.irqEn) ∧
  (∀ (w : Word) (s t : State), w.getLsbD 0 = false → hostWrite 0x00 .w32 w s = .next t → t.irq = false) ∧
  ∀ (w : Word) (s t : State), s.busy = true → hostWrite 0x04 .w32 w s = .next t → t.irq = s.irq

/-- R450: with no command in progress nothing at the ports changes a state item of the block. -/
def Obligations.IdleKeepsState : Prop :=
  ∀ s : State, s.busy = false →
    (s.env.host = [] → step s = .next s) ∧
    (∀ l, ∃ v, event (.present l) s = .next { s with env := v }) ∧
    (∀ l, ∃ v, event (.reposition l) s = .next { s with env := v }) ∧
    (∀ n, ∃ v, event (.sinkReady n) s = .next { s with env := v }) ∧
    ∀ off width, ∃ v, event (.read off width) s = .next { s with env := v }

/-- R460, R461: what power-on reset leaves, item by item; the ports' world is untouched. (VERSION reads as
MPEG1 at reset by log entry 8, which NGR = 2 of R461 calls for.) No other step clears FAULT or returns SYNC_MODE to
INITIAL (R37, R460). -/
def Obligations.PowerOnReset : Prop :=
  (∀ s t : State, s.env.host.head? ≠ some .powerOnReset → step s = .next t →
    (s.rs.log.sticky = true → t.rs.log.sticky = true) ∧ (s.ref.mode = .strict → t.ref.mode = .strict)) ∧
  ∀ s : State, ∃ t, event .powerOnReset s = .next t ∧ t.env = s.env ∧ t.busy = false ∧ t.irq = false ∧
    (∀ off : BitVec 8, t.register off = 0) ∧ t.nch = 2 ∧ t.ngr = 2 ∧ t.ref.mode = .initial ∧
    (∀ p, t.fb.cells.get p = 0) ∧ t.fb.len = 0 ∧ t.pb = [] ∧ t.inEof = false ∧
    (∀ p, t.rs.resv.bit p = false) ∧ t.rs.resv.avail = 0 ∧ t.rs.resv.hist = 0 ∧ t.crc.engine = 0 ∧
    (let h := t.head.fields
     h.layer = 0 ∧ h.prot = false ∧ h.brIdx = 0 ∧ h.srIdx = 0 ∧ h.padding = false ∧ h.mode = 0 ∧ h.modeExt = 0 ∧
     h.sfreq = 0) ∧
    t.si.mainDataBegin = 0 ∧ t.si.privateBits = 0 ∧ t.clean ∧
    (∀ gr ch, t.si.scfsi.get ch = 0 ∧ (t.si.gc.get gr).get ch = {
      part23Length := 0, bigValues := 0, globalGain := 0, scalefacCompress := 0, windowSwitching := false
      blockType := 0, mixedBlock := false, tableSelect := ⟨0, 0, 0⟩, subblockGain := ⟨0, 0, 0⟩, region0Count := 0
      region1Count := 0, preflag := false, scalefacScale := false, count1TableSelect := false }) ∧
    ∀ ch j, ((t.chan.get ch).scf.long j = 0 ∧ ∀ w, (t.chan.get ch).scf.shortAt w j = 0) ∧
      (t.chan.get ch).lsf = { slen := #v[0, 0, 0, 0], blockNum := 0, blockTypeNum := 0 } ∧ (t.chan.get ch).part2Start = 0 ∧ (t.chan.get ch).part23End = 0 ∧
      quantAt (t.chan.get ch).is j = 0 ∧ lineAt (t.chan.get ch).xr j = .zero ∧
      lineAt (t.chan.get ch).hout j = .zero ∧ lineAt (t.chan.get ch).prev j = .zero

/-- The invariants below hold right after power-on reset. -/
def Obligations.ResetMeetsInvariants : Prop :=
  StorageInv State.reset ∧ PushbackInv State.reset ∧ QuantInv State.reset ∧ OrderInv State.reset ∧
  HeaderInv State.reset ∧ LifeInv State.reset ∧ WaitInv State.reset

/-! ### NOP, RESET_STREAM and the reservoir commands -/

/-- R410: NOP always completes; RESULT = 0, ERR = OK, even after FATAL. -/
def Obligations.NopCompletes : Prop :=
  encode .nop = 0x00000000#32 ∧ ∀ s : State, ∃ t, exec .nop s = .next t ∧ t = s.endedWith .ok ∧ t.result = 0 ∧ t.status.err = .ok ∧
    t.status.done = true ∧ t.status.fatal = s.status.fatal ∧ t.busy = false

/-- R411: what RESET_STREAM resets, what it keeps, and its strobe; with FATAL = 1 only the life cycle. -/
def Obligations.ResetStreamCompletes : Prop :=
  encode .resetStream = 0x00000001#32 ∧
  (∀ s : State, s.live → ∃ t, exec .resetStream s = .next t ∧
    t = { s.endedWith .ok with
      status := { s.endStatus .ok with
        hdrValid := false, layer3 := false, lsf := false, nch2 := false, crcMismatch := false }
      rs := {
        resv := { cells := s.rs.resv.cells, wbyte := 0, rptr := 0, totbit := 0, avail := 0, hist := 0 }
        log := { s.freshLog with tainted := false } }
      book := { frameStart := 0, mainDataEnd := 0, discard := 0 }
      pb := []
      inEof := false
      fb := { s.fb with len := 0, bitpos := 0 }
      order := { nextGc := 0, partOpen := false }
      chan := t.chan
      env := { s.env with out := s.env.out ++ [.streamReset] } } ∧
    ∀ ch, t.chan.get ch = { s.chan.get ch with stage := .idle, grp := 0, prev := (t.chan.get ch).prev } ∧
      ∀ j, lineAt (t.chan.get ch).prev j = .zero) ∧
  ∀ s : State, s.status.fatal = true → exec .resetStream s = .next (s.endedWith .fatalIo)

/-- R202: RB_PUT_BYTE writes the byte's bits, the most significant first, at RB_WPTR, moves the cursors, and
records RESV_OVERFLOW exactly if 8 unread bits are overwritten; nothing else changes. With a fault on record the
cells and cursors are exact by log entry 10 (DEDUCED). -/
def Obligations.RbPutByteAppends : Prop :=
  (∀ imm : BitVec 16, encode (.rbPutByte imm) = imm ++ 0x0020#16 ∧
    ((Instr.rbPutByte imm).wf = true ↔ imm.toNat ≤ 0xFF)) ∧
  ∀ (b : Byte) (s : State), s.live → StorageInv s →
    ∃ t, exec (.rbPutByte (b.zeroExtend 16)) s = .next t ∧
      t.Agrees { s.endedWith (if s.rs.resv.avail + 8 ≤ 32768 then .ok else .resvOverflow) with rs := t.rs } ∧
      (∀ i < 8, t.rs.resv.bit (s.rs.resv.wptr + i) = b.getMsbD i) ∧
      (∀ p, (∀ i < 8, p % 32768 ≠ (s.rs.resv.wptr + i) % 32768) → t.rs.resv.bit p = s.rs.resv.bit p) ∧
      t.rs.resv.wptr = (s.rs.resv.wptr + 8) % 32768 ∧
      t.rs.resv.avail = min (s.rs.resv.avail + 8) 32768 ∧
      t.rs.resv.hist = min s.rs.resv.hist (32768 - t.rs.resv.avail) ∧
      t.rs.resv.rptr = s.rs.resv.rptr ∧ t.rs.resv.totbit = s.rs.resv.totbit ∧
      t.rs.log = { (if s.rs.resv.avail + 8 ≤ 32768 then s.freshLog
        else { s.freshLog with sticky := true, first := some .resvOverflow, tainted := true }) with
          draws := t.rs.log.draws } ∧
      (t.clean → t.rs.log = s.freshLog)

/-- R203: RB_READ_BITS moves the read cursor by n in every case, records RESV_OVERREAD exactly if n > RB_AVAIL,
and otherwise returns the n cells in stream order, the first as the most significant bit. RB_HIST after an over-read is
log entry 17 (R203 against R43), exact cursors with a fault on record log entry 10, both DEDUCED. -/
def Obligations.RbReadBitsReads : Prop :=
  (∀ imm : BitVec 16, encode (.rbReadBits imm) = imm ++ 0x0021#16 ∧
    ((Instr.rbReadBits imm).wf = true ↔ imm.toNat ≤ 32)) ∧
  ∀ (n : Nat) (s : State), n ≤ 32 → s.live →
    ∃ t, exec (.rbReadBits (BitVec.ofNat 16 n)) s = .next t ∧
      t.Agrees { s.endedWith (if n ≤ s.rs.resv.avail then .ok else .resvOverread) with
        result := t.result, rs := t.rs } ∧
      t.rs.resv = { s.rs.resv with
        rptr := BitVec.ofNat 15 (s.rs.resv.rptr.toNat + n)
        totbit := BitVec.ofNat 32 (s.rs.resv.totbit.toNat + n)
        hist := s.rs.resv.hist + min n s.rs.resv.avail
        avail := s.rs.resv.avail - n } ∧
      t.rs.log = { (if n ≤ s.rs.resv.avail then s.freshLog
        else { s.freshLog with sticky := true, first := some .resvOverread, tainted := true }) with
          draws := t.rs.log.draws } ∧
      (n = 0 → t.result = 0 ∧ t.rs.resv = s.rs.resv) ∧
      (n ≤ s.rs.resv.avail → s.clean → t.rs.log = s.freshLog ∧ t.result.toNat < 2 ^ n ∧
        ∀ i < n, t.result.getLsbD (n - 1 - i) = s.rs.resv.bit (s.rs.resv.rptr.toNat + i))

/-- R204: RB_TELL answers RB_TOTBIT and changes nothing else; with a fault on record that the cursors stay is log
entry 10 (DEDUCED). -/
def Obligations.RbTellAnswers : Prop :=
  encode .rbTell = 0x00000024#32 ∧
  ∀ s : State, s.live → ∃ t, exec .rbTell s = .next t ∧ t.Agrees { s.endedWith .ok with result := t.result } ∧
    (s.clean → t.result = s.rs.resv.totbit)

/-- R205, R206: both rewinds move the read cursor back by n bits in every case and record RESV_OVERREWIND
exactly if n > RB_HIST; the cells and everything else are unchanged. With a fault on record the cells and cursors are
exact by log entry 10 (DEDUCED). -/
def Obligations.RbRewinds : Prop :=
  (∀ imm : BitVec 16, encode (.rbRewindBits imm) = imm ++ 0x0022#16 ∧ (Instr.rbRewindBits imm).wf = true ∧
    encode (.rbRewindBytes imm) = imm ++ 0x0023#16 ∧
    ((Instr.rbRewindBytes imm).wf = true ↔ imm.toNat ≤ 4096)) ∧
  ∀ (n : Nat) (i : Instr) (s : State), s.live →
    (∃ imm : BitVec 16, i = .rbRewindBits imm ∧ n = imm.toNat) ∨
      (∃ imm : BitVec 16, i = .rbRewindBytes imm ∧ imm.toNat ≤ 4096 ∧ n = 8 * imm.toNat) →
    ∃ t, exec i s = .next t ∧
      t.Agrees { s.endedWith (if n ≤ s.rs.resv.hist then .ok else .resvOverrewind) with rs := t.rs } ∧
      t.rs.resv = { s.rs.resv with
        rptr := t.rs.resv.rptr
        totbit := t.rs.resv.totbit
        avail := min (s.rs.resv.avail + n) 32768
        hist := s.rs.resv.hist - n } ∧
      (t.rs.resv.rptr.toNat + n) % 32768 = s.rs.resv.rptr.toNat ∧
      (t.rs.resv.totbit.toNat + n) % 2 ^ 32 = s.rs.resv.totbit.toNat ∧
      t.rs.log = { (if n ≤ s.rs.resv.hist then s.freshLog
        else { s.freshLog with sticky := true, first := some .resvOverrewind, tainted := true }) with
          draws := t.rs.log.draws } ∧
      (t.clean → t.rs.log = s.freshLog)

/-- R84: bytes put in order into an empty reservoir and read back in 8-bit units return unchanged, wherever in
the ring the cursors stand. -/
def Obligations.ReservoirIsAFifo : Prop :=
  ∀ (l : List Byte) (s : State), s.live → s.clean → StorageInv s → s.rs.resv.avail = 0 → l.length ≤ 4096 →
    (runCommands (l.map (fun b => .rbPutByte (b.zeroExtend 16)) ++ l.map (fun _ => .rbReadBits 8)) s).1 =
      l.map (fun _ => 0) ++ l.map (fun b => b.zeroExtend 32)

/-- R207: the RB commands neither read nor change STAGE and the other channel items, the frame bookkeeping and the
part order: they commute with any other value of those; with FATAL = 0 no check refuses one. After a fault STAGE, GRP
and the part order still stay, but R438 leaves the values unspecified (log entry 10). -/
def Obligations.RbCommandsAreIsolated : Prop :=
  ∀ (i : Instr) (s t : State) (b : Book) (c : Two Chan) (o : PartOrder),
    i = .rbTell ∨ (∃ imm, i = .rbPutByte imm) ∨ (∃ imm, i = .rbReadBits imm) ∨ (∃ imm, i = .rbRewindBits imm) ∨
      (∃ imm, i = .rbRewindBytes imm) →
    exec i s = .next t →
    (t.clean → (t.book = s.book ∧ t.chan = s.chan) ∧
      exec i { s with book := b, chan := c, order := o } = .next { t with book := b, chan := c, order := o }) ∧
    t.order = s.order ∧
    (∀ ch, (t.chan.get ch).stage = (s.chan.get ch).stage ∧ (t.chan.get ch).grp = (s.chan.get ch).grp) ∧
    (s.live → t.status.err = .ok ∨ t.status.err = .resvOverread ∨ t.status.err = .resvOverrewind ∨
      t.status.err = .resvOverflow)

/-! ### SYNC -/

/-- R106, R154-R156, R160, R161, R170: what SYNC reads in a header word: every field at its bits, what a sync mark is
in each mode, the frame size from the rate tables of R60 and R61, the slot count, and the CRC of bits 15:0. -/
def Obligations.HeaderWord : Prop :=
  ∀ (h : Word) (ref : SyncRef),
    (let f (p n : Nat) : Nat := h.toNat / 2 ^ p % 2 ^ n
     let hd := parseHeader h
     ((f 19 2 = 3 → hd.version = .mpeg1) ∧ (f 19 2 = 2 → hd.version = .mpeg2) ∧ (f 19 2 = 0 → hd.version = .mpeg25) ∧
      (f 17 2 ≠ 0 → hd.layer.val + f 17 2 = 4) ∧ hd.prot = decide (f 16 1 = 1) ∧ hd.brIdx.toNat = f 12 4 ∧
      hd.srIdx.toNat = f 10 2 ∧ hd.padding = decide (f 9 1 = 1) ∧ hd.mode.toNat = f 6 2 ∧ hd.modeExt.toNat = f 4 2 ∧
      hd.nch = (if f 6 2 = 3 then 1 else 2) ∧ hd.ngr = (if f 19 2 = 3 then 2 else 1) ∧
      (f 19 2 ≠ 1 → f 10 2 ≠ 3 →
        hd.sfreq.val = f 10 2 + if f 19 2 = 3 then 3 else if f 19 2 = 2 then 0 else 6)) ∧
     (isSyncMark h ref = true ↔
      f 10 2 ≠ 3 ∧ f 17 2 ≠ 0 ∧ f 19 2 ≠ 1 ∧ (ref.mode = .initial → f 21 11 = 0x7FF) ∧
      (ref.mode = .strict → h &&& 0xFFFE0C00#32 = ref.word ∧ (f 6 2 = 3 ↔ ref.singleCh = true))) ∧
     (f 10 2 ≠ 3 → f 17 2 ≠ 0 → f 19 2 ≠ 1 → f 12 4 ≠ 0 → f 12 4 ≠ 15 →
      let kbps : List Nat :=
        if f 19 2 = 3 then
          if f 17 2 = 3 then [32, 64, 96, 128, 160, 192, 224, 256, 288, 320, 352, 384, 416, 448]
          else if f 17 2 = 2 then [32, 48, 56, 64, 80, 96, 112, 128, 160, 192, 224, 256, 320, 384]
          else [32, 40, 48, 56, 64, 80, 96, 112, 128, 160, 192, 224, 256, 320]
        else if f 17 2 = 3 then [32, 48, 56, 64, 80, 96, 112, 128, 144, 160, 176, 192, 224, 256]
        else [8, 16, 24, 32, 40, 48, 56, 64, 80, 96, 112, 128, 144, 160]
      let br := 1000 * kbps.getD (f 12 4 - 1) 0
      let hz := (if f 19 2 = 3 then [44100, 48000, 32000] else if f 19 2 = 2 then [22050, 24000, 16000]
        else [11025, 12000, 8000]).getD (f 10 2) 0
      frameSize hd + 4 =
        if f 17 2 = 3 then (12 * br / hz + f 9 1) * 4
        else (if f 19 2 = 3 then 144 * br / hz else 144 * br / hz / 2) + f 9 1) ∧
     (∀ n, slotCount hd n =
      if f 17 2 = 1 then
        n - (if f 19 2 = 3 then (if f 6 2 = 3 then 17 else 32) else (if f 6 2 = 3 then 9 else 17)) -
          (if f 16 1 = 1 then 0 else 2)
      else 0)) ∧
    (∀ (d : Bool) (crc : BitVec 16),
      crcBit d crc = (crc <<< 1) ^^^ (if (crc.getLsbD 15 ^^ d) = true then 0x8005#16 else 0#16)) ∧
    crcStart h = ((List.range 16).map fun i => h.getLsbD (15 - i)).foldl (fun crc d => crcBit d crc) 0xFFFF#16

/-- R157, R158: SYNC accepts a frame of the sync mode in force that the end of the stream or another sync mark
follows, also where a SYNC before has pushed its header back: the header state, the frame buffer, the strict
reference and the CRC words are its, RESULT is its header, and the stream stands right after its body. -/
def Obligations.SyncAcceptsFrame : Prop :=
  ∀ (h : Word) (body : List Byte) (k : InStream) (s : State), s.live → s.clean → StorageInv s → s.hasFrame h body k →
    ∃ t, exec .sync s = .next t ∧
      t = { s.endedWith .ok with
        result := h
        status := { s.endStatus .ok with
          crcMismatch := false, hdrValid := true, layer3 := decide ((parseHeader h).layer = 3)
          lsf := decide ((parseHeader h).version ≠ .mpeg1), nch2 := decide ((parseHeader h).nch = 2) }
        head := {
          hdr := h, fields := parseHeader h, frameSize := body.length
          slots := slotCount (parseHeader h) body.length }
        ref := t.ref, fb := t.fb, crc := t.crc, pb := k.pb, inEof := k.inEof
        chan := t.chan, env := { s.env with port := k.port } } ∧
      (s.ref.mode = .initial →
        t.ref = { word := h &&& 0xFFFE0C00#32, mode := .strict, singleCh := decide (h.extractLsb' 6 2 = 3) }) ∧
      (s.ref.mode = .strict → t.ref = s.ref) ∧
      t.fb.len = body.length ∧ (∀ i < body.length, t.fb.cells.get i = body.getD i 0) ∧
      (∀ i, body.length ≤ i → t.fb.cells.get i = s.fb.cells.get i) ∧
      t.fb.bitpos = (if h.getLsbD 16 then 0 else 16) ∧ t.crc.crcCalc = s.crc.crcCalc ∧
      t.crc.engine = crcStart h ∧
      t.crc.crcRead = (if h.getLsbD 16 then 0 else body.getD 0 0 ++ body.getD 1 0) ∧
      ∀ ch, t.chan.get ch = { s.chan.get ch with stage := .idle }

/-- R150, R151, R158, R159: what SYNC does with bytes it does not accept, as what it then does with the stream that
remains. A candidate without a frame size is dropped and counted; a candidate whose body no sync mark follows is
counted, its body and the probe come back; a window that is no candidate loses its first byte, uncounted (log
entry 21). -/
def Obligations.SyncRejects : Prop :=
  ∀ s : State, s.live →
    (∀ (h : Word) (j : InStream), s.marks h → h.extractLsb' 12 4 = 0 ∨ h.extractLsb' 12 4 = 15 →
      s.stream.Gives (headerBytes h) j → exec .sync s = exec .sync ({ s with resync := s.resync + 1 }.withStream j)) ∧
    (∀ (h : Word) (body : List Byte) (j k : InStream), s.frameOf h body → s.stream.Gives (headerBytes h ++ body) j →
      (∀ q : Word, isSyncMark q s.ref = false → j.Gives (headerBytes q) k →
        exec .sync s = exec .sync ({ s with resync := s.resync + 1 }.withStream
          { k with pb := body ++ headerBytes q ++ k.pb })) ∧
      ∀ p : List Byte, 0 < p.length → p.length < 4 → j.Gives p k → k.AtEnd →
        exec .sync s = exec .sync ({ s with resync := s.resync + 1 }.withStream
          { k with pb := body ++ p, inEof := true })) ∧
    ∀ (w : Word) (j : InStream), w.extractLsb' 8 24 ≠ 0x494433#24 → isSyncMark w s.ref = false →
      s.stream.Gives (headerBytes w) j → j.Ready →
      exec .sync s = exec .sync (s.withStream { j with pb := (headerBytes w).tail ++ j.pb })

/-- R162, R163: at the end of the stream, in a window, an ID3 tag or a frame body, SYNC ends with END_OF_STREAM and
EOS; at an I/O error there or in the probe of the next header, with FATAL_IO and FATAL. The bytes taken are lost,
HDR_VALID = 0, RESYNC_COUNT and the header registers do not change. -/
def Obligations.SyncAtTheEnd : Prop :=
  ∀ (s : State) (l : List Byte) (j : InStream), s.live → s.stream.Gives l j →
    (s.Unfinished l → j.AtEnd → ∃ t c, exec .sync s = .next t ∧
      t.Agrees { s.endedWith .endOfStream with
        status := { s.endStatus .endOfStream with eos := true, hdrValid := false, crcMismatch := false }
        pb := [], inEof := true, env := { s.env with port := j.port }, chan := c } ∧
      ∀ ch, c.get ch = { s.chan.get ch with stage := .idle }) ∧
    (s.Unfinished l ∨ (∃ h body p, s.frameOf h body ∧ p.length < 4 ∧ l = headerBytes h ++ body ++ p) → j.AtError →
      ∃ t c, exec .sync s = .next t ∧
      t.Agrees { s.endedWith .fatalIo with
        status := { s.endStatus .fatalIo with fatal := true, hdrValid := false, crcMismatch := false }
        pb := [], inEof := false, env := { s.env with port := j.port }, chan := c } ∧
      ∀ ch, c.get ch = { s.chan.get ch with stage := .idle })

/-- R152, R153: SYNC on an ID3v2 tag followed by anything does exactly what it does on what follows the tag,
whatever the tag's bytes are and wherever they are split between PB and the port. -/
def Obligations.TagIsSkipped : Prop :=
  ∀ (s : State) (major revision flags s0 s1 s2 s3 : Byte) (tag : List Byte) (j : InStream), s.live →
    tag.length = id3Size s0 s1 s2 s3 →
    s.stream.Gives ([0x49, 0x44, 0x33, major, revision, flags, s0, s1, s2, s3] ++ tag) j →
    exec .sync s = exec .sync (s.withStream j)

/-! ### READ_SIDE_INFO and LOAD_MAIN_DATA -/

/-- R120-R122, R232: READ_SIDE_INFO takes every field from its fixed bits of the frame body; the fields of a
granule or channel the frame does not have keep their values. (SI.scfsi of an LSF frame is cleared whole, also that
of channel 1 in mono: log entry 20.) A frame whose rejection overflows the reservoir is past a fault. -/
def Obligations.SideInfoFields : Prop :=
  ∀ s : State, s.live → s.clean → s.layer3Frame → s.chan.c0.stage = .idle → s.fb.bitpos = s.sideInfoStart →
    s.fb.bitpos + 8 * sideinfoBytes s.head.fields ≤ 8 * s.fb.len →
    ∃ t, exec .readSideInfo s = .next t ∧
      (let a := s.sideInfoStart
       let w := s.sideInfoWidths
       t.clean →
       t.si.mainDataBegin = BitVec.ofNat 9 (s.fb.field a w.1) ∧
       t.si.privateBits = BitVec.ofNat 5 (s.fb.field (a + w.1) w.2.1) ∧
       (∀ ch : Fin 2, t.si.scfsi.get ch =
         if s.head.fields.version = .mpeg1 then
           (if ch.val < s.nch then BitVec.ofNat 4 (s.fb.field (a + w.1 + w.2.1 + 4 * ch.val) 4)
            else s.si.scfsi.get ch)
         else 0) ∧
       ∀ gr ch : Fin 2, (t.si.gc.get gr).get ch =
         if gr.val < s.ngr ∧ ch.val < s.nch then s.sideInfoBlock gr ch else (s.si.gc.get gr).get ch)

/-- R171, R172, R231, R233: with the side info taken, a frame with an invalid encoding, or in strict mode with a
wrong CRC, is rejected: its slots enter the reservoir, FRAME_START counts them, the first row of R233 gives the
code. Any other frame is accepted and changes only the side info, the frame cursor, the CRC and STAGE. (That
CRC_CALC of a frame with PROT = 1 is kept, as R231 has it against R171, is the model's reading: log entry 14; what is exact after a
reservoir fault on the way is log entry 10. Both DEDUCED.) -/
def Obligations.SideInfoOutcome : Prop :=
  ∀ s : State, s.live → s.clean → s.layer3Frame → s.chan.c0.stage = .idle → s.fb.bitpos = s.sideInfoStart →
    s.fb.bitpos + 8 * sideinfoBytes s.head.fields ≤ 8 * s.fb.len →
    ∃ t e, exec .readSideInfo s = .next t ∧
      (let gs := (s.granuleChannels).map fun p => s.sideInfoBlock p.1 p.2
       let engine := ((List.range (8 * sideinfoBytes s.head.fields)).map fun i =>
         s.fb.cells.bit (s.fb.bitpos + i)).foldl (fun crc d => crcBit d crc) s.crc.engine
       let crc : Crc := { s.crc with
         engine := engine
         crcCalc := if s.head.fields.prot then s.crc.crcCalc else engine }
       let wrong : Bool := !s.head.fields.prot && decide (engine ≠ s.crc.crcRead)
       let after := s.fb.bitpos + 8 * sideinfoBytes s.head.fields
       (e = if ∃ g ∈ gs, g.windowSwitching = true ∧ g.blockType = 0 then .sideinfoInvalid
         else if ∃ g ∈ gs, 288 < g.bigValues.toNat then .sideinfoInvalid
         else if ∃ g ∈ gs, ∃ x ∈ usedTables s.head.fields.sfreq g, x = 4 ∨ x = 14 then .sideinfoInvalid
         else if ∃ g ∈ gs, g.mixed = true ∧ s.head.fields.sfreq = 8 then .unsupported
         else if (wrong && s.ctrl.crcStrict) = true then .crcReject
         else .ok) ∧
       (e = .ok → t = { s.endedWith .ok with
         si := t.si
         fb := { s.fb with bitpos := after }
         crc := crc
         status := { s.endStatus .ok with crcMismatch := s.status.crcMismatch || wrong }
         chan := { c0 := { s.chan.c0 with stage := .si }, c1 := { s.chan.c1 with stage := .si } } }) ∧
       (e ≠ .ok → t.Agrees { s.endedWith (t.rs.log.first.getD e) with
         si := t.si
         fb := { s.fb with bitpos := 8 * s.fb.len }
         crc := crc
         rs := ({ s.rs with log := s.freshLog } : RS).putMany (s.fb.bytes (after / 8) s.head.slots)
         book := { s.book with frameStart := s.book.frameStart + BitVec.ofNat 32 s.head.slots }
         status := { s.endStatus (t.rs.log.first.getD e) with
           skipped := true, crcMismatch := s.status.crcMismatch || wrong }
         chan := { c0 := { s.chan.c0 with stage := .idle }, c1 := { s.chan.c1 with stage := .idle } } }))

/-- R208-R212: LOAD_MAIN_DATA in 32-bit arithmetic: MAIN_DATA_END, DISCARD and FRAME_START; a negative DISCARD
skips the frame; otherwise the wrap guard lowers the counters and the read cursor stands main_data_begin bytes
before the frame's first slot. That the sums wrap and the tests are signed is log entry 12 (R9, R38), that FB_BITPOS
is no check log entry 15, and that the cursors stay exact after a fault log entry 10. -/
def Obligations.MainDataBookkeeping : Prop :=
  ∀ s : State, s.live → s.layer3Frame → s.chan.c0.stage = .si →
    ∃ t, exec .loadMainData s = .next t ∧
      (let mde : Word := BitVec.ofNat 32 ((s.rs.resv.totbit.toNat + 7) / 8)
       let discard : Word := s.book.frameStart - mde - s.si.mainDataBegin.zeroExtend 32
       let start : Word := s.book.frameStart + BitVec.ofNat 32 s.head.slots
       let wrap : Bool := decide ((4096 : Int) < mde.toInt)
       (discard.toInt < 0 → t.Agrees { s.endedWith (t.rs.log.first.getD .frameSkipped) with
         fb := t.fb, rs := t.rs
         status := { s.endStatus (t.rs.log.first.getD .frameSkipped) with skipped := true }
         book := { frameStart := start, mainDataEnd := mde, discard := discard }
         chan := { c0 := { s.chan.c0 with stage := .idle }, c1 := { s.chan.c1 with stage := .idle } } } ∧
         t.rs.resv.totbit = BitVec.ofNat 32 (8 * ((s.rs.resv.totbit.toNat + 7) / 8))) ∧
       (0 ≤ discard.toInt → t.Agrees { s.endedWith (t.rs.log.first.getD .ok) with
         fb := t.fb, rs := t.rs, order := { nextGc := 0, partOpen := false }
         book := {
           frameStart := if wrap then start - 4096 else start
           mainDataEnd := mde
           discard := discard }
         chan := {
           c0 := { s.chan.c0 with stage := .md, grp := 0 }
           c1 := if s.nch = 2 then { s.chan.c1 with stage := .md, grp := 0 } else s.chan.c1 } } ∧
         t.rs.resv.totbit = 8 * ((if wrap then s.book.frameStart - 4096 else s.book.frameStart) -
           s.si.mainDataBegin.zeroExtend 32)))

/-- R208: LOAD_MAIN_DATA appends the frame's slots to the reservoir, bit by bit in stream order, at the write
cursor, and changes no other cell; a frame whose bits are all there raises no fault. That the
cells and cursors are exact if the discard over-reads is log entry 10 (DEDUCED). -/
def Obligations.MainDataAppends : Prop :=
  ∀ s : State, s.live → s.clean → StorageInv s → s.layer3Frame → s.chan.c0.stage = .si →
    s.fb.bitpos + 8 * s.head.slots ≤ 8 * s.fb.len →
    s.rs.resv.avail + 8 * s.head.slots ≤ 32768 →
    ∃ t, exec .loadMainData s = .next t ∧
      t.fb = { s.fb with bitpos := s.fb.bitpos + 8 * s.head.slots } ∧
      (∀ i < 8 * s.head.slots, t.rs.resv.bit (s.rs.resv.wptr + i) = s.fb.cells.bit (s.fb.bitpos + i)) ∧
      (∀ p, (∀ i < 8 * s.head.slots, p % 32768 ≠ (s.rs.resv.wptr + i) % 32768) →
        t.rs.resv.bit p = s.rs.resv.bit p) ∧
      t.rs.resv.wptr = (s.rs.resv.wptr + 8 * s.head.slots) % 32768 ∧
      (let discard : Word := s.book.frameStart - BitVec.ofNat 32 ((s.rs.resv.totbit.toNat + 7) / 8) -
         s.si.mainDataBegin.zeroExtend 32
       (8 - s.rs.resv.totbit.toNat % 8) % 8 + 8 * discard.toNat ≤ s.rs.resv.avail + 8 * s.head.slots →
        0 ≤ discard.toInt → t.rs.log = s.freshLog ∧ t.status.err = .ok)

/-! ### The granule commands -/

/-- R104, R208, R231, R421, R433: the checks of the frame and granule commands in order: NOT_LAYER3, BAD_OPERAND,
SEQUENCE; a command that fails one has no other effect. -/
def Obligations.CommandChecks : Prop :=
  ∀ (gr ch : Fin 2) (s : State), s.live →
    ((¬s.layer3Frame → exec .readSideInfo s = .next (s.endedWith .notLayer3) ∧
        exec .loadMainData s = .next (s.endedWith .notLayer3)) ∧
      (s.layer3Frame → ¬(s.chan.c0.stage = .idle ∧ s.fb.bitpos = s.sideInfoStart) →
        exec .readSideInfo s = .next (s.endedWith .sequence)) ∧
      (s.layer3Frame → s.chan.c0.stage ≠ .si → exec .loadMainData s = .next (s.endedWith .sequence))) ∧
    (∀ x i, (x, i) ∈ [(Stage.sf, Instr.huffmanDecode gr ch), (.huf, .dequantize gr ch), (.dq, .reorder gr ch),
        (.st, .antialias gr ch), (.aa, .hybrid gr ch), (.hy, .freqInvert gr ch), (.fi, .emit gr ch)] →
      (¬s.layer3Frame → exec i s = .next (s.endedWith .notLayer3)) ∧
      (s.layer3Frame → ¬s.hasOperands gr ch → exec i s = .next (s.endedWith .badOperand)) ∧
      (s.layer3Frame → s.hasOperands gr ch → ¬s.stageIs x gr ch → exec i s = .next (s.endedWith .sequence))) ∧
    (¬s.layer3Frame → exec (.readScalefactors gr ch) s = .next (s.endedWith .notLayer3) ∧
      exec (.stereo gr) s = .next (s.endedWith .notLayer3)) ∧
    (s.layer3Frame →
      (¬s.hasOperands gr ch → exec (.readScalefactors gr ch) s = .next (s.endedWith .badOperand)) ∧
      (s.hasOperands gr ch → ¬s.beforeScalefactors gr ch →
        exec (.readScalefactors gr ch) s = .next (s.endedWith .sequence)) ∧
      (¬gr.val < s.ngr → exec (.stereo gr) s = .next (s.endedWith .badOperand)) ∧
      (gr.val < s.ngr → ¬s.beforeStereo gr → exec (.stereo gr) s = .next (s.endedWith .sequence)))

/-- R240, R242-R244: READ_SCALEFACTORS of an MPEG1 frame completes with STAGE = SF; every factor comes from its
place in the stream and the read cursor has moved by exactly the bits of the factors read. The cursors after a fault
are log entry 10, RB_HIST after an over-read log entry 17, both DEDUCED. -/
def Obligations.ScalefactorsMpeg1 : Prop :=
  ∀ (gr ch : Fin 2) (s : State), s.readyScalefactors gr ch → s.head.fields.version = .mpeg1 →
    ∃ t, exec (.readScalefactors gr ch) s = .next t ∧
      t.Agrees { s.endedWith (t.rs.log.first.getD .ok) with
        rs := t.rs, order := { s.order with partOpen := true }
        chan := s.chan.set ch { s.chan.get ch with
          stage := .sf, grp := gr, part2Start := s.rs.resv.totbit, scf := (t.chan.get ch).scf } } ∧
      (let g := s.info gr ch
       let shared := fun i => decide (gr = 1) && (s.si.scfsi.get ch).getMsbD i
       let n := ∑ k ∈ Finset.range (scfCount g 8), mpeg1Width g shared k
       t.rs.resv = s.rs.resv.advance n ∧
       (s.clean → n ≤ s.rs.resv.avail → t.rs.log = s.freshLog ∧
         ScfRead s.rs.resv g 8 (mpeg1Width g shared) shared (s.chan.get ch).scf
           (t.chan.get ch).scf))

/-- R245, R246: READ_SCALEFACTORS of an LSF frame: the slen values, block number and preflag of R245 by
scalefac_compress and intensity, and every factor from its place in the flat buffer. The cursors after an over-read are
log entry 10, RB_HIST there log entry 17, both DEDUCED. -/
def Obligations.ScalefactorsLsf : Prop :=
  ∀ (gr ch : Fin 2) (s : State), s.readyScalefactors gr ch → s.head.fields.version ≠ .mpeg1 → s.clean →
    (let g := s.info 0 ch
     let sc := g.scalefacCompress.toNat
     let right := s.isOn = true ∧ ch = 1
     ∃ t slen bn pre, exec (.readScalefactors gr ch) s = .next t ∧
      t.Agrees { s.endedWith (t.rs.log.first.getD .ok) with
        rs := t.rs, order := { s.order with partOpen := true }
        si := { s.si with gc := s.si.gc.set 0 ((s.si.gc.get 0).set ch { g with preflag := pre }) }
        chan := s.chan.set ch { s.chan.get ch with
          stage := .sf, grp := gr, part2Start := s.rs.resv.totbit, scf := (t.chan.get ch).scf
          lsf := (t.chan.get ch).lsf } } ∧
      (¬right → sc < 400 → slen = [sc / 16 / 5, sc / 16 % 5, sc % 16 / 4, sc % 4] ∧ pre = false ∧ bn = 0) ∧
      (¬right → 400 ≤ sc → sc < 500 →
        slen = [(sc - 400) / 4 / 5, (sc - 400) / 4 % 5, (sc - 400) % 4, 0] ∧ pre = false ∧ bn = 1) ∧
      (¬right → 500 ≤ sc → slen = [(sc - 500) / 3, (sc - 500) % 3, 0, 0] ∧ pre = true ∧ bn = 2) ∧
      (right → sc / 2 < 180 →
        slen = [sc / 2 / 36, sc / 2 % 36 / 6, sc / 2 % 36 % 6, 0] ∧ pre = false ∧ bn = 3) ∧
      (right → 180 ≤ sc / 2 → sc / 2 < 244 →
        slen = [(sc / 2 - 180) % 64 / 16, (sc / 2 - 180) % 16 / 4, (sc / 2 - 180) % 4, 0] ∧ pre = false ∧
          bn = 4) ∧
      (right → 244 ≤ sc / 2 → slen = [(sc / 2 - 244) / 3, (sc / 2 - 244) % 3, 0, 0] ∧ pre = false ∧ bn = 5) ∧
      (let btn : Fin 3 := if g.short then (if g.mixedBlock then 2 else 1) else 0
       let width := lsfWidth (nrOfSfbBlock bn btn) slen
       let n := ∑ k ∈ Finset.range (scfCount g 6), width k
       (t.clean → (t.chan.get ch).lsf.slen.toList.map Fin.val = slen ∧ (t.chan.get ch).lsf.blockNum = bn ∧
         (t.chan.get ch).lsf.blockTypeNum = btn) ∧
       t.rs.resv = s.rs.resv.advance n ∧
       (n ≤ s.rs.resv.avail → t.rs.log = s.freshLog ∧
         ScfRead s.rs.resv g 6 width (fun _ => false) (s.chan.get ch).scf (t.chan.get ch).scf)))

/-- R285-R287: HUFFMAN_DECODE always ends with the read cursor at PART2_3_END, NONZERO at most 576, every line from
NONZERO on 0, STAGE = HUF and the next granule-channel due; nothing else but the lines and the fault log changes.
After a fault, when R438 leaves the state unspecified, the cursor and STAGE rest on log entry 10 (DEDUCED), the range of
NONZERO and the zero fill on log entry 5 (DESIGN CHOICE). -/
def Obligations.HuffmanEndsAtPart3End : Prop :=
  ∀ (gr ch : Fin 2) (s : State), s.ready .sf gr ch →
    ∃ t, exec (.huffmanDecode gr ch) s = .next t ∧
      (let stop : Word := (s.chan.get ch).part2Start + (s.info gr ch).part23Length.zeroExtend 32
       t.Agrees { s.endedWith (t.rs.log.first.getD .ok) with
         rs := t.rs, order := { nextGc := s.order.nextGc + 1, partOpen := false }
         chan := s.chan.set ch { s.chan.get ch with
           stage := .huf, part23End := stop, nonzero := (t.chan.get ch).nonzero, is := (t.chan.get ch).is } } ∧
       t.rs.resv.totbit = stop ∧ t.rs.resv.cells = s.rs.resv.cells ∧ t.rs.resv.wbyte = s.rs.resv.wbyte ∧
       (t.chan.get ch).nonzero ≤ 576 ∧
       ∀ j, (t.chan.get ch).nonzero ≤ j → quantAt (t.chan.get ch).is j = 0)

/-- R280-R287: HUFFMAN_DECODE reads back what an encoder writes: if the part-3 bits in the reservoir are the codes of
`big_values` pairs, pair i in its region's table, and then of quads, it decodes their values, of which it keeps the
first `kept`. Either they end at PART2_3_END; or a further quad that starts before it ends past it and is dropped; or
they fill the 576 lines and stuffing bits follow; or the pairs, or part 2 before them, end past it and the last four
lines are dropped. The excess bits are rewound. -/
def Obligations.HuffmanReadsCodes : Prop :=
  ∀ (gr ch : Fin 2) (s : State) (pairs quads : List Int) (a b c : List Bool) (kept : Nat), s.ready .sf gr ch →
    s.clean → StorageInv s →
    (let g := s.info gr ch
     let book := quadCodebook g.count1TableSelect
     let stop := ((s.chan.get ch).part2Start + g.part23Length.zeroExtend 32).toNat
     let tell := s.rs.resv.totbit.toNat
     let n := pairs.length + quads.length
     PairsCode (pairTable s.head.fields.sfreq g) 0 pairs a → pairs.length = 2 * g.bigValues.toNat → n ≤ 578 →
     QuadsCode book quads b →
     (c = [] ∧ stop = tell + (a ++ b).length ∧ kept = min n 576) ∨
       ((∃ v w x y, QuadCode book v w x y c) ∧ n < 576 ∧ tell + (a ++ b).length < stop ∧
         stop < tell + (a ++ b ++ c).length ∧ kept = n) ∨
       (576 ≤ n ∧ stop = tell + (a ++ b ++ c).length ∧ kept = 576) ∨
       (quads = [] ∧ c = [] ∧ stop < tell + a.length ∧ tell ≤ stop + s.rs.resv.hist ∧ kept = pairs.length - 4) →
     tell + (a ++ b ++ c).length < 2 ^ 32 → (a ++ b ++ c).length ≤ s.rs.resv.avail →
     (∀ i < (a ++ b ++ c).length, s.rs.resv.bit (s.rs.resv.rptr.toNat + i) = (a ++ b ++ c).getD i false) →
     ∃ t, exec (.huffmanDecode gr ch) s = .next t ∧ t.status.err = .ok ∧ t.rs.log = s.freshLog ∧
       t.rs.resv = (if tell ≤ stop then s.rs.resv.advance (stop - tell) else s.rs.resv.retreat (tell - stop)) ∧
       (t.chan.get ch).nonzero = kept ∧
       ∀ j < 576, quantAt (t.chan.get ch).is j = if j < kept then (pairs ++ quads).getD j 0 else 0)

/-- R310-R313: DEQUANTIZE completes with STAGE = DQ; line j is 0 from NONZERO on, else sign, gain, power and band
exponent multiplied as reals and rounded once; nothing else changes. -/
def Obligations.DequantizeValues : Prop :=
  ∀ (gr ch : Fin 2) (s : State), s.ready .huf gr ch →
    ∃ xr t, exec (.dequantize gr ch) s = .next t ∧
      t.Agrees (s.granuleDone ch { s.chan.get ch with stage := .dq, xr := xr }) ∧
      (s.clean → ∀ j < 576,
        let g := s.info gr ch
        let c := s.chan.get ch
        let l := sfbLong s.head.fields.sfreq
        let t := sfbShort s.head.fields.sfreq
        let q := quantAt c.is j
        let scale : ℝ := 1 + (g.scalefacScale.toNat : ℝ)
        (c.nonzero ≤ j → lineAt xr j = .zero) ∧
        (j < c.nonzero → ¬(g.short = true ∧ (g.mixed = true → 36 ≤ j)) → ∀ b, l b ≤ j → j < l (b + 1) →
          Rounds (lineAt xr j) fun _ => dequantReal q g.globalGain.toNat
            (-0.5 * scale * ((c.scf.long b : ℝ) + (g.preflag.toNat : ℝ) * (pretab b : ℝ)))) ∧
        (j < c.nonzero → g.short = true → (g.mixed = true → 36 ≤ j) → ∀ b w, 3 * t b ≤ j → j < 3 * t (b + 1) →
          w = (j - 3 * t b) / (t (b + 1) - t b) →
          Rounds (lineAt xr j) fun _ => dequantReal q g.globalGain.toNat
            (-0.5 * scale * (c.scf.shortAt w b : ℝ) - 2 * ((g.subblockGain.get w).toNat : ℝ))))

/-- R320, R321: REORDER moves the lines of each short band from window-major to frequency-major order; the long lines
of a mixed block and every line of a block that is not short stay; nothing else changes. -/
def Obligations.ReorderMovesLines : Prop :=
  ∀ (gr ch : Fin 2) (s : State), s.ready .dq gr ch →
    ∃ xr t, exec (.reorder gr ch) s = .next t ∧
      t.Agrees (s.granuleDone ch { s.chan.get ch with stage := .ro, xr := xr }) ∧
      (let g := s.info gr ch
       let old := (s.chan.get ch).xr
       let t := sfbShort s.head.fields.sfreq
       (g.short = false → xr = old) ∧
       (s.clean → 
         (g.short = true → ∀ b < 13, (g.mixed = true → 3 ≤ b) → ∀ w < 3, ∀ f, f < t (b + 1) - t b →
           lineAt xr (3 * t b + 3 * f + w) = lineAt old (3 * t b + w * (t (b + 1) - t b) + f)) ∧
         (g.mixed = true → ∀ j < 3 * t 3, lineAt xr j = lineAt old j)))

/-- R340, R341, R350: STEREO of a frame that is not intensity coded: mono, a mode other than JOINT_STEREO and
MODE_EXT = 0 change no value; with MS alone each line is reconstructed; then the channel selection of R350. -/
def Obligations.StereoWithoutIntensity : Prop :=
  ∀ (gr : Fin 2) (s : State), s.readyStereo gr →
    (s.nch = 1 ∨ s.head.fields.mode ≠ 1 ∨ s.head.fields.modeExt = 0 →
      StereoRuns gr s fun l r => l = s.chan.c0.xr ∧ r = s.chan.c1.xr) ∧
    (s.head.fields.mode = 1 → s.head.fields.modeExt = 2 →
      StereoRuns gr s fun l r => ∀ j < 576, PlainLine true s.chan.c0.xr s.chan.c1.xr l r j)

/-- R343, R346: STEREO of an intensity frame whose right channel has a long block: line j of band bb is an intensity
line if the right channel is 0 from the start of band bb on; its gains are those of the band's position. -/
def Obligations.StereoIntensityLong : Prop :=
  ∀ (gr : Fin 2) (s : State), s.readyStereo gr → s.head.fields.mode = 1 →
    s.head.fields.modeExt.getLsbD 0 = true → (s.info gr 1).short = false →
    (s.head.fields.version ≠ .mpeg1 → s.chan.c1.lsf.blockTypeNum = 0) →
    StereoRuns gr s fun l r => ∀ j < 576, ∀ bb, sfbLong s.head.fields.sfreq bb ≤ j →
      j < sfbLong s.head.fields.sfreq (bb + 1) →
      StereoLine s gr (∀ j' < 576, sfbLong s.head.fields.sfreq bb ≤ j' → lineAt s.chan.c1.xr j' = .zero)
        (s.chan.c1.scf.long (min bb 20)) (min bb 20) l r j

/-- R344, R346: the same for a short block: line 3 s[bb] + 3 f + w is an intensity line if window w of the right
channel is 0 from band bb on. -/
def Obligations.StereoIntensityShort : Prop :=
  ∀ (gr : Fin 2) (s : State), s.readyStereo gr → s.head.fields.mode = 1 →
    s.head.fields.modeExt.getLsbD 0 = true → (s.info gr 1).short = true → (s.info gr 1).mixed = false →
    (s.head.fields.version ≠ .mpeg1 → s.chan.c1.lsf.blockTypeNum = 1) →
    StereoRuns gr s fun l r => ∀ bb < 13, ∀ w < 3, ∀ f,
      f < sfbShort s.head.fields.sfreq (bb + 1) - sfbShort s.head.fields.sfreq bb →
      StereoLine s gr (SilentFrom s.head.fields.sfreq s.chan.c1.xr w bb)
        (s.chan.c1.scf.shortAt w (min bb 11)) (3 * min bb 11 + w) l r
        (3 * sfbShort s.head.fields.sfreq bb + 3 * f + w)

/-- R345, R346: the same for a mixed block (never at 8000 Hz, R233): lines 36 to 575 as for a short block with bands
from 3 on; a line below 36 only if every window's short part is 0 and the long part is 0 from its band on. -/
def Obligations.StereoIntensityMixed : Prop :=
  ∀ (gr : Fin 2) (s : State), s.readyStereo gr → HeaderInv s → s.head.fields.mode = 1 →
    s.head.fields.modeExt.getLsbD 0 = true → (s.info gr 1).mixed = true → s.head.fields.sfreq ≠ 8 →
    (s.head.fields.version ≠ .mpeg1 → s.chan.c1.lsf.blockTypeNum = 2) →
    StereoRuns gr s fun l r =>
      (∀ bb < 13, 3 ≤ bb → ∀ w < 3, ∀ f,
        f < sfbShort s.head.fields.sfreq (bb + 1) - sfbShort s.head.fields.sfreq bb →
        StereoLine s gr (SilentFrom s.head.fields.sfreq s.chan.c1.xr w bb)
          (s.chan.c1.scf.shortAt w (min bb 11)) (6 + 3 * (min bb 11 - 3) + w) l r
          (3 * sfbShort s.head.fields.sfreq bb + 3 * f + w)) ∧
      ∀ j < 36, ∀ bb, sfbLong s.head.fields.sfreq bb ≤ j → j < sfbLong s.head.fields.sfreq (bb + 1) →
        StereoLine s gr
          ((∀ w < 3, SilentFrom s.head.fields.sfreq s.chan.c1.xr w 3) ∧
            ∀ j' < 36, sfbLong s.head.fields.sfreq bb ≤ j' → lineAt s.chan.c1.xr j' = .zero)
          (s.chan.c1.scf.long bb) bb l r j

/-- R370: ANTIALIAS does the 8 butterflies at each of its subband boundaries (31 of a long block, 1 of a mixed, none
of a pure short) on the values before it; every other line and everything else is unchanged. -/
def Obligations.AntialiasButterflies : Prop :=
  ∀ (gr ch : Fin 2) (s : State), s.ready .st gr ch →
    ∃ xr t, exec (.antialias gr ch) s = .next t ∧
      t.Agrees (s.granuleDone ch { s.chan.get ch with stage := .aa, xr := xr }) ∧
      (let g := s.info gr ch
       let old := (s.chan.get ch).xr
       let n := if g.mixed then 1 else if g.short then 0 else 31
       (n = 0 → xr = old) ∧
       (s.clean → 
         (∀ sb < n, ∀ i < 8,
           Rounds (lineAt xr (18 * sb + 17 - i)) (fun val =>
             val (lineAt old (18 * sb + 17 - i)) * aliasCs i - val (lineAt old (18 * sb + 18 + i)) * aliasCa i) ∧
           Rounds (lineAt xr (18 * sb + 18 + i)) (fun val =>
             val (lineAt old (18 * sb + 18 + i)) * aliasCs i + val (lineAt old (18 * sb + 17 - i)) * aliasCa i)) ∧
         ∀ j < 576, (∀ sb < n, ∀ i < 8, j ≠ 18 * sb + 17 - i ∧ j ≠ 18 * sb + 18 + i) →
           lineAt xr j = lineAt old j))

/-- R378-R383: HYBRID transforms all 32 subbands by the direct sums of R379 with the windows of R378, adds the first
half to the stored tail and stores the second half; nothing else changes. -/
def Obligations.HybridTransforms : Prop :=
  ∀ (gr ch : Fin 2) (s : State), s.ready .aa gr ch →
    ∃ hout prev t, exec (.hybrid gr ch) s = .next t ∧
      t.Agrees (s.granuleDone ch { s.chan.get ch with stage := .hy, hout := hout, prev := prev }) ∧
      (s.clean → ∀ sb < 32, ∀ i < 18,
        let g := s.info gr ch
        let c := s.chan.get ch
        let t := if g.mixed = true ∧ sb < 2 then 0 else g.blockType.toNat
        Rounds (lineAt hout (18 * sb + i)) (fun val =>
          imdctReal (fun m => val (lineAt c.xr (18 * sb + m))) t i + val (lineAt c.prev (18 * sb + i))) ∧
        Rounds (lineAt prev (18 * sb + i)) (fun val =>
          imdctReal (fun m => val (lineAt c.xr (18 * sb + m))) t (18 + i)))

/-- R390: FREQ_INVERT negates the odd slots of the odd subbands exactly and leaves every other value and everything
else unchanged. -/
def Obligations.FreqInvertNegates : Prop :=
  ∀ (gr ch : Fin 2) (s : State), s.ready .hy gr ch →
    ∃ hout t, exec (.freqInvert gr ch) s = .next t ∧
      t.Agrees (s.granuleDone ch { s.chan.get ch with stage := .fi, hout := hout }) ∧
      (s.clean → ∀ sb < 32, ∀ i < 18,
        lineAt hout (18 * sb + i) =
          if sb % 2 = 1 ∧ i % 2 = 1 then (lineAt (s.chan.get ch).hout (18 * sb + i)).neg
          else lineAt (s.chan.get ch).hout (18 * sb + i))

/-- R392: with a sink that takes them EMIT sends the channel's 576 words, slot outer and subband inner, RESULT = 576
and STAGE = EM; nothing else changes. -/
def Obligations.EmitSendsInOrder : Prop :=
  ∀ (gr ch : Fin 2) (s : State), s.ready .fi gr ch → 576 ≤ s.env.sink →
    ∃ (words : List Sample) (t : State), exec (.emit gr ch) s = .next t ∧
      t.Agrees { s.endedWith .ok with
        result := t.result
        chan := s.chan.set ch { s.chan.get ch with stage := .em }
        env := { s.env with sink := s.env.sink - 576, out := s.env.out ++ words.map .sample } } ∧
      (s.clean → t.result = 576) ∧
      words.length = 576 ∧
      ∀ ss < 18, ∀ sb < 32, words[32 * ss + sb]? = some {
        ch := ch, ss := BitVec.ofNat 5 ss, sb := BitVec.ofNat 5 sb
        value := lineAt (s.chan.get ch).hout (18 * sb + ss) }

/-- R91, R92, R427: whatever waits a command makes, in InByte or in Emit, what comes later at the port or the sink
leaves the state that having it there from the start leaves: no byte and no word is lost or repeated, and the command
goes on as itself. SYNC and DECODE_FRAME wait at an empty port, EMIT at a sink that takes fewer than 576 words. -/
def Obligations.CommandsInPortions : Prop :=
  (∀ (i : Instr) (s u : State) (l m : List Transfer), exec i { s with env := { s.env with port := l } } = .next u →
    event (.present m) u = exec i { s with env := { s.env with port := l ++ m } }) ∧
  (∀ (i : Instr) (s u : State) (a b : Nat), exec i { s with env := { s.env with sink := a } } = .next u →
    event (.sinkReady b) u = exec i { s with env := { s.env with sink := a + b } }) ∧
  (∀ (i : Instr) (s : State), i = .sync ∨ i = .decodeFrame → s.live → s.pb = [] → s.inEof = false → s.env.port = [] →
    ∃ u, exec i s = .next u ∧ u.busy = true ∧ u.status.done = false ∧ u.env.out = s.env.out) ∧
  ∀ (gr ch : Fin 2) (s : State) (a b : Nat), s.ready .fi gr ch → a < 576 → 576 ≤ a + b →
    ∃ u, exec (.emit gr ch) { s with env := { s.env with sink := a } } = .next u ∧ u.busy = true ∧
      u.status.done = false ∧ u.env.sink = 0 ∧
      event (.sinkReady b) u = exec (.emit gr ch) { s with env := { s.env with sink := a + b } }

/-! ### DECODE_FRAME (R420, R422, R393) -/

/-- R420: a Layer III frame whose side-info bytes are 0, next in the stream of a block whose reservoir is empty,
decodes, whatever follows it and whether or not it has a CRC (unless a wrong one rejects it, R172): 576 words for each
granule and selected channel, all 0 as the overlap tails are, then frame_end; RESULT counts the words. -/
def Obligations.SilentFrameDecodes : Prop :=
  ∀ (h : Word) (body : List Byte) (k : InStream) (s : State), s.live → s.clean → StorageInv s →
    (parseHeader h).layer = 3 → (parseHeader h).prot = true ∨ s.ctrl.crcStrict = false →
    (∀ i < sideinfoBytes (parseHeader h), body.getD ((if (parseHeader h).prot then 0 else 2) + i) 0 = 0) →
    s.hasFrame h body k →
    s.rs.resv.totbit = 0 → s.rs.resv.avail = 0 → s.book.frameStart = 0 →
    (∀ ch j, lineAt (s.chan.get ch).prev j = .zero) → 2304 ≤ s.env.sink →
    ∃ t, exec .decodeFrame s = .next t ∧ t.busy = false ∧ t.status.err = .ok ∧ t.rs.log = s.freshLog ∧
      t.stream = k ∧
      (let sel : List (Fin 2) := if (parseHeader h).nch = 1 then [0] else match s.ctrl.chsel with
         | .both => [0, 1]
         | .left => [0]
         | .right => [1]
         | .downmix => [0]
       let n := 576 * (parseHeader h).ngr * sel.length
       t.result = BitVec.ofNat 32 n ∧
       t.env.out = s.env.out ++ ((List.range (parseHeader h).ngr).flatMap fun _ => sel.flatMap fun ch =>
         (List.range 576).map fun i => OutWord.sample {
           ch := ch, ss := BitVec.ofNat 5 (i / 32), sb := BitVec.ofNat 5 (i % 32), value := .zero }) ++
         [.frameEnd] ∧
       t.book.frameStart = BitVec.ofNat 32 (slotCount (parseHeader h) body.length) ∧ t.rs.resv.totbit = 0)

/-- R420: DECODE_FRAME is its commands: where SYNC and then the commands of the frame, issued one by one, all end
with OK and no wait, DECODE_FRAME ends in the same state, but for RESULT, which counts the words, and frame_end. -/
def Obligations.DecodeFrameIsItsCommands : Prop :=
  ∀ (s u : State), s.live → s.clean → exec .sync s = .next u → u.busy = false → u.status.err = .ok →
    u.head.fields.layer = 3 → 2304 ≤ u.env.sink →
    (let commands := frameCommands u.ngr u.nch u.willSelect
     let t := (runCommands commands u).2
     (∀ n ≤ commands.length, (runCommands (commands.take n) u).2.status.err = .ok) →
     exec .decodeFrame s = .next { t with
       result := BitVec.ofNat 32 (576 * u.ngr * u.willSelect.length)
       env := { t.env with out := t.env.out ++ [.frameEnd] } })

/-- R420: how DECODE_FRAME ends otherwise. Where SYNC ends with a code, or SYNC ends with OK and the first of the
frame's commands that does not is rejected (0x10-0x12) or skipped (0x13), DECODE_FRAME ends in that command's state:
with its code, RESULT = 0, nothing sent and no frame_end. Where that command records a fault (0x20-0x24) and the frame
is not skipped, DECODE_FRAME runs to its end: every word is sent, then frame_end, and ERR is that fault. -/
def Obligations.DecodeFrameEndings : Prop :=
  ∀ (s u : State), s.live → s.clean → exec .sync s = .next u → u.busy = false →
    (u.status.err = .endOfStream ∨ u.status.err = .fatalIo →
      exec .decodeFrame s = .next u ∧ u.result = 0 ∧ u.env.out = s.env.out) ∧
    (u.status.err = .ok → u.head.fields.layer = 3 → 2304 ≤ u.env.sink →
      let commands := frameCommands u.ngr u.nch u.willSelect
      ∀ n < commands.length, (∀ m ≤ n, (runCommands (commands.take m) u).2.status.err = .ok) →
        let w := (runCommands (commands.take (n + 1)) u).2
        (w.status.err ∈ [.sideinfoInvalid, .unsupported, .crcReject, .frameSkipped] →
          exec .decodeFrame s = .next w ∧ w.result = 0 ∧ w.env.out = s.env.out) ∧
        (w.status.err ∈ [.resvOverread, .resvOverrewind, .resvOverflow, .huffmanInvalid, .frameBufOverread] →
          w.status.skipped = false →
          ∃ (t : State) (words : List Sample), exec .decodeFrame s = .next t ∧ t.busy = false ∧
            t.status.err = w.status.err ∧ words.length = 576 * u.ngr * u.willSelect.length ∧
            t.env.out = s.env.out ++ words.map .sample ++ [.frameEnd]))

/-- R422: DECODE_FRAME consumes a Layer I or II frame, emits nothing, leaves the reservoir and the bookkeeping as
they were and ends with NOT_LAYER3, SKIPPED and RESULT = 0. -/
def Obligations.OtherLayersAreSkipped : Prop :=
  ∀ (h : Word) (body : List Byte) (k : InStream) (s : State), s.live → s.clean → StorageInv s →
    (parseHeader h).layer ≠ 3 → s.hasFrame h body k →
    ∃ t, exec .decodeFrame s = .next t ∧
      t = { s.endedWith .notLayer3 with
        status := { s.endStatus .notLayer3 with
          skipped := true, crcMismatch := false, hdrValid := true, layer3 := false
          lsf := decide ((parseHeader h).version ≠ .mpeg1), nch2 := decide ((parseHeader h).nch = 2) }
        head := { hdr := h, fields := parseHeader h, frameSize := body.length, slots := 0 }
        ref := t.ref, fb := t.fb, crc := t.crc, pb := k.pb, inEof := k.inEof
        chan := t.chan, env := { s.env with port := k.port } } ∧
      ∀ ch, t.chan.get ch = { s.chan.get ch with stage := .idle }

/-- R393: however DECODE_FRAME goes, and whatever happens at the ports while it waits, it has sent at most 2304 sample
words when it ends, and at any time before. -/
def Obligations.FrameOutputBound : Prop :=
  ∀ (s t : State) (events : List Event), exec .decodeFrame s = .next t →
    sampleCount (whileBusy events t).env.out ≤ sampleCount s.env.out + 2304

/-- R425: HDR_VALID, LAYER3, LSF, NCH2 and the header state change only in SYNC, DECODE_FRAME and RESET_STREAM, and
RESYNC_COUNT and the strict reference only in the first two; no command writes CTRL. Of the header state, what R438
leaves unspecified is free after a fault; that VERSION, LAYER, PROT and MODE, the STATUS bits and what SYNC keeps stay
also then is the model's reading: log entry 10 (DEDUCED). -/
def Obligations.WhatCommandsCannotChange : Prop :=
  ∀ (i : Instr) (s t : State), exec i s = .next t →
    t.ctrl = s.ctrl ∧
    (i ≠ .sync → i ≠ .decodeFrame → (t.clean → t.head = s.head) ∧
      (t.head.fields.version = s.head.fields.version ∧ t.head.fields.layer = s.head.fields.layer ∧
        t.head.fields.prot = s.head.fields.prot ∧ t.head.fields.mode = s.head.fields.mode) ∧
      t.ref = s.ref ∧ t.resync = s.resync ∧
      (i ≠ .resetStream → t.status.hdrValid = s.status.hdrValid ∧ t.status.layer3 = s.status.layer3 ∧
        t.status.lsf = s.status.lsf ∧ t.status.nch2 = s.status.nch2 ∧ t.pb = s.pb ∧ t.inEof = s.inEof))

/-! ### Invariants that every step keeps, from every state that has them -/

/-- FB and RESV stay canonical and inside their arrays; the cursors keep their bounds and relations (R40-R43,
R201), after a fault by log entry 10 (DEDUCED). -/
def Obligations.StepKeepsStorage : Prop := ∀ s t : State, StorageInv s → step s = .next t → StorageInv t

/-- PB never exceeds PB_BYTES, whatever is unread (R41, R87). -/
def Obligations.StepKeepsPushback : Prop := ∀ s t : State, PushbackInv s → step s = .next t → PushbackInv t

/-- NONZERO is at most 576, the lines from it on are 0, and IS stays in -8206..8206 (R46, R51). After a fault, when
R438 leaves them unspecified, the free values stay in these ranges by log entry 5 (DESIGN CHOICE). -/
def Obligations.StepKeepsQuantised : Prop := ∀ s t : State, QuantInv s → step s = .next t → QuantInv t

/-- An opened granule-channel is the one NEXT_GC names, and NEXT_GC stays in 0..4 (R45, R421). That STAGE, GRP and
the part order stay specified after a fault is the model's reading: log entry 10 (DEDUCED). -/
def Obligations.StepKeepsOrder : Prop := ∀ s t : State, OrderInv s → step s = .next t → OrderInv t

/-- While HDR_VALID = 1 and the state is specified, the header state is what R106, R156, R160 and R161 derive from
HDR; VERSION, LAYER and MODE fit the STATUS bits also after a fault (log entry 10). -/
def Obligations.StepKeepsHeader : Prop := ∀ s t : State, HeaderInv s → step s = .next t → HeaderInv t

/-- The life cycle's relations between BUSY, DONE, ERR, FATAL and FAULT (R425-R430). -/
def Obligations.StepKeepsLifeCycle : Prop := ∀ s t : State, LifeInv s → step s = .next t → LifeInv t

/-- A command in progress is held only while its port gives it nothing (R91, R92, R427). -/
def Obligations.StepKeepsWaits : Prop :=
  ∀ s t : State, PushbackInv s → WaitInv s → step s = .next t → WaitInv t
end

