-- ==== Sys2Proof/Laws/Basic.lean ====
section
/-! SUPPORT. The small lemmas of the plain data: `Two`, `tabulate`, `gather`, the command word's fields. -/

namespace Sys2Proof

/-! ### `Two` -/

@[simp] theorem Two.get_zero {α : Type} (t : Two α) : t.get 0 = t.c0 := rfl

@[simp] theorem Two.get_one {α : Type} (t : Two α) : t.get 1 = t.c1 := rfl

@[simp] theorem Two.set_zero {α : Type} (t : Two α) (x : α) : t.set 0 x = { t with c0 := x } := rfl

@[simp] theorem Two.set_one {α : Type} (t : Two α) (x : α) : t.set 1 x = { t with c1 := x } := rfl

@[simp] theorem Two.get_set_same {α : Type} (t : Two α) (c : Fin 2) (x : α) : (t.set c x).get c = x := by
  fin_cases c <;> rfl

theorem Two.get_set_other {α : Type} (t : Two α) {c d : Fin 2} (h : d ≠ c) (x : α) :
    (t.set c x).get d = t.get d := by
  fin_cases c <;> fin_cases d <;> simp_all

/-- Reading after a write. -/
theorem Two.get_set {α : Type} (t : Two α) (c d : Fin 2) (x : α) :
    (t.set c x).get d = if d = c then x else t.get d := by
  split
  · next h => rw [h, Two.get_set_same]
  · next h => rw [Two.get_set_other t h]

@[simp] theorem Two.set_get {α : Type} (t : Two α) (c : Fin 2) : t.set c (t.get c) = t := by
  fin_cases c <;> rfl

@[simp] theorem Two.set_set {α : Type} (t : Two α) (c : Fin 2) (x y : α) : (t.set c x).set c y = t.set c y := by
  fin_cases c <;> rfl

/-! ### `tabulate` -/

@[simp] theorem tabulate_getElem {α : Type} (n : Nat) (f : Nat → α) (j : Nat) (h : j < n) :
    (tabulate n f)[j] = f j := by
  simp [tabulate]

theorem tabulate_getElem? {α : Type} (n : Nat) (f : Nat → α) (j : Nat) :
    (tabulate n f)[j]? = if j < n then some (f j) else none := by
  split
  · next h => rw [Vector.getElem?_eq_getElem h, tabulate_getElem n f j h]
  · next h => exact Vector.getElem?_eq_none (by omega)

namespace Machine

theorem lineAt_tabulate (f : Nat → Num) {j : Nat} (h : j < 576) : lineAt (tabulate 576 f) j = f j := by
  simp [lineAt, h]

theorem quantAt_tabulate (f : Nat → Int) {j : Nat} (h : j < 576) : quantAt (tabulate 576 f) j = f j := by
  simp [quantAt, h]

theorem quantAt_ge (v : Lines Int) {j : Nat} (h : 576 ≤ j) : quantAt v j = 0 := by
  simp [quantAt, Vector.getElem?_eq_none h]

theorem lineAt_ge (v : Lines Num) {j : Nat} (h : 576 ≤ j) : lineAt v j = .zero := by
  simp [lineAt, Vector.getElem?_eq_none h]

/-- Arrays of 576 lines with equal lines are equal. -/
theorem Lines.ext_lineAt {v w : Lines Num} (h : ∀ j < 576, lineAt v j = lineAt w j) : v = w := by
  apply Vector.ext
  intro j hj
  have := h j hj
  simpa [lineAt, Vector.getElem?_eq_getElem hj] using this

/-! ### `gather` -/

theorem gather_lt (f : Nat → Bool) (n : Nat) : gather f n < 2 ^ n := by
  induction n with
  | zero => simp [gather]
  | succ n ih =>
    have : (f n).toNat ≤ 1 := by cases f n <;> simp
    rw [gather, pow_succ]
    omega

theorem gather_congr {f g : Nat → Bool} {n : Nat} (h : ∀ i < n, f i = g i) : gather f n = gather g n := by
  induction n with
  | zero => rfl
  | succ n ih => rw [gather, gather, ih fun i hi => h i (by omega), h n (by omega)]

/-- The first `a` bits and the `b` bits after them. -/
theorem gather_add (f : Nat → Bool) (a b : Nat) :
    gather f (a + b) = 2 ^ b * gather f a + gather (fun i => f (a + i)) b := by
  induction b with
  | zero => simp [gather]
  | succ b ih =>
    rw [← Nat.add_assoc, gather, ih, gather, pow_succ]
    ring

end Machine

/-! ### The command word (R101) -/

/-- The bits of a packed word. -/
theorem packFields_getLsbD (f : Fields) (i : Nat) :
    (packFields f).getLsbD i =
      if i < 8 then f.opc.getLsbD i
      else if i < 9 then f.ch.getLsbD (i - 8)
      else if i < 10 then f.gr.getLsbD (i - 9)
      else if i < 16 then f.rsv.getLsbD (i - 10)
      else f.imm.getLsbD (i - 16) := by
  have h : (packFields f).getLsbD i =
      (f.imm ++ (f.rsv ++ (f.gr ++ (f.ch ++ f.opc)))).getLsbD i := rfl
  rw [h, BitVec.getLsbD_append, BitVec.getLsbD_append, BitVec.getLsbD_append, BitVec.getLsbD_append]
  by_cases h8 : i < 8
  · simp [h8, show i < 16 by omega, show i < 10 by omega, show i < 9 by omega]
  · by_cases h9 : i < 9
    · simp [h8, h9, show i < 1 + (1 + 8) by omega, show i < 6 + (1 + (1 + 8)) by omega]
    · by_cases h10 : i < 10
      · simp [h8, h9, h10, show i < 6 + (1 + (1 + 8)) by omega]
      · by_cases h16 : i < 16
        · simp [h8, h9, h10, h16]
        · simp [h8, h9, h10, h16]

@[simp] theorem fieldsOf_packFields (f : Fields) : fieldsOf (packFields f) = f := by
  obtain ⟨opc, ch, gr, rsv, imm⟩ := f
  simp only [fieldsOf, Fields.mk.injEq]
  refine ⟨?_, ?_, ?_, ?_, ?_⟩ <;>
    refine BitVec.eq_of_getLsbD_eq fun i hi => ?_
  · simp [packFields_getLsbD, hi]
  · simp [packFields_getLsbD, hi, show ¬8 + i < 8 by omega, show 8 + i < 9 by omega]
  · simp [packFields_getLsbD, hi, show ¬9 + i < 8 by omega, show ¬9 + i < 9 by omega, show 9 + i < 10 by omega]
  · simp [packFields_getLsbD, hi, show ¬10 + i < 8 by omega, show ¬10 + i < 9 by omega,
      show ¬10 + i < 10 by omega, show 10 + i < 16 by omega]
  · simp [packFields_getLsbD, hi, show ¬16 + i < 8 by omega, show ¬16 + i < 9 by omega,
      show ¬16 + i < 10 by omega]

@[simp] theorem packFields_fieldsOf (w : Word) : packFields (fieldsOf w) = w := by
  refine BitVec.eq_of_getLsbD_eq fun i hi => ?_
  rw [packFields_getLsbD]
  simp only [fieldsOf, BitVec.getLsbD_extractLsb']
  split
  · next h => simp [h]
  · split
    · simp [show i - 8 < 1 by omega, show 8 + (i - 8) = i by omega]
    · split
      · simp [show i - 9 < 1 by omega, show 9 + (i - 9) = i by omega]
      · split
        · simp [show i - 10 < 6 by omega, show 10 + (i - 10) = i by omega]
        · simp [show i - 16 < 16 by omega, show 16 + (i - 16) = i by omega]

@[simp] theorem bitOperand_ofFin (c : Fin 2) : bitOperand (BitVec.ofFin c) = c := rfl

end Sys2Proof
end

