-- ==== Sys2Proof/Laws/State.lean ====
section
/-! SUPPORT. One lemma per field of State for each named update, true by rfl, so that no later proof unfolds
a record update; and the same for the stores of the granule arrays, which change only `chan` and the count
of free values drawn, for `answer`, which changes RESULT and that count, and for `settle`. -/

namespace Sys2Proof.Machine

/-! ### `start` -/

@[simp] theorem State.start_ctrl (s : State) : s.start.ctrl = s.ctrl := rfl
@[simp] theorem State.start_cmdCtrl (s : State) : s.start.cmdCtrl = s.ctrl := rfl
@[simp] theorem State.start_status (s : State) :
    s.start.status = { s.status with done := false, eos := false, skipped := false, err := .ok } := rfl
@[simp] theorem State.start_result (s : State) : s.start.result = 0 := rfl
@[simp] theorem State.start_head (s : State) : s.start.head = s.head := rfl
@[simp] theorem State.start_ref (s : State) : s.start.ref = s.ref := rfl
@[simp] theorem State.start_book (s : State) : s.start.book = s.book := rfl
@[simp] theorem State.start_crc (s : State) : s.start.crc = s.crc := rfl
@[simp] theorem State.start_fb (s : State) : s.start.fb = s.fb := rfl
@[simp] theorem State.start_pb (s : State) : s.start.pb = s.pb := rfl
@[simp] theorem State.start_inEof (s : State) : s.start.inEof = s.inEof := rfl
@[simp] theorem State.start_rs (s : State) :
    s.start.rs = { s.rs with log := { s.rs.log with first := none } } := rfl
@[simp] theorem State.start_resync (s : State) : s.start.resync = s.resync := rfl
@[simp] theorem State.start_order (s : State) : s.start.order = s.order := rfl
@[simp] theorem State.start_si (s : State) : s.start.si = s.si := rfl
@[simp] theorem State.start_chan (s : State) : s.start.chan = s.chan := rfl
@[simp] theorem State.start_held (s : State) : s.start.held = s.held := rfl
@[simp] theorem State.start_env (s : State) : s.start.env = s.env := rfl

/-! ### `finish` -/

@[simp] theorem State.finish_ctrl (e : Err) (s : State) : (s.finish e).ctrl = s.ctrl := rfl
@[simp] theorem State.finish_cmdCtrl (e : Err) (s : State) : (s.finish e).cmdCtrl = s.cmdCtrl := rfl
@[simp] theorem State.finish_status (e : Err) (s : State) :
    (s.finish e).status = { s.status with done := true, err := finalErr e s.rs.log.first } := rfl
@[simp] theorem State.finish_result (e : Err) (s : State) :
    (s.finish e).result = if e = .ok then s.result else 0 := rfl
@[simp] theorem State.finish_head (e : Err) (s : State) : (s.finish e).head = s.head := rfl
@[simp] theorem State.finish_ref (e : Err) (s : State) : (s.finish e).ref = s.ref := rfl
@[simp] theorem State.finish_book (e : Err) (s : State) : (s.finish e).book = s.book := rfl
@[simp] theorem State.finish_crc (e : Err) (s : State) : (s.finish e).crc = s.crc := rfl
@[simp] theorem State.finish_fb (e : Err) (s : State) : (s.finish e).fb = s.fb := rfl
@[simp] theorem State.finish_pb (e : Err) (s : State) : (s.finish e).pb = s.pb := rfl
@[simp] theorem State.finish_inEof (e : Err) (s : State) : (s.finish e).inEof = s.inEof := rfl
@[simp] theorem State.finish_rs (e : Err) (s : State) : (s.finish e).rs = s.rs := rfl
@[simp] theorem State.finish_resync (e : Err) (s : State) : (s.finish e).resync = s.resync := rfl
@[simp] theorem State.finish_order (e : Err) (s : State) : (s.finish e).order = s.order := rfl
@[simp] theorem State.finish_si (e : Err) (s : State) : (s.finish e).si = s.si := rfl
@[simp] theorem State.finish_chan (e : Err) (s : State) : (s.finish e).chan = s.chan := rfl
@[simp] theorem State.finish_held (e : Err) (s : State) : (s.finish e).held = none := rfl
@[simp] theorem State.finish_env (e : Err) (s : State) : (s.finish e).env = s.env := rfl

/-! ### `withRs` -/

@[simp] theorem State.withRs_ctrl (r : RS) (s : State) : (s.withRs r).ctrl = s.ctrl := rfl
@[simp] theorem State.withRs_cmdCtrl (r : RS) (s : State) : (s.withRs r).cmdCtrl = s.cmdCtrl := rfl
@[simp] theorem State.withRs_status (r : RS) (s : State) : (s.withRs r).status = s.status := rfl
@[simp] theorem State.withRs_result (r : RS) (s : State) : (s.withRs r).result = s.result := rfl
@[simp] theorem State.withRs_head (r : RS) (s : State) : (s.withRs r).head = s.head := rfl
@[simp] theorem State.withRs_ref (r : RS) (s : State) : (s.withRs r).ref = s.ref := rfl
@[simp] theorem State.withRs_book (r : RS) (s : State) : (s.withRs r).book = s.book := rfl
@[simp] theorem State.withRs_crc (r : RS) (s : State) : (s.withRs r).crc = s.crc := rfl
@[simp] theorem State.withRs_fb (r : RS) (s : State) : (s.withRs r).fb = s.fb := rfl
@[simp] theorem State.withRs_pb (r : RS) (s : State) : (s.withRs r).pb = s.pb := rfl
@[simp] theorem State.withRs_inEof (r : RS) (s : State) : (s.withRs r).inEof = s.inEof := rfl
@[simp] theorem State.withRs_rs (r : RS) (s : State) : (s.withRs r).rs = r := rfl
@[simp] theorem State.withRs_resync (r : RS) (s : State) : (s.withRs r).resync = s.resync := rfl
@[simp] theorem State.withRs_order (r : RS) (s : State) : (s.withRs r).order = s.order := rfl
@[simp] theorem State.withRs_si (r : RS) (s : State) : (s.withRs r).si = s.si := rfl
@[simp] theorem State.withRs_chan (r : RS) (s : State) : (s.withRs r).chan = s.chan := rfl
@[simp] theorem State.withRs_held (r : RS) (s : State) : (s.withRs r).held = s.held := rfl
@[simp] theorem State.withRs_env (r : RS) (s : State) : (s.withRs r).env = s.env := rfl

/-! ### `withStream` -/

@[simp] theorem State.withStream_ctrl (i : InStream) (s : State) : (s.withStream i).ctrl = s.ctrl := rfl
@[simp] theorem State.withStream_cmdCtrl (i : InStream) (s : State) :
    (s.withStream i).cmdCtrl = s.cmdCtrl := rfl
@[simp] theorem State.withStream_status (i : InStream) (s : State) : (s.withStream i).status = s.status := rfl
@[simp] theorem State.withStream_result (i : InStream) (s : State) : (s.withStream i).result = s.result := rfl
@[simp] theorem State.withStream_head (i : InStream) (s : State) : (s.withStream i).head = s.head := rfl
@[simp] theorem State.withStream_ref (i : InStream) (s : State) : (s.withStream i).ref = s.ref := rfl
@[simp] theorem State.withStream_book (i : InStream) (s : State) : (s.withStream i).book = s.book := rfl
@[simp] theorem State.withStream_crc (i : InStream) (s : State) : (s.withStream i).crc = s.crc := rfl
@[simp] theorem State.withStream_fb (i : InStream) (s : State) : (s.withStream i).fb = s.fb := rfl
@[simp] theorem State.withStream_pb (i : InStream) (s : State) : (s.withStream i).pb = i.pb := rfl
@[simp] theorem State.withStream_inEof (i : InStream) (s : State) : (s.withStream i).inEof = i.inEof := rfl
@[simp] theorem State.withStream_rs (i : InStream) (s : State) : (s.withStream i).rs = s.rs := rfl
@[simp] theorem State.withStream_resync (i : InStream) (s : State) : (s.withStream i).resync = s.resync := rfl
@[simp] theorem State.withStream_order (i : InStream) (s : State) : (s.withStream i).order = s.order := rfl
@[simp] theorem State.withStream_si (i : InStream) (s : State) : (s.withStream i).si = s.si := rfl
@[simp] theorem State.withStream_chan (i : InStream) (s : State) : (s.withStream i).chan = s.chan := rfl
@[simp] theorem State.withStream_held (i : InStream) (s : State) : (s.withStream i).held = s.held := rfl
@[simp] theorem State.withStream_env (i : InStream) (s : State) :
    (s.withStream i).env = { s.env with port := i.port } := rfl

/-! ### `withScan` -/

@[simp] theorem State.withScan_ctrl (sc : Scan) (s : State) : (s.withScan sc).ctrl = s.ctrl := rfl
@[simp] theorem State.withScan_cmdCtrl (sc : Scan) (s : State) : (s.withScan sc).cmdCtrl = s.cmdCtrl := rfl
@[simp] theorem State.withScan_status (sc : Scan) (s : State) : (s.withScan sc).status = s.status := rfl
@[simp] theorem State.withScan_result (sc : Scan) (s : State) : (s.withScan sc).result = s.result := rfl
@[simp] theorem State.withScan_head (sc : Scan) (s : State) : (s.withScan sc).head = s.head := rfl
@[simp] theorem State.withScan_ref (sc : Scan) (s : State) : (s.withScan sc).ref = s.ref := rfl
@[simp] theorem State.withScan_book (sc : Scan) (s : State) : (s.withScan sc).book = s.book := rfl
@[simp] theorem State.withScan_crc (sc : Scan) (s : State) : (s.withScan sc).crc = s.crc := rfl
@[simp] theorem State.withScan_fb (sc : Scan) (s : State) : (s.withScan sc).fb = s.fb := rfl
@[simp] theorem State.withScan_pb (sc : Scan) (s : State) : (s.withScan sc).pb = sc.stream.pb := rfl
@[simp] theorem State.withScan_inEof (sc : Scan) (s : State) : (s.withScan sc).inEof = sc.stream.inEof := rfl
@[simp] theorem State.withScan_rs (sc : Scan) (s : State) : (s.withScan sc).rs = s.rs := rfl
@[simp] theorem State.withScan_resync (sc : Scan) (s : State) : (s.withScan sc).resync = sc.resync := rfl
@[simp] theorem State.withScan_order (sc : Scan) (s : State) : (s.withScan sc).order = s.order := rfl
@[simp] theorem State.withScan_si (sc : Scan) (s : State) : (s.withScan sc).si = s.si := rfl
@[simp] theorem State.withScan_chan (sc : Scan) (s : State) : (s.withScan sc).chan = s.chan := rfl
@[simp] theorem State.withScan_held (sc : Scan) (s : State) : (s.withScan sc).held = s.held := rfl
@[simp] theorem State.withScan_env (sc : Scan) (s : State) :
    (s.withScan sc).env = { s.env with port := sc.stream.port } := rfl

/-! ### `strobe` -/

@[simp] theorem State.strobe_ctrl (w : OutWord) (s : State) : (s.strobe w).ctrl = s.ctrl := rfl
@[simp] theorem State.strobe_cmdCtrl (w : OutWord) (s : State) : (s.strobe w).cmdCtrl = s.cmdCtrl := rfl
@[simp] theorem State.strobe_status (w : OutWord) (s : State) : (s.strobe w).status = s.status := rfl
@[simp] theorem State.strobe_result (w : OutWord) (s : State) : (s.strobe w).result = s.result := rfl
@[simp] theorem State.strobe_head (w : OutWord) (s : State) : (s.strobe w).head = s.head := rfl
@[simp] theorem State.strobe_ref (w : OutWord) (s : State) : (s.strobe w).ref = s.ref := rfl
@[simp] theorem State.strobe_book (w : OutWord) (s : State) : (s.strobe w).book = s.book := rfl
@[simp] theorem State.strobe_crc (w : OutWord) (s : State) : (s.strobe w).crc = s.crc := rfl
@[simp] theorem State.strobe_fb (w : OutWord) (s : State) : (s.strobe w).fb = s.fb := rfl
@[simp] theorem State.strobe_pb (w : OutWord) (s : State) : (s.strobe w).pb = s.pb := rfl
@[simp] theorem State.strobe_inEof (w : OutWord) (s : State) : (s.strobe w).inEof = s.inEof := rfl
@[simp] theorem State.strobe_rs (w : OutWord) (s : State) : (s.strobe w).rs = s.rs := rfl
@[simp] theorem State.strobe_resync (w : OutWord) (s : State) : (s.strobe w).resync = s.resync := rfl
@[simp] theorem State.strobe_order (w : OutWord) (s : State) : (s.strobe w).order = s.order := rfl
@[simp] theorem State.strobe_si (w : OutWord) (s : State) : (s.strobe w).si = s.si := rfl
@[simp] theorem State.strobe_chan (w : OutWord) (s : State) : (s.strobe w).chan = s.chan := rfl
@[simp] theorem State.strobe_held (w : OutWord) (s : State) : (s.strobe w).held = s.held := rfl
@[simp] theorem State.strobe_env (w : OutWord) (s : State) :
    (s.strobe w).env = { s.env with out := s.env.out ++ [w] } := rfl

/-! ### `returns` -/

@[simp] theorem State.returns_ctrl (w : Word) (s : State) : (s.returns w).ctrl = s.ctrl := rfl
@[simp] theorem State.returns_cmdCtrl (w : Word) (s : State) : (s.returns w).cmdCtrl = s.cmdCtrl := rfl
@[simp] theorem State.returns_status (w : Word) (s : State) : (s.returns w).status = s.status := rfl
@[simp] theorem State.returns_result (w : Word) (s : State) : (s.returns w).result = s.result := rfl
@[simp] theorem State.returns_head (w : Word) (s : State) : (s.returns w).head = s.head := rfl
@[simp] theorem State.returns_ref (w : Word) (s : State) : (s.returns w).ref = s.ref := rfl
@[simp] theorem State.returns_book (w : Word) (s : State) : (s.returns w).book = s.book := rfl
@[simp] theorem State.returns_crc (w : Word) (s : State) : (s.returns w).crc = s.crc := rfl
@[simp] theorem State.returns_fb (w : Word) (s : State) : (s.returns w).fb = s.fb := rfl
@[simp] theorem State.returns_pb (w : Word) (s : State) : (s.returns w).pb = s.pb := rfl
@[simp] theorem State.returns_inEof (w : Word) (s : State) : (s.returns w).inEof = s.inEof := rfl
@[simp] theorem State.returns_rs (w : Word) (s : State) : (s.returns w).rs = s.rs := rfl
@[simp] theorem State.returns_resync (w : Word) (s : State) : (s.returns w).resync = s.resync := rfl
@[simp] theorem State.returns_order (w : Word) (s : State) : (s.returns w).order = s.order := rfl
@[simp] theorem State.returns_si (w : Word) (s : State) : (s.returns w).si = s.si := rfl
@[simp] theorem State.returns_chan (w : Word) (s : State) : (s.returns w).chan = s.chan := rfl
@[simp] theorem State.returns_held (w : Word) (s : State) : (s.returns w).held = s.held := rfl
@[simp] theorem State.returns_env (w : Word) (s : State) :
    (s.returns w).env = { s.env with rdata := w } := rfl

/-! ### `dropEvent` -/

@[simp] theorem State.dropEvent_ctrl (s : State) : s.dropEvent.ctrl = s.ctrl := rfl
@[simp] theorem State.dropEvent_cmdCtrl (s : State) : s.dropEvent.cmdCtrl = s.cmdCtrl := rfl
@[simp] theorem State.dropEvent_status (s : State) : s.dropEvent.status = s.status := rfl
@[simp] theorem State.dropEvent_result (s : State) : s.dropEvent.result = s.result := rfl
@[simp] theorem State.dropEvent_head (s : State) : s.dropEvent.head = s.head := rfl
@[simp] theorem State.dropEvent_ref (s : State) : s.dropEvent.ref = s.ref := rfl
@[simp] theorem State.dropEvent_book (s : State) : s.dropEvent.book = s.book := rfl
@[simp] theorem State.dropEvent_crc (s : State) : s.dropEvent.crc = s.crc := rfl
@[simp] theorem State.dropEvent_fb (s : State) : s.dropEvent.fb = s.fb := rfl
@[simp] theorem State.dropEvent_pb (s : State) : s.dropEvent.pb = s.pb := rfl
@[simp] theorem State.dropEvent_inEof (s : State) : s.dropEvent.inEof = s.inEof := rfl
@[simp] theorem State.dropEvent_rs (s : State) : s.dropEvent.rs = s.rs := rfl
@[simp] theorem State.dropEvent_resync (s : State) : s.dropEvent.resync = s.resync := rfl
@[simp] theorem State.dropEvent_order (s : State) : s.dropEvent.order = s.order := rfl
@[simp] theorem State.dropEvent_si (s : State) : s.dropEvent.si = s.si := rfl
@[simp] theorem State.dropEvent_chan (s : State) : s.dropEvent.chan = s.chan := rfl
@[simp] theorem State.dropEvent_held (s : State) : s.dropEvent.held = s.held := rfl
@[simp] theorem State.dropEvent_env (s : State) :
    s.dropEvent.env = { s.env with host := s.env.host.tail } := rfl

/-! ### `withCommand` -/

@[simp] theorem State.withCommand_ctrl (w : Word) (s : State) : (s.withCommand w).ctrl = s.ctrl := rfl
@[simp] theorem State.withCommand_cmdCtrl (w : Word) (s : State) :
    (s.withCommand w).cmdCtrl = s.cmdCtrl := rfl
@[simp] theorem State.withCommand_status (w : Word) (s : State) : (s.withCommand w).status = s.status := rfl
@[simp] theorem State.withCommand_result (w : Word) (s : State) : (s.withCommand w).result = s.result := rfl
@[simp] theorem State.withCommand_head (w : Word) (s : State) : (s.withCommand w).head = s.head := rfl
@[simp] theorem State.withCommand_ref (w : Word) (s : State) : (s.withCommand w).ref = s.ref := rfl
@[simp] theorem State.withCommand_book (w : Word) (s : State) : (s.withCommand w).book = s.book := rfl
@[simp] theorem State.withCommand_crc (w : Word) (s : State) : (s.withCommand w).crc = s.crc := rfl
@[simp] theorem State.withCommand_fb (w : Word) (s : State) : (s.withCommand w).fb = s.fb := rfl
@[simp] theorem State.withCommand_pb (w : Word) (s : State) : (s.withCommand w).pb = s.pb := rfl
@[simp] theorem State.withCommand_inEof (w : Word) (s : State) : (s.withCommand w).inEof = s.inEof := rfl
@[simp] theorem State.withCommand_rs (w : Word) (s : State) : (s.withCommand w).rs = s.rs := rfl
@[simp] theorem State.withCommand_resync (w : Word) (s : State) : (s.withCommand w).resync = s.resync := rfl
@[simp] theorem State.withCommand_order (w : Word) (s : State) : (s.withCommand w).order = s.order := rfl
@[simp] theorem State.withCommand_si (w : Word) (s : State) : (s.withCommand w).si = s.si := rfl
@[simp] theorem State.withCommand_chan (w : Word) (s : State) : (s.withCommand w).chan = s.chan := rfl
@[simp] theorem State.withCommand_held (w : Word) (s : State) : (s.withCommand w).held = none := rfl
@[simp] theorem State.withCommand_env (w : Word) (s : State) :
    (s.withCommand w).env = { s.env with host := .write 0x04 .w32 w :: s.env.host } := rfl

/-! ### `drawn` -/

@[simp] theorem State.drawn_ctrl (s : State) : s.drawn.ctrl = s.ctrl := rfl
@[simp] theorem State.drawn_cmdCtrl (s : State) : s.drawn.cmdCtrl = s.cmdCtrl := rfl
@[simp] theorem State.drawn_status (s : State) : s.drawn.status = s.status := rfl
@[simp] theorem State.drawn_result (s : State) : s.drawn.result = s.result := rfl
@[simp] theorem State.drawn_head (s : State) : s.drawn.head = s.head := rfl
@[simp] theorem State.drawn_ref (s : State) : s.drawn.ref = s.ref := rfl
@[simp] theorem State.drawn_book (s : State) : s.drawn.book = s.book := rfl
@[simp] theorem State.drawn_crc (s : State) : s.drawn.crc = s.crc := rfl
@[simp] theorem State.drawn_fb (s : State) : s.drawn.fb = s.fb := rfl
@[simp] theorem State.drawn_pb (s : State) : s.drawn.pb = s.pb := rfl
@[simp] theorem State.drawn_inEof (s : State) : s.drawn.inEof = s.inEof := rfl
@[simp] theorem State.drawn_rs (s : State) : s.drawn.rs = { s.rs with log := s.rs.log.drawn } := rfl
@[simp] theorem State.drawn_resync (s : State) : s.drawn.resync = s.resync := rfl
@[simp] theorem State.drawn_order (s : State) : s.drawn.order = s.order := rfl
@[simp] theorem State.drawn_si (s : State) : s.drawn.si = s.si := rfl
@[simp] theorem State.drawn_chan (s : State) : s.drawn.chan = s.chan := rfl
@[simp] theorem State.drawn_held (s : State) : s.drawn.held = s.held := rfl
@[simp] theorem State.drawn_env (s : State) : s.drawn.env = s.env := rfl

/-! ### `mapChan` -/

@[simp] theorem State.mapChan_ctrl (ch : Fin 2) (f : Chan → Chan) (s : State) :
    (s.mapChan ch f).ctrl = s.ctrl := rfl
@[simp] theorem State.mapChan_cmdCtrl (ch : Fin 2) (f : Chan → Chan) (s : State) :
    (s.mapChan ch f).cmdCtrl = s.cmdCtrl := rfl
@[simp] theorem State.mapChan_status (ch : Fin 2) (f : Chan → Chan) (s : State) :
    (s.mapChan ch f).status = s.status := rfl
@[simp] theorem State.mapChan_result (ch : Fin 2) (f : Chan → Chan) (s : State) :
    (s.mapChan ch f).result = s.result := rfl
@[simp] theorem State.mapChan_head (ch : Fin 2) (f : Chan → Chan) (s : State) :
    (s.mapChan ch f).head = s.head := rfl
@[simp] theorem State.mapChan_ref (ch : Fin 2) (f : Chan → Chan) (s : State) :
    (s.mapChan ch f).ref = s.ref := rfl
@[simp] theorem State.mapChan_book (ch : Fin 2) (f : Chan → Chan) (s : State) :
    (s.mapChan ch f).book = s.book := rfl
@[simp] theorem State.mapChan_crc (ch : Fin 2) (f : Chan → Chan) (s : State) :
    (s.mapChan ch f).crc = s.crc := rfl
@[simp] theorem State.mapChan_fb (ch : Fin 2) (f : Chan → Chan) (s : State) :
    (s.mapChan ch f).fb = s.fb := rfl
@[simp] theorem State.mapChan_pb (ch : Fin 2) (f : Chan → Chan) (s : State) :
    (s.mapChan ch f).pb = s.pb := rfl
@[simp] theorem State.mapChan_inEof (ch : Fin 2) (f : Chan → Chan) (s : State) :
    (s.mapChan ch f).inEof = s.inEof := rfl
@[simp] theorem State.mapChan_rs (ch : Fin 2) (f : Chan → Chan) (s : State) :
    (s.mapChan ch f).rs = s.rs := rfl
@[simp] theorem State.mapChan_resync (ch : Fin 2) (f : Chan → Chan) (s : State) :
    (s.mapChan ch f).resync = s.resync := rfl
@[simp] theorem State.mapChan_order (ch : Fin 2) (f : Chan → Chan) (s : State) :
    (s.mapChan ch f).order = s.order := rfl
@[simp] theorem State.mapChan_si (ch : Fin 2) (f : Chan → Chan) (s : State) :
    (s.mapChan ch f).si = s.si := rfl
@[simp] theorem State.mapChan_chan (ch : Fin 2) (f : Chan → Chan) (s : State) :
    (s.mapChan ch f).chan = s.chan.set ch (f (s.chan.get ch)) := rfl
@[simp] theorem State.mapChan_held (ch : Fin 2) (f : Chan → Chan) (s : State) :
    (s.mapChan ch f).held = s.held := rfl
@[simp] theorem State.mapChan_env (ch : Fin 2) (f : Chan → Chan) (s : State) :
    (s.mapChan ch f).env = s.env := rfl

/-! ### `setStage` -/

@[simp] theorem State.setStage_ctrl (ch : Fin 2) (x : Stage) (s : State) :
    (s.setStage ch x).ctrl = s.ctrl := rfl
@[simp] theorem State.setStage_cmdCtrl (ch : Fin 2) (x : Stage) (s : State) :
    (s.setStage ch x).cmdCtrl = s.cmdCtrl := rfl
@[simp] theorem State.setStage_status (ch : Fin 2) (x : Stage) (s : State) :
    (s.setStage ch x).status = s.status := rfl
@[simp] theorem State.setStage_result (ch : Fin 2) (x : Stage) (s : State) :
    (s.setStage ch x).result = s.result := rfl
@[simp] theorem State.setStage_head (ch : Fin 2) (x : Stage) (s : State) :
    (s.setStage ch x).head = s.head := rfl
@[simp] theorem State.setStage_ref (ch : Fin 2) (x : Stage) (s : State) : (s.setStage ch x).ref = s.ref := rfl
@[simp] theorem State.setStage_book (ch : Fin 2) (x : Stage) (s : State) :
    (s.setStage ch x).book = s.book := rfl
@[simp] theorem State.setStage_crc (ch : Fin 2) (x : Stage) (s : State) : (s.setStage ch x).crc = s.crc := rfl
@[simp] theorem State.setStage_fb (ch : Fin 2) (x : Stage) (s : State) : (s.setStage ch x).fb = s.fb := rfl
@[simp] theorem State.setStage_pb (ch : Fin 2) (x : Stage) (s : State) : (s.setStage ch x).pb = s.pb := rfl
@[simp] theorem State.setStage_inEof (ch : Fin 2) (x : Stage) (s : State) :
    (s.setStage ch x).inEof = s.inEof := rfl
@[simp] theorem State.setStage_rs (ch : Fin 2) (x : Stage) (s : State) : (s.setStage ch x).rs = s.rs := rfl
@[simp] theorem State.setStage_resync (ch : Fin 2) (x : Stage) (s : State) :
    (s.setStage ch x).resync = s.resync := rfl
@[simp] theorem State.setStage_order (ch : Fin 2) (x : Stage) (s : State) :
    (s.setStage ch x).order = s.order := rfl
@[simp] theorem State.setStage_si (ch : Fin 2) (x : Stage) (s : State) : (s.setStage ch x).si = s.si := rfl
@[simp] theorem State.setStage_chan (ch : Fin 2) (x : Stage) (s : State) :
    (s.setStage ch x).chan = s.chan.set ch { s.chan.get ch with stage := x } := rfl
@[simp] theorem State.setStage_held (ch : Fin 2) (x : Stage) (s : State) :
    (s.setStage ch x).held = s.held := rfl
@[simp] theorem State.setStage_env (ch : Fin 2) (x : Stage) (s : State) : (s.setStage ch x).env = s.env := rfl

/-! ### `storeQuantised` -/

@[simp] theorem State.storeQuantised_ctrl (ch : Fin 2) (v : Quantised) (s : State) :
    (s.storeQuantised ch v).ctrl = s.ctrl := by
  unfold State.storeQuantised State.storeOrFree; split <;> rfl
@[simp] theorem State.storeQuantised_cmdCtrl (ch : Fin 2) (v : Quantised) (s : State) :
    (s.storeQuantised ch v).cmdCtrl = s.cmdCtrl := by
  unfold State.storeQuantised State.storeOrFree; split <;> rfl
@[simp] theorem State.storeQuantised_status (ch : Fin 2) (v : Quantised) (s : State) :
    (s.storeQuantised ch v).status = s.status := by
  unfold State.storeQuantised State.storeOrFree; split <;> rfl
@[simp] theorem State.storeQuantised_result (ch : Fin 2) (v : Quantised) (s : State) :
    (s.storeQuantised ch v).result = s.result := by
  unfold State.storeQuantised State.storeOrFree; split <;> rfl
@[simp] theorem State.storeQuantised_head (ch : Fin 2) (v : Quantised) (s : State) :
    (s.storeQuantised ch v).head = s.head := by
  unfold State.storeQuantised State.storeOrFree; split <;> rfl
@[simp] theorem State.storeQuantised_ref (ch : Fin 2) (v : Quantised) (s : State) :
    (s.storeQuantised ch v).ref = s.ref := by
  unfold State.storeQuantised State.storeOrFree; split <;> rfl
@[simp] theorem State.storeQuantised_book (ch : Fin 2) (v : Quantised) (s : State) :
    (s.storeQuantised ch v).book = s.book := by
  unfold State.storeQuantised State.storeOrFree; split <;> rfl
@[simp] theorem State.storeQuantised_crc (ch : Fin 2) (v : Quantised) (s : State) :
    (s.storeQuantised ch v).crc = s.crc := by
  unfold State.storeQuantised State.storeOrFree; split <;> rfl
@[simp] theorem State.storeQuantised_fb (ch : Fin 2) (v : Quantised) (s : State) :
    (s.storeQuantised ch v).fb = s.fb := by
  unfold State.storeQuantised State.storeOrFree; split <;> rfl
@[simp] theorem State.storeQuantised_pb (ch : Fin 2) (v : Quantised) (s : State) :
    (s.storeQuantised ch v).pb = s.pb := by
  unfold State.storeQuantised State.storeOrFree; split <;> rfl
@[simp] theorem State.storeQuantised_inEof (ch : Fin 2) (v : Quantised) (s : State) :
    (s.storeQuantised ch v).inEof = s.inEof := by
  unfold State.storeQuantised State.storeOrFree; split <;> rfl
@[simp] theorem State.storeQuantised_resync (ch : Fin 2) (v : Quantised) (s : State) :
    (s.storeQuantised ch v).resync = s.resync := by
  unfold State.storeQuantised State.storeOrFree; split <;> rfl
@[simp] theorem State.storeQuantised_order (ch : Fin 2) (v : Quantised) (s : State) :
    (s.storeQuantised ch v).order = s.order := by
  unfold State.storeQuantised State.storeOrFree; split <;> rfl
@[simp] theorem State.storeQuantised_si (ch : Fin 2) (v : Quantised) (s : State) :
    (s.storeQuantised ch v).si = s.si := by
  unfold State.storeQuantised State.storeOrFree; split <;> rfl
@[simp] theorem State.storeQuantised_held (ch : Fin 2) (v : Quantised) (s : State) :
    (s.storeQuantised ch v).held = s.held := by
  unfold State.storeQuantised State.storeOrFree; split <;> rfl
@[simp] theorem State.storeQuantised_env (ch : Fin 2) (v : Quantised) (s : State) :
    (s.storeQuantised ch v).env = s.env := by
  unfold State.storeQuantised State.storeOrFree; split <;> rfl
@[simp] theorem State.storeQuantised_resv (ch : Fin 2) (v : Quantised) (s : State) :
    (s.storeQuantised ch v).rs.resv = s.rs.resv := by
  unfold State.storeQuantised State.storeOrFree; split <;> rfl
@[simp] theorem State.storeQuantised_log_sticky (ch : Fin 2) (v : Quantised) (s : State) :
    (s.storeQuantised ch v).rs.log.sticky = s.rs.log.sticky := by
  unfold State.storeQuantised State.storeOrFree; split <;> rfl
@[simp] theorem State.storeQuantised_log_first (ch : Fin 2) (v : Quantised) (s : State) :
    (s.storeQuantised ch v).rs.log.first = s.rs.log.first := by
  unfold State.storeQuantised State.storeOrFree; split <;> rfl
@[simp] theorem State.storeQuantised_log_tainted (ch : Fin 2) (v : Quantised) (s : State) :
    (s.storeQuantised ch v).rs.log.tainted = s.rs.log.tainted := by
  unfold State.storeQuantised State.storeOrFree; split <;> rfl
/-- With no fault recorded, the store stores its value and nothing else. -/
theorem State.storeQuantised_clean (ch : Fin 2) (v : Quantised) {s : State} (h : s.clean) :
    s.storeQuantised ch v = s.mapChan ch fun c => { c with nonzero := v.nonzero, is := v.is } := by
  unfold State.clean at h
  simp [State.storeQuantised, State.storeOrFree, h]
/-- The store leaves its value, or a free one. -/
theorem State.storeQuantised_chan (ch : Fin 2) (v : Quantised) (s : State) :
    ∃ x, (x = v ∨ x = freeQuantised s.rs.log.draws) ∧ (s.storeQuantised ch v).chan = (s.mapChan ch fun c => { c with nonzero := x.nonzero, is := x.is }).chan := by
  unfold State.storeQuantised State.storeOrFree
  split
  · exact ⟨_, .inr rfl, rfl⟩
  · exact ⟨v, .inl rfl, rfl⟩

/-! ### `storeScf` -/

@[simp] theorem State.storeScf_ctrl (ch : Fin 2) (v : Scf) (s : State) :
    (s.storeScf ch v).ctrl = s.ctrl := by
  unfold State.storeScf State.storeOrFree; split <;> rfl
@[simp] theorem State.storeScf_cmdCtrl (ch : Fin 2) (v : Scf) (s : State) :
    (s.storeScf ch v).cmdCtrl = s.cmdCtrl := by
  unfold State.storeScf State.storeOrFree; split <;> rfl
@[simp] theorem State.storeScf_status (ch : Fin 2) (v : Scf) (s : State) :
    (s.storeScf ch v).status = s.status := by
  unfold State.storeScf State.storeOrFree; split <;> rfl
@[simp] theorem State.storeScf_result (ch : Fin 2) (v : Scf) (s : State) :
    (s.storeScf ch v).result = s.result := by
  unfold State.storeScf State.storeOrFree; split <;> rfl
@[simp] theorem State.storeScf_head (ch : Fin 2) (v : Scf) (s : State) :
    (s.storeScf ch v).head = s.head := by
  unfold State.storeScf State.storeOrFree; split <;> rfl
@[simp] theorem State.storeScf_ref (ch : Fin 2) (v : Scf) (s : State) :
    (s.storeScf ch v).ref = s.ref := by
  unfold State.storeScf State.storeOrFree; split <;> rfl
@[simp] theorem State.storeScf_book (ch : Fin 2) (v : Scf) (s : State) :
    (s.storeScf ch v).book = s.book := by
  unfold State.storeScf State.storeOrFree; split <;> rfl
@[simp] theorem State.storeScf_crc (ch : Fin 2) (v : Scf) (s : State) :
    (s.storeScf ch v).crc = s.crc := by
  unfold State.storeScf State.storeOrFree; split <;> rfl
@[simp] theorem State.storeScf_fb (ch : Fin 2) (v : Scf) (s : State) :
    (s.storeScf ch v).fb = s.fb := by
  unfold State.storeScf State.storeOrFree; split <;> rfl
@[simp] theorem State.storeScf_pb (ch : Fin 2) (v : Scf) (s : State) :
    (s.storeScf ch v).pb = s.pb := by
  unfold State.storeScf State.storeOrFree; split <;> rfl
@[simp] theorem State.storeScf_inEof (ch : Fin 2) (v : Scf) (s : State) :
    (s.storeScf ch v).inEof = s.inEof := by
  unfold State.storeScf State.storeOrFree; split <;> rfl
@[simp] theorem State.storeScf_resync (ch : Fin 2) (v : Scf) (s : State) :
    (s.storeScf ch v).resync = s.resync := by
  unfold State.storeScf State.storeOrFree; split <;> rfl
@[simp] theorem State.storeScf_order (ch : Fin 2) (v : Scf) (s : State) :
    (s.storeScf ch v).order = s.order := by
  unfold State.storeScf State.storeOrFree; split <;> rfl
@[simp] theorem State.storeScf_si (ch : Fin 2) (v : Scf) (s : State) :
    (s.storeScf ch v).si = s.si := by
  unfold State.storeScf State.storeOrFree; split <;> rfl
@[simp] theorem State.storeScf_held (ch : Fin 2) (v : Scf) (s : State) :
    (s.storeScf ch v).held = s.held := by
  unfold State.storeScf State.storeOrFree; split <;> rfl
@[simp] theorem State.storeScf_env (ch : Fin 2) (v : Scf) (s : State) :
    (s.storeScf ch v).env = s.env := by
  unfold State.storeScf State.storeOrFree; split <;> rfl
@[simp] theorem State.storeScf_resv (ch : Fin 2) (v : Scf) (s : State) :
    (s.storeScf ch v).rs.resv = s.rs.resv := by
  unfold State.storeScf State.storeOrFree; split <;> rfl
@[simp] theorem State.storeScf_log_sticky (ch : Fin 2) (v : Scf) (s : State) :
    (s.storeScf ch v).rs.log.sticky = s.rs.log.sticky := by
  unfold State.storeScf State.storeOrFree; split <;> rfl
@[simp] theorem State.storeScf_log_first (ch : Fin 2) (v : Scf) (s : State) :
    (s.storeScf ch v).rs.log.first = s.rs.log.first := by
  unfold State.storeScf State.storeOrFree; split <;> rfl
@[simp] theorem State.storeScf_log_tainted (ch : Fin 2) (v : Scf) (s : State) :
    (s.storeScf ch v).rs.log.tainted = s.rs.log.tainted := by
  unfold State.storeScf State.storeOrFree; split <;> rfl
/-- With no fault recorded, the store stores its value and nothing else. -/
theorem State.storeScf_clean (ch : Fin 2) (v : Scf) {s : State} (h : s.clean) :
    s.storeScf ch v = s.mapChan ch fun c => { c with scf := v } := by
  unfold State.clean at h
  simp [State.storeScf, State.storeOrFree, h]
/-- The store leaves its value, or a free one. -/
theorem State.storeScf_chan (ch : Fin 2) (v : Scf) (s : State) :
    ∃ x, (x = v ∨ x = freeScf s.rs.log.draws) ∧ (s.storeScf ch v).chan = (s.mapChan ch fun c => { c with scf := x }).chan := by
  unfold State.storeScf State.storeOrFree
  split
  · exact ⟨_, .inr rfl, rfl⟩
  · exact ⟨v, .inl rfl, rfl⟩

/-! ### `storeLsf` -/

@[simp] theorem State.storeLsf_ctrl (ch : Fin 2) (v : LsfInfo) (s : State) :
    (s.storeLsf ch v).ctrl = s.ctrl := by
  unfold State.storeLsf State.storeOrFree; split <;> rfl
@[simp] theorem State.storeLsf_cmdCtrl (ch : Fin 2) (v : LsfInfo) (s : State) :
    (s.storeLsf ch v).cmdCtrl = s.cmdCtrl := by
  unfold State.storeLsf State.storeOrFree; split <;> rfl
@[simp] theorem State.storeLsf_status (ch : Fin 2) (v : LsfInfo) (s : State) :
    (s.storeLsf ch v).status = s.status := by
  unfold State.storeLsf State.storeOrFree; split <;> rfl
@[simp] theorem State.storeLsf_result (ch : Fin 2) (v : LsfInfo) (s : State) :
    (s.storeLsf ch v).result = s.result := by
  unfold State.storeLsf State.storeOrFree; split <;> rfl
@[simp] theorem State.storeLsf_head (ch : Fin 2) (v : LsfInfo) (s : State) :
    (s.storeLsf ch v).head = s.head := by
  unfold State.storeLsf State.storeOrFree; split <;> rfl
@[simp] theorem State.storeLsf_ref (ch : Fin 2) (v : LsfInfo) (s : State) :
    (s.storeLsf ch v).ref = s.ref := by
  unfold State.storeLsf State.storeOrFree; split <;> rfl
@[simp] theorem State.storeLsf_book (ch : Fin 2) (v : LsfInfo) (s : State) :
    (s.storeLsf ch v).book = s.book := by
  unfold State.storeLsf State.storeOrFree; split <;> rfl
@[simp] theorem State.storeLsf_crc (ch : Fin 2) (v : LsfInfo) (s : State) :
    (s.storeLsf ch v).crc = s.crc := by
  unfold State.storeLsf State.storeOrFree; split <;> rfl
@[simp] theorem State.storeLsf_fb (ch : Fin 2) (v : LsfInfo) (s : State) :
    (s.storeLsf ch v).fb = s.fb := by
  unfold State.storeLsf State.storeOrFree; split <;> rfl
@[simp] theorem State.storeLsf_pb (ch : Fin 2) (v : LsfInfo) (s : State) :
    (s.storeLsf ch v).pb = s.pb := by
  unfold State.storeLsf State.storeOrFree; split <;> rfl
@[simp] theorem State.storeLsf_inEof (ch : Fin 2) (v : LsfInfo) (s : State) :
    (s.storeLsf ch v).inEof = s.inEof := by
  unfold State.storeLsf State.storeOrFree; split <;> rfl
@[simp] theorem State.storeLsf_resync (ch : Fin 2) (v : LsfInfo) (s : State) :
    (s.storeLsf ch v).resync = s.resync := by
  unfold State.storeLsf State.storeOrFree; split <;> rfl
@[simp] theorem State.storeLsf_order (ch : Fin 2) (v : LsfInfo) (s : State) :
    (s.storeLsf ch v).order = s.order := by
  unfold State.storeLsf State.storeOrFree; split <;> rfl
@[simp] theorem State.storeLsf_si (ch : Fin 2) (v : LsfInfo) (s : State) :
    (s.storeLsf ch v).si = s.si := by
  unfold State.storeLsf State.storeOrFree; split <;> rfl
@[simp] theorem State.storeLsf_held (ch : Fin 2) (v : LsfInfo) (s : State) :
    (s.storeLsf ch v).held = s.held := by
  unfold State.storeLsf State.storeOrFree; split <;> rfl
@[simp] theorem State.storeLsf_env (ch : Fin 2) (v : LsfInfo) (s : State) :
    (s.storeLsf ch v).env = s.env := by
  unfold State.storeLsf State.storeOrFree; split <;> rfl
@[simp] theorem State.storeLsf_resv (ch : Fin 2) (v : LsfInfo) (s : State) :
    (s.storeLsf ch v).rs.resv = s.rs.resv := by
  unfold State.storeLsf State.storeOrFree; split <;> rfl
@[simp] theorem State.storeLsf_log_sticky (ch : Fin 2) (v : LsfInfo) (s : State) :
    (s.storeLsf ch v).rs.log.sticky = s.rs.log.sticky := by
  unfold State.storeLsf State.storeOrFree; split <;> rfl
@[simp] theorem State.storeLsf_log_first (ch : Fin 2) (v : LsfInfo) (s : State) :
    (s.storeLsf ch v).rs.log.first = s.rs.log.first := by
  unfold State.storeLsf State.storeOrFree; split <;> rfl
@[simp] theorem State.storeLsf_log_tainted (ch : Fin 2) (v : LsfInfo) (s : State) :
    (s.storeLsf ch v).rs.log.tainted = s.rs.log.tainted := by
  unfold State.storeLsf State.storeOrFree; split <;> rfl
/-- With no fault recorded, the store stores its value and nothing else. -/
theorem State.storeLsf_clean (ch : Fin 2) (v : LsfInfo) {s : State} (h : s.clean) :
    s.storeLsf ch v = s.mapChan ch fun c => { c with lsf := v } := by
  unfold State.clean at h
  simp [State.storeLsf, State.storeOrFree, h]
/-- The store leaves its value, or a free one. -/
theorem State.storeLsf_chan (ch : Fin 2) (v : LsfInfo) (s : State) :
    ∃ x, (x = v ∨ x = freeLsf s.rs.log.draws) ∧ (s.storeLsf ch v).chan = (s.mapChan ch fun c => { c with lsf := x }).chan := by
  unfold State.storeLsf State.storeOrFree
  split
  · exact ⟨_, .inr rfl, rfl⟩
  · exact ⟨v, .inl rfl, rfl⟩

/-! ### `storeXr` -/

@[simp] theorem State.storeXr_ctrl (ch : Fin 2) (v : Lines Num) (s : State) :
    (s.storeXr ch v).ctrl = s.ctrl := by
  unfold State.storeXr State.storeOrFree; split <;> rfl
@[simp] theorem State.storeXr_cmdCtrl (ch : Fin 2) (v : Lines Num) (s : State) :
    (s.storeXr ch v).cmdCtrl = s.cmdCtrl := by
  unfold State.storeXr State.storeOrFree; split <;> rfl
@[simp] theorem State.storeXr_status (ch : Fin 2) (v : Lines Num) (s : State) :
    (s.storeXr ch v).status = s.status := by
  unfold State.storeXr State.storeOrFree; split <;> rfl
@[simp] theorem State.storeXr_result (ch : Fin 2) (v : Lines Num) (s : State) :
    (s.storeXr ch v).result = s.result := by
  unfold State.storeXr State.storeOrFree; split <;> rfl
@[simp] theorem State.storeXr_head (ch : Fin 2) (v : Lines Num) (s : State) :
    (s.storeXr ch v).head = s.head := by
  unfold State.storeXr State.storeOrFree; split <;> rfl
@[simp] theorem State.storeXr_ref (ch : Fin 2) (v : Lines Num) (s : State) :
    (s.storeXr ch v).ref = s.ref := by
  unfold State.storeXr State.storeOrFree; split <;> rfl
@[simp] theorem State.storeXr_book (ch : Fin 2) (v : Lines Num) (s : State) :
    (s.storeXr ch v).book = s.book := by
  unfold State.storeXr State.storeOrFree; split <;> rfl
@[simp] theorem State.storeXr_crc (ch : Fin 2) (v : Lines Num) (s : State) :
    (s.storeXr ch v).crc = s.crc := by
  unfold State.storeXr State.storeOrFree; split <;> rfl
@[simp] theorem State.storeXr_fb (ch : Fin 2) (v : Lines Num) (s : State) :
    (s.storeXr ch v).fb = s.fb := by
  unfold State.storeXr State.storeOrFree; split <;> rfl
@[simp] theorem State.storeXr_pb (ch : Fin 2) (v : Lines Num) (s : State) :
    (s.storeXr ch v).pb = s.pb := by
  unfold State.storeXr State.storeOrFree; split <;> rfl
@[simp] theorem State.storeXr_inEof (ch : Fin 2) (v : Lines Num) (s : State) :
    (s.storeXr ch v).inEof = s.inEof := by
  unfold State.storeXr State.storeOrFree; split <;> rfl
@[simp] theorem State.storeXr_resync (ch : Fin 2) (v : Lines Num) (s : State) :
    (s.storeXr ch v).resync = s.resync := by
  unfold State.storeXr State.storeOrFree; split <;> rfl
@[simp] theorem State.storeXr_order (ch : Fin 2) (v : Lines Num) (s : State) :
    (s.storeXr ch v).order = s.order := by
  unfold State.storeXr State.storeOrFree; split <;> rfl
@[simp] theorem State.storeXr_si (ch : Fin 2) (v : Lines Num) (s : State) :
    (s.storeXr ch v).si = s.si := by
  unfold State.storeXr State.storeOrFree; split <;> rfl
@[simp] theorem State.storeXr_held (ch : Fin 2) (v : Lines Num) (s : State) :
    (s.storeXr ch v).held = s.held := by
  unfold State.storeXr State.storeOrFree; split <;> rfl
@[simp] theorem State.storeXr_env (ch : Fin 2) (v : Lines Num) (s : State) :
    (s.storeXr ch v).env = s.env := by
  unfold State.storeXr State.storeOrFree; split <;> rfl
@[simp] theorem State.storeXr_resv (ch : Fin 2) (v : Lines Num) (s : State) :
    (s.storeXr ch v).rs.resv = s.rs.resv := by
  unfold State.storeXr State.storeOrFree; split <;> rfl
@[simp] theorem State.storeXr_log_sticky (ch : Fin 2) (v : Lines Num) (s : State) :
    (s.storeXr ch v).rs.log.sticky = s.rs.log.sticky := by
  unfold State.storeXr State.storeOrFree; split <;> rfl
@[simp] theorem State.storeXr_log_first (ch : Fin 2) (v : Lines Num) (s : State) :
    (s.storeXr ch v).rs.log.first = s.rs.log.first := by
  unfold State.storeXr State.storeOrFree; split <;> rfl
@[simp] theorem State.storeXr_log_tainted (ch : Fin 2) (v : Lines Num) (s : State) :
    (s.storeXr ch v).rs.log.tainted = s.rs.log.tainted := by
  unfold State.storeXr State.storeOrFree; split <;> rfl
/-- With no fault recorded, the store stores its value and nothing else. -/
theorem State.storeXr_clean (ch : Fin 2) (v : Lines Num) {s : State} (h : s.clean) :
    s.storeXr ch v = s.mapChan ch fun c => { c with xr := v } := by
  unfold State.clean at h
  simp [State.storeXr, State.storeOrFree, h]
/-- The store leaves its value, or a free one. -/
theorem State.storeXr_chan (ch : Fin 2) (v : Lines Num) (s : State) :
    ∃ x, (x = v ∨ x = freeLines s.rs.log.draws) ∧ (s.storeXr ch v).chan = (s.mapChan ch fun c => { c with xr := x }).chan := by
  unfold State.storeXr State.storeOrFree
  split
  · exact ⟨_, .inr rfl, rfl⟩
  · exact ⟨v, .inl rfl, rfl⟩

/-! ### `storeHout` -/

@[simp] theorem State.storeHout_ctrl (ch : Fin 2) (v : Lines Num) (s : State) :
    (s.storeHout ch v).ctrl = s.ctrl := by
  unfold State.storeHout State.storeOrFree; split <;> rfl
@[simp] theorem State.storeHout_cmdCtrl (ch : Fin 2) (v : Lines Num) (s : State) :
    (s.storeHout ch v).cmdCtrl = s.cmdCtrl := by
  unfold State.storeHout State.storeOrFree; split <;> rfl
@[simp] theorem State.storeHout_status (ch : Fin 2) (v : Lines Num) (s : State) :
    (s.storeHout ch v).status = s.status := by
  unfold State.storeHout State.storeOrFree; split <;> rfl
@[simp] theorem State.storeHout_result (ch : Fin 2) (v : Lines Num) (s : State) :
    (s.storeHout ch v).result = s.result := by
  unfold State.storeHout State.storeOrFree; split <;> rfl
@[simp] theorem State.storeHout_head (ch : Fin 2) (v : Lines Num) (s : State) :
    (s.storeHout ch v).head = s.head := by
  unfold State.storeHout State.storeOrFree; split <;> rfl
@[simp] theorem State.storeHout_ref (ch : Fin 2) (v : Lines Num) (s : State) :
    (s.storeHout ch v).ref = s.ref := by
  unfold State.storeHout State.storeOrFree; split <;> rfl
@[simp] theorem State.storeHout_book (ch : Fin 2) (v : Lines Num) (s : State) :
    (s.storeHout ch v).book = s.book := by
  unfold State.storeHout State.storeOrFree; split <;> rfl
@[simp] theorem State.storeHout_crc (ch : Fin 2) (v : Lines Num) (s : State) :
    (s.storeHout ch v).crc = s.crc := by
  unfold State.storeHout State.storeOrFree; split <;> rfl
@[simp] theorem State.storeHout_fb (ch : Fin 2) (v : Lines Num) (s : State) :
    (s.storeHout ch v).fb = s.fb := by
  unfold State.storeHout State.storeOrFree; split <;> rfl
@[simp] theorem State.storeHout_pb (ch : Fin 2) (v : Lines Num) (s : State) :
    (s.storeHout ch v).pb = s.pb := by
  unfold State.storeHout State.storeOrFree; split <;> rfl
@[simp] theorem State.storeHout_inEof (ch : Fin 2) (v : Lines Num) (s : State) :
    (s.storeHout ch v).inEof = s.inEof := by
  unfold State.storeHout State.storeOrFree; split <;> rfl
@[simp] theorem State.storeHout_resync (ch : Fin 2) (v : Lines Num) (s : State) :
    (s.storeHout ch v).resync = s.resync := by
  unfold State.storeHout State.storeOrFree; split <;> rfl
@[simp] theorem State.storeHout_order (ch : Fin 2) (v : Lines Num) (s : State) :
    (s.storeHout ch v).order = s.order := by
  unfold State.storeHout State.storeOrFree; split <;> rfl
@[simp] theorem State.storeHout_si (ch : Fin 2) (v : Lines Num) (s : State) :
    (s.storeHout ch v).si = s.si := by
  unfold State.storeHout State.storeOrFree; split <;> rfl
@[simp] theorem State.storeHout_held (ch : Fin 2) (v : Lines Num) (s : State) :
    (s.storeHout ch v).held = s.held := by
  unfold State.storeHout State.storeOrFree; split <;> rfl
@[simp] theorem State.storeHout_env (ch : Fin 2) (v : Lines Num) (s : State) :
    (s.storeHout ch v).env = s.env := by
  unfold State.storeHout State.storeOrFree; split <;> rfl
@[simp] theorem State.storeHout_resv (ch : Fin 2) (v : Lines Num) (s : State) :
    (s.storeHout ch v).rs.resv = s.rs.resv := by
  unfold State.storeHout State.storeOrFree; split <;> rfl
@[simp] theorem State.storeHout_log_sticky (ch : Fin 2) (v : Lines Num) (s : State) :
    (s.storeHout ch v).rs.log.sticky = s.rs.log.sticky := by
  unfold State.storeHout State.storeOrFree; split <;> rfl
@[simp] theorem State.storeHout_log_first (ch : Fin 2) (v : Lines Num) (s : State) :
    (s.storeHout ch v).rs.log.first = s.rs.log.first := by
  unfold State.storeHout State.storeOrFree; split <;> rfl
@[simp] theorem State.storeHout_log_tainted (ch : Fin 2) (v : Lines Num) (s : State) :
    (s.storeHout ch v).rs.log.tainted = s.rs.log.tainted := by
  unfold State.storeHout State.storeOrFree; split <;> rfl
/-- With no fault recorded, the store stores its value and nothing else. -/
theorem State.storeHout_clean (ch : Fin 2) (v : Lines Num) {s : State} (h : s.clean) :
    s.storeHout ch v = s.mapChan ch fun c => { c with hout := v } := by
  unfold State.clean at h
  simp [State.storeHout, State.storeOrFree, h]
/-- The store leaves its value, or a free one. -/
theorem State.storeHout_chan (ch : Fin 2) (v : Lines Num) (s : State) :
    ∃ x, (x = v ∨ x = freeLines s.rs.log.draws) ∧ (s.storeHout ch v).chan = (s.mapChan ch fun c => { c with hout := x }).chan := by
  unfold State.storeHout State.storeOrFree
  split
  · exact ⟨_, .inr rfl, rfl⟩
  · exact ⟨v, .inl rfl, rfl⟩

/-! ### `storePrev` -/

@[simp] theorem State.storePrev_ctrl (ch : Fin 2) (v : Lines Num) (s : State) :
    (s.storePrev ch v).ctrl = s.ctrl := by
  unfold State.storePrev State.storeOrFree; split <;> rfl
@[simp] theorem State.storePrev_cmdCtrl (ch : Fin 2) (v : Lines Num) (s : State) :
    (s.storePrev ch v).cmdCtrl = s.cmdCtrl := by
  unfold State.storePrev State.storeOrFree; split <;> rfl
@[simp] theorem State.storePrev_status (ch : Fin 2) (v : Lines Num) (s : State) :
    (s.storePrev ch v).status = s.status := by
  unfold State.storePrev State.storeOrFree; split <;> rfl
@[simp] theorem State.storePrev_result (ch : Fin 2) (v : Lines Num) (s : State) :
    (s.storePrev ch v).result = s.result := by
  unfold State.storePrev State.storeOrFree; split <;> rfl
@[simp] theorem State.storePrev_head (ch : Fin 2) (v : Lines Num) (s : State) :
    (s.storePrev ch v).head = s.head := by
  unfold State.storePrev State.storeOrFree; split <;> rfl
@[simp] theorem State.storePrev_ref (ch : Fin 2) (v : Lines Num) (s : State) :
    (s.storePrev ch v).ref = s.ref := by
  unfold State.storePrev State.storeOrFree; split <;> rfl
@[simp] theorem State.storePrev_book (ch : Fin 2) (v : Lines Num) (s : State) :
    (s.storePrev ch v).book = s.book := by
  unfold State.storePrev State.storeOrFree; split <;> rfl
@[simp] theorem State.storePrev_crc (ch : Fin 2) (v : Lines Num) (s : State) :
    (s.storePrev ch v).crc = s.crc := by
  unfold State.storePrev State.storeOrFree; split <;> rfl
@[simp] theorem State.storePrev_fb (ch : Fin 2) (v : Lines Num) (s : State) :
    (s.storePrev ch v).fb = s.fb := by
  unfold State.storePrev State.storeOrFree; split <;> rfl
@[simp] theorem State.storePrev_pb (ch : Fin 2) (v : Lines Num) (s : State) :
    (s.storePrev ch v).pb = s.pb := by
  unfold State.storePrev State.storeOrFree; split <;> rfl
@[simp] theorem State.storePrev_inEof (ch : Fin 2) (v : Lines Num) (s : State) :
    (s.storePrev ch v).inEof = s.inEof := by
  unfold State.storePrev State.storeOrFree; split <;> rfl
@[simp] theorem State.storePrev_resync (ch : Fin 2) (v : Lines Num) (s : State) :
    (s.storePrev ch v).resync = s.resync := by
  unfold State.storePrev State.storeOrFree; split <;> rfl
@[simp] theorem State.storePrev_order (ch : Fin 2) (v : Lines Num) (s : State) :
    (s.storePrev ch v).order = s.order := by
  unfold State.storePrev State.storeOrFree; split <;> rfl
@[simp] theorem State.storePrev_si (ch : Fin 2) (v : Lines Num) (s : State) :
    (s.storePrev ch v).si = s.si := by
  unfold State.storePrev State.storeOrFree; split <;> rfl
@[simp] theorem State.storePrev_held (ch : Fin 2) (v : Lines Num) (s : State) :
    (s.storePrev ch v).held = s.held := by
  unfold State.storePrev State.storeOrFree; split <;> rfl
@[simp] theorem State.storePrev_env (ch : Fin 2) (v : Lines Num) (s : State) :
    (s.storePrev ch v).env = s.env := by
  unfold State.storePrev State.storeOrFree; split <;> rfl
@[simp] theorem State.storePrev_resv (ch : Fin 2) (v : Lines Num) (s : State) :
    (s.storePrev ch v).rs.resv = s.rs.resv := by
  unfold State.storePrev State.storeOrFree; split <;> rfl
@[simp] theorem State.storePrev_log_sticky (ch : Fin 2) (v : Lines Num) (s : State) :
    (s.storePrev ch v).rs.log.sticky = s.rs.log.sticky := by
  unfold State.storePrev State.storeOrFree; split <;> rfl
@[simp] theorem State.storePrev_log_first (ch : Fin 2) (v : Lines Num) (s : State) :
    (s.storePrev ch v).rs.log.first = s.rs.log.first := by
  unfold State.storePrev State.storeOrFree; split <;> rfl
@[simp] theorem State.storePrev_log_tainted (ch : Fin 2) (v : Lines Num) (s : State) :
    (s.storePrev ch v).rs.log.tainted = s.rs.log.tainted := by
  unfold State.storePrev State.storeOrFree; split <;> rfl
/-- With no fault recorded, the store stores its value and nothing else. -/
theorem State.storePrev_clean (ch : Fin 2) (v : Lines Num) {s : State} (h : s.clean) :
    s.storePrev ch v = s.mapChan ch fun c => { c with prev := v } := by
  unfold State.clean at h
  simp [State.storePrev, State.storeOrFree, h]
/-- The store leaves its value, or a free one. -/
theorem State.storePrev_chan (ch : Fin 2) (v : Lines Num) (s : State) :
    ∃ x, (x = v ∨ x = freeLines s.rs.log.draws) ∧ (s.storePrev ch v).chan = (s.mapChan ch fun c => { c with prev := x }).chan := by
  unfold State.storePrev State.storeOrFree
  split
  · exact ⟨_, .inr rfl, rfl⟩
  · exact ⟨v, .inl rfl, rfl⟩

/-! ### `answer` -/

@[simp] theorem State.answer_ctrl (w : Word) (s : State) : (s.answer w).ctrl = s.ctrl := by
  unfold State.answer State.storeOrFree; split <;> rfl
@[simp] theorem State.answer_cmdCtrl (w : Word) (s : State) : (s.answer w).cmdCtrl = s.cmdCtrl := by
  unfold State.answer State.storeOrFree; split <;> rfl
@[simp] theorem State.answer_status (w : Word) (s : State) : (s.answer w).status = s.status := by
  unfold State.answer State.storeOrFree; split <;> rfl
@[simp] theorem State.answer_head (w : Word) (s : State) : (s.answer w).head = s.head := by
  unfold State.answer State.storeOrFree; split <;> rfl
@[simp] theorem State.answer_ref (w : Word) (s : State) : (s.answer w).ref = s.ref := by
  unfold State.answer State.storeOrFree; split <;> rfl
@[simp] theorem State.answer_book (w : Word) (s : State) : (s.answer w).book = s.book := by
  unfold State.answer State.storeOrFree; split <;> rfl
@[simp] theorem State.answer_crc (w : Word) (s : State) : (s.answer w).crc = s.crc := by
  unfold State.answer State.storeOrFree; split <;> rfl
@[simp] theorem State.answer_fb (w : Word) (s : State) : (s.answer w).fb = s.fb := by
  unfold State.answer State.storeOrFree; split <;> rfl
@[simp] theorem State.answer_pb (w : Word) (s : State) : (s.answer w).pb = s.pb := by
  unfold State.answer State.storeOrFree; split <;> rfl
@[simp] theorem State.answer_inEof (w : Word) (s : State) : (s.answer w).inEof = s.inEof := by
  unfold State.answer State.storeOrFree; split <;> rfl
@[simp] theorem State.answer_resync (w : Word) (s : State) : (s.answer w).resync = s.resync := by
  unfold State.answer State.storeOrFree; split <;> rfl
@[simp] theorem State.answer_order (w : Word) (s : State) : (s.answer w).order = s.order := by
  unfold State.answer State.storeOrFree; split <;> rfl
@[simp] theorem State.answer_si (w : Word) (s : State) : (s.answer w).si = s.si := by
  unfold State.answer State.storeOrFree; split <;> rfl
@[simp] theorem State.answer_chan (w : Word) (s : State) : (s.answer w).chan = s.chan := by
  unfold State.answer State.storeOrFree; split <;> rfl
@[simp] theorem State.answer_held (w : Word) (s : State) : (s.answer w).held = s.held := by
  unfold State.answer State.storeOrFree; split <;> rfl
@[simp] theorem State.answer_env (w : Word) (s : State) : (s.answer w).env = s.env := by
  unfold State.answer State.storeOrFree; split <;> rfl
@[simp] theorem State.answer_resv (w : Word) (s : State) : (s.answer w).rs.resv = s.rs.resv := by
  unfold State.answer State.storeOrFree; split <;> rfl
@[simp] theorem State.answer_log_sticky (w : Word) (s : State) : (s.answer w).rs.log.sticky = s.rs.log.sticky := by
  unfold State.answer State.storeOrFree; split <;> rfl
@[simp] theorem State.answer_log_first (w : Word) (s : State) : (s.answer w).rs.log.first = s.rs.log.first := by
  unfold State.answer State.storeOrFree; split <;> rfl
@[simp] theorem State.answer_log_tainted (w : Word) (s : State) : (s.answer w).rs.log.tainted = s.rs.log.tainted := by
  unfold State.answer State.storeOrFree; split <;> rfl
/-- With no fault recorded, RESULT is the value and nothing else changes. -/
theorem State.answer_clean (w : Word) {s : State} (h : s.clean) : s.answer w = { s with result := w } := by
  unfold State.clean at h
  simp [State.answer, State.storeOrFree, h]

/-- RESULT is the value or a free one; one more free value may have been drawn; nothing else changes. -/
theorem State.answer_frame (w : Word) (s : State) :
    s.answer w =
      { s with
        result := (s.answer w).result
        rs := { s.rs with log := { s.rs.log with draws := (s.answer w).rs.log.draws } } } := by
  unfold State.answer State.storeOrFree; split <;> rfl

/-! ### `settle` -/

@[simp] theorem State.settle_ctrl (s : State) : s.settle.ctrl = s.ctrl := by
  unfold State.settle; split <;> rfl
@[simp] theorem State.settle_cmdCtrl (s : State) : s.settle.cmdCtrl = s.cmdCtrl := by
  unfold State.settle; split <;> rfl
@[simp] theorem State.settle_status (s : State) : s.settle.status = s.status := by
  unfold State.settle; split <;> rfl
@[simp] theorem State.settle_result (s : State) : s.settle.result = s.result := by
  unfold State.settle; split <;> rfl
@[simp] theorem State.settle_ref (s : State) : s.settle.ref = s.ref := by
  unfold State.settle; split <;> rfl
@[simp] theorem State.settle_fb (s : State) : s.settle.fb = s.fb := by
  unfold State.settle; split <;> rfl
@[simp] theorem State.settle_pb (s : State) : s.settle.pb = s.pb := by
  unfold State.settle; split <;> rfl
@[simp] theorem State.settle_inEof (s : State) : s.settle.inEof = s.inEof := by
  unfold State.settle; split <;> rfl
@[simp] theorem State.settle_resync (s : State) : s.settle.resync = s.resync := by
  unfold State.settle; split <;> rfl
@[simp] theorem State.settle_order (s : State) : s.settle.order = s.order := by
  unfold State.settle; split <;> rfl
@[simp] theorem State.settle_held (s : State) : s.settle.held = s.held := by
  unfold State.settle; split <;> rfl
@[simp] theorem State.settle_env (s : State) : s.settle.env = s.env := by
  unfold State.settle; split <;> rfl
@[simp] theorem State.settle_version (s : State) : s.settle.head.fields.version = s.head.fields.version := by
  unfold State.settle; split <;> rfl
@[simp] theorem State.settle_layer (s : State) : s.settle.head.fields.layer = s.head.fields.layer := by
  unfold State.settle; split <;> rfl
@[simp] theorem State.settle_prot (s : State) : s.settle.head.fields.prot = s.head.fields.prot := by
  unfold State.settle; split <;> rfl
@[simp] theorem State.settle_mode (s : State) : s.settle.head.fields.mode = s.head.fields.mode := by
  unfold State.settle; split <;> rfl
@[simp] theorem State.settle_resv (s : State) : s.settle.rs.resv = s.rs.resv := by
  unfold State.settle; split <;> rfl
@[simp] theorem State.settle_log_sticky (s : State) : s.settle.rs.log.sticky = s.rs.log.sticky := by
  unfold State.settle; split <;> rfl
@[simp] theorem State.settle_log_first (s : State) : s.settle.rs.log.first = s.rs.log.first := by
  unfold State.settle; split <;> rfl
@[simp] theorem State.settle_log_tainted (s : State) : s.settle.rs.log.tainted = s.rs.log.tainted := by
  unfold State.settle; split <;> rfl
@[simp] theorem State.settle_stage (c : Fin 2) (s : State) : (s.settle.chan.get c).stage = (s.chan.get c).stage := by
  unfold State.settle
  split
  · fin_cases c <;> rfl
  · rfl
@[simp] theorem State.settle_grp (c : Fin 2) (s : State) : (s.settle.chan.get c).grp = (s.chan.get c).grp := by
  unfold State.settle
  split
  · fin_cases c <;> rfl
  · rfl
@[simp] theorem State.settle_nch (s : State) : s.settle.nch = s.nch := by
  unfold State.settle; split <;> rfl

@[simp] theorem State.settle_ngr (s : State) : s.settle.ngr = s.ngr := by
  unfold State.settle; split <;> rfl

/-- With no fault recorded, the state is what the rules give. -/
theorem State.settle_clean {s : State} (h : s.clean) : s.settle = s := by
  unfold State.clean at h
  simp [State.settle, h]

/-- Whatever has been recorded, the state agrees with what the rules give. -/
theorem State.settle_agrees (s : State) : s.settle.Agrees s := by
  refine ⟨fun h => State.settle_clean h, ?_⟩
  unfold State.settle
  split <;> rfl

/-- NONZERO and IS after a command are its own, or free ones. -/
theorem State.settle_quantised (c : Fin 2) (s : State) :
    s.settle.chan.get c = s.chan.get c ∨
      ∃ k, (s.settle.chan.get c).nonzero = (freeQuantised k).nonzero ∧ (s.settle.chan.get c).is = (freeQuantised k).is := by
  unfold State.settle
  split
  · right
    fin_cases c
    · exact ⟨_, rfl, rfl⟩
    · exact ⟨_, rfl, rfl⟩
  · exact .inl rfl

end Sys2Proof.Machine
end

