-- ==== Sys2Proof/Laws/Command.lean ====
section
/-! SUPPORT. The life cycle of a command (R425): the three ways a command goes, said once; when each check
passes, in the terms of R104, R208, R231 and R421; and that no check reads what the life cycle writes. -/

namespace Sys2Proof.Machine

/-! ### Ends -/

/-- A command that a check ends leaves exactly the life-cycle effects. -/
theorem start_finish (e : Err) (s : State) : s.start.finish e = s.endedWith e := by
  cases e <;> rfl

@[simp] theorem illegalCommand_eq (s : State) : illegalCommand s = s.endedWith .illegalCmd :=
  start_finish _ s

@[simp] theorem execNop_eq (s : State) : execNop s = .next (s.endedWith .ok) := rfl

/-- The code a command that raised nothing ends with. -/
theorem finalErr_ok (first : Option Err) : finalErr .ok first = first.getD .ok := rfl

@[simp] theorem finalErr_none (e : Err) : finalErr e none = e := by cases e <;> rfl

@[simp] theorem finalErr_fatal (first : Option Err) : finalErr .fatalIo first = .fatalIo := rfl

/-! ### Agreement (R438) -/

theorem State.agrees_refl (s : State) : s.Agrees s := ⟨fun _ => rfl, rfl⟩

/-- Agreeing states have recorded the same faults. -/
theorem State.Agrees.clean_iff {t u : State} (h : t.Agrees u) : t.clean ↔ u.clean := by
  rw [h.2]; rfl

/-- The end of a command keeps agreement. -/
theorem State.Agrees.finish {t u : State} (h : t.Agrees u) (e : Err) : (t.finish e).Agrees (u.finish e) := by
  refine ⟨fun hc => by rw [h.1 hc], ?_⟩
  have h2 := h.2
  rw [h2]
  rfl

/-- What a command that ended leaves agrees with what its rule gives. -/
theorem complete_agrees (s : State) (e : Err) : (complete (.ended s e)).Agrees (s.finish e) :=
  (State.settle_agrees s).finish e

/-- A command that records no fault leaves what its rule gives. -/
theorem complete_clean {s : State} (h : s.clean) (e : Err) : complete (.ended s e) = s.finish e := by
  rw [complete, State.settle_clean h]

/-! ### The three ways -/

/-- After FATAL (R428). -/
theorem command_fatal (g : State → Option Err) (run : State → Ran) {s : State} (h : s.status.fatal = true) :
    command g run s = .next (s.endedWith .fatalIo) := by
  simp only [command, State.start_status, h, if_true, start_finish]

/-- A check that fails (R425). -/
theorem command_check {g : State → Option Err} (run : State → Ran) {s : State} {e : Err} (hs : s.live)
    (h : g s.start = some e) : command g run s = .next (s.endedWith e) := by
  unfold State.live at hs
  simp only [command, State.start_status, hs, Bool.false_eq_true, if_false, h, start_finish]

/-- The effects of a command whose checks pass. -/
theorem command_runs {g : State → Option Err} (run : State → Ran) {s : State} (hs : s.live)
    (h : g s.start = none) : command g run s = .next (complete (run s.start)) := by
  unfold State.live at hs
  simp only [command, State.start_status, hs, Bool.false_eq_true, if_false, h]

/-- A command that raises nothing leaves what its rule gives, but for what a fault leaves unspecified. -/
theorem command_ending {g : State → Option Err} (body : State → State) {s : State} (hs : s.live)
    (h : g s.start = none) :
    ∃ t, command g (ending body) s = .next t ∧ t.Agrees ((body s.start).finish .ok) :=
  ⟨_, command_runs _ hs h, complete_agrees _ _⟩

/-- Everything a command can do. -/
theorem command_cases (g : State → Option Err) (run : State → Ran) (s : State) :
    (∃ e, command g run s = .next (s.endedWith e)) ∨
    (s.live ∧ g s.start = none ∧ command g run s = .next (complete (run s.start))) := by
  cases hf : s.status.fatal
  · cases hg : g s.start with
    | none => exact .inr ⟨hf, rfl, command_runs run hf hg⟩
    | some e => exact .inl ⟨e, command_check run hf hg⟩
  · exact .inl ⟨_, command_fatal g run hf⟩

/-! ### The checks -/

@[simp] theorem require_none {c : Bool} {e : Err} : require c e = none ↔ c = true := by
  cases c <;> simp [require]

@[simp] theorem thenCheck_none {a b : Option Err} : thenCheck a b = none ↔ a = none ∧ b = none := by
  cases a <;> simp [thenCheck]

/-- R104's NOT_LAYER3 check passes. -/
theorem guardLayer3_none {s : State} :
    guardLayer3 s = none ↔ s.status.hdrValid = true ∧ s.status.layer3 = true := by
  simp [guardLayer3]

/-- R104's checks pass. -/
theorem guardGranule_none {gr ch : Fin 2} {s : State} :
    guardGranule gr ch s = none ↔
      (s.status.hdrValid = true ∧ s.status.layer3 = true) ∧ gr.val < s.ngr ∧ ch.val < s.nch := by
  simp [guardGranule, guardLayer3_none]

theorem at_iff {x : Stage} {gr ch : Fin 2} {s : State} :
    s.at x gr ch = true ↔ (s.chan.get ch).stage = x ∧ (s.chan.get ch).grp = gr := by
  simp [State.at]

/-- The checks of a granule command but SF and ST pass (R421). -/
theorem guardStage_none {x : Stage} {gr ch : Fin 2} {s : State} :
    guardStage x gr ch s = none ↔
      ((s.status.hdrValid = true ∧ s.status.layer3 = true) ∧ gr.val < s.ngr ∧ ch.val < s.nch) ∧
      (s.chan.get ch).stage = x ∧ (s.chan.get ch).grp = gr := by
  simp [guardStage, guardGranule_none, at_iff]

@[simp] theorem start_nch (s : State) : s.start.nch = s.nch := rfl

@[simp] theorem start_ngr (s : State) : s.start.ngr = s.ngr := rfl

@[simp] theorem start_channels (s : State) : s.start.channels = s.channels := rfl

@[simp] theorem start_info (gr ch : Fin 2) (s : State) : s.start.info gr ch = s.info gr ch := rfl

@[simp] theorem start_isOn (s : State) : s.start.isOn = s.isOn := rfl

@[simp] theorem start_msOn (s : State) : s.start.msOn = s.msOn := rfl

@[simp] theorem start_guardGranule (gr ch : Fin 2) (s : State) :
    guardGranule gr ch s.start = guardGranule gr ch s := rfl

@[simp] theorem start_guardStage (x : Stage) (gr ch : Fin 2) (s : State) :
    guardStage x gr ch s.start = guardStage x gr ch s := rfl

@[simp] theorem start_guardScalefactors (gr ch : Fin 2) (s : State) :
    guardScalefactors gr ch s.start = guardScalefactors gr ch s := rfl

@[simp] theorem start_guardStereo (gr : Fin 2) (s : State) :
    guardStereo gr s.start = guardStereo gr s := rfl

@[simp] theorem start_guardSideInfo (s : State) : guardSideInfo s.start = guardSideInfo s := rfl

@[simp] theorem start_guardMainData (s : State) : guardMainData s.start = guardMainData s := rfl

/-! ### `nch` and `ngr` -/

theorem nch_cases (s : State) : s.nch = 1 ∨ s.nch = 2 := by
  unfold State.nch Header.nch; split <;> simp

theorem ngr_cases (s : State) : s.ngr = 1 ∨ s.ngr = 2 := by
  unfold State.ngr Header.ngr; split <;> simp

theorem mem_channels {s : State} {ch : Fin 2} : ch ∈ s.channels ↔ ch.val < s.nch := by
  rcases nch_cases s with h | h <;> fin_cases ch <;> simp [State.channels, h]

/-! ### Every command answers a next state -/

/-- No arm of `exec` faults or refuses. -/
theorem exec_next (i : Instr) (s : State) : ∃ t, exec i s = .next t := by
  have key : ∀ g run, ∃ t, command g run s = .next t := fun g run => by
    rcases command_cases g run s with ⟨e, h⟩ | ⟨-, -, h⟩
    · exact ⟨_, h⟩
    · exact ⟨_, h⟩
  cases i <;>
    simp only [exec, execNop_eq, execResetStream, execDecodeFrame, execSync, execReadSideInfo,
      execLoadMainData, execRbPutByte, execRbReadBits, execRbRewindBits, execRbRewindBytes, execRbTell,
      execReadScalefactors, execHuffmanDecode, execDequantize, execReorder, execStereo, execAntialias,
      execHybrid, execFreqInvert, execEmit]
  case nop => exact ⟨_, rfl⟩
  all_goals exact key _ _

/-- The block never faults or refuses. -/
theorem step_next (s : State) : ∃ t, step s = .next t := by
  unfold step
  split
  · exact ⟨_, rfl⟩
  · next e _ _ =>
    cases e <;> try exact ⟨_, rfl⟩
    next off width data =>
    simp only [event, hostWrite]
    split
    · split
      · simp only [writeCmd]
        split
        · exact ⟨_, rfl⟩
        · split
          · exact exec_next _ _
          · exact ⟨_, rfl⟩
      · exact ⟨_, rfl⟩
    · exact ⟨_, rfl⟩

end Sys2Proof.Machine
end

