-- ==== Sys2Proof/Laws/Exact.lean ====
section
/-! SUPPORT. Every operation of Machine/Numeric.lean is the exact real operation it is named after (R12),
under any valuation of NUM that keeps zero and negation. -/

namespace Sys2Proof

open Real

namespace Exact

variable {val : Num → ℝ}

theorem real_ofNum (h : Valuation val) (x : Num) : (ofNum x).real val = val x := by
  cases x <;> simp [ofNum, real, h.1]

@[simp] theorem real_ratio (p : Int) (q : Nat) : (ratio p q).real val = (p : ℝ) / q := by
  unfold ratio
  split
  · next h => simp [h, real]
  · next h =>
    have hg : (Nat.gcd p.natAbs q : Int) ≠ 0 := by
      simp [Nat.gcd_eq_zero_iff, h]
    have hg' : (Nat.gcd p.natAbs q : ℝ) ≠ 0 := by exact_mod_cast hg
    have hp : (Nat.gcd p.natAbs q : Int) ∣ p :=
      (Int.natCast_dvd_natCast.2 (Nat.gcd_dvd_left _ _)).trans (Int.natAbs_dvd.2 dvd_rfl)
    simp only [real]
    rw [Int.cast_div hp (by exact_mod_cast hg), Nat.cast_div (Nat.gcd_dvd_right _ _) hg']
    push_cast
    rw [div_div_div_cancel_right₀ hg']

@[simp] theorem real_ofInt (p : Int) : (ofInt p).real val = p := by simp [ofInt]

@[simp] theorem real_one : one.real val = 1 := by simp [one, real]

@[simp] theorem real_zero : (Exact.zero).real val = 0 := rfl

theorem real_negate (h : Valuation val) (a : Exact) : (negate a).real val = -a.real val := by
  cases a <;> simp [negate, real, h.2, neg_div]

theorem real_plus (h : Valuation val) (a b : Exact) :
    (plus a b).real val = a.real val + b.real val := by
  unfold plus
  split
  · next ha => simp [ha]
  · split
    · next hb => simp [hb]
    · split
      · next hab => simp [hab, real_negate h]
      · split
        · split
          · rfl
          · next _ q _ q' _ _ _ hq =>
            have hq1 : (q : ℝ) ≠ 0 := by rintro e; simp_all
            have hq2 : (q' : ℝ) ≠ 0 := by rintro e; simp_all
            simp only [real_ratio, real]
            push_cast
            field_simp
        · rfl

theorem real_minus (h : Valuation val) (a b : Exact) :
    (minus a b).real val = a.real val - b.real val := by
  unfold minus
  split
  · next hb => simp [hb]
  · split
    · next ha => simp [ha, real_negate h]
    · split
      · next hab => simp [hab]
      · split
        · split
          · rfl
          · next _ q _ q' _ _ _ hq =>
            have hq1 : (q : ℝ) ≠ 0 := by rintro e; simp_all
            have hq2 : (q' : ℝ) ≠ 0 := by rintro e; simp_all
            simp only [real_ratio, real]
            push_cast
            field_simp
        · rfl

@[simp] theorem real_times (a b : Exact) : (times a b).real val = a.real val * b.real val := by
  unfold times
  split
  · next h => simp [h]
  · split
    · next h => simp [h]
    · split
      · next h => simp [h]
      · split
        · next h => simp [h]
        · split
          · simp only [real_ratio, real]
            push_cast
            rw [div_mul_div_comm]
          · rfl

@[simp] theorem real_quot (a b : Exact) : (quot a b).real val = a.real val / b.real val := by
  unfold quot
  split
  · next h => simp [h]
  · split
    · next h => simp [h]
    · rfl

@[simp] theorem real_powTwo (p : Int) (q : Nat) : (powTwo p q).real val = (2 : ℝ) ^ ((p : ℝ) / q) := by
  unfold powTwo
  split
  · next h =>
    have hk : (p : ℝ) / q = ((p / (q : Int) : Int) : ℝ) := by
      rcases eq_or_ne q 0 with rfl | hq
      · simp
      · rw [Int.cast_div (Int.dvd_of_emod_eq_zero h) (by exact_mod_cast hq)]
        simp
    rw [hk]
    split
    · next n hn => simp [hn, real, Real.rpow_natCast]
    · next n hn =>
      simp only [hn, real]
      rw [Int.cast_negSucc, Real.rpow_neg (by norm_num)]
      rw [Real.rpow_natCast]
      push_cast
      simp
  · rfl

@[simp] theorem real_powFourThirds (k : Nat) :
    (powFourThirds k).real val = (k : ℝ) ^ ((4 : ℝ) / 3) := by
  unfold powFourThirds
  split
  · next m hm =>
    have h := List.find?_some hm
    have hk : m ^ 3 = k := by simpa using h
    rw [real_ofInt, ← hk]
    push_cast
    rw [← Real.rpow_natCast (m : ℝ) 3, ← Real.rpow_mul (by positivity)]
    norm_num
  · rfl

@[simp] theorem real_sine (p q : Nat) : (sine p q).real val = Real.sin (π * p / q) := by
  unfold sine
  split
  · next h => simp [h]
  · next hp =>
    split
    · next h =>
      have : π * p / q = π / 2 := by
        rw [← h]; push_cast; have : (p : ℝ) ≠ 0 := by exact_mod_cast hp
        field_simp
      rw [this]; simp
    · split
      · next h =>
        have : π * p / q = π / 6 := by
          rw [← h]; push_cast; have : (p : ℝ) ≠ 0 := by exact_mod_cast hp
          field_simp
        rw [this, Real.sin_pi_div_six]; simp [real]
      · rfl

@[simp] theorem real_cosine (p q : Nat) : (cosine p q).real val = Real.cos (π * p / q) := by
  unfold cosine
  split
  · next h => simp [h]
  · next hp =>
    split
    · next h =>
      have : π * p / q = π / 2 := by
        rw [← h]; push_cast; have : (p : ℝ) ≠ 0 := by exact_mod_cast hp
        field_simp
      rw [this]; simp
    · split
      · next h =>
        have : π * p / q = π / 3 := by
          rw [← h]; push_cast; have : (p : ℝ) ≠ 0 := by exact_mod_cast hp
          field_simp
        rw [this, Real.cos_pi_div_three]; simp [real]
      · rfl

@[simp] theorem real_sqrtTwo : sqrtTwo.real val = √2 := by simp [sqrtTwo, real]

theorem real_sum (h : Valuation val) (f : Nat → Exact) (n : Nat) :
    (sum f n).real val = ∑ k ∈ Finset.range n, (f k).real val := by
  induction n with
  | zero => simp [sum]
  | succ n ih => rw [sum, real_plus h, ih, Finset.sum_range_succ]

end Exact

end Sys2Proof
end

