-- ==== Sys2Proof/Laws/Memory.lean ====
section
/-! SUPPORT. The laws of byte cells: a read after a write, every other byte kept, the canonical form kept,
equal readings make equal memories. -/

namespace Sys2Proof.Machine

namespace Memory

/-- The canonical form, without the recursion's overlap: no stored zero, addresses strictly rising. -/
theorem wf_cons (c : Host.Cell) (m : Memory) :
    Memory.wf (c :: m) = true ↔ c.2 ≠ Memory.unlisted ∧ (∀ d ∈ m, c.1 < d.1) ∧ m.wf = true := by
  induction m generalizing c with
  | nil => simp [Memory.wf]
  | cons d m ih =>
    have h : Memory.wf (c :: d :: m) =
        ((c.2 != Memory.unlisted) && decide (c.1 < d.1) && Memory.wf (d :: m)) := rfl
    rw [h]
    simp only [Bool.and_eq_true, bne_iff_ne, ne_eq, decide_eq_true_eq, List.mem_cons, forall_eq_or_imp]
    constructor
    · rintro ⟨⟨h1, h2⟩, h3⟩
      exact ⟨h1, ⟨h2, fun e he => h2.trans (((ih d).1 h3).2.1 e he)⟩, h3⟩
    · rintro ⟨h1, ⟨h2, -⟩, h3⟩
      exact ⟨⟨h1, h2⟩, h3⟩

@[simp] theorem wf_nil : Memory.wf [] = true := rfl

@[simp] theorem get_nil (p : Nat) : Memory.get [] p = Memory.unlisted := rfl

theorem get_cons (c : Host.Cell) (m : Memory) (p : Nat) :
    Memory.get (c :: m) p = if c.1 = p then c.2 else m.get p := rfl

/-- An address below every listed one is not listed. -/
theorem get_below {m : Memory} {p : Nat} (h : ∀ c ∈ m, p < c.1) : m.get p = Memory.unlisted := by
  induction m with
  | nil => rfl
  | cons c m ih =>
    have hc := h c (by simp)
    rw [get_cons, if_neg (by omega), ih fun d hd => h d (by simp [hd])]

/-- The bytes after a write (of a memory in canonical form). -/
theorem get_set {m : Memory} (hm : m.wf = true) (p q : Nat) (v : Byte) :
    (m.set p v).get q = if q = p then v else m.get q := by
  induction m with
  | nil =>
    unfold Memory.set
    split
    · next hv => simp [hv]
    · rw [get_cons]; simp only [get_nil]; split <;> split <;> simp_all
  | cons c m ih =>
    obtain ⟨h1, h2, h3⟩ := (wf_cons c m).1 hm
    unfold Memory.set
    split
    · next hp =>
      have hb : ∀ d ∈ c :: m, p < d.1 := by
        intro d hd
        rcases List.mem_cons.1 hd with rfl | hd
        · exact hp
        · exact hp.trans (h2 d hd)
      split
      · next hv =>
        split
        · next hq => rw [hq, get_below hb, hv]
        · rfl
      · rw [get_cons]
        by_cases hq : q = p
        · simp [hq]
        · rw [if_neg (fun h => hq h.symm), if_neg hq]
    · split
      · next hlt hp =>
        split
        · next hv =>
          split
          · next hq => rw [hq, get_below (fun d hd => hp ▸ h2 d hd), hv]
          · next hq => rw [get_cons, if_neg (by omega)]
        · rw [get_cons]
          by_cases hq : q = p
          · simp [hq]
          · rw [if_neg (fun h => hq h.symm), if_neg hq, get_cons, if_neg (by omega)]
      · next hlt hne =>
        rw [get_cons, get_cons, ih h3]
        by_cases hq : q = p
        · rw [if_pos hq, if_neg (by omega), if_pos hq]
        · rw [if_neg hq, if_neg hq]

/-- The addresses a write leaves listed. -/
theorem mem_set {m : Memory} {p : Nat} {v : Byte} {d : Host.Cell} (h : d ∈ m.set p v) : d = (p, v) ∨ d ∈ m := by
  induction m with
  | nil =>
    unfold Memory.set at h
    split at h
    · simp at h
    · simpa using h
  | cons c m ih =>
    unfold Memory.set at h
    split at h
    · split at h
      · exact .inr h
      · simpa using h
    · split at h
      · split at h
        · exact .inr (by simp [h])
        · rcases List.mem_cons.1 h with h | h
          · exact .inl h
          · exact .inr (by simp [h])
      · rcases List.mem_cons.1 h with h | h
        · exact .inr (by simp [h])
        · rcases ih h with h | h
          · exact .inl h
          · exact .inr (by simp [h])

/-- A write keeps the canonical form. -/
theorem wf_set {m : Memory} (hm : m.wf = true) (p : Nat) (v : Byte) : (m.set p v).wf = true := by
  induction m with
  | nil =>
    unfold Memory.set
    split
    · rfl
    · next hv => simpa [Memory.wf] using hv
  | cons c m ih =>
    obtain ⟨h1, h2, h3⟩ := (wf_cons c m).1 hm
    unfold Memory.set
    split
    · next hp =>
      split
      · exact hm
      · next hv =>
        refine (wf_cons _ _).2 ⟨hv, ?_, hm⟩
        intro d hd
        rcases List.mem_cons.1 hd with rfl | hd
        · exact hp
        · exact hp.trans (h2 d hd)
    · split
      · next hp =>
        split
        · exact h3
        · next hv => exact (wf_cons _ _).2 ⟨hv, fun d hd => hp ▸ h2 d hd, h3⟩
      · refine (wf_cons _ _).2 ⟨h1, ?_, ih h3⟩
        intro d hd
        rcases mem_set hd with rfl | hd
        · show c.1 < p; omega
        · exact h2 d hd

/-- A write below the bound keeps the bound. -/
theorem Within.set {m : Memory} {n p : Nat} (hm : m.Within n) (hp : p < n) (v : Byte) :
    (m.set p v).Within n := by
  refine ⟨wf_set hm.1 p v, fun d hd => ?_⟩
  rcases mem_set hd with rfl | hd
  · exact hp
  · exact hm.2 d hd

/-- A run of bytes keeps the canonical form. -/
theorem wf_fill {m : Memory} (hm : m.wf = true) (p : Nat) (l : List Byte) : (m.fill p l).wf = true := by
  induction l generalizing m p with
  | nil => exact hm
  | cons b l ih => exact ih (wf_set hm p b) (p + 1)

/-- A run of bytes below the bound keeps the bound. -/
theorem Within.fill {m : Memory} {n p : Nat} (hm : m.Within n) {l : List Byte} (h : p + l.length ≤ n) :
    (m.fill p l).Within n := by
  induction l generalizing m p with
  | nil => exact hm
  | cons b l ih =>
    simp only [List.length_cons] at h
    exact ih (hm.set (by omega) b) (by omega)

/-- The bytes after a run of bytes is written. -/
theorem get_fill {m : Memory} (hm : m.wf = true) (p q : Nat) (l : List Byte) :
    (m.fill p l).get q = if p ≤ q ∧ q < p + l.length then l.getD (q - p) 0 else m.get q := by
  induction l generalizing m p with
  | nil => simp [Memory.fill]
  | cons b l ih =>
    rw [Memory.fill, ih (wf_set hm p b), get_set hm]
    by_cases hq : q = p
    · subst hq; simp
    · by_cases h : p + 1 ≤ q ∧ q < p + 1 + l.length
      · rw [if_pos h, if_pos (by simp only [List.length_cons]; omega)]
        obtain ⟨k, rfl⟩ : ∃ k, q = p + 1 + k := ⟨q - (p + 1), by omega⟩
        rw [show p + 1 + k - (p + 1) = k by omega, show p + 1 + k - p = k + 1 by omega]
        simp
      · rw [if_neg h, if_neg hq, if_neg (by simp only [List.length_cons]; omega)]

/-- Equal readings make equal memories. -/
theorem ext_get {m n : Memory} (hm : m.wf = true) (hn : n.wf = true) (h : ∀ p, m.get p = n.get p) : m = n := by
  induction m generalizing n with
  | nil =>
    cases n with
    | nil => rfl
    | cons d n =>
      have := h d.1
      rw [get_cons, if_pos rfl] at this
      exact absurd this.symm ((wf_cons d n).1 hn).1
  | cons c m ih =>
    cases n with
    | nil =>
      have := h c.1
      rw [get_cons, if_pos rfl] at this
      exact absurd this ((wf_cons c m).1 hm).1
    | cons d n =>
      obtain ⟨c1, c2, c3⟩ := (wf_cons c m).1 hm
      obtain ⟨d1, d2, d3⟩ := (wf_cons d n).1 hn
      have key : c.1 = d.1 := by
        rcases lt_trichotomy c.1 d.1 with hlt | heq | hgt
        · have := h c.1
          rw [get_cons, if_pos rfl, get_below] at this
          · exact absurd this c1
          · intro e he
            rcases List.mem_cons.1 he with rfl | he
            · exact hlt
            · exact hlt.trans (d2 e he)
        · exact heq
        · have := h d.1
          rw [get_cons (m := n), if_pos rfl, get_below] at this
          · exact absurd this.symm d1
          · intro e he
            rcases List.mem_cons.1 he with rfl | he
            · exact hgt
            · exact hgt.trans (c2 e he)
      have hv : c.2 = d.2 := by
        have := h c.1
        rwa [get_cons, if_pos rfl, get_cons, if_pos key.symm] at this
      have hcd : c = d := Prod.ext key hv
      subst hcd
      congr 1
      refine ih c3 d3 fun p => ?_
      by_cases hp : c.1 = p
      · rw [get_below fun e he => hp ▸ c2 e he, get_below fun e he => hp ▸ d2 e he]
      · have := h p
        rwa [get_cons, if_neg hp, get_cons, if_neg hp] at this

end Memory

end Sys2Proof.Machine
end

