-- ==== Sys2Proof/Laws/Reservoir.lean ====
section
/-! SUPPORT. One lemma per primitive of the reservoir and the frame buffer (R202-R206, R214) that says all it
does to the cursors, the cells and the fault log, which later proofs cite instead of unfolding it. -/

namespace Sys2Proof.Machine

/-! ### The fault log -/

@[simp] theorem FaultLog.record_tainted (e : Err) (l : FaultLog) : (l.record e).tainted = true := rfl

@[simp] theorem FaultLog.record_sticky (e : Err) (l : FaultLog) : (l.record e).sticky = true := rfl

@[simp] theorem FaultLog.record_first (e : Err) (l : FaultLog) : (l.record e).first = some (l.first.getD e) := rfl

@[simp] theorem FaultLog.drawn_tainted (l : FaultLog) : l.drawn.tainted = l.tainted := rfl

@[simp] theorem FaultLog.drawn_sticky (l : FaultLog) : l.drawn.sticky = l.sticky := rfl

@[simp] theorem FaultLog.drawn_first (l : FaultLog) : l.drawn.first = l.first := rfl

@[simp] theorem FaultLog.recordIf_false (e : Err) (l : FaultLog) : l.recordIf false e = l := rfl

@[simp] theorem FaultLog.recordIf_true (e : Err) (l : FaultLog) : l.recordIf true e = l.record e := rfl

@[simp] theorem FaultLog.recordIf_tainted (c : Bool) (e : Err) (l : FaultLog) :
    (l.recordIf c e).tainted = (c || l.tainted) := by cases c <;> rfl

@[simp] theorem FaultLog.recordIf_sticky (c : Bool) (e : Err) (l : FaultLog) :
    (l.recordIf c e).sticky = (c || l.sticky) := by cases c <;> rfl

/-! ### RbRead (R203) -/

/-- The cursors after a read: no case distinction. -/
@[simp] theorem RS.read_resv (n : Nat) (r : RS) : (r.read n).2.resv = r.resv.advance n := by
  unfold RS.read; simp only; split <;> rfl

/-- The fault log after a read. -/
theorem RS.read_log (n : Nat) (r : RS) :
    (r.read n).2.log = r.log.recordIf (decide (r.resv.avail < n)) .resvOverread ∨
    (r.read n).2.log = (r.log.recordIf (decide (r.resv.avail < n)) .resvOverread).drawn := by
  unfold RS.read; simp only; split
  · exact .inr rfl
  · exact .inl rfl

/-- A read of bits that are there, with no fault recorded: the value of the cells in stream order. -/
theorem RS.read_clean {n : Nat} {r : RS} (hn : n ≤ r.resv.avail) (h : r.log.tainted = false) :
    r.read n = (r.resv.peek n, { resv := r.resv.advance n, log := r.log }) := by
  simp [RS.read, h, Nat.not_lt.2 hn]

/-- A read of `n` bits is below `2^n`. -/
theorem RS.read_lt (n : Nat) (r : RS) : (r.read n).1 < 2 ^ n := by
  unfold RS.read; simp only; split
  · exact Nat.mod_lt _ (by positivity)
  · exact gather_lt _ _

/-- A read of no bits changes nothing and gives 0 (R203). -/
@[simp] theorem RS.read_zero (r : RS) : r.read 0 = (0, r) := by
  simp [RS.read, Resv.peek, gather, Resv.advance]

theorem RS.read_tainted (n : Nat) (r : RS) :
    (r.read n).2.log.tainted = (decide (r.resv.avail < n) || r.log.tainted) := by
  rcases RS.read_log n r with h | h <;> simp [h]

theorem RS.read_sticky (n : Nat) (r : RS) :
    (r.read n).2.log.sticky = (decide (r.resv.avail < n) || r.log.sticky) := by
  rcases RS.read_log n r with h | h <;> simp [h]

/-! ### The cursors (R203, R205, R202) -/

@[simp] theorem Resv.advance_cells (n : Nat) (r : Resv) : (r.advance n).cells = r.cells := rfl

@[simp] theorem Resv.advance_wbyte (n : Nat) (r : Resv) : (r.advance n).wbyte = r.wbyte := rfl

@[simp] theorem Resv.advance_rptr (n : Nat) (r : Resv) : (r.advance n).rptr = r.rptr + BitVec.ofNat 15 n := rfl

@[simp] theorem Resv.advance_totbit (n : Nat) (r : Resv) :
    (r.advance n).totbit = r.totbit + BitVec.ofNat 32 n := rfl

@[simp] theorem Resv.advance_avail (n : Nat) (r : Resv) : (r.advance n).avail = r.avail - n := rfl

@[simp] theorem Resv.advance_hist (n : Nat) (r : Resv) : (r.advance n).hist = r.hist + min n r.avail := rfl

@[simp] theorem Resv.retreat_cells (n : Nat) (r : Resv) : (r.retreat n).cells = r.cells := rfl

@[simp] theorem Resv.retreat_wbyte (n : Nat) (r : Resv) : (r.retreat n).wbyte = r.wbyte := rfl

@[simp] theorem Resv.retreat_rptr (n : Nat) (r : Resv) : (r.retreat n).rptr = r.rptr - BitVec.ofNat 15 n := rfl

@[simp] theorem Resv.retreat_totbit (n : Nat) (r : Resv) :
    (r.retreat n).totbit = r.totbit - BitVec.ofNat 32 n := rfl

@[simp] theorem Resv.retreat_avail (n : Nat) (r : Resv) :
    (r.retreat n).avail = min (r.avail + n) Config.resvBits := rfl

@[simp] theorem Resv.retreat_hist (n : Nat) (r : Resv) : (r.retreat n).hist = r.hist - n := rfl

@[simp] theorem Resv.append_cells (b : Byte) (r : Resv) :
    (r.append b).cells = r.cells.set r.wbyte.toNat b := rfl

@[simp] theorem Resv.append_wbyte (b : Byte) (r : Resv) : (r.append b).wbyte = r.wbyte + 1 := rfl

@[simp] theorem Resv.append_rptr (b : Byte) (r : Resv) : (r.append b).rptr = r.rptr := rfl

@[simp] theorem Resv.append_totbit (b : Byte) (r : Resv) : (r.append b).totbit = r.totbit := rfl

@[simp] theorem Resv.append_avail (b : Byte) (r : Resv) :
    (r.append b).avail = min (r.avail + 8) Config.resvBits := rfl

@[simp] theorem Resv.append_hist (b : Byte) (r : Resv) :
    (r.append b).hist = min r.hist (Config.resvBits - min (r.avail + 8) Config.resvBits) := rfl

/-- The relations between the cursors that every primitive keeps (R43, R201, R204). -/
structure Resv.Ok (clean : Prop) (r : Resv) : Prop where
  cells   : r.cells.Within Config.resvBytes
  history : r.avail + r.hist ≤ Config.resvBits
  tell    : r.totbit.toNat % Config.resvBits = r.rptr.toNat
  ring    : clean → (r.rptr.toNat + r.avail) % Config.resvBits = r.wptr

theorem Resv.Ok.advance {c c' : Prop} {r : Resv} (h : r.Ok c) {n : Nat} (hc : c' → c ∧ n ≤ r.avail) :
    (r.advance n).Ok c' := by
  have hb : Config.resvBits = 32768 := rfl
  obtain ⟨h1, h2, h3, h4⟩ := h
  refine ⟨h1, ?_, ?_, fun hcc => ?_⟩
  · simp only [Resv.advance_avail, Resv.advance_hist]; omega
  · simp only [Resv.advance_totbit, Resv.advance_rptr, BitVec.toNat_add, BitVec.toNat_ofNat, hb] at *
    omega
  · obtain ⟨hc1, hn⟩ := hc hcc
    have := h4 hc1
    simp only [Resv.advance_avail, Resv.advance_rptr, Resv.wptr, Resv.advance_wbyte, BitVec.toNat_add,
      BitVec.toNat_ofNat, hb] at *
    omega

theorem Resv.Ok.retreat {c c' : Prop} {r : Resv} (h : r.Ok c) {n : Nat} (hc : c' → c ∧ n ≤ r.hist) :
    (r.retreat n).Ok c' := by
  have hb : Config.resvBits = 32768 := rfl
  obtain ⟨h1, h2, h3, h4⟩ := h
  refine ⟨h1, ?_, ?_, fun hcc => ?_⟩
  · simp only [Resv.retreat_avail, Resv.retreat_hist]; omega
  · have e1 := BitVec.toNat_sub (x := r.totbit) (y := BitVec.ofNat 32 n)
    have e2 := BitVec.toNat_sub (x := r.rptr) (y := BitVec.ofNat 15 n)
    simp only [Resv.retreat_totbit, Resv.retreat_rptr, BitVec.toNat_ofNat, hb] at *
    omega
  · obtain ⟨hc1, hn⟩ := hc hcc
    have := h4 hc1
    have e2 := BitVec.toNat_sub (x := r.rptr) (y := BitVec.ofNat 15 n)
    simp only [Resv.retreat_avail, Resv.retreat_rptr, Resv.wptr, Resv.retreat_wbyte, BitVec.toNat_ofNat,
      hb] at *
    omega

theorem Resv.Ok.append {c c' : Prop} {r : Resv} (h : r.Ok c) (b : Byte)
    (hc : c' → c ∧ r.avail + 8 ≤ Config.resvBits) : (r.append b).Ok c' := by
  have hb : Config.resvBits = 32768 := rfl
  have hy : Config.resvBytes = 4096 := rfl
  obtain ⟨h1, h2, h3, h4⟩ := h
  refine ⟨h1.set (by have := r.wbyte.isLt; omega) b, ?_, h3, fun hcc => ?_⟩
  · simp only [Resv.append_avail, Resv.append_hist]; omega
  · obtain ⟨hc1, hn⟩ := hc hcc
    have h5 := h4 hc1
    have h6 : (r.wbyte + 1).toNat = (r.wbyte.toNat + 1) % 4096 := BitVec.toNat_add _ _
    rw [Resv.append_avail, Resv.append_rptr, Resv.wptr, Resv.append_wbyte, h6]
    rw [Resv.wptr] at h5
    rw [hb] at hn h5 ⊢
    rw [min_eq_left hn]
    clear h1 h2 h3 h4 h6 hc hcc hb hy hc1
    generalize r.rptr.toNat = p at *
    generalize r.wbyte.toNat = w at *
    generalize r.avail = a at *
    omega

/-- A reservoir whose relations hold as long as no fault was recorded. -/
def RS.Ok (r : RS) : Prop := r.resv.Ok (r.log.tainted = false)

theorem RS.Ok.read {r : RS} (h : r.Ok) (n : Nat) : (r.read n).2.Ok := by
  unfold RS.Ok
  rw [RS.read_resv]
  refine Resv.Ok.advance h fun hc => ?_
  rw [RS.read_tainted] at hc
  simp only [Bool.or_eq_false_iff, decide_eq_false_iff_not, Nat.not_lt] at hc
  exact ⟨hc.2, hc.1⟩

theorem RS.Ok.rewind {r : RS} (h : r.Ok) (n : Nat) : (r.rewind n).Ok := by
  refine Resv.Ok.retreat h fun hc => ?_
  simp only [RS.rewind, FaultLog.recordIf_tainted, Bool.or_eq_false_iff, decide_eq_false_iff_not,
    Nat.not_lt] at hc
  exact ⟨hc.2, hc.1⟩

theorem RS.Ok.put {r : RS} (h : r.Ok) (b : Byte) : (r.put b).Ok := by
  refine Resv.Ok.append h b fun hc => ?_
  simp only [RS.put, FaultLog.recordIf_tainted, Bool.or_eq_false_iff, decide_eq_false_iff_not,
    Nat.not_lt] at hc
  exact ⟨hc.2, hc.1⟩

theorem RS.Ok.readMany {r : RS} (h : r.Ok) (ws : List Nat) : (r.readMany ws).2.Ok := by
  induction ws generalizing r with
  | nil => exact h
  | cons w ws ih => exact ih (h.read w)

theorem RS.Ok.putMany {r : RS} (h : r.Ok) (l : List Byte) : (r.putMany l).Ok := by
  induction l generalizing r with
  | nil => exact h
  | cons b l ih => exact ih (h.put b)

theorem RS.Ok.skipBytes {r : RS} (h : r.Ok) (n : Nat) : (r.skipBytes n).Ok := by
  induction n generalizing r with
  | zero => exact h
  | succ n ih => exact ih (h.read 8)

/-- A run of reads moves the read cursor by the sum of the widths. -/
theorem RS.readMany_totbit (ws : List Nat) (r : RS) :
    (r.readMany ws).2.resv.totbit = r.resv.totbit + BitVec.ofNat 32 ws.sum := by
  induction ws generalizing r with
  | nil => simp [RS.readMany]
  | cons w ws ih =>
    simp only [RS.readMany, ih, RS.read_resv, Resv.advance_totbit, List.sum_cons, BitVec.ofNat_add]
    rw [BitVec.add_assoc]

theorem RS.skipBytes_totbit (n : Nat) (r : RS) :
    (r.skipBytes n).resv.totbit = r.resv.totbit + BitVec.ofNat 32 (8 * n) := by
  induction n generalizing r with
  | zero => simp [RS.skipBytes]
  | succ n ih =>
    rw [RS.skipBytes, ih, RS.read_resv, Resv.advance_totbit, BitVec.add_assoc, ← BitVec.ofNat_add]
    congr 2
    omega

/-! ### FbRead (R214) -/

@[simp] theorem FrameBuf.read_buf (n : Nat) (fb : FrameBuf) (log : FaultLog) :
    (fb.read n log).2.1 = { fb with bitpos := min (fb.bitpos + n) (8 * fb.len) } := by
  unfold FrameBuf.read; simp only; split <;> rfl

theorem FrameBuf.read_log (n : Nat) (fb : FrameBuf) (log : FaultLog) :
    (fb.read n log).2.2 = log.recordIf (decide (8 * fb.len < fb.bitpos + n)) .frameBufOverread ∨
    (fb.read n log).2.2 = (log.recordIf (decide (8 * fb.len < fb.bitpos + n)) .frameBufOverread).drawn := by
  unfold FrameBuf.read; simp only; split
  · exact .inr rfl
  · exact .inl rfl

theorem FrameBuf.read_lt (n : Nat) (fb : FrameBuf) (log : FaultLog) : (fb.read n log).1 < 2 ^ n := by
  unfold FrameBuf.read; simp only; split
  · exact Nat.mod_lt _ (by positivity)
  · exact gather_lt _ _

/-- A read inside the body, with no fault recorded. -/
theorem FrameBuf.read_clean {n : Nat} {fb : FrameBuf} {log : FaultLog} (hn : fb.bitpos + n ≤ 8 * fb.len)
    (h : log.tainted = false) :
    fb.read n log =
      (gather (fun i => fb.cells.bit (fb.bitpos + i)) n, { fb with bitpos := fb.bitpos + n }, log) := by
  have h1 : min (fb.bitpos + n) (8 * fb.len) = fb.bitpos + n := by omega
  simp only [FrameBuf.read, h, h1, Nat.not_lt.2 hn, decide_false, FaultLog.recordIf_false, Bool.false_and,
    Bool.false_eq_true, if_false, Prod.mk.injEq, and_true]
  exact gather_congr fun i hi => by simp [FrameBuf.bit, show fb.bitpos + i < 8 * fb.len by omega]

end Sys2Proof.Machine
end

