-- ==== Sys2Proof/Laws/Frames.lean ====
section
/-! SUPPORT. For the effects of every command, what it can change at all: which fields of the state
(`_frame`), and which items of which channel (`_chan`). Later proofs cite these instead of unfolding. -/

namespace Sys2Proof.Machine

/-- `s` with other channels and another count of free values drawn: all a granule command past Huffman
decoding can change. -/
def State.chanFrame (s t : State) : State :=
  { s with rs := { s.rs with log := { s.rs.log with draws := t.rs.log.draws } }, chan := t.chan }

theorem chanFrame_refl (s : State) : s = s.chanFrame s := rfl

theorem chanFrame_trans {s t u : State} (h1 : t = s.chanFrame t) (h2 : u = t.chanFrame u) : u = s.chanFrame u := by
  rw [h1] at h2; exact h2

theorem mapChan_frame (ch : Fin 2) (f : Chan → Chan) (s : State) : s.mapChan ch f = s.chanFrame (s.mapChan ch f) := rfl

theorem setStage_frame (ch : Fin 2) (x : Stage) (s : State) : s.setStage ch x = s.chanFrame (s.setStage ch x) := rfl

/-! ### The stores -/

theorem storeOrFree_frame {α : Type} (x : α) (free : Nat → α) (ch : Fin 2) (f : α → Chan → Chan) (s : State) :
    State.storeOrFree x free (fun v => State.mapChan ch (f v)) s =
      s.chanFrame (State.storeOrFree x free (fun v => State.mapChan ch (f v)) s) := by
  unfold State.storeOrFree; split <;> rfl

theorem storeQuantised_frame (ch : Fin 2) (v : Quantised) (s : State) :
    s.storeQuantised ch v = s.chanFrame (s.storeQuantised ch v) := storeOrFree_frame _ _ _ _ s

theorem storeScf_frame (ch : Fin 2) (v : Scf) (s : State) :
    s.storeScf ch v = s.chanFrame (s.storeScf ch v) := storeOrFree_frame _ _ _ _ s

theorem storeLsf_frame (ch : Fin 2) (v : LsfInfo) (s : State) :
    s.storeLsf ch v = s.chanFrame (s.storeLsf ch v) := storeOrFree_frame _ _ _ _ s

theorem storeXr_frame (ch : Fin 2) (v : Lines Num) (s : State) :
    s.storeXr ch v = s.chanFrame (s.storeXr ch v) := storeOrFree_frame _ _ _ _ s

theorem storeHout_frame (ch : Fin 2) (v : Lines Num) (s : State) :
    s.storeHout ch v = s.chanFrame (s.storeHout ch v) := storeOrFree_frame _ _ _ _ s

theorem storePrev_frame (ch : Fin 2) (v : Lines Num) (s : State) :
    s.storePrev ch v = s.chanFrame (s.storePrev ch v) := storeOrFree_frame _ _ _ _ s

theorem mapChan_chan (ch c : Fin 2) (f : Chan → Chan) (s : State) :
    (s.mapChan ch f).chan.get c = if c = ch then f (s.chan.get ch) else s.chan.get c := by
  rw [State.mapChan_chan, Two.get_set]

theorem setStage_chan (ch c : Fin 2) (x : Stage) (s : State) :
    (s.setStage ch x).chan.get c = if c = ch then { s.chan.get ch with stage := x } else s.chan.get c :=
  mapChan_chan ch c _ s

theorem storeQuantised_chan (ch c : Fin 2) (v : Quantised) (s : State) :
    ∃ x, (x = v ∨ x = freeQuantised s.rs.log.draws) ∧ (s.storeQuantised ch v).chan.get c =
      if c = ch then { s.chan.get ch with nonzero := x.nonzero, is := x.is } else s.chan.get c := by
  obtain ⟨x, hx, h⟩ := State.storeQuantised_chan ch v s
  exact ⟨x, hx, by rw [h, mapChan_chan]⟩

theorem storeScf_chan (ch c : Fin 2) (v : Scf) (s : State) :
    ∃ x, (s.storeScf ch v).chan.get c = if c = ch then { s.chan.get ch with scf := x } else s.chan.get c := by
  obtain ⟨x, -, h⟩ := State.storeScf_chan ch v s
  exact ⟨x, by rw [h, mapChan_chan]⟩

theorem storeLsf_chan (ch c : Fin 2) (v : LsfInfo) (s : State) :
    ∃ x, (s.storeLsf ch v).chan.get c = if c = ch then { s.chan.get ch with lsf := x } else s.chan.get c := by
  obtain ⟨x, -, h⟩ := State.storeLsf_chan ch v s
  exact ⟨x, by rw [h, mapChan_chan]⟩

theorem storeXr_chan (ch c : Fin 2) (v : Lines Num) (s : State) :
    ∃ x, (s.storeXr ch v).chan.get c = if c = ch then { s.chan.get ch with xr := x } else s.chan.get c := by
  obtain ⟨x, -, h⟩ := State.storeXr_chan ch v s
  exact ⟨x, by rw [h, mapChan_chan]⟩

theorem storeHout_chan (ch c : Fin 2) (v : Lines Num) (s : State) :
    ∃ x, (s.storeHout ch v).chan.get c = if c = ch then { s.chan.get ch with hout := x } else s.chan.get c := by
  obtain ⟨x, -, h⟩ := State.storeHout_chan ch v s
  exact ⟨x, by rw [h, mapChan_chan]⟩

theorem storePrev_chan (ch c : Fin 2) (v : Lines Num) (s : State) :
    ∃ x, (s.storePrev ch v).chan.get c = if c = ch then { s.chan.get ch with prev := x } else s.chan.get c := by
  obtain ⟨x, -, h⟩ := State.storePrev_chan ch v s
  exact ⟨x, by rw [h, mapChan_chan]⟩

/-! ### DEQUANTIZE to FREQ_INVERT -/

theorem dequantize_frame (gr ch : Fin 2) (s : State) : dequantize gr ch s = s.chanFrame (dequantize gr ch s) :=
  chanFrame_trans (storeXr_frame ch _ s) (setStage_frame ch .dq _)

theorem dequantize_chan (gr ch c : Fin 2) (s : State) :
    ∃ x, (dequantize gr ch s).chan.get c =
      if c = ch then { s.chan.get ch with stage := .dq, xr := x } else s.chan.get c := by
  obtain ⟨x, hx⟩ := storeXr_chan ch ch (dequantLines s.head.fields.sfreq (s.info gr ch) (s.chan.get ch)) s
  obtain ⟨y, hy⟩ := storeXr_chan ch c (dequantLines s.head.fields.sfreq (s.info gr ch) (s.chan.get ch)) s
  refine ⟨x, ?_⟩
  rw [dequantize, setStage_chan, hx, hy, if_pos rfl]
  split <;> simp_all

theorem reorder_frame (gr ch : Fin 2) (s : State) : reorder gr ch s = s.chanFrame (reorder gr ch s) := by
  unfold reorder
  simp only
  split
  · exact chanFrame_trans (storeXr_frame ch _ s) (setStage_frame ch .ro _)
  · exact setStage_frame ch .ro _

theorem reorder_chan (gr ch c : Fin 2) (s : State) :
    ∃ x, (reorder gr ch s).chan.get c =
      if c = ch then { s.chan.get ch with stage := .ro, xr := x } else s.chan.get c := by
  unfold reorder
  simp only
  split
  · generalize hl : reorderLines s.head.fields.sfreq (s.info gr ch) (s.chan.get ch).xr = l
    obtain ⟨x, hx⟩ := storeXr_chan ch ch l s
    obtain ⟨y, hy⟩ := storeXr_chan ch c l s
    refine ⟨x, ?_⟩
    rw [setStage_chan, hx, hy, if_pos rfl]
    split <;> simp_all
  · exact ⟨(s.chan.get ch).xr, setStage_chan ch c .ro s⟩

theorem antialias_frame (gr ch : Fin 2) (s : State) : antialias gr ch s = s.chanFrame (antialias gr ch s) := by
  unfold antialias
  simp only
  split
  · exact setStage_frame ch .aa _
  · exact chanFrame_trans (storeXr_frame ch _ s) (setStage_frame ch .aa _)

theorem antialias_chan (gr ch c : Fin 2) (s : State) :
    ∃ x, (antialias gr ch s).chan.get c =
      if c = ch then { s.chan.get ch with stage := .aa, xr := x } else s.chan.get c := by
  unfold antialias
  simp only
  split
  · exact ⟨(s.chan.get ch).xr, setStage_chan ch c .aa s⟩
  · generalize hl : aliasLines (s.info gr ch) (s.chan.get ch).xr = l
    obtain ⟨x, hx⟩ := storeXr_chan ch ch l s
    obtain ⟨y, hy⟩ := storeXr_chan ch c l s
    refine ⟨x, ?_⟩
    rw [setStage_chan, hx, hy, if_pos rfl]
    split <;> simp_all

theorem hybrid_frame (gr ch : Fin 2) (s : State) : hybrid gr ch s = s.chanFrame (hybrid gr ch s) :=
  chanFrame_trans (chanFrame_trans (storeHout_frame ch _ s) (storePrev_frame ch _ _)) (setStage_frame ch .hy _)

theorem hybrid_chan (gr ch c : Fin 2) (s : State) :
    ∃ x y, (hybrid gr ch s).chan.get c =
      if c = ch then { s.chan.get ch with stage := .hy, hout := x, prev := y } else s.chan.get c := by
  unfold hybrid
  simp only
  generalize hybridOut (s.info gr ch) (s.chan.get ch).xr (s.chan.get ch).prev = l
  generalize hybridTail (s.info gr ch) (s.chan.get ch).xr = m
  obtain ⟨x, hx⟩ := storeHout_chan ch ch l s
  obtain ⟨x', hx'⟩ := storeHout_chan ch c l s
  obtain ⟨y, hy⟩ := storePrev_chan ch ch m (s.storeHout ch l)
  obtain ⟨y', hy'⟩ := storePrev_chan ch c m (s.storeHout ch l)
  refine ⟨x, y, ?_⟩
  rw [setStage_chan, hy, hy', hx, hx', if_pos rfl, if_pos rfl]
  split <;> simp_all

theorem freqInvert_frame (ch : Fin 2) (s : State) : freqInvert ch s = s.chanFrame (freqInvert ch s) :=
  chanFrame_trans (storeHout_frame ch _ s) (setStage_frame ch .fi _)

theorem freqInvert_chan (ch c : Fin 2) (s : State) :
    ∃ x, (freqInvert ch s).chan.get c =
      if c = ch then { s.chan.get ch with stage := .fi, hout := x } else s.chan.get c := by
  unfold freqInvert
  generalize invertLines (s.chan.get ch).hout = l
  obtain ⟨x, hx⟩ := storeHout_chan ch ch l s
  obtain ⟨y, hy⟩ := storeHout_chan ch c l s
  refine ⟨x, ?_⟩
  rw [setStage_chan, hx, hy, if_pos rfl]
  split <;> simp_all

/-! ### STEREO -/

/-- What STEREO may change of a channel: its spectral lines and its stage. -/
def Chan.sameButXr (c d : Chan) : Prop := d = { c with stage := d.stage, xr := d.xr }

theorem Chan.sameButXr_trans {c d e : Chan} (h1 : c.sameButXr d) (h2 : d.sameButXr e) : c.sameButXr e := by
  unfold Chan.sameButXr at *
  rw [h1] at h2
  exact h2

theorem storeXr_sameButXr (ch c : Fin 2) (v : Lines Num) (s : State) :
    (s.chan.get c).sameButXr ((s.storeXr ch v).chan.get c) := by
  obtain ⟨x, hx⟩ := storeXr_chan ch c v s
  rw [hx]
  split
  · next h => subst h; rfl
  · rfl

theorem setStage_sameButXr (ch c : Fin 2) (x : Stage) (s : State) :
    (s.chan.get c).sameButXr ((s.setStage ch x).chan.get c) := by
  rw [setStage_chan]
  split
  · next h => subst h; rfl
  · rfl

theorem foldl_setStage (l : List (Fin 2)) (f : Fin 2 → Stage) (s : State) :
    l.foldl (fun s ch => s.setStage ch (f ch)) s =
      s.chanFrame (l.foldl (fun s ch => s.setStage ch (f ch)) s) ∧
    ∀ c, (s.chan.get c).sameButXr ((l.foldl (fun s ch => s.setStage ch (f ch)) s).chan.get c) ∧
      ((l.foldl (fun s ch => s.setStage ch (f ch)) s).chan.get c).xr = (s.chan.get c).xr ∧
      ((l.foldl (fun s ch => s.setStage ch (f ch)) s).chan.get c).stage =
        if c ∈ l then f c else (s.chan.get c).stage := by
  induction l generalizing s with
  | nil => exact ⟨rfl, fun c => ⟨rfl, rfl, by simp⟩⟩
  | cons a l ih =>
    obtain ⟨h1, h2⟩ := ih (s.setStage a (f a))
    refine ⟨chanFrame_trans (setStage_frame a _ s) h1, fun c => ?_⟩
    obtain ⟨h3, h4, h5⟩ := h2 c
    refine ⟨Chan.sameButXr_trans (setStage_sameButXr a c _ s) h3, ?_, ?_⟩
    · rw [List.foldl_cons, h4, setStage_chan]
      split
      · next hc => rw [hc]
      · rfl
    · rw [List.foldl_cons, h5, setStage_chan]
      by_cases hc : c = a
      · subst hc; simp
      · simp [hc]

theorem select_frame (s : State) : select s = s.chanFrame (select s) := by
  unfold select
  simp only
  split
  · exact chanFrame_trans (storeXr_frame 0 _ s) (foldl_setStage _ _ _).1
  · exact (foldl_setStage _ _ _).1

theorem select_chan (s : State) (c : Fin 2) : (s.chan.get c).sameButXr ((select s).chan.get c) := by
  unfold select
  simp only
  split
  · exact Chan.sameButXr_trans (storeXr_sameButXr 0 c _ s) ((foldl_setStage _ _ _).2 c).1
  · exact ((foldl_setStage _ _ _).2 c).1

theorem stereoLines_frame (gr : Fin 2) (s : State) : stereoLines gr s = s.chanFrame (stereoLines gr s) := by
  unfold stereoLines
  split
  · exact chanFrame_trans (storeXr_frame 0 _ s) (storeXr_frame 1 _ _)
  · rfl

theorem stereo_frame (gr : Fin 2) (s : State) : stereo gr s = s.chanFrame (stereo gr s) :=
  chanFrame_trans (stereoLines_frame gr s) (select_frame _)

theorem stereo_chan (gr c : Fin 2) (s : State) : (s.chan.get c).sameButXr ((stereo gr s).chan.get c) := by
  refine Chan.sameButXr_trans ?_ (select_chan _ c)
  unfold stereoLines
  split
  · exact Chan.sameButXr_trans (storeXr_sameButXr 0 c _ s) (storeXr_sameButXr 1 c _ _)
  · rfl

/-- STAGE after STEREO (R350). -/
theorem stereo_stage (gr c : Fin 2) (s : State) :
    ((stereo gr s).chan.get c).stage =
      if c.val < s.nch then (if c ∈ s.sel then .st else .em) else (s.chan.get c).stage := by
  have hl := stereoLines_frame gr s
  have hch : ((stereoLines gr s).chan.get c).stage = (s.chan.get c).stage := by
    unfold stereoLines
    split
    · obtain ⟨x, hx⟩ := storeXr_chan 0 c
        (tabulate 576 fun j => (stereoPair s.isOn s.msOn (s.rightChannel gr) s.chan.c1.lsf s.chan.c0.xr j).1) s
      obtain ⟨y, hy⟩ := storeXr_chan 1 c
        (tabulate 576 fun j => (stereoPair s.isOn s.msOn (s.rightChannel gr) s.chan.c1.lsf s.chan.c0.xr j).2)
        (s.storeXr 0
          (tabulate 576 fun j => (stereoPair s.isOn s.msOn (s.rightChannel gr) s.chan.c1.lsf s.chan.c0.xr j).1))
      simp only
      rw [hy]
      fin_cases c
      · simpa using congrArg Chan.stage hx
      · obtain ⟨z, hz⟩ := storeXr_chan 0 1
          (tabulate 576 fun j => (stereoPair s.isOn s.msOn (s.rightChannel gr) s.chan.c1.lsf s.chan.c0.xr j).1) s
        simpa using congrArg Chan.stage hz
    · rfl
  have hn : (stereoLines gr s).nch = s.nch := by rw [hl]; rfl
  have hs : (stereoLines gr s).sel = s.sel := by rw [hl]; rfl
  have hc : (stereoLines gr s).channels = s.channels := by rw [hl]; rfl
  unfold stereo select
  simp only
  split
  · generalize hv : (tabulate 576 fun j =>
      average (lineAt (stereoLines gr s).chan.c0.xr j) (lineAt (stereoLines gr s).chan.c1.xr j)) = v
    have hf := storeXr_frame 0 v (stereoLines gr s)
    have h1 : ((stereoLines gr s).storeXr 0 v).channels = s.channels := by rw [hf]; exact hc
    have h2 : ((stereoLines gr s).storeXr 0 v).sel = s.sel := by rw [hf]; exact hs
    have h3 : (((stereoLines gr s).storeXr 0 v).chan.get c).stage = (s.chan.get c).stage := by
      obtain ⟨x, hx⟩ := storeXr_chan 0 c v (stereoLines gr s)
      rw [hx]
      split
      · next h => subst h; exact hch
      · exact hch
    rw [((foldl_setStage _ _ _).2 c).2.2, h1, h2, h3]
    simp [mem_channels]
  · rw [((foldl_setStage _ _ _).2 c).2.2, hc, hs, hch]
    simp [mem_channels]

/-! ### READ_SCALEFACTORS and HUFFMAN_DECODE -/

/-- What READ_SCALEFACTORS may change (R240, R245, R246). -/
theorem readScalefactors_frame (gr ch : Fin 2) (s : State) :
    readScalefactors gr ch s =
      { s with
        order := { s.order with partOpen := true }
        rs := (readScalefactors gr ch s).rs
        si := (readScalefactors gr ch s).si
        chan := (readScalefactors gr ch s).chan } := by
  have h1 : ∀ (s : State), readScfMpeg1 gr ch s =
      { s with rs := (readScfMpeg1 gr ch s).rs, chan := (readScfMpeg1 gr ch s).chan } := fun s => by
    unfold readScfMpeg1
    simp only
    generalize readSchedule _ _ _ = v
    generalize v.1.storeAll _ = w
    have := storeScf_frame ch w (s.withRs v.2)
    rw [this]
    rfl
  have h2 : ∀ (s : State), readScfLsf ch s =
      { s with
        rs := (readScfLsf ch s).rs
        si := (readScfLsf ch s).si
        chan := (readScfLsf ch s).chan } := fun s => by
    have h3 : getLsfScaleData ch s =
        { s with
          rs := (getLsfScaleData ch s).rs
          si := (getLsfScaleData ch s).si
          chan := (getLsfScaleData ch s).chan } := by
      unfold getLsfScaleData
      simp only
      generalize LsfInfo.mk _ _ _ = i
      generalize hs : ({ s with si := _ } : State) = s'
      have := storeLsf_frame ch i s'
      rw [this, ← hs]
      rfl
    unfold readScfLsf
    simp only
    generalize (getLsfScaleData ch s).rs.readMany _ = v
    generalize Scf.storeAll _ _ = w
    have := storeScf_frame ch w ((getLsfScaleData ch s).withRs v.2)
    rw [this, h3]
    rfl
  unfold readScalefactors
  simp only
  split
  · rw [h1]; rfl
  · rw [h2]; rfl

/-- What HUFFMAN_DECODE may change (R285). -/
theorem huffmanDecode_frame (gr ch : Fin 2) (s : State) :
    huffmanDecode gr ch s =
      { s with
        order := { nextGc := s.order.nextGc + 1, partOpen := false }
        rs := (huffmanDecode gr ch s).rs
        chan := (huffmanDecode gr ch s).chan } := by
  unfold huffmanDecode
  simp only
  generalize decodePart3 _ _ _ _ = v
  generalize hs : ((s.withRs v.2).mapChan ch _) = s'
  have := storeQuantised_frame ch v.1 s'
  rw [this, ← hs]
  rfl

end Sys2Proof.Machine
end

