-- ==== Sys2Proof/Laws/Streams.lean ====
section
/-! SUPPORT. What the reading parts of the commands keep: a predicate on the reservoir that reads, rewinds and
recorded faults keep is kept by scale-factor reading and Huffman decoding; the frame buffer changes only in
its cursor while it is read. -/

namespace Sys2Proof.Machine

/-- A predicate on the reservoir and its fault log that every primitive but RbPut keeps. -/
structure RS.Closed (K : RS → Prop) : Prop where
  read : ∀ r n, K r → K (r.read n).2
  rewind : ∀ r n, K r → K (r.rewind n)
  record : ∀ r e, K r → K { r with log := r.log.record e }

variable {K : RS → Prop}

theorem RS.Closed.readMany (k : RS.Closed K) (ws : List Nat) {r : RS} (h : K r) : K (r.readMany ws).2 := by
  induction ws generalizing r with
  | nil => exact h
  | cons w ws ih => exact ih (k.read r w h)

theorem RS.Closed.skipBytes (k : RS.Closed K) (n : Nat) {r : RS} (h : K r) : K (r.skipBytes n) := by
  induction n generalizing r with
  | zero => exact h
  | succ n ih => exact ih (k.read r 8 h)

/-! ### Huffman decoding (R280-R287) -/

theorem RS.Closed.huffWalk (k : RS.Closed K) {σ : Type} (book : Codebook σ) (z : σ) (fuel : Nat)
    (pre : List Bool) {r : RS} (h : K r) : K (huffWalk book z fuel pre r).2 := by
  induction fuel generalizing pre r with
  | zero => exact k.record r _ h
  | succ fuel ih =>
    unfold Machine.huffWalk
    simp only
    split
    · exact k.read r 1 h
    · split
      · exact k.record _ _ (k.read r 1 h)
      · exact ih _ (k.read r 1 h)

theorem RS.Closed.huffSym (k : RS.Closed K) {σ : Type} (book : Codebook σ) (z : σ) {r : RS} (h : K r) :
    K (huffSym book z r).2 := k.huffWalk book z 19 [] h

theorem RS.Closed.readEscape (k : RS.Closed K) (bits x : Nat) {r : RS} (h : K r) : K (readEscape bits x r).2 := by
  unfold Machine.readEscape
  split
  · exact k.read r bits h
  · exact h

theorem RS.Closed.readSign (k : RS.Closed K) (x : Nat) {r : RS} (h : K r) : K (readSign x r).2 := by
  unfold Machine.readSign
  split
  · exact h
  · exact k.read r 1 h

theorem RS.Closed.huffPair (k : RS.Closed K) (t : Nat) {r : RS} (h : K r) : K (huffPair t r).2 := by
  unfold Machine.huffPair
  refine k.readSign _ (k.readEscape _ _ (k.readSign _ (k.readEscape _ _ ?_)))
  split
  · exact h
  · exact k.huffSym _ _ h

theorem RS.Closed.bigValues (k : RS.Closed K) (table : Nat → Nat) (n i : Nat) {r : RS} (h : K r) :
    K (bigValues table n i r).2 := by
  induction n generalizing i r with
  | zero => exact h
  | succ n ih => exact ih _ (k.huffPair _ h)

theorem RS.Closed.huffQuad (k : RS.Closed K) (book : Codebook Quad) {r : RS} (h : K r) : K (huffQuad book r).2 :=
  k.readSign _ (k.readSign _ (k.readSign _ (k.readSign _ (k.huffSym _ _ h))))

theorem RS.Closed.count1 (k : RS.Closed K) (book : Codebook Quad) (stop fuel index : Nat) {r : RS} (h : K r) :
    K (count1 book stop fuel index r).2 := by
  induction fuel generalizing index r with
  | zero => exact h
  | succ fuel ih =>
    unfold Machine.count1
    split
    · exact ih _ (k.huffQuad _ h)
    · exact h

theorem RS.Closed.stuffing (k : RS.Closed K) (stop fuel : Nat) {r : RS} (h : K r) : K (stuffing stop fuel r) := by
  induction fuel generalizing r with
  | zero => exact h
  | succ fuel ih =>
    unfold Machine.stuffing
    split
    · exact ih (k.read r _ h)
    · exact h

theorem RS.Closed.decodePart3 (k : RS.Closed K) (sfreq : Fin 9) (g : GranuleInfo) (stop : Nat) {r : RS} (h : K r) :
    K (decodePart3 sfreq g stop r).2 := by
  unfold Machine.decodePart3
  simp only
  refine k.stuffing _ _ ?_
  split
  · exact k.rewind _ _ (k.count1 _ _ _ _ (k.bigValues _ _ _ h))
  · exact k.count1 _ _ _ _ (k.bigValues _ _ _ h)

/-- The reservoir after the stores of a granule command is the one before, but for the count of draws. -/
theorem chanFrame_rs {s t : State} (h : t = s.chanFrame t) :
    t.rs = { s.rs with log := { s.rs.log with draws := t.rs.log.draws } } := by
  rw [h]; rfl

/-- HUFFMAN_DECODE keeps what the primitives keep. -/
theorem RS.Closed.huffmanDecode (k : RS.Closed K)
    (hd : ∀ (r : RS) n, K r → K { r with log := { r.log with draws := n } }) (gr ch : Fin 2) {s : State}
    (h : K s.rs) : K (huffmanDecode gr ch s).rs := by
  unfold Machine.huffmanDecode
  simp only [State.setStage_rs]
  generalize hv : Machine.decodePart3 _ _ _ _ = v
  generalize hs : ((s.withRs v.2).mapChan ch _) = s'
  have hf := chanFrame_rs (storeQuantised_frame ch v.1 s')
  rw [hf]
  refine hd _ _ ?_
  rw [← hs, ← hv]
  exact k.decodePart3 _ _ _ h

/-! ### Scale factors (R240-R246) -/

theorem RS.Closed.readScalefactors (k : RS.Closed K)
    (hd : ∀ (r : RS) n, K r → K { r with log := { r.log with draws := n } }) (gr ch : Fin 2) {s : State}
    (h : K s.rs) : K (readScalefactors gr ch s).rs := by
  have h1 : ∀ s : State, K s.rs → K (readScfMpeg1 gr ch s).rs := fun s hs => by
    unfold readScfMpeg1 readSchedule
    simp only
    generalize hv : s.rs.readMany _ = v
    generalize Scf.storeAll (zeroSlots _) _ = w
    rw [chanFrame_rs (storeScf_frame ch w (s.withRs v.2))]
    refine hd _ _ ?_
    rw [State.withRs_rs, ← hv]
    exact k.readMany _ hs
  have h2 : ∀ s : State, K s.rs → K (getLsfScaleData ch s).rs := fun s hs => by
    unfold getLsfScaleData
    simp only
    generalize LsfInfo.mk _ _ _ = i
    generalize hs' : ({ s with si := _ } : State) = s'
    rw [chanFrame_rs (storeLsf_frame ch i s'), ← hs']
    exact hd _ _ hs
  have h3 : ∀ s : State, K s.rs → K (readScfLsf ch s).rs := fun s hs => by
    unfold readScfLsf
    simp only
    generalize hv : (getLsfScaleData ch s).rs.readMany _ = v
    generalize Scf.storeAll (zeroSlots _) _ = w
    rw [chanFrame_rs (storeScf_frame ch w ((getLsfScaleData ch s).withRs v.2))]
    refine hd _ _ ?_
    rw [State.withRs_rs, ← hv]
    exact k.readMany _ (h2 s hs)
  unfold Machine.readScalefactors
  simp only [State.setStage_rs]
  split
  · exact h1 _ h
  · exact h3 _ h

/-! ### The frame buffer while it is read (R214, R231) -/

/-- `b` is `a` with the cursor further on, within the body. -/
def FrameBuf.Later (a b : FrameBuf) : Prop :=
  b.cells = a.cells ∧ b.len = a.len ∧ (a.bitpos ≤ 8 * a.len → b.bitpos ≤ 8 * b.len)

theorem FrameBuf.later_refl (a : FrameBuf) : a.Later a := ⟨rfl, rfl, id⟩

theorem FrameBuf.later_trans {a b c : FrameBuf} (h1 : a.Later b) (h2 : b.Later c) : a.Later c :=
  ⟨h2.1.trans h1.1, h2.2.1.trans h1.2.1, fun h => h2.2.2 (h1.2.2 h)⟩

theorem FrameBuf.later_read (n : Nat) (a : FrameBuf) (log : FaultLog) : a.Later (a.read n log).2.1 := by
  rw [FrameBuf.read_buf]
  exact ⟨rfl, rfl, fun _ => min_le_right _ _⟩

/-- A later log is one where faults may have been added: the taint and the sticky bit only go up. -/
def FaultLog.Later (a b : FaultLog) : Prop :=
  (a.tainted = true → b.tainted = true) ∧ (a.sticky = true → b.sticky = true) ∧
  ((a.tainted = true → a.sticky = true) → b.tainted = true → b.sticky = true)

theorem FaultLog.later_refl (a : FaultLog) : a.Later a := ⟨id, id, id⟩

theorem FaultLog.later_trans {a b c : FaultLog} (h1 : a.Later b) (h2 : b.Later c) : a.Later c :=
  ⟨fun h => h2.1 (h1.1 h), fun h => h2.2.1 (h1.2.1 h), fun h => h2.2.2 (h1.2.2 h)⟩

theorem FaultLog.later_draws (a : FaultLog) (n : Nat) : a.Later { a with draws := n } := ⟨id, id, id⟩

theorem FaultLog.later_record (a : FaultLog) (e : Err) : a.Later (a.record e) :=
  ⟨fun _ => rfl, fun _ => rfl, fun _ _ => rfl⟩

theorem FaultLog.later_recordIf (a : FaultLog) (c : Bool) (e : Err) : a.Later (a.recordIf c e) := by
  cases c
  · exact a.later_refl
  · exact a.later_record e

theorem FaultLog.later_drawn (a : FaultLog) : a.Later a.drawn := ⟨id, id, id⟩

theorem FaultLog.later_fbRead (n : Nat) (a : FrameBuf) (log : FaultLog) : log.Later (a.read n log).2.2 := by
  rcases FrameBuf.read_log n a log with h | h <;> rw [h]
  · exact log.later_recordIf _ _
  · exact later_trans (log.later_recordIf _ _) (later_drawn _)

theorem FaultLog.later_rsRead (n : Nat) (r : RS) : r.log.Later (r.read n).2.log := by
  rcases RS.read_log n r with h | h <;> rw [h]
  · exact r.log.later_recordIf _ _
  · exact later_trans (r.log.later_recordIf _ _) (later_drawn _)

/-- The log of a reservoir later than a given log is what the primitives keep. -/
theorem RS.closed_later (a : FaultLog) : RS.Closed fun r => a.Later r.log where
  read r n h := FaultLog.later_trans h (FaultLog.later_rsRead n r)
  rewind r _ h := FaultLog.later_trans h (r.log.later_recordIf _ _)
  record r e h := FaultLog.later_trans h (r.log.later_record e)

/-- Both of a side-info read: the buffer's cursor and the log. -/
def SideRead.Later (a b : SideRead) : Prop := a.fb.Later b.fb ∧ a.log.Later b.log

theorem SideRead.later_refl (a : SideRead) : a.Later a := ⟨a.fb.later_refl, a.log.later_refl⟩

theorem SideRead.later_trans {a b c : SideRead} (h1 : a.Later b) (h2 : b.Later c) : a.Later c :=
  ⟨FrameBuf.later_trans h1.1 h2.1, FaultLog.later_trans h1.2 h2.2⟩

theorem SideRead.later_rd (n : Nat) (a : SideRead) : a.Later (a.rd n).2 :=
  ⟨FrameBuf.later_read n a.fb a.log, FaultLog.later_fbRead n a.fb a.log⟩

theorem SideRead.later_flag (a : SideRead) : a.Later a.flag.2 := a.later_rd 1

theorem readSwitched_later (r : SideRead) : r.Later (readSwitched r).2 := by
  unfold readSwitched
  exact SideRead.later_trans (SideRead.later_trans (SideRead.later_trans (SideRead.later_trans
    (SideRead.later_trans (SideRead.later_trans (r.later_rd 2) (SideRead.later_flag _)) (SideRead.later_rd 5 _))
    (SideRead.later_rd 5 _)) (SideRead.later_rd 3 _)) (SideRead.later_rd 3 _)) (SideRead.later_rd 3 _)

theorem readPlain_later (r : SideRead) : r.Later (readPlain r).2 := by
  unfold readPlain
  exact SideRead.later_trans (SideRead.later_trans (SideRead.later_trans (SideRead.later_trans
    (r.later_rd 5) (SideRead.later_rd 5 _)) (SideRead.later_rd 5 _)) (SideRead.later_rd 4 _))
    (SideRead.later_rd 3 _)

theorem readGranuleChannel_later (m : Bool) (r : SideRead) : r.Later (readGranuleChannel m r).2 := by
  have hb : ∀ (c : Bool) (r : SideRead), r.Later (if c then readSwitched r else readPlain r).2 := fun c r => by
    cases c
    · exact readPlain_later r
    · exact readSwitched_later r
  have hp : ∀ r : SideRead, r.Later (if m = true then r.flag else (false, r)).2 := fun r => by
    split
    · exact r.later_flag
    · exact r.later_refl
  unfold readGranuleChannel
  exact SideRead.later_trans (SideRead.later_trans (SideRead.later_trans (SideRead.later_trans
    (SideRead.later_trans (SideRead.later_trans (SideRead.later_trans (SideRead.later_trans
      (r.later_rd 12) (SideRead.later_rd 9 _)) (SideRead.later_rd 8 _)) (SideRead.later_rd _ _))
      (SideRead.later_flag _)) (hb _ _)) (hp _)) (SideRead.later_flag _)) (SideRead.later_flag _)

theorem readGranuleChannels_later (m : Bool) (l : List (Fin 2 × Fin 2)) (si : SideInfo) (r : SideRead) :
    r.Later (readGranuleChannels m l si r).2 := by
  induction l generalizing si r with
  | nil => exact r.later_refl
  | cons p l ih => exact SideRead.later_trans (readGranuleChannel_later m r) (ih _ _)

theorem readScfsi_later (l : List (Fin 2)) (si : SideInfo) (r : SideRead) : r.Later (readScfsi l si r).2 := by
  induction l generalizing si r with
  | nil => exact r.later_refl
  | cons p l ih => exact SideRead.later_trans (r.later_rd 4) (ih _ _)

/-- READ_SIDE_INFO's reads move the frame buffer's cursor and add to the log, nothing else. -/
theorem readFields_later (s : State) (r : SideRead) : r.Later (readFields s r).2 := by
  unfold readFields
  split
  · exact SideRead.later_trans (SideRead.later_trans (SideRead.later_trans (r.later_rd 9) (SideRead.later_rd _ _))
      (readScfsi_later _ _ _)) (readGranuleChannels_later _ _ _ _)
  · exact SideRead.later_trans (SideRead.later_trans (r.later_rd 8) (SideRead.later_rd _ _))
      (readGranuleChannels_later _ _ _ _)

end Sys2Proof.Machine
end

