-- ==== Sys2Proof/Laws/Frame.lean ====
section
/-! SUPPORT. What the frame commands READ_SIDE_INFO and LOAD_MAIN_DATA, and the acceptance of a frame by SYNC,
do to the state, piece by piece. -/

namespace Sys2Proof.Machine

/-! ### READ_SIDE_INFO (R231, R233) -/

theorem takeSideInfo_frame (s : State) :
    takeSideInfo s =
      { s with
        si := (takeSideInfo s).si
        fb := (takeSideInfo s).fb
        rs := { s.rs with log := (takeSideInfo s).rs.log }
        crc := (takeSideInfo s).crc
        status := { s.status with crcMismatch := (takeSideInfo s).status.crcMismatch } } := rfl

theorem takeSideInfo_later (s : State) :
    s.fb.Later (takeSideInfo s).fb ∧ s.rs.log.Later (takeSideInfo s).rs.log :=
  readFields_later s { fb := s.fb, log := s.rs.log, crc := s.crc.engine }

theorem setStages_frame (x : Stage) (s : State) : s.setStages x = { s with chan := (s.setStages x).chan } := rfl

theorem setStages_chan (x : Stage) (c : Fin 2) (s : State) :
    (s.setStages x).chan.get c = { s.chan.get c with stage := x } := by
  fin_cases c <;> rfl

theorem readSideInfo_cases (s : State) :
    (∃ e, (takeSideInfo s).rejection = some e ∧ readSideInfo s = (rejectFrame (takeSideInfo s), e)) ∨
    ((takeSideInfo s).rejection = none ∧ readSideInfo s = ((takeSideInfo s).setStages .si, .ok)) := by
  unfold readSideInfo
  simp only
  split
  · next e he => exact .inl ⟨e, he, rfl⟩
  · next he => exact .inr ⟨he, rfl⟩

theorem rejectFrame_frame (s : State) :
    rejectFrame s =
      { s with
        rs := s.rs.putMany (s.fb.bytes (s.fb.bitpos / 8) s.head.slots)
        fb := { s.fb with bitpos := 8 * s.fb.len }
        book := { s.book with frameStart := s.book.frameStart + BitVec.ofNat 32 s.head.slots }
        status := { s.status with skipped := true }
        chan := (s.setStages .idle).chan } := rfl

theorem RS.putMany_later (l : List Byte) (r : RS) : r.log.Later (r.putMany l).log := by
  induction l generalizing r with
  | nil => exact r.log.later_refl
  | cons b l ih => exact FaultLog.later_trans (r.log.later_recordIf _ _) (ih (r.put b))

/-! ### LOAD_MAIN_DATA (R208-R212) -/

theorem Copy.slots_later (n : Nat) (c : Copy) :
    c.fb.Later (Copy.slots n c).fb ∧ c.rs.log.Later (Copy.slots n c).rs.log := by
  induction n generalizing c with
  | zero => exact ⟨c.fb.later_refl, c.rs.log.later_refl⟩
  | succ n ih =>
    obtain ⟨h1, h2⟩ := ih { fb := (c.fb.read 8 c.rs.log).2.1,
                            rs := RS.put (BitVec.ofNat 8 (c.fb.read 8 c.rs.log).1)
                              { c.rs with log := (c.fb.read 8 c.rs.log).2.2 } }
    exact ⟨FrameBuf.later_trans (FrameBuf.later_read _ _ _) h1,
      FaultLog.later_trans (FaultLog.later_trans (FaultLog.later_fbRead _ _ _)
        (FaultLog.later_recordIf _ _ _)) h2⟩

theorem RS.Ok.mono {r : RS} (h : r.Ok) {log : FaultLog} (hl : r.log.Later log) : RS.Ok { r with log := log } := by
  obtain ⟨h1, h2, h3, h4⟩ := h
  refine ⟨h1, h2, h3, fun hc => h4 ?_⟩
  cases ht : r.log.tainted
  · rfl
  · have h5 : log.tainted = false := hc
    rw [hl.1 ht] at h5; exact h5

theorem RS.closed_ok : RS.Closed RS.Ok where
  read _ n h := h.read n
  rewind _ n h := h.rewind n
  record r e h := h.mono (r.log.later_record e)

theorem Copy.slots_ok (n : Nat) {c : Copy} (h : c.rs.Ok) : (Copy.slots n c).rs.Ok := by
  induction n generalizing c with
  | zero => exact h
  | succ n ih => exact ih ((h.mono (FaultLog.later_fbRead _ _ _)).put _)

theorem flush_closed {K : RS → Prop} (k : RS.Closed K) {r : RS} (h : K r) : K (flush r).1 := by
  unfold flush
  simp only
  split
  · exact k.read _ _ h
  · exact h

theorem RS.Ok.renormalise {r : RS} (h : r.Ok) : RS.Ok { r with resv := r.resv.renormalise } := by
  obtain ⟨h1, h2, h3, h4⟩ := h
  refine ⟨h1, h2, ?_, h4⟩
  have hb : Config.resvBits = 32768 := rfl
  have e := BitVec.toNat_sub (x := r.resv.totbit) (y := BitVec.ofNat 32 32768)
  simp only [Resv.renormalise, hb, BitVec.toNat_ofNat] at *
  omega

theorem foldl_enterMd (l : List (Fin 2)) (s : State) :
    l.foldl (fun s ch => s.mapChan ch fun c => { c with stage := .md, grp := 0 }) s =
      { s with chan := (l.foldl (fun s ch => s.mapChan ch fun c => { c with stage := .md, grp := 0 }) s).chan } ∧
    ∀ c, (l.foldl (fun s ch => s.mapChan ch fun c => { c with stage := .md, grp := 0 }) s).chan.get c =
      if c ∈ l then { s.chan.get c with stage := .md, grp := 0 } else s.chan.get c := by
  induction l generalizing s with
  | nil => exact ⟨rfl, fun c => by simp⟩
  | cons a l ih =>
    obtain ⟨h1, h2⟩ := ih (s.mapChan a fun c => { c with stage := .md, grp := 0 })
    refine ⟨by rw [List.foldl_cons, h1]; rfl, fun c => ?_⟩
    rw [List.foldl_cons, h2, mapChan_chan]
    by_cases hc : c = a
    · subst hc; simp
    · simp [hc]

theorem enterMd_frame (s : State) : s.enterMd = { s with chan := s.enterMd.chan } := (foldl_enterMd _ s).1

theorem enterMd_chan (s : State) (c : Fin 2) :
    s.enterMd.chan.get c =
      if c.val < s.nch then { s.chan.get c with stage := .md, grp := 0 } else s.chan.get c := by
  rw [State.enterMd, (foldl_enterMd _ s).2]
  simp [mem_channels]

/-- LOAD_MAIN_DATA in its two outcomes: the skip (R210) and the load (R211, R212). -/
theorem loadMainData_skip {s : State} (h : s.newDiscard.toInt < 0) :
    loadMainData s =
      ({ s with
          fb := s.copied.fb
          rs := (flush s.copied.rs).1
          book := { frameStart := s.newFrameStart, mainDataEnd := s.newMainDataEnd, discard := s.newDiscard }
          status := { s.status with skipped := true }
          chan := (s.setStages .idle).chan }, .frameSkipped) := by
  rw [loadMainData, if_pos h]

theorem loadMainData_load {s : State} (h : ¬s.newDiscard.toInt < 0) :
    loadMainData s =
      ({ s with
          fb := s.copied.fb
          rs := s.loadedRs
          book := {
            frameStart :=
              if s.wrapGuard then s.newFrameStart - BitVec.ofNat 32 Config.resvBytes else s.newFrameStart
            mainDataEnd := s.newMainDataEnd
            discard := s.newDiscard }
          order := { nextGc := 0, partOpen := false }
          chan := s.enterMd.chan }, .ok) := by
  rw [loadMainData, if_neg h]

theorem copied_later (s : State) : s.fb.Later s.copied.fb ∧ s.rs.log.Later s.copied.rs.log :=
  Copy.slots_later s.head.slots { fb := s.fb, rs := s.rs }

theorem copied_ok {s : State} (h : s.rs.Ok) : s.copied.rs.Ok := Copy.slots_ok s.head.slots h

theorem loadedRs_ok {s : State} (h : s.rs.Ok) : s.loadedRs.Ok := by
  unfold State.loadedRs
  refine RS.closed_ok.skipBytes _ ?_
  split
  · exact (flush_closed RS.closed_ok (copied_ok h)).renormalise
  · exact flush_closed RS.closed_ok (copied_ok h)

theorem flush_later (r : RS) : r.log.Later (flush r).1.log :=
  flush_closed (RS.closed_later r.log) r.log.later_refl

theorem loadedRs_later (s : State) : s.rs.log.Later s.loadedRs.log := by
  unfold State.loadedRs
  refine (RS.closed_later s.rs.log).skipBytes _ ?_
  exact FaultLog.later_trans (copied_later s).2 (flush_later _)

/-! ### Accept (R157) -/

theorem readCrcWord_later (prot : Bool) (fb : FrameBuf) (log : FaultLog) :
    fb.Later (readCrcWord prot fb log).2.1 ∧ log.Later (readCrcWord prot fb log).2.2 := by
  cases prot
  · exact ⟨FrameBuf.later_read _ _ _, FaultLog.later_fbRead _ _ _⟩
  · exact ⟨fb.later_refl, log.later_refl⟩

theorem accept_later (h : Word) (body : List Byte) (s : State) :
    (s.fb.load body).Later (accept h body s).fb ∧ s.rs.log.Later (accept h body s).rs.log :=
  readCrcWord_later _ _ _

@[simp] theorem accept_head (h : Word) (body : List Byte) (s : State) :
    (accept h body s).head = { hdr := h, fields := parseHeader h, frameSize := body.length,
                               slots := slotCount (parseHeader h) body.length } := rfl

@[simp] theorem accept_chan (h : Word) (body : List Byte) (s : State) : (accept h body s).chan = s.chan := rfl

@[simp] theorem accept_resv (h : Word) (body : List Byte) (s : State) :
    (accept h body s).rs.resv = s.rs.resv := rfl

theorem capture_mode (h : Word) (ref : SyncRef) : (ref.capture h).mode = .strict := by
  unfold SyncRef.capture
  split
  · rfl
  · next hm => exact hm

end Sys2Proof.Machine
end

