-- ==== Sys2Proof/Laws/Keeps.lean ====
section
/-! SUPPORT. The induction over what the block can do, once: a predicate on states that every part of a
step keeps, part by part, is kept by every step (`Keeps.step`). An invariant is proved by giving its parts. -/

namespace Sys2Proof.Machine

/-- The parts of a step keep `P` between steps, `R` inside a command, `Q` inside a scan, `W` of the words that
EMIT has left. -/
structure Keeps (P R : State → Prop) (Q : SyncPhase → State → Prop) (W : List Sample → Prop) : Prop where
  stop : ∀ s e, P s → P (s.endedWith e)
  start : ∀ s, P s → s.live → R s.start
  finish : ∀ s e, R s → P (s.finish e)
  world : ∀ s v, P s → P { s with env := v }
  port : ∀ s v, R s → R { s with env := v }
  result : ∀ s w, R s → R { s with result := w }
  answer : ∀ s w, R s → R (s.answer w)
  settle : ∀ s, R s → R s.settle
  skipped : ∀ s, R s → R { s with status := { s.status with skipped := true } }
  ctrl : ∀ s c, P s → P { s with ctrl := c }
  drawn : ∀ s, P s → P s.drawn
  overrun : ∀ s, P s → s.busy = true → P { s with status := { s.status with overrun := true } }
  scanStart : ∀ s, R s → Q .begin (syncStart s)
  scanGo : ∀ p s sc, Q p s → (s.scan p).next s.ref = .go sc → Q sc.phase (s.withScan sc)
  scanAccept : ∀ p s h body sc, Q p s → (s.scan p).next s.ref = .accept h body sc →
    R (accept h body (s.withScan sc))
  scanEnd : ∀ p s sc, Q p s → (s.scan p).next s.ref = .ended sc →
    P (State.finish .endOfStream (State.settle { s.withScan sc with status := { s.status with eos := true } }))
  scanFail : ∀ p s sc, Q p s → (s.scan p).next s.ref = .failed sc →
    P (State.finish .fatalIo (State.settle { s.withScan sc with status := { s.status with fatal := true } }))
  scanWait : ∀ p s f, Q p s → P { s with held := some (.sync p f) }
  scanResume : ∀ p s f, P s → s.held = some (.sync p f) → Q p s
  emitWait : ∀ s ch ws f, R s → W ws → ws ≠ [] → P { s with held := some (.emit ch ws f) }
  emitResume : ∀ s ch ws f, P s → s.held = some (.emit ch ws f) → R s ∧ W ws
  emitWords : ∀ ch hout, W (emitWords ch hout)
  emitDrop : ∀ ws k, W ws → W (ws.drop k)
  emitEnd : ∀ s ch, R s → R (emitEnd ch s)
  reset : ∀ s, R s → R (resetStream s)
  put : ∀ s b, R s → R (s.withRs (s.rs.put b))
  read : ∀ s n, R s → R (s.withRs (s.rs.read n).2)
  rewind : ∀ s n, R s → R (s.withRs (s.rs.rewind n))
  sideInfo : ∀ s, R s → guardSideInfo s = none → R (readSideInfo s).1
  mainData : ∀ s, R s → guardMainData s = none → R (loadMainData s).1
  scalefactors : ∀ s gr ch, R s → guardScalefactors gr ch s = none → R (readScalefactors gr ch s)
  huffman : ∀ s gr ch, R s → guardStage .sf gr ch s = none → R (huffmanDecode gr ch s)
  dequantize : ∀ s gr ch, R s → guardStage .huf gr ch s = none → R (dequantize gr ch s)
  reorder : ∀ s gr ch, R s → guardStage .dq gr ch s = none → R (reorder gr ch s)
  stereo : ∀ s gr, R s → guardStereo gr s = none → R (stereo gr s)
  antialias : ∀ s gr ch, R s → guardStage .st gr ch s = none → R (antialias gr ch s)
  hybrid : ∀ s gr ch, R s → guardStage .aa gr ch s = none → R (hybrid gr ch s)
  freqInvert : ∀ s gr ch, R s → guardStage .hy gr ch s = none → R (freqInvert ch s)

/-- One InByte of a scan changes the stream, the phase and the count, nothing else of the state. -/
theorem scan_withScan (s : State) (sc : Scan) :
    (s.withScan sc).scan sc.phase = sc := rfl

theorem withScan_withScan (a b : Scan) (s : State) : (s.withScan a).withScan b = s.withScan b := rfl

/-- A scan that waits for its next InByte has changed nothing. -/
theorem Scan.next_waits {ref : SyncRef} {sc sc' : Scan} (h : sc.next ref = .waits sc') : sc' = sc := by
  obtain ⟨ph, ⟨pb, inEof, port⟩, re⟩ := sc
  unfold Scan.next InStream.take at h
  simp only at h
  cases pb with
  | cons b pb =>
    simp only [Scan.byte] at h
    split at h <;> (first | cases h | (split at h <;> (first | cases h | (split at h <;> cases h))))
  | nil =>
    cases inEof with
    | true => simp only [if_true, Scan.eof] at h; split at h <;> cases h
    | false =>
      simp only [Bool.false_eq_true, if_false] at h
      cases port with
      | nil => simpa using h.symm
      | cons t port =>
        cases t with
        | data b =>
          simp only [Scan.byte] at h
          split at h <;> (first | cases h | (split at h <;> (first | cases h | (split at h <;> cases h))))
        | eof => simp only [Scan.eof] at h; split at h <;> cases h
        | ioerr => simp at h

section
variable {P R : State → Prop} {Q : SyncPhase → State → Prop} {W : List Sample → Prop}

/-- The end of a command, the state settled. -/
theorem Keeps.done (k : Keeps P R Q W) {s : State} (e : Err) (h : R s) : P (complete (.ended s e)) :=
  k.finish _ _ (k.settle _ h)

theorem Keeps.syncFrom (k : Keeps P R Q W) (frame : Bool) {andThen : State → Ran}
    (hthen : ∀ s, R s → P (complete (andThen s))) {p : SyncPhase} {s : State} (h : Q p s) :
    P (complete (Machine.syncFrom frame andThen p s)) := by
  unfold Machine.syncFrom
  simp only
  generalize (s.scan p).fuel = fuel
  suffices hs : ∀ (fuel : Nat) (p : SyncPhase) (s₀ s : State), s₀ = s.withScan (s₀.scan p) → Q p s₀ →
      P (complete (match Scan.run s.ref fuel (s₀.scan p) with
        | .accept h body sc => andThen (accept h body (s.withScan sc))
        | .ended sc => .ended { s.withScan sc with status := { s.status with eos := true } } .endOfStream
        | .failed sc => .ended { s.withScan sc with status := { s.status with fatal := true } } .fatalIo
        | .waits sc => .waiting (.sync sc.phase frame) (s.withScan sc)
        | .go sc => .waiting (.sync sc.phase frame) (s.withScan sc))) from hs fuel p s s rfl h
  intro fuel
  induction fuel with
  | zero =>
    intro p s₀ s e h
    simp only [Scan.run]
    rw [← e]
    exact k.scanWait _ _ _ h
  | succ fuel ih =>
    intro p s₀ s e h
    have hw : ∀ sc, s₀.withScan sc = s.withScan sc := fun sc => by rw [e]; rfl
    have hr : s.ref = s₀.ref := by rw [e]; rfl
    have hst : s.status = s₀.status := by rw [e]; rfl
    rw [Scan.run, hr]
    cases hm : (s₀.scan p).next s₀.ref with
    | go sc =>
      simp only
      have := ih sc.phase (s₀.withScan sc) s (by rw [scan_withScan, hw]) (k.scanGo _ _ _ h hm)
      rwa [scan_withScan, hr] at this
    | accept hd body sc => simp only; rw [← hw]; exact hthen _ (k.scanAccept _ _ _ _ _ h hm)
    | ended sc => simp only; rw [← hw, hst]; exact k.scanEnd _ _ _ h hm
    | failed sc => simp only; rw [← hw, hst]; exact k.scanFail _ _ _ h hm
    | waits sc =>
      simp only
      have := Scan.next_waits hm
      subst this
      rw [← e]
      exact k.scanWait _ _ _ h

theorem Keeps.ended (k : Keeps P R Q W) {s : State} (h : R s) : P (complete (Machine.ended s)) :=
  k.done _ h

theorem Keeps.syncEnd (k : Keeps P R Q W) {s : State} (h : R s) : P (complete (Machine.syncEnd s)) :=
  k.done _ (k.answer _ _ h)

theorem Keeps.sendFrom (k : Keeps P R Q W) {ch : Fin 2} {frame : Option (List Job × Nat)}
    {andThen : State → Ran} (hthen : ∀ s, R s → P (complete (andThen s))) {ws : List Sample} {s : State}
    (h : R s) (hw : W ws) : P (complete (Machine.sendFrom ch frame andThen ws s)) := by
  unfold Machine.sendFrom State.send
  simp only
  split
  · next t hs =>
    simp only [Prod.mk.injEq] at hs
    exact hthen _ (k.emitEnd _ _ (hs.1 ▸ k.port _ _ h))
  · next t w left hs =>
    simp only [Prod.mk.injEq] at hs
    rw [← hs.1, ← hs.2]
    exact k.emitWait _ _ _ _ (k.port _ _ h) (k.emitDrop _ _ hw) (by rw [hs.2]; simp)

theorem Keeps.runStage (_k : Keeps P R Q W) {g : State → Option Err} {body : State → State × Err}
    (hb : ∀ s, R s → g s = none → R (body s).1) {s : State} (h : R s) : R (runStage g body s).1 := by
  unfold Machine.runStage
  split
  · exact h
  · next hg => exact hb s h hg

theorem Keeps.runPlain (k : Keeps P R Q W) {g : State → Option Err} {body : State → State}
    (hb : ∀ s, R s → g s = none → R (body s)) {s : State} (h : R s) : R (runPlain g body s).1 :=
  k.runStage (body := fun s => (body s, .ok)) hb h

theorem Keeps.thenStage (_k : Keeps P R Q W) {a b : State → State × Err} (ha : ∀ s, R s → R (a s).1)
    (hb : ∀ s, R s → R (b s).1) {s : State} (h : R s) : R (thenStage a b s).1 := by
  unfold Machine.thenStage
  simp only
  split
  · exact hb _ (ha _ h)
  · exact ha _ h

theorem Keeps.runFront (k : Keeps P R Q W) (gr ch : Fin 2) {s : State} (h : R s) : R (runFront gr ch s).1 :=
  k.thenStage (fun _ => k.runPlain fun s hs => k.scalefactors s gr ch hs)
    (fun _ => k.thenStage (fun _ => k.runPlain fun s hs => k.huffman s gr ch hs)
      (fun _ => k.thenStage (fun _ => k.runPlain fun s hs => k.dequantize s gr ch hs)
        (fun _ => k.runPlain fun s hs => k.reorder s gr ch hs))) h

theorem Keeps.runBack (k : Keeps P R Q W) (gr ch : Fin 2) {s : State} (h : R s) : R (runBack gr ch s).1 :=
  k.thenStage (fun _ => k.runPlain fun s hs => k.antialias s gr ch hs)
    (fun _ => k.thenStage (fun _ => k.runPlain fun s hs => k.hybrid s gr ch hs)
      (fun _ => k.thenStage (fun _ => k.runPlain fun s hs => k.freqInvert s gr ch hs)
        (fun _ => k.runPlain fun _ hs _ => hs))) h

theorem Keeps.frameEnd (k : Keeps P R Q W) (n : Nat) {s : State} (h : R s) :
    P (complete (Machine.frameEnd n s)) := by
  unfold Machine.frameEnd
  simp only
  split
  · exact k.done _ (k.answer _ _ (k.port _ _ h))
  · exact k.done _ (k.answer _ _ h)

theorem Keeps.runJobs (k : Keeps P R Q W) (jobs : List Job) (n : Nat) {s : State} (h : R s) :
    P (complete (Machine.runJobs jobs n s)) := by
  induction jobs generalizing n s with
  | nil => exact k.frameEnd n h
  | cons j jobs ih =>
    cases j with
    | front gr ch =>
      have hf := k.runFront gr ch h
      unfold Machine.runJobs
      split
      · next hs => rw [hs] at hf; exact ih n hf
      · next hs => rw [hs] at hf; exact k.done _ hf
    | stereo gr =>
      have hf := k.runPlain (g := guardStereo gr) (body := Machine.stereo gr) (fun s hs => k.stereo s gr hs) h
      unfold Machine.runJobs
      split
      · next hs => rw [hs] at hf; exact ih n hf
      · next hs => rw [hs] at hf; exact k.done _ hf
    | back gr ch =>
      have hf := k.runBack gr ch h
      unfold Machine.runJobs
      split
      · next hs =>
        rw [hs] at hf
        exact k.sendFrom (fun _ => ih _) hf (k.emitWords _ _)
      · next hs => rw [hs] at hf; exact k.done _ hf

theorem Keeps.frameBody (k : Keeps P R Q W) {s : State} (h : R s) : P (complete (Machine.frameBody s)) := by
  unfold Machine.frameBody
  split
  · exact k.done _ (k.skipped _ h)
  · have hf := k.thenStage (a := Machine.runStage guardSideInfo readSideInfo)
      (b := Machine.runStage guardMainData loadMainData) (fun _ => k.runStage k.sideInfo)
      (fun _ => k.runStage k.mainData) h
    split
    · next hs => rw [hs] at hf; exact k.runJobs _ _ hf
    · next hs => rw [hs] at hf; exact k.done _ hf

theorem Keeps.resume (k : Keeps P R Q W) {s : State} {p : Progress} (h : P s) (hp : s.held = some p) :
    P (complete (Machine.resume p s)) := by
  unfold Machine.resume
  split
  · exact k.syncFrom _ (fun _ => k.syncEnd) (k.scanResume _ _ _ h hp)
  · exact k.syncFrom _ (fun _ => k.frameBody) (k.scanResume _ _ _ h hp)
  · exact k.sendFrom (fun _ => k.ended) (k.emitResume _ _ _ _ h hp).1 (k.emitResume _ _ _ _ h hp).2
  · exact k.sendFrom (fun _ => k.runJobs _ _) (k.emitResume _ _ _ _ h hp).1 (k.emitResume _ _ _ _ h hp).2

theorem Keeps.proceed (k : Keeps P R Q W) {s : State} (h : P s) : P (Machine.proceed s) := by
  unfold Machine.proceed
  split
  · exact h
  · next hp => exact k.resume h hp

theorem Keeps.command (k : Keeps P R Q W) {g : State → Option Err} {run : State → Ran} {s t : State} (h : P s)
    (hr : ∀ s, R s → g s = none → P (complete (run s))) (ht : Machine.command g run s = .next t) : P t := by
  rcases command_cases g run s with ⟨e, he⟩ | ⟨hl, hg, he⟩
  · rw [he] at ht
    cases ht
    exact k.stop _ _ h
  · rw [he] at ht
    cases ht
    exact hr _ (k.start _ h hl) hg

/-- A command keeps the invariant. -/
theorem Keeps.exec (k : Keeps P R Q W) {i : Instr} {s t : State} (h : P s) (ht : Machine.exec i s = .next t) :
    P t := by
  cases i <;>
    simp only [Machine.exec, execNop_eq, execResetStream, execDecodeFrame, execSync, execReadSideInfo,
      execLoadMainData, execRbPutByte, execRbReadBits, execRbRewindBits, execRbRewindBytes, execRbTell,
      execReadScalefactors, execHuffmanDecode, execDequantize, execReorder, execStereo, execAntialias,
      execHybrid, execFreqInvert, execEmit] at ht
  case nop => cases ht; exact k.stop _ _ h
  all_goals refine k.command h (fun s hs hg => ?_) ht
  case resetStream => exact k.done _ (k.reset _ hs)
  case decodeFrame => exact k.syncFrom _ (fun _ => k.frameBody) (k.scanStart _ hs)
  case sync => exact k.syncFrom _ (fun _ => k.syncEnd) (k.scanStart _ hs)
  case readSideInfo => exact k.done _ (k.sideInfo _ hs hg)
  case loadMainData => exact k.done _ (k.mainData _ hs hg)
  case rbPutByte => exact k.done _ (k.put _ _ hs)
  case rbReadBits imm =>
    refine k.done _ ?_
    unfold rbReadBits
    simp only
    split
    · exact k.result _ _ (k.read _ _ hs)
    · exact k.answer _ _ (k.read _ _ hs)
  case rbRewindBits => exact k.done _ (k.rewind _ _ hs)
  case rbRewindBytes => exact k.done _ (k.rewind _ _ hs)
  case rbTell => exact k.done _ (k.answer _ _ hs)
  case readScalefactors => exact k.done _ (k.scalefactors _ _ _ hs hg)
  case huffmanDecode => exact k.done _ (k.huffman _ _ _ hs hg)
  case dequantize => exact k.done _ (k.dequantize _ _ _ hs hg)
  case reorder => exact k.done _ (k.reorder _ _ _ hs hg)
  case stereo => exact k.done _ (k.stereo _ _ hs hg)
  case antialias => exact k.done _ (k.antialias _ _ _ hs hg)
  case hybrid => exact k.done _ (k.hybrid _ _ _ hs hg)
  case freqInvert => exact k.done _ (k.freqInvert _ _ _ hs hg)
  case emit => exact k.sendFrom (fun _ => k.ended) hs (k.emitWords _ _)

/-- An event other than power-on reset keeps the invariant. -/
theorem Keeps.event (k : Keeps P R Q W) {e : Event} (he : e ≠ .powerOnReset) {s t : State} (h : P s)
    (ht : Machine.event e s = .next t) : P t := by
  cases e with
  | write off width data =>
    simp only [Machine.event, hostWrite] at ht
    split at ht
    · split at ht
      · simp only [writeCmd] at ht
        split at ht
        · next hb => cases ht; exact k.overrun _ h hb
        · split at ht
          · exact k.exec h ht
          · cases ht; rw [illegalCommand_eq]; exact k.stop _ _ h
      · cases ht
        unfold hostWriteRegister
        split
        · exact k.ctrl _ _ h
        · exact h
    · cases ht; exact h
  | read off width =>
    simp only [Machine.event, hostRead] at ht
    cases ht
    split
    · split
      · exact k.world _ _ (k.drawn _ h)
      · exact k.world _ _ h
    · exact k.world _ _ h
  | present l => cases ht; exact k.proceed (k.world _ _ h)
  | reposition l => cases ht; exact k.proceed (k.world _ _ h)
  | sinkReady n => cases ht; exact k.proceed (k.world _ _ h)
  | powerOnReset => exact absurd rfl he

/-- A step whose event is not power-on reset keeps the invariant. -/
theorem Keeps.step_running (k : Keeps P R Q W) {s t : State} (hr : s.env.host.head? ≠ some .powerOnReset)
    (h : P s) (ht : Machine.step s = .next t) : P t := by
  unfold Machine.step at ht
  split at ht
  · cases ht; exact k.proceed h
  · next e _ he => exact k.event (fun hp => hr (by rw [he, hp]; rfl)) (k.world _ _ h) ht

/-- A step keeps an invariant that power-on reset establishes. -/
theorem Keeps.step (k : Keeps P R Q W) (hp : ∀ s, P (powerOn s)) {s t : State} (h : P s)
    (ht : Machine.step s = .next t) : P t := by
  by_cases hr : s.env.host.head? = some .powerOnReset
  · unfold Machine.step at ht
    split at ht
    · next he => rw [he] at hr; cases hr
    · next e _ he =>
      rw [he] at hr
      cases hr
      cases ht
      exact hp _
  · exact k.step_running hr h ht

end

end Sys2Proof.Machine
end

