-- ==== Sys2Proof/Laws/PerInstr.lean ====
section
/-! SUPPORT. The statements made command by command: the fields of a command's word (R101, R102, R103). -/

namespace Sys2Proof.Laws.WordFields

/-- The word of `i` has RSV = 0 (R102), the immediate of `i` in bits 31:16 (0 if it takes none) and its opcode in
bits 7:0. -/
def Statement (i : Instr) : Prop :=
  (encode i).extractLsb' 10 6 = 0 ∧ (encode i).extractLsb' 16 16 = i.imm ∧
    (encode i).extractLsb' 0 8 = (encodeFields i).opc

/-- The fields come back out of a packed word (R101). -/
theorem fields_of_pack (f : Fields) : fieldsOf (packFields f) = f := by
  obtain ⟨opc, ch, gr, rsv, imm⟩ := f
  simp only [fieldsOf, packFields, Fields.mk.injEq]
  refine ⟨?_, ?_, ?_, ?_, ?_⟩ <;> ext i hi <;>
    simp only [BitVec.getElem_extractLsb', BitVec.getLsbD_append] <;>
    grind

/-- It is enough to look at the fields that the word is packed from. -/
theorem of_fields {i : Instr} (hr : (encodeFields i).rsv = 0) (hm : (encodeFields i).imm = i.imm) :
    Statement i := by
  have h := fields_of_pack (encodeFields i)
  refine ⟨?_, ?_, ?_⟩
  · exact (congrArg Fields.rsv h).trans hr
  · exact (congrArg Fields.imm h).trans hm
  · exact congrArg Fields.opc h

theorem nop : Statement .nop := of_fields rfl rfl
theorem resetStream : Statement .resetStream := of_fields rfl rfl
theorem decodeFrame : Statement .decodeFrame := of_fields rfl rfl
theorem sync : Statement .sync := of_fields rfl rfl
theorem readSideInfo : Statement .readSideInfo := of_fields rfl rfl
theorem loadMainData : Statement .loadMainData := of_fields rfl rfl
theorem rbPutByte (imm : BitVec 16) : Statement (.rbPutByte imm) := of_fields rfl rfl
theorem rbReadBits (imm : BitVec 16) : Statement (.rbReadBits imm) := of_fields rfl rfl
theorem rbRewindBits (imm : BitVec 16) : Statement (.rbRewindBits imm) := of_fields rfl rfl
theorem rbRewindBytes (imm : BitVec 16) : Statement (.rbRewindBytes imm) := of_fields rfl rfl
theorem rbTell : Statement .rbTell := of_fields rfl rfl
theorem readScalefactors (gr ch : Fin 2) : Statement (.readScalefactors gr ch) := of_fields rfl rfl
theorem huffmanDecode (gr ch : Fin 2) : Statement (.huffmanDecode gr ch) := of_fields rfl rfl
theorem dequantize (gr ch : Fin 2) : Statement (.dequantize gr ch) := of_fields rfl rfl
theorem reorder (gr ch : Fin 2) : Statement (.reorder gr ch) := of_fields rfl rfl
theorem stereo (gr : Fin 2) : Statement (.stereo gr) := of_fields rfl rfl
theorem antialias (gr ch : Fin 2) : Statement (.antialias gr ch) := of_fields rfl rfl
theorem hybrid (gr ch : Fin 2) : Statement (.hybrid gr ch) := of_fields rfl rfl
theorem freqInvert (gr ch : Fin 2) : Statement (.freqInvert gr ch) := of_fields rfl rfl
theorem emit (gr ch : Fin 2) : Statement (.emit gr ch) := of_fields rfl rfl

end Sys2Proof.Laws.WordFields
end

