-- ==== Sys2Proof/Laws/Scan.lean ====
section
/-! SUPPORT. InByte (R86) and one InByte of a scan (R151-R158), each with everything it can do. -/

namespace Sys2Proof.Machine

/-- The six outcomes of InByte (R86). -/
theorem InStream.take_cases (i : InStream) :
    (∃ b pb, i.pb = b :: pb ∧ i.take = (.byte b, { i with pb := pb })) ∨
    (i.pb = [] ∧ i.inEof = true ∧ i.take = (.eof, i)) ∨
    (i.pb = [] ∧ i.inEof = false ∧ i.port = [] ∧ i.take = (.nothing, i)) ∨
    (∃ b port, i.pb = [] ∧ i.inEof = false ∧ i.port = .data b :: port ∧
      i.take = (.byte b, { i with port := port })) ∨
    (∃ port, i.pb = [] ∧ i.inEof = false ∧ i.port = .eof :: port ∧ i.take = (.eof, { i with inEof := true })) ∨
    (∃ port, i.pb = [] ∧ i.inEof = false ∧ i.port = .ioerr :: port ∧ i.take = (.ioerr, i)) := by
  obtain ⟨pb, inEof, port⟩ := i
  cases pb with
  | cons b pb => exact .inl ⟨b, pb, rfl, rfl⟩
  | nil =>
    cases inEof with
    | true => exact .inr (.inl ⟨rfl, rfl, rfl⟩)
    | false =>
      cases port with
      | nil => exact .inr (.inr (.inl ⟨rfl, rfl, rfl, rfl⟩))
      | cons t port =>
        cases t with
        | data b => exact .inr (.inr (.inr (.inl ⟨b, port, rfl, rfl, rfl, rfl⟩)))
        | eof => exact .inr (.inr (.inr (.inr (.inl ⟨port, rfl, rfl, rfl, rfl⟩))))
        | ioerr => exact .inr (.inr (.inr (.inr (.inr ⟨port, rfl, rfl, rfl, rfl⟩))))

/-- InByte never lengthens PB, and shortens it unless it is empty. -/
theorem InStream.take_pb (i : InStream) :
    i.take.2.pb.length + 1 ≤ i.pb.length ∨ i.pb = [] ∧ i.take.2.pb = [] := by
  rcases i.take_cases with ⟨b, pb, h, ht⟩ | ⟨h, _, ht⟩ | ⟨h, _, _, ht⟩ | ⟨b, port, h, _, _, ht⟩ |
    ⟨port, h, _, _, ht⟩ | ⟨port, h, _, _, ht⟩ <;> rw [ht] <;> simp [h]

/-- What a full window leads to (R151, R159, R162): the stream is untouched. -/
theorem Scan.window_cases (h : Word) (ref : SyncRef) (sc : Scan) :
    sc.window h ref = { sc with phase := .tag [] } ∨
    sc.window h ref = sc.reject ∨
    (isSyncMark h ref = true ∧ LegalHeader h ∧ frameSize (parseHeader h) = 0 ∧
      sc.window h ref = { sc with phase := .probe h [] [] }) ∨
    (∃ n, isSyncMark h ref = true ∧ LegalHeader h ∧ frameSize (parseHeader h) = n + 1 ∧
      sc.window h ref = { sc with phase := .body h n [] }) ∨
    sc.window h ref = { sc with phase := .shift h } := by
  unfold Scan.window
  split
  · exact .inl rfl
  · split
    · next hm =>
      simp only
      split
      · exact .inr (.inl rfl)
      · next hh =>
        push Not at hh
        have hl : LegalHeader h := by
          have hm' := hm
          unfold isSyncMark at hm'
          simp only [Bool.and_eq_true, decide_eq_true_eq] at hm'
          exact ⟨hm'.1.1.2, hm'.1.2, hm'.2, hh.1, hh.2.1, hh.2.2⟩
        split
        · next hz => exact .inr (.inr (.inl ⟨hm, hl, hz, rfl⟩))
        · next n hz => exact .inr (.inr (.inr (.inl ⟨n, hm, hl, hz, rfl⟩)))
    · exact .inr (.inr (.inr (.inr rfl)))

/-- A frame is accepted only from its probe: with the four bytes of a next header, which are unread, or at
the end of the stream (R158). -/
theorem Scan.next_accept {ref : SyncRef} {sc sc' : Scan} {h : Word} {body : List Byte}
    (hn : sc.next ref = .accept h body sc') :
    (∃ b rev, sc.stream.take.1 = .byte b ∧ sc.phase = .probe h body rev ∧ 3 ≤ rev.length ∧
      isSyncMark (wordOf (b :: rev).reverse) ref = true ∧
      sc' = { sc with stream := sc.stream.take.2.unread (b :: rev).reverse }) ∨
    (sc.stream.take.1 = .eof ∧ sc.phase = .probe h body [] ∧ sc' = { sc with stream := sc.stream.take.2 }) := by
  unfold Scan.next at hn
  simp only at hn
  split at hn
  · next b hb =>
    unfold Scan.byte at hn
    split at hn <;> try (cases hn)
    · split at hn
      · cases hn
      · split at hn <;> cases hn
    · next hp =>
      split at hn
      · cases hn
      · next hl =>
        simp only at hn
        split at hn
        · next hm => cases hn; exact .inl ⟨b, _, hb, hp, by omega, hm, rfl⟩
        · cases hn
  · next hb =>
    unfold Scan.eof at hn
    split at hn <;> cases hn
    next hp => exact .inr ⟨hb, hp, rfl⟩
  · cases hn
  · cases hn

/-- The stream ends a scan only where InByte answers EOF outside the probe (R163). -/
theorem Scan.next_ended {ref : SyncRef} {sc sc' : Scan} (hn : sc.next ref = .ended sc') :
    sc.stream.take.1 = .eof ∧ sc' = { sc with stream := sc.stream.take.2 } := by
  unfold Scan.next at hn
  simp only at hn
  split at hn
  · next b hb =>
    unfold Scan.byte at hn
    split at hn <;> try (cases hn)
    · split at hn
      · cases hn
      · split at hn <;> cases hn
    · split at hn
      · cases hn
      · simp only at hn
        split at hn <;> cases hn
  · next hb =>
    unfold Scan.eof at hn
    split at hn <;> cases hn <;> exact ⟨hb, rfl⟩
  · cases hn
  · cases hn

/-- An I/O error ends a scan anywhere (R163). -/
theorem Scan.next_failed {ref : SyncRef} {sc sc' : Scan} (hn : sc.next ref = .failed sc') :
    sc.stream.take.1 = .ioerr ∧ sc' = { sc with stream := sc.stream.take.2 } := by
  unfold Scan.next at hn
  simp only at hn
  split at hn
  · next b hb =>
    unfold Scan.byte at hn
    split at hn <;> try (cases hn)
    · split at hn
      · cases hn
      · split at hn <;> cases hn
    · split at hn
      · cases hn
      · simp only at hn
        split at hn <;> cases hn
  · next hb =>
    unfold Scan.eof at hn
    split at hn <;> cases hn
  · next hb => cases hn; exact ⟨hb, rfl⟩
  · cases hn

/-- A scan that goes on: with a byte, or with a probe that the end of the stream cuts short (R158). -/
theorem Scan.next_go {ref : SyncRef} {sc sc' : Scan} (hn : sc.next ref = .go sc') :
    (∃ b, sc.stream.take.1 = .byte b ∧ Scan.byte b ref { sc with stream := sc.stream.take.2 } = .go sc') ∨
    (∃ h body b rev, sc.stream.take.1 = .eof ∧ sc.phase = .probe h body (b :: rev) ∧
      sc' = { Scan.reject sc with stream := sc.stream.take.2.unread (body ++ (b :: rev).reverse) }) := by
  unfold Scan.next at hn
  simp only at hn
  split at hn
  · next b hb => exact .inl ⟨b, hb, hn⟩
  · next hb =>
    unfold Scan.eof at hn
    split at hn <;> cases hn
    next hp => exact .inr ⟨_, _, _, _, hb, hp, rfl⟩
  · cases hn
  · cases hn

/-! ### A scan ends (R91, R427): it stops at a frame, at the end of the stream, or for want of a byte -/

/-- The bytes a scan may still take: pushed back, presented, or retained by its phase. -/
def Scan.supply (sc : Scan) : Nat := sc.stream.pb.length + sc.stream.port.length + sc.phase.retained

/-- The InBytes a candidate still makes before it is accepted or rejected. -/
def SyncPhase.credit : SyncPhase → Nat
  | .fill _ _ => 0
  | .shift _ => 0
  | .tag _ => 0
  | .skip _ => 0
  | .body _ left _ => left + 6
  | .probe _ _ rev => 1 + (4 - rev.length)

/-- What every InByte of a scan that goes on lowers. -/
def Scan.measure (sc : Scan) : Nat := 1800 * sc.supply + sc.phase.credit

theorem InStream.take_byte {i : InStream} {b : Byte} (h : i.take.1 = .byte b) :
    i.take.2.pb.length + i.take.2.port.length + 1 = i.pb.length + i.port.length := by
  rcases i.take_cases with ⟨b', pb, hp, ht⟩ | ⟨hp, _, ht⟩ | ⟨hp, _, _, ht⟩ | ⟨b', port, hp, _, hq, ht⟩ |
    ⟨port, hp, _, _, ht⟩ | ⟨port, hp, _, _, ht⟩ <;> rw [ht] at h ⊢ <;> first | (cases h; done) | skip
  · simp [hp]; omega
  · simp [hp, hq]

theorem InStream.take_eof {i : InStream} (h : i.take.1 = .eof) :
    i.take.2.pb = i.pb ∧ i.take.2.port = i.port := by
  rcases i.take_cases with ⟨b', pb, hp, ht⟩ | ⟨hp, _, ht⟩ | ⟨hp, _, _, ht⟩ | ⟨b', port, hp, _, hq, ht⟩ |
    ⟨port, hp, _, _, ht⟩ | ⟨port, hp, _, _, ht⟩ <;> rw [ht] at h ⊢ <;> first | (cases h; done) | exact ⟨rfl, rfl⟩

theorem InStream.take_nothing {i : InStream} (h : i.take.1 = .nothing) :
    i.pb = [] ∧ i.inEof = false ∧ i.port = [] ∧ i.take.2 = i := by
  rcases i.take_cases with ⟨b', pb, hp, ht⟩ | ⟨hp, _, ht⟩ | ⟨hp, he, hq, ht⟩ | ⟨b', port, hp, _, hq, ht⟩ |
    ⟨port, hp, _, _, ht⟩ | ⟨port, hp, _, _, ht⟩ <;> rw [ht] at h ⊢ <;> first | (cases h; done) | exact ⟨hp, he, hq, rfl⟩

/-- A window keeps the stream, and a candidate's body fits the frame buffer. -/
theorem Scan.window_bounds (h : Word) (ref : SyncRef) (sc : Scan) :
    (sc.window h ref).stream = sc.stream ∧ (sc.window h ref).phase.retained = 0 ∧
    (sc.window h ref).phase.credit ≤ 1737 ∧ (sc.window h ref).phase.bodySize ≤ Config.frameBufBytes := by
  have e2 : Config.frameBufBytes = 1732 := rfl
  rcases sc.window_cases h ref with e | e | ⟨_, hl, hz, e⟩ | ⟨n, _, hl, hz, e⟩ | e <;> rw [e]
  · exact ⟨rfl, rfl, by simp [SyncPhase.credit], by simp [SyncPhase.bodySize]⟩
  · exact ⟨rfl, rfl, by simp [Scan.reject, SyncPhase.begin, SyncPhase.credit],
      by simp [Scan.reject, SyncPhase.begin, SyncPhase.bodySize]⟩
  · exact ⟨rfl, rfl, by simp [SyncPhase.credit], by simp [SyncPhase.bodySize]⟩
  · have h6 := hl.2.2.2.2.2
    refine ⟨rfl, rfl, ?_, ?_⟩
    · simp only [SyncPhase.credit]; omega
    · simp only [SyncPhase.bodySize, List.length_nil]; omega
  · exact ⟨rfl, rfl, by simp [SyncPhase.credit], by simp [SyncPhase.bodySize]⟩

/-- A byte lowers the measure, and bodies stay within the frame buffer. -/
theorem Scan.byte_measure {b : Byte} {ref : SyncRef} {sc sc' : Scan} (hb : sc.phase.bodySize ≤ Config.frameBufBytes)
    (hg : sc.byte b ref = .go sc') :
    sc'.measure < sc.measure + 1800 ∧ sc'.phase.bodySize ≤ Config.frameBufBytes := by
  have hw := fun h => sc.window_bounds h ref
  unfold Scan.byte at hg
  split at hg
  · next h _ =>
    cases hg
    obtain ⟨w1, w2, w3, w4⟩ := hw (shiftIn h b)
    refine ⟨?_, w4⟩
    unfold Scan.measure Scan.supply
    rw [w1, w2]
    omega
  · next hp =>
    cases hg
    refine ⟨?_, by simp [SyncPhase.bodySize]⟩
    simp only [Scan.measure, Scan.supply, hp, SyncPhase.retained, SyncPhase.credit]
    omega
  · next h hp =>
    cases hg
    obtain ⟨w1, w2, w3, w4⟩ := hw (shiftIn h b)
    refine ⟨?_, w4⟩
    unfold Scan.measure Scan.supply
    rw [w1, w2]
    omega
  · next hp =>
    split at hg
    · cases hg
      refine ⟨?_, by simp [SyncPhase.bodySize]⟩
      simp only [Scan.measure, Scan.supply, hp, SyncPhase.retained, SyncPhase.credit]
      omega
    · split at hg <;> cases hg
      · refine ⟨?_, by simp [SyncPhase.begin, SyncPhase.bodySize]⟩
        simp only [Scan.measure, Scan.supply, hp, SyncPhase.begin, SyncPhase.retained, SyncPhase.credit]
        omega
      · refine ⟨?_, by simp [SyncPhase.bodySize]⟩
        simp only [Scan.measure, Scan.supply, hp, SyncPhase.retained, SyncPhase.credit]
        omega
  · next hp =>
    cases hg
    refine ⟨?_, by simp [SyncPhase.begin, SyncPhase.bodySize]⟩
    simp only [Scan.measure, Scan.supply, hp, SyncPhase.begin, SyncPhase.retained, SyncPhase.credit]
    omega
  · next hp =>
    cases hg
    refine ⟨?_, by simp [SyncPhase.bodySize]⟩
    simp only [Scan.measure, Scan.supply, hp, SyncPhase.retained, SyncPhase.credit]
    omega
  · next hp =>
    cases hg
    rw [hp] at hb
    simp only [SyncPhase.bodySize] at hb
    refine ⟨?_, ?_⟩
    · simp only [Scan.measure, Scan.supply, hp, SyncPhase.retained, SyncPhase.credit, List.length_reverse,
        List.length_cons, List.length_nil]
      omega
    · simp only [SyncPhase.bodySize, List.length_reverse, List.length_cons]; omega
  · next hp =>
    cases hg
    rw [hp] at hb
    simp only [SyncPhase.bodySize] at hb
    refine ⟨?_, ?_⟩
    · simp only [Scan.measure, Scan.supply, hp, SyncPhase.retained, SyncPhase.credit, List.length_cons]
      omega
    · simp only [SyncPhase.bodySize, List.length_cons]; omega
  · next hp =>
    rw [hp] at hb
    simp only [SyncPhase.bodySize] at hb
    split at hg
    · cases hg
      refine ⟨?_, ?_⟩
      · simp only [Scan.measure, Scan.supply, hp, SyncPhase.retained, SyncPhase.credit, List.length_cons]
        omega
      · simpa only [SyncPhase.bodySize] using hb
    · simp only at hg
      split at hg
      · cases hg
      · cases hg
        refine ⟨?_, by simp [Scan.reject, SyncPhase.begin, SyncPhase.bodySize]⟩
        simp only [Scan.measure, Scan.supply, hp, Scan.reject, SyncPhase.begin, SyncPhase.retained,
          SyncPhase.credit, InStream.unread, List.length_append, List.length_reverse, List.length_cons]
        omega

/-- An InByte after which the scan goes on lowers the measure. -/
theorem Scan.next_measure {ref : SyncRef} {sc sc' : Scan} (hb : sc.phase.bodySize ≤ Config.frameBufBytes)
    (hg : sc.next ref = .go sc') : sc'.measure < sc.measure ∧ sc'.phase.bodySize ≤ Config.frameBufBytes := by
  rcases Scan.next_go hg with ⟨b, ht, hn⟩ | ⟨h, body, b, rev, ht, hp, rfl⟩
  · obtain ⟨h1, h2⟩ := Scan.byte_measure (sc := { sc with stream := sc.stream.take.2 }) hb hn
    have h3 := InStream.take_byte ht
    refine ⟨?_, h2⟩
    unfold Scan.measure Scan.supply at *
    simp only at h1
    omega
  · obtain ⟨h1, h2⟩ := InStream.take_eof ht
    refine ⟨?_, by simp [Scan.reject, SyncPhase.begin, SyncPhase.bodySize]⟩
    simp only [Scan.measure, Scan.supply, hp, Scan.reject, SyncPhase.begin, SyncPhase.retained,
      SyncPhase.credit, InStream.unread, List.length_append, List.length_reverse, List.length_cons, h1, h2]
    omega

/-- A scan waits for an InByte only if there is nothing to take. -/
theorem Scan.next_waits_starved {ref : SyncRef} {sc sc' : Scan} (h : sc.next ref = .waits sc') :
    sc'.stream.pb = [] ∧ sc'.stream.inEof = false ∧ sc'.stream.port = [] := by
  have he := Scan.next_waits h
  subst he
  unfold Scan.next at h
  simp only at h
  split at h
  · next b hb =>
    unfold Scan.byte at h
    split at h <;> try (cases h)
    · split at h
      · cases h
      · split at h <;> cases h
    · split at h
      · cases h
      · simp only at h
        split at h <;> cases h
  · unfold Scan.eof at h
    split at h <;> cases h
  · cases h
  · next hb =>
    obtain ⟨h1, h2, h3, _⟩ := InStream.take_nothing hb
    exact ⟨h1, h2, h3⟩

/-- With more fuel than its measure a scan does not stop for want of fuel. -/
theorem Scan.run_starved {ref : SyncRef} {fuel : Nat} {sc : Scan} (hf : sc.measure < fuel)
    (hb : sc.phase.bodySize ≤ Config.frameBufBytes) :
    (∀ sc', Scan.run ref fuel sc ≠ .go sc') ∧
    ∀ sc', Scan.run ref fuel sc = .waits sc' →
      sc'.stream.pb = [] ∧ sc'.stream.inEof = false ∧ sc'.stream.port = [] := by
  induction fuel generalizing sc with
  | zero => omega
  | succ fuel ih =>
    unfold Scan.run
    split
    · next sc1 hn =>
      obtain ⟨h1, h2⟩ := Scan.next_measure hb hn
      exact ih (by omega) h2
    · next m hm =>
      refine ⟨fun sc' h => hm sc' h, fun sc' h => Scan.next_waits_starved h⟩

/-- The fuel of a scan is enough. -/
theorem Scan.measure_lt_fuel {sc : Scan} (hb : sc.phase.bodySize ≤ Config.frameBufBytes) : sc.measure < sc.fuel := by
  have e2 : Config.frameBufBytes = 1732 := rfl
  have hc : sc.phase.credit ≤ 1737 := by
    cases hp : sc.phase <;> rw [hp] at hb <;> simp only [SyncPhase.credit, SyncPhase.bodySize] at * <;> omega
  unfold Scan.measure Scan.supply Scan.fuel
  omega

/-- More fuel than the measure gives the same answer. -/
theorem Scan.run_more {ref : SyncRef} {f g : Nat} {sc : Scan} (hf : sc.measure < f) (hg : sc.measure < g)
    (hb : sc.phase.bodySize ≤ Config.frameBufBytes) : Scan.run ref f sc = Scan.run ref g sc := by
  induction f generalizing sc g with
  | zero => omega
  | succ f ih =>
    cases g with
    | zero => omega
    | succ g =>
      unfold Scan.run
      split
      · next sc1 hn =>
        obtain ⟨h1, h2⟩ := Scan.next_measure hb hn
        exact ih (by omega) (by omega) h2
      · rfl

/-- One InByte of a scan that goes on, whatever fuel is left beyond the measure. -/
theorem Scan.run_step {ref : SyncRef} {sc sc' : Scan} (hb : sc.phase.bodySize ≤ Config.frameBufBytes)
    (hn : sc.next ref = .go sc') : Scan.run ref sc.fuel sc = Scan.run ref sc'.fuel sc' := by
  obtain ⟨h1, h2⟩ := Scan.next_measure hb hn
  have h3 := Scan.measure_lt_fuel hb
  have h4 := Scan.measure_lt_fuel h2
  obtain ⟨f, hf⟩ : ∃ f, sc.fuel = f + 1 := ⟨sc.fuel - 1, by omega⟩
  rw [hf, Scan.run, hn]
  exact Scan.run_more (by omega) h4 h2

/-! ### What a stream gives (R86) -/

theorem InStream.gives_nil (i : InStream) : i.Gives [] i := .inl ⟨rfl, rfl, rfl⟩

/-- The next byte of a stream that gives bytes is the first of them. -/
theorem InStream.Gives.take {b : Byte} {l : List Byte} {i j : InStream} (h : i.Gives (b :: l) j) :
    i.take.1 = .byte b ∧ i.take.2.Gives l j := by
  obtain ⟨pb, inEof, port⟩ := i
  obtain ⟨jb, je, jp⟩ := j
  rcases h with ⟨h1, h2, h3⟩ | ⟨h1, h2, h3, a, h4, h5⟩
  · simp only at h1 h2 h3
    subst h1 h2 h3
    exact ⟨rfl, .inl ⟨rfl, rfl, rfl⟩⟩
  · simp only at h1 h2 h3 h4 h5
    subst h1 h2 h3 h5
    cases pb with
    | nil =>
      subst h4
      exact ⟨rfl, .inr ⟨rfl, rfl, rfl, l, rfl, rfl⟩⟩
    | cons c pb =>
      simp only [List.cons_append, List.cons.injEq] at h4
      obtain ⟨rfl, h4⟩ := h4
      exact ⟨rfl, .inr ⟨rfl, rfl, rfl, a, h4, rfl⟩⟩

/-- A stream that gives the bytes of two lists gives the first, and then the second. -/
theorem InStream.Gives.append {l m : List Byte} {i j : InStream} (h : i.Gives (l ++ m) j) :
    ∃ k, i.Gives l k ∧ k.Gives m j := by
  induction l generalizing i with
  | nil => exact ⟨i, i.gives_nil, h⟩
  | cons b l ih =>
    obtain ⟨k, h1, h2⟩ := ih h.take.2
    refine ⟨k, ?_, h2⟩
    obtain ⟨pb, inEof, port⟩ := i
    obtain ⟨kb, ke, kp⟩ := k
    have ht := h.take.1
    cases pb with
    | cons c pb =>
      have hc : c = b := by simpa [InStream.take] using ht
      subst hc
      rcases h1 with ⟨e1, e2, e3⟩ | ⟨e1, e2, e3, a, e4, e5⟩
      · exact .inl ⟨by simpa [InStream.take] using e1, e2, e3⟩
      · exact .inr ⟨e1, e2, e3, a, by simpa [InStream.take] using e4, e5⟩
    | nil =>
      cases inEof with
      | true => simp [InStream.take] at ht
      | false =>
        cases port with
        | nil => simp [InStream.take] at ht
        | cons x port =>
          cases x with
          | eof => simp [InStream.take] at ht
          | ioerr => simp [InStream.take] at ht
          | data c =>
            have hc : c = b := by simpa [InStream.take] using ht
            subst hc
            rcases h1 with ⟨e1, e2, e3⟩ | ⟨e1, e2, e3, a, e4, e5⟩
            · have e1' : l = [] ∧ kb = [] := by simpa [InStream.take, eq_comm] using e1
              obtain ⟨rfl, rfl⟩ := e1'
              simp only [InStream.take, Bool.false_eq_true, if_false] at e2 e3
              subst e2 e3
              exact .inr ⟨rfl, rfl, rfl, [c], rfl, rfl⟩
            · simp only [InStream.take, Bool.false_eq_true, if_false, List.nil_append] at e4 e5
              subst e4 e5
              exact .inr ⟨rfl, e2, e3, c :: l, rfl, rfl⟩

/-- At the end of the stream InByte reports it and sets IN_EOF. -/
theorem InStream.AtEnd.take {i : InStream} (h : i.AtEnd) : i.take = (.eof, { i with inEof := true }) := by
  obtain ⟨pb, inEof, port⟩ := i
  obtain ⟨h1, h2⟩ := h
  simp only at h1 h2
  subst h1
  cases inEof with
  | true => rfl
  | false =>
    rcases h2 with h2 | ⟨l, rfl⟩
    · cases h2
    · rfl

/-- At an I/O error InByte reports it and takes nothing. -/
theorem InStream.AtError.take {i : InStream} (h : i.AtError) : i.take = (.ioerr, i) := by
  obtain ⟨pb, inEof, port⟩ := i
  obtain ⟨h1, h2, l, h3⟩ := h
  simp only at h1 h2 h3
  subst h1 h2 h3
  rfl

end Sys2Proof.Machine
end

