-- ==== Sys2Proof/Tests/Slice0.lean ====
section
/-! SUPPORT. Tests and witnesses. A test's expected value is one of the spec: R101-R103 and R130 for words, the
worked examples (R203, R205, R231, R248, R290, R314, R321, R347, R370, R384, R390, R392) and 95_test_vectors.md for
the rest. A witness gives a state and operands that meet the hypotheses of the statement it is named after. -/

namespace Sys2Proof.Machine.Tests

/-! ### WellFormed: an ill-formed term for each check -/

theorem test_wf_put_byte : (Instr.rbPutByte 0x100).wf = false ∧ (Instr.rbPutByte 0xFF).wf = true := by decide

theorem test_wf_read_bits : (Instr.rbReadBits 33).wf = false ∧ (Instr.rbReadBits 32).wf = true := by decide

theorem test_wf_rewind_bytes : (Instr.rbRewindBytes 4097).wf = false ∧ (Instr.rbRewindBytes 4096).wf = true := by decide

theorem test_wf_rewind_bits : (Instr.rbRewindBits 0xFFFF).wf = true := by decide

/-! ### Decode: a word of every command, written from R101, R103 and R130 -/

theorem test_decode_nop : decode 0x00000000#32 = .ok .nop := by decide

theorem test_decode_reset_stream : decode 0x00000001#32 = .ok .resetStream := by decide

theorem test_decode_decode_frame : decode 0x00000002#32 = .ok .decodeFrame := by decide

theorem test_decode_sync : decode 0x00000010#32 = .ok .sync := by decide

theorem test_decode_read_side_info : decode 0x00000011#32 = .ok .readSideInfo := by decide

theorem test_decode_load_main_data : decode 0x00000012#32 = .ok .loadMainData := by decide

theorem test_decode_put_byte : decode 0b00000000_10100101_000000_0_0_00100000#32 = .ok (.rbPutByte 0xA5) := by decide

theorem test_decode_read_bits : decode 0b00000000_00100000_000000_0_0_00100001#32 = .ok (.rbReadBits 32) := by decide

theorem test_decode_rewind_bits : decode 0xFFFF0022#32 = .ok (.rbRewindBits 0xFFFF) := by decide

theorem test_decode_rewind_bytes : decode 0x10000023#32 = .ok (.rbRewindBytes 4096) := by decide

theorem test_decode_tell : decode 0x00000024#32 = .ok .rbTell := by decide

theorem test_decode_scalefactors : decode 0b00000000_00000000_000000_0_1_00110000#32 = .ok (.readScalefactors 0 1) := by
  decide

theorem test_decode_huffman : decode 0b00000000_00000000_000000_1_0_00110001#32 = .ok (.huffmanDecode 1 0) := by decide

theorem test_decode_dequantize : decode 0x00000332#32 = .ok (.dequantize 1 1) := by decide

theorem test_decode_reorder : decode 0x00000133#32 = .ok (.reorder 0 1) := by decide

theorem test_decode_stereo : decode 0b00000000_00000000_000000_1_0_00110100#32 = .ok (.stereo 1) := by decide

theorem test_decode_antialias : decode 0x00000235#32 = .ok (.antialias 1 0) := by decide

theorem test_decode_hybrid : decode 0x00000136#32 = .ok (.hybrid 0 1) := by decide

theorem test_decode_freq_invert : decode 0x00000337#32 = .ok (.freqInvert 1 1) := by decide

theorem test_decode_emit : decode 0x00000138#32 = .ok (.emit 0 1) := by decide

/-- R102: each reason a word is refused for. -/
theorem test_decode_refuses :
    decode 0x00000003#32 = .rejected .unknownOpcode ∧ decode 0x00000039#32 = .rejected .unknownOpcode ∧
    decode 0x00000400#32 = .rejected .reservedBits ∧ decode 0x00008038#32 = .rejected .reservedBits ∧
    decode 0x00000100#32 = .rejected .unusedField ∧ decode 0x00000210#32 = .rejected .unusedField ∧
    decode 0x00010024#32 = .rejected .unusedField ∧ decode 0x00000134#32 = .rejected .unusedField ∧
    decode 0x00010030#32 = .rejected .unusedField ∧ decode 0x00000121#32 = .rejected .unusedField ∧
    decode 0x01000020#32 = .rejected .immediateRange ∧ decode 0x00210021#32 = .rejected .immediateRange ∧
    decode 0x10010023#32 = .rejected .immediateRange := by decide

/-- The table's numbering: bit 0 is the least significant bit of the word; a longer word is no command. -/
theorem test_decode_table_word :
    decodeTableWord 32 0x00A50020 = some (.rbPutByte 0xA5) ∧ decodeTableWord 64 0x00A50020 = none ∧
    decodeTableWord 8 0xFF24 = some .rbTell := by decide

/-! ### States the tests start from -/

/-- The state an outcome goes on with. -/
def nextOf : Outcome → State
  | .next t => t
  | .fault _ => State.reset
  | .refused _ => State.reset

/-- The code of the last command. -/
def errOf (o : Outcome) : Err := (nextOf o).status.err

/-- After reset, with the bytes `l` put into the reservoir. -/
def loaded (l : List Byte) : State := { State.reset with rs := RS.reset.putMany l }

/-- The header state of the accepted word `h`. -/
def headOf (h : Word) : FrameHead where
  hdr := h
  fields := parseHeader h
  frameSize := frameSize (parseHeader h)
  slots := slotCount (parseHeader h) (frameSize (parseHeader h))

/-- A block with the frame `h` in a frame buffer of zeros, both channels being `c`. -/
def framed (h : Word) (c : Chan) : State :=
  { State.reset with
    status := { Status.reset with
      hdrValid := true
      layer3 := decide ((parseHeader h).layer = 3)
      lsf := decide ((parseHeader h).version ≠ .mpeg1)
      nch2 := decide ((parseHeader h).nch = 2) }
    head := headOf h
    ref := { word := h &&& strictMask, mode := .strict, singleCh := singleChannel h }
    fb := { FrameBuf.reset with len := frameSize (parseHeader h) }
    chan := ⟨c, c⟩ }

/-- An MPEG1 stereo frame at 44100 Hz (95_test_vectors.md), both channels at stage `x`. -/
def staged (x : Stage) : State := framed 0xFFFB9064 { Chan.reset with stage := x }

/-- The granule information `g` for every granule and channel. -/
def withInfo (g : GranuleInfo) (s : State) : State := { s with si := { s.si with gc := ⟨⟨g, g⟩, ⟨g, g⟩⟩ } }

/-- A short block. -/
def shortInfo : GranuleInfo := { GranuleInfo.reset with windowSwitching := true, blockType := 2 }

/-- A mixed block. -/
def mixedInfo : GranuleInfo := { shortInfo with mixedBlock := true }

/-- Lines of which only line `j` is not 0: it is `x`. -/
def oneLine (j : Nat) (x : Num) : Lines Num := tabulate 576 fun k => if k = j then x else .zero

/-- The port presents `l`. -/
def atPort (l : List Transfer) (s : State) : State := { s with env := { s.env with port := l } }

/-- The sink takes `n` words. -/
def withSink (n : Nat) (s : State) : State := { s with env := { s.env with sink := n } }

/-- SYNC waits at its first byte. -/
def waiting : State := { State.reset with held := some (.sync .begin false) }

/-! ### One step of each command -/

/-- R410: STATUS = 2 and RESULT = 0. -/
theorem test_nop : (nextOf (exec .nop State.reset)).statusWord = 2#32 := by decide

/-- R411: the cursors go to 0, the cells stay, the strobe is sent. -/
theorem test_reset_stream :
    (let t := nextOf (exec .resetStream (loaded [0xA5]))
     t.rs.resv.wptr = 0 ∧ t.rs.resv.avail = 0 ∧ t.rs.resv.cells = [(0, 0xA5)] ∧ t.env.out = [.streamReset]) := by
  decide

/-- R202: 0xA5 gives RESV[0..7] = 1,0,1,0,0,1,0,1, RB_WPTR = 8 and RB_AVAIL = 8. -/
theorem test_put_byte :
    (let t := nextOf (exec (.rbPutByte 0xA5) State.reset)
     (List.range 8).map t.rs.resv.bit = [true, false, true, false, false, true, false, true] ∧
     t.rs.resv.wptr = 8 ∧ t.rs.resv.avail = 8) := by decide

/-- R203: of A5 3C, 4 bits are 0xA. -/
theorem test_read_bits : (nextOf (exec (.rbReadBits 4) (loaded [0xA5, 0x3C]))).result = 0xA#32 := by decide

/-- E19 of 95_test_vectors.md: reading past the end records RESV_OVERREAD and moves the cursor. -/
theorem test_read_bits_overread :
    (let t := nextOf (exec (.rbReadBits 1) State.reset)
     t.status.err = .resvOverread ∧ t.rs.resv.rptr = 1 ∧ t.rs.log.sticky = true) := by decide

/-- R205: after 12 bits of A5 3C were read, a rewind by 8 makes tell() 4. -/
theorem test_rewind_bits :
    (let s := { State.reset with rs := ((RS.reset.putMany [0xA5, 0x3C]).read 12).2 }
     let t := nextOf (exec (.rbRewindBits 8) s)
     t.rs.resv.totbit = 4 ∧ t.rs.resv.peek 12 = 0x53C) := by decide

/-- E20: a rewind past the history wraps the counter and records RESV_OVERREWIND. -/
theorem test_rewind_bits_too_far :
    (let t := nextOf (exec (.rbRewindBits 1) State.reset)
     t.status.err = .resvOverrewind ∧ t.rs.resv.totbit = 0xFFFFFFFF#32) := by decide

/-- R206: after 16 bits were read, a rewind by 2 bytes makes tell() 0. -/
theorem test_rewind_bytes :
    (let s := { State.reset with rs := ((RS.reset.putMany [0xA5, 0x3C]).read 16).2 }
     (nextOf (exec (.rbRewindBytes 2) s)).rs.resv.totbit = 0) := by decide

/-- R204: after 12 bits, RB_TELL answers 12. -/
theorem test_tell :
    (let s := { State.reset with rs := ((RS.reset.putMany [0xA5, 0x3C]).read 12).2 }
     (nextOf (exec .rbTell s)).result = 12#32) := by decide

/-- R163: at the end of the stream SYNC ends with END_OF_STREAM and EOS: STATUS = 0x206. -/
theorem test_sync_at_end : (nextOf (exec .sync (atPort [.eof] State.reset))).statusWord = 0x206#32 := by decide

/-- R91: with nothing at the port SYNC waits: STATUS = 1. -/
theorem test_sync_waits : (nextOf (exec .sync State.reset)).statusWord = 1#32 := by decide

/-- R156, R160, R161: 0xFFFB9064 is MPEG1 Layer III stereo at 44100 Hz with FRAME_SIZE = 413 and SLOTS = 381. -/
theorem test_header :
    (headOf 0xFFFB9064).frameSize = 413 ∧ (headOf 0xFFFB9064).slots = 381 ∧ (headOf 0xFFFB9064).fields.sfreq = 3 ∧
    (headOf 0xFFFB9064).fields.nch = 2 ∧ (headOf 0xFFFB9064).fields.ngr = 2 := by decide

/-- R231: side-info bytes of zeros are taken as they are; the cursor stands after them. -/
theorem test_side_info :
    (let t := nextOf (exec .readSideInfo (staged .idle))
     t.status.err = .ok ∧ t.fb.bitpos = 256 ∧ t.chan.c1.stage = .si) := by decide

/-- LOAD_MAIN_DATA finds the read cursor of the frame buffer after the side info, with `n` slots left. -/
def withSlots (n : Nat) : State :=
  { staged .si with fb := { (staged .si).fb with bitpos := 256 }, head := { headOf 0xFFFB9064 with slots := n } }

set_option maxRecDepth 100000 in
/-- R208, R210 on a frame of 3 slots: FRAME_START 3, DISCARD 0 and tell() 0. -/
theorem test_load_main_data :
    (let t := nextOf (exec .loadMainData (withSlots 3))
     t.book.frameStart = 3#32 ∧ t.book.discard = 0 ∧ t.rs.resv.totbit = 0 ∧ t.chan.c0.stage = .md ∧
     t.rs.resv.avail = 24) := by decide

set_option maxRecDepth 100000 in
/-- R210: main data of an earlier frame that is not there: FRAME_SKIPPED. -/
theorem test_load_main_data_skips :
    (let s := withSlots 3
     let t := nextOf (exec .loadMainData { s with si := { s.si with mainDataBegin := 5 } })
     t.status.err = .frameSkipped ∧ t.book.discard = 0xFFFFFFFB#32 ∧ t.status.skipped = true) := by decide

set_option maxRecDepth 100000 in
/-- R240: `scalefac_compress` = 0 reads nothing. -/
theorem test_scalefactors :
    (let t := nextOf (exec (.readScalefactors 0 0) (staged .md))
     t.status.err = .ok ∧ t.rs.resv.totbit = 0 ∧ t.order.partOpen = true ∧ t.chan.c0.scf.long 20 = 0) := by decide

/-- R248: a long block with `scalefac_compress` = 15 reads 11 * 4 + 10 * 3 = 74 bits. -/
theorem test_scalefactor_bits :
    ((mpeg1Schedule { GranuleInfo.reset with scalefacCompress := 15 } fun _ => false).map (·.2)).sum = 74 := by decide

set_option maxRecDepth 100000 in
/-- R290: the bits 01 1 | 1110 0 | 1111 ..., part2_3_length = 9, one pair of table 1, then table 33. -/
theorem test_huffman :
    (let g := { GranuleInfo.reset with
       part23Length := 9, bigValues := 1, tableSelect := ⟨1, 0, 0⟩, count1TableSelect := true }
     let v := decodePart3 3 g 9 (loaded [0x7C, 0xF0]).rs
     v.1.nonzero = 6 ∧ (List.range 7).map (quantAt v.1.is) = [-1, 0, 0, 0, 0, 1, 0] ∧ v.2.tell = 9) := by decide

/-- R286: a granule-channel without bits has NONZERO = 0. -/
theorem test_huffman_empty :
    (let t := nextOf (exec (.huffmanDecode 0 0) (staged .sf))
     t.status.err = .ok ∧ t.chan.c0.nonzero = 0 ∧ t.order.nextGc = 1) := by decide

set_option maxRecDepth 100000 in
/-- R314: q = 8, global_gain = 214, all else 0: 2 * 16 = 32. -/
theorem test_dequantize_value :
    dequantised 3 { GranuleInfo.reset with globalGain := 214 } .reset 7 8 = .frac 32 1 := by decide

set_option maxRecDepth 100000 in
/-- R310: a line from NONZERO on is 0. -/
theorem test_dequantize_zero :
    (let t := nextOf (exec (.dequantize 0 0) (staged .huf))
     t.chan.c0.stage = .dq ∧ lineAt t.chan.c0.xr 5 = .zero) := by decide

/-- R321: a short block at 44100 Hz, band 0: the new lines 0..11 are the old 0, 4, 8, 1, 5, 9, 2, 6, 10, 3, 7, 11. -/
theorem test_reorder :
    (List.range 12).map (reorderMap 3 false) = [0, 4, 8, 1, 5, 9, 2, 6, 10, 3, 7, 11] := by decide

/-- R320: the map of a mixed block keeps the lines below 36. -/
theorem test_reorder_mixed : (List.range 40).map (reorderMap 3 true) = List.range 36 ++ [36, 40, 44, 37] := by decide

/-- R341: equal lines under MS give a + b over √2 and exactly 0. -/
theorem test_stereo_ms :
    (msPair (.nonzero false 1) (.nonzero false 1)).2 = .zero := by decide

set_option maxRecDepth 100000 in
/-- R347: the right channel is non-zero only at line 100 of a long block at 44100 Hz, in band 13: bL = 14, which
starts at line 110. -/
theorem test_stereo_region :
    longBound 3 (oneLine 100 (.nonzero false 1)) 110 = 14 ∧ sfbLong 3 14 = 110 ∧ longBand 3 109 = 13 := by decide

set_option maxRecDepth 100000 in
/-- R370: with XR[17] alone, line 18 becomes XR[17] * AA_CA[0]; lines outside the butterflies stay. -/
theorem test_antialias :
    roundNum (Exact.plus .zero (Exact.times (.ofNum (.nonzero false 1)) (aaCa 0))) =
      Config.rnd (.mul (.num (.nonzero false 1)) (aaCa 0)) ∧
    aliasLine 31 (oneLine 17 (.nonzero false 1)) 16 = .zero ∧
    aliasLine 0 (oneLine 17 (.nonzero false 1)) 17 = .nonzero false 1 := ⟨rfl, by decide, by decide⟩

set_option maxRecDepth 100000 in
/-- R384: a subband of zeros transforms to 0. -/
theorem test_hybrid : subbandOut GranuleInfo.reset (oneLine 0 (.nonzero false 1)) 1 3 = .zero := by decide

/-- R379: a pure short block leaves outputs 0..5 and 30..35 at 0. -/
theorem test_hybrid_short :
    subbandOut shortInfo (oneLine 0 (.nonzero false 1)) 0 5 = .zero ∧
    subbandOut shortInfo (oneLine 0 (.nonzero false 1)) 0 30 = .zero := by decide

set_option maxRecDepth 100000 in
/-- R390: HOUT[19] is negated, HOUT[18] and HOUT[1] are not. -/
theorem test_freq_invert :
    lineAt (invertLines (oneLine 19 (.nonzero false 1))) 19 = .nonzero true 1 ∧
    lineAt (invertLines (oneLine 18 (.nonzero false 1))) 18 = .nonzero false 1 ∧
    lineAt (invertLines (oneLine 1 (.nonzero false 1))) 1 = .nonzero false 1 := by decide

set_option maxRecDepth 100000 in
/-- R392: the second word of EMIT is (0, 0, 1, HOUT[18]), the 33rd (0, 1, 0, HOUT[1]). -/
theorem test_emit_order :
    (emitWords 0 (oneLine 18 (.nonzero false 1)))[1]? = some ⟨0, 0, 1, .nonzero false 1⟩ ∧
    (emitWords 0 (oneLine 1 (.nonzero false 1)))[32]? = some ⟨0, 1, 0, .nonzero false 1⟩ := by decide

set_option maxRecDepth 100000 in
/-- R92: with a sink that takes nothing, EMIT waits. -/
theorem test_emit_waits : (nextOf (exec (.emit 0 0) (staged .fi))).busy = true := by decide

/-- R422: DECODE_FRAME at the end of the stream is SYNC's end. -/
theorem test_decode_frame_at_end : errOf (exec .decodeFrame (atPort [.eof] State.reset)) = .endOfStream := by decide

/-- R104, R421: a granule command without a frame, and at the wrong stage. -/
theorem test_checks :
    errOf (exec (.dequantize 0 0) State.reset) = .notLayer3 ∧ errOf (exec (.dequantize 0 0) (staged .sf)) = .sequence := by
  decide

/-! ### The bus -/

/-- R426: a CMD write while busy sets OVERRUN: STATUS = 0x81. -/
theorem test_overrun : (nextOf (hostWrite 0x04 .w32 0 waiting)).statusWord = 0x81#32 := by decide

/-- R102: an unknown word ends with ILLEGAL_CMD: STATUS = 0x102. -/
theorem test_illegal_command : (nextOf (hostWrite 0x04 .w32 3 State.reset)).statusWord = 0x102#32 := by decide

/-- R33, R440: CTRL reads back without its reserved bits; `irq` follows DONE. -/
theorem test_ctrl :
    (let t := nextOf (hostWrite 0x00 .w32 0xFFFFFFFF#32 State.reset)
     t.register 0x00 = 0xF#32 ∧ t.irq = false ∧ (nextOf (exec .nop t)).irq = true) := by decide

/-- R80: a narrow read returns 0 and a narrow write is ignored. -/
theorem test_narrow :
    (hostRead 0x00 .w8 { State.reset with ctrl := .ofWord 0xF }).env.rdata = 0 ∧
    hostWrite 0x00 .w16 0xF#32 State.reset = .next State.reset := ⟨by decide, rfl⟩

/-- A step takes the word that `withFetchWord` places. -/
theorem test_step_fetch :
    (match step (State.reset.withFetchWord 32 0x00A50020) with
      | .next t => t.rs.resv.wptr
      | .fault _ => 0
      | .refused _ => 0) = 8 := by decide


/-! ### Witnesses: the machine and its words -/

theorem witness_DecodeOfEncode :
    (Instr.rbRewindBytes 4096).wf = true ∧ (Instr.rbPutByte 0xFF).wf = true ∧ (Instr.emit 1 1).wf = true := by decide

theorem witness_EncodeOfDecode : decode 0x10000023#32 = .ok (.rbRewindBytes 4096) := by decide

theorem witness_CommandWordLegality :
    State.reset.busy = false ∧ LegalWord 0x10000023#32 ∧ LegalWord 0x00FF0020#32 ∧ LegalWord 0x00000338#32 ∧
    ¬LegalWord 0x10010023#32 ∧ ¬LegalWord 0x00000134#32 ∧ ¬LegalWord 0x00000400#32 := by
  unfold LegalWord; decide

/-- The next event is a host write of `w` to CMD. -/
def commanded (w : Word) (s : State) : State := { s with env := { s.env with host := [.write 0x04 .w32 w] } }

theorem witness_StepRunsTheCommand :
    (commanded 0x00200021#32 State.reset).busy = false ∧
    (commanded 0x00200021#32 State.reset).env.host = .write 0x04 .w32 0x00200021#32 :: [] ∧
    decode 0x00200021#32 = .ok (.rbReadBits 32) ∧ decodeTableWord 32 0x00200021 = some (.rbReadBits 32) :=
  ⟨by decide, rfl, by decide, by decide⟩

theorem witness_CommandWhileBusy :
    waiting.busy = true ∧ ∃ t, ({ waiting with status := { Status.reset with overrun := true } } : State).env.host.head? ≠
      some .powerOnReset ∧
      step { waiting with status := { Status.reset with overrun := true } } = .next t :=
  ⟨rfl, _, by decide, rfl⟩

/-- A block after an I/O error. -/
def dead : State := { State.reset with status := { Status.reset with fatal := true } }

/-- The next event is power-on reset. -/
def poweredOn (s : State) : State := { s with env := { s.env with host := [.powerOnReset] } }

theorem witness_FatalLocksOut :
    dead.status.fatal = true ∧ Instr.sync ≠ .nop ∧ dead.env.host.head? ≠ some .powerOnReset ∧ (∃ t, step dead = .next t) ∧
    (poweredOn dead).env.host.head? = some .powerOnReset ∧ ∃ t, step (poweredOn dead) = .next t :=
  ⟨rfl, by decide, by decide, ⟨_, rfl⟩, rfl, _, rfl⟩

theorem witness_PowerOnReset :
    (let s : State := { staged .idle with rs := { RS.reset with log := { FaultLog.reset with sticky := true } } }
     s.env.host.head? ≠ some .powerOnReset ∧ s.rs.log.sticky = true ∧ s.ref.mode = .strict ∧ ∃ t, step s = .next t) :=
  ⟨by decide, rfl, rfl, _, rfl⟩

theorem witness_BusAccesses :
    ¬(Width.w16 = .w32 ∧ (0x08 : BitVec 8).toNat % 4 = 0) ∧ ¬(Width.w32 = .w32 ∧ (0x0A : BitVec 8).toNat % 4 = 0) ∧
    (0xFC : BitVec 8).toNat % 4 = 0 ∧ State.reset.busy = false ∧
    (0x08 : BitVec 8) ≠ 0x00 ∧ (0x08 : BitVec 8) ≠ 0x04 := by decide

theorem witness_RegisterLayout : 0x50 ≤ (0x50 : BitVec 8).toNat ∧ 0x50 ≤ (0xFF : BitVec 8).toNat := by decide

theorem witness_IrqFollowsDone :
    (∃ t, exec .nop State.reset = .next t) ∧ (∃ t, exec .sync State.reset = .next t) ∧
    (6#32).getLsbD 0 = false ∧ (∃ t, hostWrite 0x00 .w32 6#32 State.reset = .next t) ∧
    waiting.busy = true ∧ ∃ t, hostWrite 0x04 .w32 0 waiting = .next t :=
  ⟨⟨_, rfl⟩, ⟨_, rfl⟩, by decide, ⟨_, rfl⟩, rfl, _, rfl⟩

theorem witness_IdleKeepsState : (staged .em).busy = false ∧ (staged .em).env.host = [] := ⟨rfl, rfl⟩

theorem witness_ResetStreamCompletes : (staged .em).live ∧ dead.status.fatal = true := ⟨rfl, rfl⟩

/-! ### Witnesses: the reservoir -/

/-- The reservoir holds `n` unread bits of 0, `n` a multiple of 8, and nothing was read. -/
def filled (n : Nat) : State :=
  { State.reset with rs := { RS.reset with
      resv := { Resv.reset with wbyte := BitVec.ofNat 12 (n / 8), avail := n } } }

/-- All that was in the reservoir, `n` bits, has been read. -/
def drained (n : Nat) : State :=
  { State.reset with rs := { RS.reset with
      resv := { Resv.reset with
        wbyte := BitVec.ofNat 12 (n / 8), rptr := BitVec.ofNat 15 n, totbit := BitVec.ofNat 32 n, hist := n } } }

theorem filled_storage {n : Nat} (h8 : n % 8 = 0) (h : n ≤ 32768) : StorageInv (filled n) where
  resvCells := ⟨rfl, by simp [filled, Resv.reset]⟩
  fbCells := ⟨rfl, by simp [filled, State.reset, FrameBuf.reset]⟩
  fbLen := Nat.zero_le _
  fbCursor := Nat.zero_le _
  history := by simpa [filled, Resv.reset, Config.resvBits, Config.resvBytes] using h
  tell := rfl
  ring := fun _ => by
    simp only [filled, Resv.reset, Resv.wptr, Config.resvBits, Config.resvBytes, BitVec.toNat_ofNat,
      BitVec.ofNat_eq_ofNat]
    omega
  scan := Nat.zero_le _

theorem drained_storage {n : Nat} (h8 : n % 8 = 0) (h : n ≤ 32768) : StorageInv (drained n) where
  resvCells := ⟨rfl, by simp [drained, Resv.reset]⟩
  fbCells := ⟨rfl, by simp [drained, State.reset, FrameBuf.reset]⟩
  fbLen := Nat.zero_le _
  fbCursor := Nat.zero_le _
  history := by simpa [drained, Resv.reset, Config.resvBits, Config.resvBytes] using h
  tell := by
    simp only [drained, Config.resvBits, Config.resvBytes, BitVec.toNat_ofNat]
    omega
  ring := fun _ => by
    simp only [drained, Resv.reset, Resv.wptr, Config.resvBits, Config.resvBytes, BitVec.toNat_ofNat]
    omega
  scan := Nat.zero_le _

/-- The last byte that fits, and the first that does not. -/
theorem witness_RbPutByteAppends :
    (filled 32760).live ∧ StorageInv (filled 32760) ∧ (filled 32760).rs.resv.avail + 8 = 32768 ∧
    (filled 32768).live ∧ StorageInv (filled 32768) ∧ ¬(filled 32768).rs.resv.avail + 8 ≤ 32768 :=
  ⟨rfl, filled_storage rfl (by decide), rfl, rfl, filled_storage rfl (by decide), by decide⟩

theorem witness_RbReadBitsReads :
    32 ≤ 32 ∧ (filled 32).live ∧ (filled 32).clean ∧ 32 ≤ (filled 32).rs.resv.avail ∧
    (filled 24).live ∧ ¬32 ≤ (filled 24).rs.resv.avail := ⟨by decide, rfl, rfl, by decide, rfl, by decide⟩

theorem witness_RbTellAnswers : (filled 32).live := rfl

/-- The longest rewind that the history holds, and longer ones. -/
theorem witness_RbRewinds :
    (drained 32768).live ∧ (4096 : BitVec 16).toNat ≤ 4096 ∧ 32768 = 8 * (4096 : BitVec 16).toNat ∧
    32768 ≤ (drained 32768).rs.resv.hist ∧ 65535 = (65535 : BitVec 16).toNat ∧ ¬65535 ≤ (drained 32768).rs.resv.hist :=
  ⟨rfl, by decide, by decide, by decide, by decide, by decide⟩

theorem witness_ReservoirIsAFifo :
    (drained 24).live ∧ (drained 24).clean ∧ StorageInv (drained 24) ∧ (drained 24).rs.resv.avail = 0 ∧
    (List.replicate 4096 (0xA5 : Byte)).length ≤ 4096 :=
  ⟨rfl, rfl, drained_storage rfl (by decide), rfl, by rw [List.length_replicate]⟩

theorem witness_RbCommandsAreIsolated :
    (∃ t, exec .rbTell (filled 32) = .next t) ∧ (∃ t, exec (.rbPutByte 0xA5) (filled 32) = .next t) ∧
    (∃ t, exec (.rbReadBits 33) (filled 32) = .next t) ∧ (∃ t, exec (.rbRewindBits 1) (filled 32) = .next t) ∧
    ∃ t, exec (.rbRewindBytes 1) (filled 32) = .next t :=
  ⟨⟨_, rfl⟩, ⟨_, rfl⟩, ⟨_, rfl⟩, ⟨_, rfl⟩, _, rfl⟩

/-! ### Witnesses: SYNC -/

/-- A block that has just been reset, with the frame `h` of zeros at its port, then `rest`. -/
def withFrame (h : Word) (rest : List Transfer) (s : State) : State :=
  atPort (asData (headerBytes h ++ List.replicate (frameSize (parseHeader h)) 0) ++ rest) s

theorem reset_storage {s : State} (hr : s.rs = .reset) (hf : s.fb = .reset) (hh : s.held = none) : StorageInv s where
  resvCells := by rw [hr]; exact ⟨rfl, by simp [RS.reset, Resv.reset]⟩
  fbCells := by rw [hf]; exact ⟨rfl, by simp [FrameBuf.reset]⟩
  fbLen := by rw [hf]; decide
  fbCursor := by rw [hf]; decide
  history := by rw [hr]; decide
  tell := by rw [hr]; decide
  ring := fun _ => by rw [hr]; decide
  scan := by unfold State.phase; rw [hh]; decide

/-- The end of the stream, nothing having been taken from it. -/
def atEof : InStream := { pb := [], inEof := true, port := [.eof] }

/-- `n` zeros. -/
def zeros (n : Nat) : List Byte := List.replicate n 0

theorem zeros_length (n : Nat) : (zeros n).length = n := List.length_replicate

theorem frameOf_zeros {h : Word} {s : State} (hm : s.marks h) (hl : LegalHeader h) :
    s.frameOf h (zeros (frameSize (parseHeader h))) := ⟨hm, hl, zeros_length _⟩

/-- A frame of zeros at the port, before the end of the stream. -/
theorem withFrame_hasFrame {h : Word} {s : State} (hm : (withFrame h [.eof] s).marks h) (hl : LegalHeader h)
    (hp : s.pb = []) (he : s.inEof = false) :
    (withFrame h [.eof] s).hasFrame h (zeros (frameSize (parseHeader h))) atEof := by
  refine ⟨frameOf_zeros hm hl, { pb := [], inEof := false, port := [.eof] }, ?_, .inl ⟨⟨rfl, .inr ⟨[], rfl⟩⟩, rfl⟩⟩
  exact .inr ⟨he, rfl, rfl, _, by rw [show (withFrame h [.eof] s).stream.pb = [] from hp]; rfl, rfl⟩

/-- A frame in STRICT mode whose header a SYNC before has pushed back, before a further header. -/
def followed : State :=
  { atPort (asData (zeros (frameSize (parseHeader 0xFFFA9064#32)) ++ headerBytes 0xFFFBA044#32)) State.reset with
    pb := headerBytes 0xFFFA9064#32
    ref := ⟨0xFFFA0000#32, .strict, false⟩ }

theorem followed_hasFrame :
    followed.hasFrame 0xFFFA9064#32 (zeros (frameSize (parseHeader 0xFFFA9064#32)))
      { pb := headerBytes 0xFFFBA044#32, inEof := false, port := [] } := by
  refine ⟨frameOf_zeros ⟨by decide, by decide⟩ (by unfold LegalHeader; decide),
    { pb := [], inEof := false, port := asData (headerBytes 0xFFFBA044#32) }, ?_, .inr ⟨0xFFFBA044#32,
      { pb := [], inEof := false, port := [] }, by decide, ?_, rfl⟩⟩
  · exact .inr ⟨rfl, rfl, rfl, _, rfl, by simp [followed, atPort, State.stream, asData, List.map_append]⟩
  · exact .inr ⟨rfl, rfl, rfl, _, rfl, rfl⟩

/-- In INITIAL mode a frame without a CRC before the end of the stream; in STRICT mode one with a CRC, its header in
PB, before a further header. -/
theorem witness_SyncAcceptsFrame :
    (let s := withFrame 0xFFFB9064#32 [.eof] State.reset
     s.live ∧ s.clean ∧ StorageInv s ∧
     s.hasFrame 0xFFFB9064#32 (zeros (frameSize (parseHeader 0xFFFB9064#32))) atEof) ∧
    followed.live ∧ followed.clean ∧ StorageInv followed ∧
    followed.hasFrame 0xFFFA9064#32 (zeros (frameSize (parseHeader 0xFFFA9064#32)))
      { pb := headerBytes 0xFFFBA044#32, inEof := false, port := [] } :=
  ⟨⟨rfl, rfl, reset_storage rfl rfl rfl,
    withFrame_hasFrame ⟨by decide, by decide⟩ (by unfold LegalHeader; decide) rfl rfl⟩,
    rfl, rfl, reset_storage rfl rfl rfl, followed_hasFrame⟩

/-- Header words of each version and layer, in both modes, at the ends of the rate table. -/
theorem witness_HeaderWord :
    (let f (h : Word) (p n : Nat) : Nat := h.toNat / 2 ^ p % 2 ^ n
     f 0xFFFB9064#32 19 2 = 3 ∧ f 0xFFF314C0#32 19 2 = 2 ∧ f 0xFFE3E8C0#32 19 2 = 0 ∧ f 0xFFFB9064#32 17 2 = 1 ∧
     f 0xFFFD9064#32 17 2 = 2 ∧ f 0xFFFF9064#32 17 2 = 3 ∧ f 0xFFE3E8C0#32 10 2 = 2 ∧ f 0xFFE3E8C0#32 12 4 = 14 ∧
     f 0xFFF314C0#32 12 4 = 1 ∧ f 0xFFF314C0#32 6 2 = 3) ∧
    isSyncMark 0xFFFB9064#32 SyncRef.reset = true ∧ isSyncMark 0xFFFB9064#32 ⟨0xFFFA0000#32, .strict, false⟩ = true := by
  decide

/-- A candidate with BR_IDX = 15; a frame before bytes that are no header, and before 1 byte; a garbage byte. -/
theorem witness_SyncRejects :
    State.reset.live ∧
    (State.reset.marks 0xFFFBF064#32 ∧ (0xFFFBF064#32).extractLsb' 12 4 = 15 ∧
     (atPort (asData (headerBytes 0xFFFBF064#32) ++ [.eof]) State.reset).stream.Gives (headerBytes 0xFFFBF064#32)
       { pb := [], inEof := false, port := [.eof] }) ∧
    (State.reset.frameOf 0xFFFB9064#32 (zeros (frameSize (parseHeader 0xFFFB9064#32))) ∧
     (withFrame 0xFFFB9064#32 (asData (headerBytes 0x01020304#32) ++ []) State.reset).stream.Gives
       (headerBytes 0xFFFB9064#32 ++ zeros (frameSize (parseHeader 0xFFFB9064#32)))
       { pb := [], inEof := false, port := asData (headerBytes 0x01020304#32) ++ [] } ∧
     isSyncMark 0x01020304#32 State.reset.ref = false ∧
     InStream.Gives (headerBytes 0x01020304#32) { pb := [], inEof := false, port := asData (headerBytes 0x01020304#32) ++ [] }
       { pb := [], inEof := false, port := [] } ∧
     InStream.Gives [0xFF] { pb := [], inEof := false, port := asData [0xFF] ++ [.eof] }
       { pb := [], inEof := false, port := [.eof] } ∧
     InStream.AtEnd { pb := [], inEof := false, port := [.eof] }) ∧
    (0x001122FF#32).extractLsb' 8 24 ≠ 0x494433#24 ∧ isSyncMark 0x001122FF#32 State.reset.ref = false ∧
    InStream.Gives (headerBytes 0x001122FF#32) { pb := [0x00, 0x11], inEof := false, port := asData [0x22, 0xFF] ++ [.eof] }
      { pb := [], inEof := false, port := [.eof] } ∧ InStream.Ready { pb := [], inEof := false, port := [.eof] } :=
  ⟨rfl, ⟨⟨by decide, by decide⟩, by decide, .inr ⟨rfl, rfl, rfl, _, rfl, rfl⟩⟩,
    ⟨frameOf_zeros ⟨by decide, by decide⟩ (by unfold LegalHeader; decide), .inr ⟨rfl, rfl, rfl, _, rfl, rfl⟩, by decide,
      .inr ⟨rfl, rfl, rfl, _, rfl, rfl⟩, .inr ⟨rfl, rfl, rfl, _, rfl, rfl⟩, rfl, .inr ⟨_, rfl⟩⟩,
    by decide, by decide, .inr ⟨rfl, rfl, rfl, _, by decide, rfl⟩, .inr (.inr (by simp))⟩

/-- The end and an I/O error in an empty window, in the 3rd byte of a tag of 3 bytes, in the last byte of a body and
in the probe. -/
theorem witness_SyncAtTheEnd :
    State.reset.live ∧ (atPort [.eof] State.reset).stream.Gives [] { pb := [], inEof := false, port := [.eof] } ∧
    State.reset.Unfinished [] ∧
    State.reset.Unfinished ([0x49, 0x44, 0x33] ++ [4, 0, 0, 0, 0, 0, 3, 0xFF, 0xFF]) ∧
    State.reset.Unfinished (headerBytes 0xFFFB9064#32 ++ zeros 412) ∧ frameSize (parseHeader 0xFFFB9064#32) = 413 ∧
    State.reset.frameOf 0xFFFB9064#32 (zeros (frameSize (parseHeader 0xFFFB9064#32))) ∧
    ([0xFF, 0xFB, 0x90] : List Byte).length < 4 ∧ InStream.AtEnd { pb := [], inEof := false, port := [.eof] } ∧
    InStream.AtEnd { pb := [], inEof := true, port := [] } ∧ InStream.AtError { pb := [], inEof := false, port := [.ioerr] } := by
  have hl : LegalHeader 0xFFFB9064#32 := by unfold LegalHeader; decide
  have hm : State.reset.marks 0xFFFB9064#32 := ⟨by decide, by decide⟩
  exact ⟨rfl, .inl ⟨rfl, rfl, rfl⟩, .inl (by decide), .inr (.inl ⟨_, rfl, .inr (by decide)⟩),
    .inr (.inr ⟨_, _, rfl, hm, hl, by rw [zeros_length]; decide⟩), by decide, frameOf_zeros hm hl, by decide,
    ⟨rfl, .inr ⟨_, rfl⟩⟩, ⟨rfl, .inl rfl⟩, rfl, rfl, _, rfl⟩

/-- Tags of 0, of 127 and of 128 bytes; bit 7 of a size byte does not count; a tag that begins in PB. -/
theorem witness_TagIsSkipped :
    State.reset.live ∧ ([] : List Byte).length = id3Size 0x80 0 0 0 ∧ (zeros 127).length = id3Size 0 0 0 0xFF ∧
    (zeros 128).length = id3Size 0 0 1 0 ∧
    ({ atPort (asData [0x44, 0x33, 4, 0, 0, 0x80, 0, 0, 0] ++ [.eof]) State.reset with pb := [0x49] } : State).stream.Gives
      ([0x49, 0x44, 0x33, 4, 0, 0, 0x80, 0, 0, 0] ++ []) { pb := [], inEof := false, port := [.eof] } :=
  ⟨rfl, by decide, by rw [zeros_length]; decide, by rw [zeros_length]; decide, .inr ⟨rfl, rfl, rfl, _, rfl, rfl⟩⟩

/-! ### Witnesses: the frame commands -/

theorem staged_layer3 (x : Stage) : (staged x).layer3Frame := ⟨rfl, rfl⟩

/-- A frame without and one with a CRC. -/
theorem witness_SideInfoFields :
    (let s := staged .idle
     s.live ∧ s.clean ∧ s.layer3Frame ∧ s.chan.c0.stage = .idle ∧ s.fb.bitpos = s.sideInfoStart ∧
     s.fb.bitpos + 8 * sideinfoBytes s.head.fields ≤ 8 * s.fb.len) ∧
    (let s := { framed 0xFFFA9064#32 Chan.reset with fb := { FrameBuf.reset with len := 413, bitpos := 16 } }
     s.live ∧ s.clean ∧ s.layer3Frame ∧ s.chan.c0.stage = .idle ∧ s.fb.bitpos = s.sideInfoStart ∧
     s.fb.bitpos + 8 * sideinfoBytes s.head.fields ≤ 8 * s.fb.len) :=
  ⟨⟨rfl, rfl, staged_layer3 _, rfl, by decide, by decide⟩, rfl, rfl, ⟨rfl, rfl⟩, rfl, by decide, by decide⟩

/-- A frame buffer of `len` bytes that begins with `l` and goes on with zeros; the cursor stands at `pos`. -/
def buffered (l : List Byte) (len pos : Nat) : FrameBuf := { cells := Memory.fill [] 0 l, len := len, bitpos := pos }

/-- An MPEG1 frame with a CRC, its side info of zeros, CRC_READ being `c`; 95_test_vectors.md gives 0x576F. -/
def checkedFrame (c : BitVec 16) : State :=
  { framed 0xFFFA9064#32 Chan.reset with
    fb := buffered [] 413 16
    crc := { Crc.reset with crcRead := c, engine := crcStart 0xFFFA9064#32 } }

/-- A frame whose first granule-channel has window switching and block type 0: bit 9 + 3 + 8 + 33 of its body. -/
def badFrame : State := { staged .idle with fb := buffered [0, 0, 0, 0, 0, 0, 0x04] 413 0 }

set_option maxRecDepth 100000 in
/-- A good frame, one that is rejected for its first row, and one whose CRC is right or wrong; the rows of R233 are
met by side info of these kinds. -/
theorem witness_SideInfoOutcome :
    (let s := staged .idle
     s.live ∧ s.clean ∧ s.layer3Frame ∧ s.chan.c0.stage = .idle ∧ s.fb.bitpos = s.sideInfoStart ∧
     s.fb.bitpos + 8 * sideinfoBytes s.head.fields ≤ 8 * s.fb.len) ∧
    (badFrame.live ∧ badFrame.clean ∧ badFrame.layer3Frame ∧ badFrame.chan.c0.stage = .idle ∧
     badFrame.fb.bitpos = badFrame.sideInfoStart ∧ (badFrame.sideInfoBlock 0 0).windowSwitching = true ∧
     (badFrame.sideInfoBlock 0 0).blockType = 0) ∧
    (let s := checkedFrame 0
     s.live ∧ s.clean ∧ s.layer3Frame ∧ s.chan.c0.stage = .idle ∧ s.fb.bitpos = s.sideInfoStart ∧
     s.fb.bitpos + 8 * sideinfoBytes s.head.fields ≤ 8 * s.fb.len ∧
     errOf (exec .readSideInfo { s with ctrl := { s.ctrl with crcStrict := true } }) = .crcReject) ∧
    (nextOf (exec .readSideInfo (checkedFrame 0x576F))).register 0x3C = 0x576F576F#32 ∧
    badBlockType { GranuleInfo.reset with windowSwitching := true } = true ∧
    badBigValues { GranuleInfo.reset with bigValues := 289 } = true ∧
    badBigValues { GranuleInfo.reset with bigValues := 288 } = false ∧
    badTable 3 { GranuleInfo.reset with bigValues := 1, tableSelect := ⟨14, 0, 0⟩ } = true ∧
    badTable 3 { GranuleInfo.reset with bigValues := 0, tableSelect := ⟨14, 0, 0⟩ } = false ∧
    badMixed 8 mixedInfo = true ∧ badMixed 7 mixedInfo = false :=
  ⟨⟨rfl, rfl, staged_layer3 .idle, rfl, by decide, by decide⟩, ⟨rfl, rfl, ⟨rfl, rfl⟩, rfl, rfl, by decide, by decide⟩,
    ⟨rfl, rfl, ⟨rfl, rfl⟩, rfl, rfl, by decide, by decide⟩, by decide, by decide⟩

set_option maxRecDepth 100000 in
/-- P5 of 95_test_vectors.md, step 2: READ_SIDE_INFO on the end state of P2, whose CRC register is 0. The program
lists no CRC afterwards, so it keeps its value, though the engine is not 0 (log entry 14). -/
theorem test_crc_kept_without_crc_word :
    (let t := nextOf (exec .readSideInfo { staged .idle with
       crc := { Crc.reset with engine := crcStart 0xFFFB9064#32 } })
     t.status.err = .ok ∧ t.fb.bitpos = 256 ∧ t.register 0x3C = 0 ∧ t.crc.engine ≠ 0) := by decide

/-- DISCARD at 0 and below, and MAIN_DATA_END on both sides of the wrap guard's 4096. -/
theorem witness_MainDataBookkeeping :
    (staged .si).live ∧ (staged .si).layer3Frame ∧ (staged .si).chan.c0.stage = .si ∧
    ((0 : Word) - 0 - (0 : BitVec 9).zeroExtend 32).toInt = 0 ∧
    ((0 : Word) - 0 - (1 : BitVec 9).zeroExtend 32).toInt < 0 ∧
    (let s (n : Nat) : State := { staged .si with
       rs := { RS.reset with resv := { Resv.reset with totbit := BitVec.ofNat 32 n } }
       book := { Book.reset with frameStart := 4097 } }
     (s 32768).live ∧ (s 32768).layer3Frame ∧ (s 32768).chan.c0.stage = .si ∧ (s 32768).newMainDataEnd = 4096 ∧
     (s 32768).wrapGuard = false ∧ 0 ≤ (s 32768).newDiscard.toInt ∧
     (s 32769).live ∧ (s 32769).layer3Frame ∧ (s 32769).chan.c0.stage = .si ∧ (s 32769).newMainDataEnd = 4097 ∧
     (s 32769).wrapGuard = true ∧ 0 ≤ (s 32769).newDiscard.toInt) := by
  refine ⟨rfl, staged_layer3 _, rfl, by decide, by decide, rfl, staged_layer3 .si, rfl, ?_, ?_, ?_,
    rfl, staged_layer3 .si, rfl, ?_, ?_, ?_⟩ <;> decide

/-- The slots are exactly the rest of the body. -/
theorem witness_MainDataAppends :
    (let s := { staged .si with fb := { FrameBuf.reset with len := 413, bitpos := 256 } }
     s.live ∧ s.clean ∧ StorageInv s ∧ s.layer3Frame ∧ s.chan.c0.stage = .si ∧
     s.fb.bitpos + 8 * s.head.slots = 8 * s.fb.len ∧ s.rs.resv.avail + 8 * s.head.slots ≤ 32768) := by
  refine ⟨rfl, rfl, ?_, staged_layer3 .si, rfl, by decide, by decide⟩
  exact {
    resvCells := ⟨rfl, by simp [staged, framed, State.reset, RS.reset, Resv.reset]⟩
    fbCells := ⟨rfl, by simp [FrameBuf.reset]⟩
    fbLen := by decide
    fbCursor := by decide
    history := by decide
    tell := by decide
    ring := fun _ => by decide
    scan := by decide }

/-! ### Witnesses: the granule commands -/

theorem staged_operands (x : Stage) (gr ch : Fin 2) : (staged x).hasOperands gr ch := ⟨gr.isLt, ch.isLt⟩

theorem staged_ready {x : Stage} : (staged x).ready x 0 0 := ⟨rfl, staged_layer3 _, staged_operands _ _ _, rfl, rfl⟩

/-- Any granule and channel may be due. -/
theorem witness_ready (x : Stage) : (staged x).ready x 0 1 ∧
    (framed 0xFFFB9064#32 { Chan.reset with stage := x, grp := 1 }).ready x 1 0 :=
  ⟨⟨rfl, staged_layer3 _, staged_operands _ _ _, rfl, rfl⟩, rfl, ⟨rfl, rfl⟩, staged_operands x 1 0, rfl, rfl⟩

/-- A mono frame has no channel 1, an LSF frame no granule 1. -/
theorem witness_CommandChecks :
    ¬((staged .md).chan.c0.stage = .idle ∧ (staged .md).fb.bitpos = (staged .md).sideInfoStart) ∧
    (staged .md).chan.c0.stage ≠ .si ∧ State.reset.live ∧ ¬State.reset.layer3Frame ∧ (staged .md).live ∧ (staged .md).layer3Frame ∧
    (staged .md).hasOperands 1 1 ∧ ¬(staged .md).stageIs .sf 0 0 ∧ ¬(staged .md).beforeScalefactors 1 0 ∧
    ¬(staged .md).beforeStereo 0 ∧
    (let s := framed 0xFFFB90C4#32 Chan.reset
     s.live ∧ s.layer3Frame ∧ ¬s.hasOperands 0 1) ∧
    (let s := framed 0xFFF3A8C0#32 Chan.reset
     s.live ∧ s.layer3Frame ∧ ¬(1 : Fin 2).val < s.ngr) := by
  refine ⟨by decide, by decide, rfl, fun h => absurd h.1 (by decide), rfl, staged_layer3 .md, staged_operands .md 1 1,
    fun h => absurd h.1 (by decide), fun h => absurd (h.2.1 rfl).2.1 (by decide),
    fun h => absurd (h 0 (by decide)).1 (by decide), ⟨rfl, ⟨rfl, rfl⟩, fun h => absurd h.2 (by decide)⟩,
    rfl, ⟨rfl, rfl⟩, by decide⟩

/-- Granule 0 of a frame just loaded, and granule 1 after granule 0 was emitted. -/
theorem witness_ScalefactorsMpeg1 :
    (staged .md).readyScalefactors 0 0 ∧ (staged .md).head.fields.version = .mpeg1 ∧ (staged .md).clean ∧
    ({ staged .em with order := { nextGc := 3, partOpen := false } } : State).readyScalefactors 1 1 :=
  ⟨⟨rfl, staged_layer3 .md, ⟨by decide, by decide⟩, fun _ => rfl, fun h => absurd h (by decide), rfl, rfl⟩, rfl, rfl,
    rfl, staged_layer3 .em, ⟨by decide, by decide⟩, fun h => absurd h (by decide), fun _ => ⟨rfl, rfl, rfl⟩, rfl, rfl⟩

/-- An LSF frame in intensity stereo; the ranges of R245 are met at their ends, on both sides. -/
theorem witness_ScalefactorsLsf :
    (let s : State := { framed 0xFFF3A850#32 { Chan.reset with stage := .md } with order := { nextGc := 1, partOpen := false } }
     s.readyScalefactors 0 1 ∧ s.head.fields.version ≠ .mpeg1 ∧ s.clean ∧ s.isOn = true ∧
     ({ s with order := .reset } : State).readyScalefactors 0 0 ∧ ¬(s.isOn = true ∧ (0 : Fin 2) = 1)) ∧
    (lsfScale false 399).blockNum = 0 ∧ (lsfScale false 400).blockNum = 1 ∧ (lsfScale false 499).blockNum = 1 ∧
    (lsfScale false 500).blockNum = 2 ∧ (lsfScale true 359).blockNum = 3 ∧ (lsfScale true 360).blockNum = 4 ∧
    (lsfScale true 487).blockNum = 4 ∧ (lsfScale true 488).blockNum = 5 :=
  ⟨⟨⟨rfl, ⟨rfl, rfl⟩, ⟨by decide, by decide⟩, fun _ => rfl, fun h => absurd h (by decide), rfl, rfl⟩, by decide, rfl, rfl,
    ⟨rfl, ⟨rfl, rfl⟩, ⟨by decide, by decide⟩, fun _ => rfl, fun h => absurd h (by decide), rfl, rfl⟩, by decide⟩,
    by decide⟩

theorem witness_HuffmanEndsAtPart3End : (staged .sf).ready .sf 0 0 := staged_ready

/-- R290's granule-channel: one pair of table 1, quads of table 33, PART2_3_END after `n` bits. -/
def huffmanState (n : Nat) : State :=
  withInfo { GranuleInfo.reset with
    part23Length := BitVec.ofNat 12 n, bigValues := 1, tableSelect := ⟨1, 0, 0⟩, count1TableSelect := true }
    { staged .sf with rs := RS.reset.putMany [0x7C, 0xF0] }

/-- Pairs of table 0 take no bits. -/
theorem pairsCode_zeros {table : Nat → Nat} (h : ∀ i, table i = 0) (n i : Nat) :
    PairsCode table i (List.replicate (2 * n) 0) [] := by
  induction n generalizing i with
  | zero => exact .nil i
  | succ n ih =>
    refine .cons i 0 0 (List.replicate (2 * n) 0) [] [] ?_ (ih (i + 1))
    rw [PairCode, h]
    exact ⟨rfl, rfl, rfl⟩

/-- A granule-channel of 288 pairs of table 0 and 8 stuffing bits. -/
def stuffedState : State :=
  withInfo { GranuleInfo.reset with part23Length := 8, bigValues := 288 } { staged .sf with rs := RS.reset.putMany [0xA5] }

/-- The bits of R290: the pair and a quad up to PART2_3_END, without and with a quad that ends past it; the pair alone
with PART2_3_END inside it (vector H3); stuffing bits after 576 lines (as in vector H4). -/
theorem witness_HuffmanReadsCodes :
    (huffmanState 8).ready .sf 0 0 ∧ (huffmanState 8).clean ∧ (huffmanState 9).ready .sf 0 0 ∧ (huffmanState 9).clean ∧
    PairsCode (pairTable 3 ((huffmanState 8).info 0 0)) 0 [-1, 0] [false, true, true] ∧
    ([-1, 0] : List Int).length = 2 * ((huffmanState 8).info 0 0).bigValues.toNat ∧
    QuadsCode (quadCodebook true) [0, 0, 0, 1] [true, true, true, false, false] ∧
    QuadCode (quadCodebook true) 0 0 0 0 [true, true, true, true] ∧
    8 = (huffmanState 8).rs.resv.totbit.toNat +
      ([false, true, true] ++ [true, true, true, false, false] : List Bool).length ∧
    (huffmanState 9).rs.resv.totbit.toNat + 8 < 9 ∧ 9 < (huffmanState 9).rs.resv.totbit.toNat + 12 ∧
    12 ≤ (huffmanState 9).rs.resv.avail ∧
    (∀ i < 12, (huffmanState 9).rs.resv.bit ((huffmanState 9).rs.resv.rptr.toNat + i) =
      ([false, true, true, true, true, true, false, false, true, true, true, true] : List Bool).getD i false) ∧
    ((huffmanState 2).ready .sf 0 0 ∧ (huffmanState 2).clean ∧ 2 < (huffmanState 2).rs.resv.totbit.toNat + 3 ∧
     (huffmanState 2).rs.resv.totbit.toNat ≤ 2 + (huffmanState 2).rs.resv.hist ∧ 0 = ([-1, 0] : List Int).length - 4) ∧
    (stuffedState.ready .sf 0 0 ∧ stuffedState.clean ∧
     PairsCode (pairTable 3 (stuffedState.info 0 0)) 0 (List.replicate (2 * 288) 0) [] ∧
     8 ≤ stuffedState.rs.resv.avail ∧ ∀ i < 8, stuffedState.rs.resv.bit (stuffedState.rs.resv.rptr.toNat + i) =
       ([true, false, true, false, false, true, false, true] : List Bool).getD i false) := by
  refine ⟨⟨rfl, ⟨rfl, rfl⟩, ⟨by decide, by decide⟩, rfl, rfl⟩, rfl, ⟨rfl, ⟨rfl, rfl⟩, ⟨by decide, by decide⟩, rfl, rfl⟩,
    rfl, ?_, rfl, ?_, ?_, by decide, by decide, by decide, by decide, by decide,
    ⟨⟨rfl, ⟨rfl, rfl⟩, ⟨by decide, by decide⟩, rfl, rfl⟩, rfl, by decide, by decide, rfl⟩,
    ⟨rfl, ⟨rfl, rfl⟩, ⟨by decide, by decide⟩, rfl, rfl⟩, rfl, pairsCode_zeros (fun i => ?_) 288 0, by decide, by decide⟩
  · refine .cons 0 (-1) 0 [] [false, true, true] [] ?_ (.nil 1)
    rw [PairCode, if_neg (by decide)]
    exact ⟨[false, true], 1, 0, by decide, by unfold Codes; decide, by unfold Codes; decide, by decide⟩
  · exact .cons 0 0 0 1 [] [true, true, true, false, false] []
      ⟨[true, true, true, false], false, false, false, true, by decide, rfl, rfl, rfl, rfl, rfl⟩ .nil
  · exact ⟨[true, true, true, true], false, false, false, false, by decide, rfl, rfl, rfl, rfl, rfl⟩
  · unfold pairTable
    split <;> [rfl; split] <;> rfl

/-- Lines of each kind: the long band of line 575, the first short line of a mixed block. -/
theorem witness_DequantizeValues :
    (staged .huf).ready .huf 0 0 ∧ (staged .huf).clean ∧ sfbLong 3 21 ≤ 575 ∧ 575 < sfbLong 3 22 ∧
    mixedInfo.mixed = true ∧ 3 * sfbShort 3 3 = 36 ∧ 36 < 3 * sfbShort 3 4 ∧
    (36 - 3 * sfbShort 3 3) / (sfbShort 3 4 - sfbShort 3 3) = 0 ∧
    (575 - 3 * sfbShort 3 12) / (sfbShort 3 13 - sfbShort 3 12) = 2 :=
  ⟨staged_ready, rfl, by decide, by decide, rfl, by decide, by decide, by decide, by decide⟩

theorem witness_ReorderMovesLines :
    (withInfo shortInfo (staged .dq)).ready .dq 0 0 ∧ (withInfo shortInfo (staged .dq)).clean ∧
    ((withInfo shortInfo (staged .dq)).info 0 0).short = true ∧
    (withInfo mixedInfo (staged .dq)).ready .dq 0 0 ∧ ((withInfo mixedInfo (staged .dq)).info 0 0).mixed = true :=
  ⟨⟨rfl, ⟨rfl, rfl⟩, ⟨by decide, by decide⟩, rfl, rfl⟩, rfl, rfl,
    ⟨rfl, ⟨rfl, rfl⟩, ⟨by decide, by decide⟩, rfl, rfl⟩, rfl⟩

theorem framed_readyStereo (h : Word) (c : Chan) (h3 : (parseHeader h).layer = 3) (hc : c.stage = .ro ∧ c.grp = 0)
    (s : State) (hs : s = framed h c) : s.live ∧ s.layer3Frame ∧ s.beforeStereo 0 := by
  subst hs
  refine ⟨rfl, ⟨rfl, decide_eq_true h3⟩, fun ch _ => ?_⟩
  have : (framed h c).chan.get ch = c := by simp [framed, Two.get]
  exact ⟨by rw [this]; exact hc.1, by rw [this]; exact hc.2⟩

/-- Mono, joint stereo without extension, plain stereo, and MS. -/
theorem witness_StereoWithoutIntensity :
    (staged .ro).readyStereo 0 ∧ (staged .ro).head.fields.mode = 1 ∧ (staged .ro).head.fields.modeExt = 2 ∧
    (framed 0xFFFB90C4#32 { Chan.reset with stage := .ro }).readyStereo 0 ∧
    (framed 0xFFFB90C4#32 { Chan.reset with stage := .ro }).nch = 1 ∧
    (parseHeader 0xFFFB9004#32).mode ≠ 1 ∧ (parseHeader 0xFFFB9044#32).modeExt = 0 := by
  have a := framed_readyStereo 0xFFFB9064#32 { Chan.reset with stage := .ro } rfl ⟨rfl, rfl⟩ _ rfl
  have b := framed_readyStereo 0xFFFB90C4#32 { Chan.reset with stage := .ro } rfl ⟨rfl, rfl⟩ _ rfl
  exact ⟨⟨a.1, a.2.1, by decide, a.2.2⟩, rfl, rfl, ⟨b.1, b.2.1, by decide, b.2.2⟩, rfl, by decide, by decide⟩

/-- An MPEG1 frame in intensity stereo, the right channel being all 0. -/
def intensityState (g : GranuleInfo) : State :=
  withInfo g (framed 0xFFFB9074#32 { Chan.reset with stage := .ro })

theorem intensityState_ready (g : GranuleInfo) : (intensityState g).readyStereo 0 := by
  refine ⟨rfl, ⟨rfl, rfl⟩, (by decide : (0 : Nat) < 2), fun ch _ => ?_⟩
  unfold State.stageIs
  match ch with
  | 0 => exact ⟨rfl, rfl⟩
  | 1 => exact ⟨rfl, rfl⟩

theorem witness_StereoIntensityLong :
    (intensityState .reset).readyStereo 0 ∧ (intensityState .reset).head.fields.mode = 1 ∧
    (intensityState .reset).head.fields.modeExt.getLsbD 0 = true ∧ ((intensityState .reset).info 0 1).short = false ∧
    ((intensityState .reset).head.fields.version ≠ .mpeg1 → (intensityState .reset).chan.c1.lsf.blockTypeNum = 0) ∧
    (intensityState .reset).clean ∧ sfbLong 3 21 ≤ 575 ∧ 575 < sfbLong 3 22 :=
  ⟨intensityState_ready _, rfl, by decide, rfl, fun _ => rfl, rfl, by decide, by decide⟩

theorem witness_StereoIntensityShort :
    (intensityState shortInfo).readyStereo 0 ∧ ((intensityState shortInfo).info 0 1).short = true ∧
    ((intensityState shortInfo).info 0 1).mixed = false ∧ (intensityState shortInfo).clean ∧
    (intensityState shortInfo).head.fields.mode = 1 ∧
    (intensityState shortInfo).head.fields.modeExt.getLsbD 0 = true ∧
    ((intensityState shortInfo).head.fields.version ≠ .mpeg1 →
      (intensityState shortInfo).chan.c1.lsf.blockTypeNum = 1) :=
  ⟨intensityState_ready _, rfl, rfl, rfl, rfl, by decide, fun h => absurd rfl h⟩

theorem framed_header (h : Word) (c : Chan) (hl : LegalHeader h) : HeaderInv (framed h c) where
  legal _ := hl
  fields _ := rfl
  size _ := rfl
  slots _ := rfl
  body _ := rfl
  flags _ := ⟨decide_eq_true_iff, decide_eq_true_iff, decide_eq_true_iff⟩
  mode _ := rfl
  scan := trivial

theorem witness_StereoIntensityMixed :
    (intensityState mixedInfo).readyStereo 0 ∧ HeaderInv (intensityState mixedInfo) ∧
    (intensityState mixedInfo).head.fields.mode = 1 ∧
    (intensityState mixedInfo).head.fields.modeExt.getLsbD 0 = true ∧
    ((intensityState mixedInfo).info 0 1).mixed = true ∧ (intensityState mixedInfo).head.fields.sfreq ≠ 8 ∧
    ((intensityState mixedInfo).head.fields.version ≠ .mpeg1 →
      (intensityState mixedInfo).chan.c1.lsf.blockTypeNum = 2) ∧ (intensityState mixedInfo).clean := by
  have hl : LegalHeader 0xFFFB9074#32 := by unfold LegalHeader; decide
  have := framed_header 0xFFFB9074#32 { Chan.reset with stage := .ro } hl
  exact ⟨intensityState_ready _, ⟨this.legal, this.fields, this.size, this.slots, this.body, this.flags, this.mode,
    trivial⟩, rfl, by decide, rfl, by decide, fun h => absurd rfl h, rfl⟩

theorem witness_AntialiasButterflies :
    (staged .st).ready .st 0 0 ∧ (staged .st).clean ∧ (withInfo shortInfo (staged .st)).ready .st 0 0 ∧
    (withInfo mixedInfo (staged .st)).ready .st 0 0 :=
  ⟨staged_ready, rfl, ⟨rfl, ⟨rfl, rfl⟩, ⟨by decide, by decide⟩, rfl, rfl⟩,
    rfl, ⟨rfl, rfl⟩, ⟨by decide, by decide⟩, rfl, rfl⟩

theorem witness_HybridTransforms : (staged .aa).ready .aa 0 0 ∧ (staged .aa).clean := ⟨staged_ready, rfl⟩

theorem witness_FreqInvertNegates : (staged .hy).ready .hy 0 0 ∧ (staged .hy).clean := ⟨staged_ready, rfl⟩

theorem witness_EmitSendsInOrder :
    (withSink 576 (staged .fi)).ready .fi 0 0 ∧ 576 ≤ (withSink 576 (staged .fi)).env.sink :=
  ⟨⟨rfl, ⟨rfl, rfl⟩, ⟨by decide, by decide⟩, rfl, rfl⟩, by decide⟩

/-- EMIT one word short of its last; SYNC and DECODE_FRAME at an empty port, in the middle of a frame, and
DECODE_FRAME before a sink that takes nothing. -/
theorem witness_CommandsInPortions :
    ((staged .fi).ready .fi 0 0 ∧ 575 < 576 ∧ 576 ≤ 575 + 1) ∧
    (State.reset.live ∧ State.reset.pb = [] ∧ State.reset.inEof = false ∧ State.reset.env.port = []) ∧
    (∀ i, i = .sync ∨ i = .decodeFrame → ∃ u,
      exec i { State.reset with env := { State.reset.env with port := asData (headerBytes 0xFFF314C0#32) } } = .next u) ∧
    (∃ u, exec .decodeFrame (withSink 0 (withFrame 0xFFF314C0#32 [.eof] State.reset)) = .next u) :=
  ⟨⟨staged_ready, by decide, by decide⟩, ⟨rfl, rfl, rfl, rfl⟩,
    fun i h => match i, h with
      | _, .inl rfl => ⟨_, rfl⟩
      | _, .inr rfl => ⟨_, rfl⟩,
    _, rfl⟩

set_option maxRecDepth 100000 in
/-- R427: SYNC held after a header goes on as SYNC, in the body of its candidate. -/
theorem test_sync_resumes :
    (let s : State := { State.reset with env := { State.reset.env with port := asData (headerBytes 0xFFF314C0#32) } }
     let u := nextOf (exec .sync s)
     let t := nextOf (event (.present (asData (List.replicate 20 0) ++ [.eof])) u)
     u.busy = true ∧ t.busy = false ∧ t.status.err = .ok ∧ t.result = 0xFFF314C0#32) := by decide

/-! ### Witnesses: DECODE_FRAME -/

/-- The smallest Layer III frame: LSF, 24000 Hz, 8 kbit/s, mono; its body has 20 bytes. Without and with a CRC. -/
theorem witness_SilentFrameDecodes (h : Word) (hh : h = 0xFFF314C0#32 ∨ h = 0xFFF214C0#32) :
    (let s := withSink 2304 (withFrame h [.eof] State.reset)
     s.live ∧ s.clean ∧ StorageInv s ∧ (parseHeader h).layer = 3 ∧
     ((parseHeader h).prot = true ∨ s.ctrl.crcStrict = false) ∧
     (∀ i < sideinfoBytes (parseHeader h),
       (zeros (frameSize (parseHeader h))).getD ((if (parseHeader h).prot then 0 else 2) + i) 0 = 0) ∧
     s.hasFrame h (zeros (frameSize (parseHeader h))) atEof ∧
     s.rs.resv.totbit = 0 ∧ s.rs.resv.avail = 0 ∧ s.book.frameStart = 0 ∧
     (∀ ch j, lineAt (s.chan.get ch).prev j = .zero) ∧ 2304 ≤ s.env.sink) := by
  have hp : ∀ ch, ((withSink 2304 (withFrame h [.eof] State.reset)).chan.get ch).prev = Lines.zeros := fun ch =>
    match ch with
    | 0 => rfl
    | 1 => rfl
  have hq : ∀ ch j, lineAt ((withSink 2304 (withFrame h [.eof] State.reset)).chan.get ch).prev j = .zero := fun ch j => by
    rw [hp]
    rcases Nat.lt_or_ge j 576 with hj | hj
    · exact lineAt_tabulate _ hj
    · exact lineAt_ge _ hj
  have hf : ∀ s, (withFrame h [.eof] State.reset).hasFrame h (zeros (frameSize (parseHeader h))) atEof →
      s = withSink 2304 (withFrame h [.eof] State.reset) → s.hasFrame h (zeros (frameSize (parseHeader h))) atEof :=
    fun s a e => by subst e; exact a
  rcases hh with rfl | rfl
  · exact ⟨rfl, rfl, reset_storage rfl rfl rfl, by decide, .inr rfl, by decide,
      hf _ (withFrame_hasFrame ⟨by decide, by decide⟩ (by unfold LegalHeader; decide) rfl rfl) rfl,
      rfl, rfl, rfl, hq, by decide⟩
  · exact ⟨rfl, rfl, reset_storage rfl rfl rfl, by decide, .inr rfl, by decide,
      hf _ (withFrame_hasFrame ⟨by decide, by decide⟩ (by unfold LegalHeader; decide) rfl rfl) rfl,
      rfl, rfl, rfl, hq, by decide⟩

/-- The smallest frame at the port of a block just reset. -/
def smallest : State := withSink 2304 (withFrame 0xFFF314C0#32 [.eof] State.reset)

/-- What SYNC makes of it. -/
def accepted : State := nextOf (exec .sync smallest)

set_option maxRecDepth 100000 in
theorem witness_DecodeFrameIsItsCommands :
    smallest.live ∧ smallest.clean ∧ exec .sync smallest = .next accepted ∧ accepted.busy = false ∧
    accepted.status.err = .ok ∧ accepted.head.fields.layer = 3 ∧ 2304 ≤ accepted.env.sink ∧
    (let commands := frameCommands accepted.ngr accepted.nch accepted.willSelect
     commands.length = 11 ∧ ∀ n ≤ commands.length, (runCommands (commands.take n) accepted).2.status.err = .ok) :=
  ⟨rfl, rfl, rfl, by decide, by decide, by decide, by decide, by decide, by decide⟩

/-- The smallest frame with a body that begins with `l`. -/
def smallestWith (l : List Byte) : State :=
  withSink 2304 (atPort (asData (headerBytes 0xFFF314C0#32 ++ l ++ zeros (20 - l.length)) ++ [.eof]) State.reset)

/-- Its commands up to the `n`-th, after SYNC. -/
def afterCommands (n : Nat) (s : State) : State :=
  (runCommands ((frameCommands s.ngr s.nch s.willSelect).take n) s).2

/-- SYNC on an empty stream; a frame whose window switching has block type 0, rejected by its first command; a frame of
288 pairs of table 0 and 100 bits where there are 88, whose HUFFMAN_DECODE records RESV_OVERREAD. -/
def rejectedFrame : State := nextOf (exec .sync (smallestWith [0, 0, 0, 0, 0, 1]))

def faultyFrame : State := nextOf (exec .sync (smallestWith [0, 3, 0x24, 0x80]))

set_option maxRecDepth 100000 in
theorem witness_DecodeFrameEndings :
    (∃ u, exec .sync (atPort [.eof] State.reset) = .next u ∧ u.busy = false ∧ u.status.err = .endOfStream) ∧
    ((smallestWith [0, 0, 0, 0, 0, 1]).live ∧ (smallestWith [0, 0, 0, 0, 0, 1]).clean ∧
     exec .sync (smallestWith [0, 0, 0, 0, 0, 1]) = .next rejectedFrame ∧ rejectedFrame.busy = false ∧
     rejectedFrame.status.err = .ok ∧ rejectedFrame.head.fields.layer = 3 ∧ 2304 ≤ rejectedFrame.env.sink ∧
     (afterCommands 1 rejectedFrame).status.err = .sideinfoInvalid) ∧
    ((smallestWith [0, 3, 0x24, 0x80]).live ∧ (smallestWith [0, 3, 0x24, 0x80]).clean ∧
     exec .sync (smallestWith [0, 3, 0x24, 0x80]) = .next faultyFrame ∧ faultyFrame.busy = false ∧
     faultyFrame.status.err = .ok ∧ faultyFrame.head.fields.layer = 3 ∧ 2304 ≤ faultyFrame.env.sink ∧
     (∀ m ≤ 3, (afterCommands m faultyFrame).status.err = .ok) ∧
     (afterCommands 4 faultyFrame).status.err = .resvOverread ∧ (afterCommands 4 faultyFrame).status.skipped = false) :=
  ⟨⟨_, rfl, rfl, rfl⟩, ⟨rfl, rfl, rfl, by decide, by decide, by decide, by decide, by decide⟩,
    rfl, rfl, rfl, by decide, by decide, by decide, by decide, by decide, by decide, by decide⟩

theorem witness_OtherLayersAreSkipped :
    (let s := withFrame 0xFFF514C0#32 [.eof] State.reset
     s.live ∧ s.clean ∧ StorageInv s ∧ (parseHeader 0xFFF514C0#32).layer ≠ 3 ∧
     s.hasFrame 0xFFF514C0#32 (zeros (frameSize (parseHeader 0xFFF514C0#32))) atEof) :=
  ⟨rfl, rfl, reset_storage rfl rfl rfl, by decide,
    withFrame_hasFrame ⟨by decide, by decide⟩ (by unfold LegalHeader; decide) rfl rfl⟩

/-- A DECODE_FRAME that waits, at its first byte. -/
theorem witness_FrameOutputBound : ∃ t, exec .decodeFrame State.reset = .next t ∧ t.busy = true := ⟨_, rfl, rfl⟩

theorem witness_WhatCommandsCannotChange : ∃ t, exec (.emit 0 0) (staged .fi) = .next t := ⟨_, rfl⟩

/-! ### Witnesses: the invariants, in a state a run has left -/

/-- Granule 0 of channel 0 has been opened; one event is due. -/
def opened : State :=
  { staged .md with
    chan := ⟨{ Chan.reset with stage := .sf }, { Chan.reset with stage := .md }⟩
    order := { nextGc := 0, partOpen := true }
    env := { Env.reset with host := [.sinkReady 1] } }

theorem witness_StepKeepsStorage : StorageInv (drained 24) ∧ ∃ t, step (drained 24) = .next t :=
  ⟨drained_storage rfl (by decide), _, rfl⟩

theorem witness_StepKeepsPushback :
    PushbackInv { waiting with pb := [0xFF] } ∧ ∃ t, step { waiting with pb := [0xFF] } = .next t :=
  ⟨⟨by decide, by decide, by decide⟩, _, rfl⟩

theorem witness_StepKeepsQuantised : QuantInv opened ∧ ∃ t, step opened = .next t := by
  have hz : ∀ ch j, quantAt (opened.chan.get ch).is j = 0 := by
    intro ch j
    have : (opened.chan.get ch).is = tabulate 576 fun _ => 0 := by
      match ch with
      | 0 => rfl
      | 1 => rfl
    rw [this]
    rcases Nat.lt_or_ge j 576 with hj | hj
    · exact quantAt_tabulate _ hj
    · exact quantAt_ge _ hj
  refine ⟨⟨by decide, fun ch j _ => hz ch j, fun ch j => by rw [hz]; decide⟩, _, rfl⟩

theorem witness_StepKeepsOrder : OrderInv opened ∧ ∃ t, step opened = .next t :=
  ⟨⟨by decide, by decide, fun _ _ h => nomatch h⟩, _, rfl⟩

theorem witness_StepKeepsHeader : HeaderInv (staged .md) ∧ ∃ t, step (staged .md) = .next t :=
  ⟨framed_header _ _ (by unfold LegalHeader; decide), _, rfl⟩

theorem witness_StepKeepsLifeCycle : LifeInv waiting ∧ ∃ t, step waiting = .next t :=
  ⟨⟨fun _ => ⟨rfl, rfl, rfl⟩, (fun _ _ _ h => nomatch h), (fun h => nomatch h)⟩, _, rfl⟩

theorem witness_StepKeepsWaits : PushbackInv waiting ∧ WaitInv waiting ∧ ∃ t, step waiting = .next t :=
  ⟨⟨by decide, by decide, by decide⟩, ⟨fun _ _ _ => ⟨rfl, rfl, rfl⟩, (fun _ _ _ h => nomatch h)⟩, _, rfl⟩

end Sys2Proof.Machine.Tests
end

section
/-! PROOF. `Agrees` (R438): that it is transitive, and which parts of a command keep it. -/

namespace Sys2Proof.Machine

/-- A state that agrees with one that agrees with what the rules give agrees with that. -/
theorem State.Agrees.trans {t u v : State} (h : t.Agrees u) (h' : u.Agrees v) : t.Agrees v := by
  refine ⟨fun hv => (h.1 (h'.clean_iff.2 hv)).trans (h'.1 hv), ?_⟩
  calc t = State.withValuesOf t u := h.2
    _ = State.withValuesOf t (State.withValuesOf u v) := by rw [← h'.2]
    _ = State.withValuesOf t v := rfl

/-- STAGE is exact after a fault too (log entry 10). -/
theorem State.Agrees.setStage {t u : State} (h : t.Agrees u) (ch : Fin 2) (x : Stage) :
    (t.setStage ch x).Agrees (u.setStage ch x) := by
  refine ⟨fun hu => by rw [h.1 hu], ?_⟩
  rw [h.2]
  match ch with
  | 0 => rfl
  | 1 => rfl

/-- A store of spectral lines leaves its value, but for what a fault leaves unspecified (R438, R478). -/
theorem State.storeXr_agrees (ch : Fin 2) (v : Lines Num) (s : State) :
    (s.storeXr ch v).Agrees (s.mapChan ch fun c => { c with xr := v }) := by
  refine ⟨fun h => State.storeXr_clean ch v h, ?_⟩
  unfold State.storeXr State.storeOrFree
  split
  · generalize freeLines s.rs.log.draws = w
    match ch with
    | 0 => rfl
    | 1 => rfl
  · rfl

theorem mapChan_mapChan (ch : Fin 2) (f g : Chan → Chan) (s : State) :
    (s.mapChan ch f).mapChan ch g = s.mapChan ch fun c => g (f c) := by
  simp [State.mapChan]

/-- The state that agrees with the rules' state may be named with its own frame buffer and reservoir, where these are
the rules' but for the free values drawn. -/
theorem State.Agrees.withOwn {t u : State} (h : t.Agrees u) : t.Agrees { u with fb := t.fb, rs := t.rs } := by
  refine ⟨fun hc => ?_, ?_⟩
  · have hu : t = u := h.1 (h.clean_iff.1 hc)
    subst hu; rfl
  · exact h.2.trans (by rw [h.2]; rfl)

/-- The end of a command, with what stays exact in the reservoir whatever has been recorded (R201, R437). -/
theorem complete_ended (u : State) (e : Err) :
    ∃ t, complete (.ended u e) = t ∧ t.Agrees { u.finish e with fb := t.fb, rs := t.rs } ∧
      t.rs.log.first = u.rs.log.first ∧ t.rs.resv = u.rs.resv :=
  ⟨_, rfl, (complete_agrees u e).withOwn, State.settle_log_first u, State.settle_resv u⟩

/-- A granule command that needs STAGE[ch] = x runs (R421). -/
theorem State.ready.guardStage_start {x : Stage} {gr ch : Fin 2} {s : State} (h : s.ready x gr ch) :
    guardStage x gr ch s.start = none := by
  obtain ⟨-, hl, ho, hs⟩ := h
  exact guardStage_none.2 ⟨⟨hl, ho⟩, hs⟩

/-- A granule command that needs STAGE[ch] = x and changes its channel by `f`, but for what a fault leaves
unspecified. -/
theorem command_granule {x : Stage} {gr ch : Fin 2} {body : State → State} {f : Chan → Chan} {s : State}
    (hr : s.ready x gr ch) (hb : (body s.start).Agrees (s.start.mapChan ch f)) :
    ∃ t, command (guardStage x gr ch) (ending body) s = .next t ∧
      t.Agrees (s.granuleDone ch (f (s.chan.get ch))) := by
  obtain ⟨t, ht, hagree⟩ := command_ending body hr.1 hr.guardStage_start
  exact ⟨t, ht, hagree.trans (hb.finish .ok)⟩

end Sys2Proof.Machine
end

section
/-! PROOF. The bands of R64: the band that R312 looks for is the one that holds the line. -/

namespace Sys2Proof.Machine

/-- The band found is the only one that holds line `j`. -/
theorem bandOf_eq {f : Nat → Nat} (hf : Monotone f) {n b j : Nat} (hb : b < n) (h1 : f b ≤ j) (h2 : j < f (b + 1)) :
    bandOf f n j = b := by
  have hex : ((List.range n).find? fun c => decide (f c ≤ j) && decide (j < f (c + 1))).isSome := by
    rw [List.find?_isSome]
    exact ⟨b, by simpa using hb, by simp [h1, h2]⟩
  obtain ⟨c, hc⟩ := Option.isSome_iff_exists.1 hex
  have hfound := List.find?_some hc
  simp only [Bool.and_eq_true, decide_eq_true_eq] at hfound
  rw [bandOf, hc, Option.getD_some]
  by_contra hne
  rcases Nat.lt_or_gt_of_ne hne with hlt | hlt
  · have := hf (show c + 1 ≤ b from hlt)
    omega
  · have := hf (show b + 1 ≤ c from hlt)
    omega

theorem sfbLong_top (sfreq : Fin 9) {b : Nat} (h : 22 ≤ b) : sfbLong sfreq b = 576 := by
  rcases Nat.eq_or_lt_of_le h with rfl | h
  · fin_cases sfreq <;> rfl
  · have hlen : (sfbLongRow sfreq).length = 23 := by fin_cases sfreq <;> rfl
    exact List.getD_eq_default _ _ (by omega)

theorem sfbShort_top (sfreq : Fin 9) {b : Nat} (h : 13 ≤ b) : sfbShort sfreq b = 192 := by
  rcases Nat.eq_or_lt_of_le h with rfl | h
  · fin_cases sfreq <;> rfl
  · have hlen : (sfbShortRow sfreq).length = 14 := by fin_cases sfreq <;> rfl
    exact List.getD_eq_default _ _ (by omega)

theorem sfbLong_monotone (sfreq : Fin 9) : Monotone (sfbLong sfreq) := by
  have rows : ∀ (q : Fin 9) (b : Fin 22), sfbLong q b ≤ sfbLong q (b + 1) := by decide
  refine monotone_nat_of_le_succ fun b => ?_
  rcases Nat.lt_or_ge b 22 with hb | hb
  · exact rows sfreq ⟨b, hb⟩
  · rw [sfbLong_top sfreq hb, sfbLong_top sfreq (by omega)]

theorem sfbShort_monotone (sfreq : Fin 9) : Monotone (sfbShort sfreq) := by
  have rows : ∀ (q : Fin 9) (b : Fin 13), sfbShort q b ≤ sfbShort q (b + 1) := by decide
  refine monotone_nat_of_le_succ fun b => ?_
  rcases Nat.lt_or_ge b 13 with hb | hb
  · exact rows sfreq ⟨b, hb⟩
  · rw [sfbShort_top sfreq hb, sfbShort_top sfreq (by omega)]

/-- The long band of a line (R312). -/
theorem longBand_eq {sfreq : Fin 9} {b j : Nat} (h1 : sfbLong sfreq b ≤ j) (h2 : j < sfbLong sfreq (b + 1)) :
    longBand sfreq j = b := by
  have hb : b < 22 := by
    by_contra hb
    rw [sfbLong_top sfreq (by omega)] at h1 h2
    omega
  exact bandOf_eq (sfbLong_monotone sfreq) hb h1 h2

/-- The short band of a line (R312). -/
theorem shortBand_eq {sfreq : Fin 9} {b j : Nat} (h1 : 3 * sfbShort sfreq b ≤ j)
    (h2 : j < 3 * sfbShort sfreq (b + 1)) : shortBand sfreq j = b := by
  have hb : b < 13 := by
    by_contra hb
    rw [sfbShort_top sfreq (by omega)] at h1 h2
    omega
  have hm : Monotone fun c => 3 * sfbShort sfreq c := fun c d h => Nat.mul_le_mul_left 3 (sfbShort_monotone sfreq h)
  exact bandOf_eq hm hb h1 h2

end Sys2Proof.Machine
end

section
/-! PROOF. DEQUANTIZE (R310-R313): O37. -/

namespace Sys2Proof.Machine

/-- DEQUANTIZE gives XR and STAGE of its channel their values, and changes nothing else. -/
theorem dequantize_agrees (gr ch : Fin 2) (s : State) :
    (dequantize gr ch s).Agrees (s.mapChan ch fun c =>
      { c with stage := .dq, xr := dequantLines s.head.fields.sfreq (s.info gr ch) (s.chan.get ch) }) := by
  have hstore := State.storeXr_agrees ch (dequantLines s.head.fields.sfreq (s.info gr ch) (s.chan.get ch)) s
  have h := hstore.setStage ch .dq
  simp only [State.setStage, mapChan_mapChan] at h
  exact h

theorem shortScaled_iff {g : GranuleInfo} {j : Nat} :
    shortScaled g j = true ↔ g.short = true ∧ (g.mixed = true → 36 ≤ j) := by
  cases hm : g.mixed <;> simp [shortScaled, hm]

/-- `Exp(j)` of a line with long scaling (R312), doubled and negated. -/
theorem attenuation_long {sfreq : Fin 9} {g : GranuleInfo} {f : Scf} {b j : Nat} (hs : shortScaled g j = false)
    (h1 : sfbLong sfreq b ≤ j) (h2 : j < sfbLong sfreq (b + 1)) :
    attenuation sfreq g f j = (1 + g.scalefacScale.toNat) * (f.long b + g.preflag.toNat * pretab b) := by
  simp [attenuation, hs, longBand_eq h1 h2]

/-- `Exp(j)` of a line with short scaling (R312), doubled and negated. -/
theorem attenuation_short {sfreq : Fin 9} {g : GranuleInfo} {f : Scf} {b j : Nat} (hs : shortScaled g j = true)
    (h1 : 3 * sfbShort sfreq b ≤ j) (h2 : j < 3 * sfbShort sfreq (b + 1)) :
    attenuation sfreq g f j = (1 + g.scalefacScale.toNat) * f.shortAt (decodeWindow sfreq b j) b +
      4 * (g.subblockGain.get (decodeWindow sfreq b j)).toNat := by
  simp [attenuation, hs, shortBand_eq h1 h2]

/-- The dequantised value is the real product of R310 and R311. -/
theorem dequantised_real (val : Num → ℝ) (sfreq : Fin 9) (g : GranuleInfo) (f : Scf) (j : Nat) (q : Int) :
    (dequantised sfreq g f j q).real val =
      dequantReal q g.globalGain.toNat (-(attenuation sfreq g f j : ℝ) / 2) := by
  have hgain : (((g.globalGain.toNat : Int) - 210 : Int) : ℝ) / (4 : Nat) =
      0.25 * ((g.globalGain.toNat : ℝ) - 210) := by
    push_cast; ring
  simp only [dequantised, Exact.real_times, Exact.real_ofInt, Exact.real_powTwo, Exact.real_powFourThirds, hgain,
    dequantReal]
  push_cast
  rfl

/-- A line of DEQUANTIZE from NONZERO on (R310). -/
theorem lineAt_dequantLines_zero {sfreq : Fin 9} {g : GranuleInfo} {c : Chan} {j : Nat} (hj : j < 576)
    (h : c.nonzero ≤ j) : lineAt (dequantLines sfreq g c) j = .zero := by
  rw [dequantLines, lineAt_tabulate _ hj, if_pos h]

/-- A line of DEQUANTIZE below NONZERO, given its exponent (R310, R311). -/
theorem rounds_dequantLines {sfreq : Fin 9} {g : GranuleInfo} {c : Chan} {j : Nat} (hj : j < 576)
    (h : j < c.nonzero) {e : ℝ} (he : -(attenuation sfreq g c.scf j : ℝ) / 2 = e) :
    Rounds (lineAt (dequantLines sfreq g c) j) fun _ => dequantReal (quantAt c.is j) g.globalGain.toNat e := by
  refine ⟨dequantised sfreq g c.scf j (quantAt c.is j), ?_, fun val _ => ?_⟩
  · rw [dequantLines, lineAt_tabulate _ hj, if_neg (Nat.not_le.2 h)]
  · rw [dequantised_real, he]

/-- Settles O37: the line is rounded from an exact product, whose exponent is that of the band of the line. -/
theorem dequantizeValues : Obligations.DequantizeValues := by
  intro gr ch s hr
  obtain ⟨t, ht, hagree⟩ := command_granule hr (dequantize_agrees gr ch s.start)
  refine ⟨dequantLines s.head.fields.sfreq (s.info gr ch) (s.chan.get ch), t, ht, hagree, fun _ j hj => ?_⟩
  refine ⟨fun hz => lineAt_dequantLines_zero hj hz, fun hn hlong b h1 h2 => ?_, fun hn hs hm b w h1 h2 hw => ?_⟩
  · refine rounds_dequantLines hj hn ?_
    have hfalse : shortScaled (s.info gr ch) j = false := by
      rwa [← shortScaled_iff, Bool.not_eq_true] at hlong
    rw [attenuation_long hfalse h1 h2]
    push_cast
    ring
  · subst hw
    refine rounds_dequantLines hj hn ?_
    rw [attenuation_short (shortScaled_iff.2 ⟨hs, hm⟩) h1 h2]
    push_cast [decodeWindow]
    ring

end Sys2Proof.Machine
end

section
/-! PROOF. LOAD_MAIN_DATA (R208-R212): what it does to the read cursor and to the channels, and O30. -/

namespace Sys2Proof.Machine

theorem flush_mainDataEnd (r : RS) : (flush r).2 = BitVec.ofNat 32 ((r.tell + 7) / 8) := by
  unfold flush
  dsimp only
  split
  · next h =>
    rw [show (r.tell + 7) / 8 = r.tell / 8 + 1 by omega, BitVec.ofNat_add]
    rfl
  · next h => rw [show (r.tell + 7) / 8 = r.tell / 8 by omega]

/-- R209: after the flush the read cursor stands at the byte boundary MAIN_DATA_END. -/
theorem flush_totbit (r : RS) : (flush r).1.resv.totbit = BitVec.ofNat 32 (8 * ((r.tell + 7) / 8)) := by
  have htell : r.resv.totbit = BitVec.ofNat 32 r.tell := by simp [RS.tell]
  unfold flush
  dsimp only
  split
  · next h =>
    rw [RS.read_resv, Resv.advance_totbit, htell, ← BitVec.ofNat_add]
    congr 1
    omega
  · next h =>
    rw [htell]
    congr 1
    omega

/-- RbPut and FbRead leave the read cursor alone. -/
theorem Copy.slots_totbit (n : Nat) (c : Copy) : (Copy.slots n c).rs.resv.totbit = c.rs.resv.totbit := by
  induction n generalizing c with
  | zero => rfl
  | succ n ih => exact ih _

theorem copied_tell (s : State) : s.copied.rs.tell = s.rs.resv.totbit.toNat :=
  congrArg BitVec.toNat (Copy.slots_totbit s.head.slots { fb := s.fb, rs := s.rs })

theorem newMainDataEnd_eq (s : State) :
    s.newMainDataEnd = BitVec.ofNat 32 ((s.rs.resv.totbit.toNat + 7) / 8) := by
  rw [State.newMainDataEnd, flush_mainDataEnd, copied_tell]

/-- R211, R212: the read cursor, in bits, stands `main_data_begin` bytes before FRAME_START. -/
theorem loadedRs_totbit (s : State) :
    s.loadedRs.resv.totbit = 8 * ((if s.wrapGuard then s.book.frameStart - 4096 else s.book.frameStart) -
      s.si.mainDataBegin.zeroExtend 32) := by
  have hflush : (flush s.copied.rs).1.resv.totbit = 8 * s.newMainDataEnd := by
    rw [flush_totbit, newMainDataEnd_eq, copied_tell, BitVec.ofNat_mul]
    rfl
  have hskip : BitVec.ofNat 32 (8 * s.newDiscard.toNat) = 8 * s.newDiscard := by
    rw [BitVec.ofNat_mul, BitVec.ofNat_toNat, BitVec.setWidth_eq]
    rfl
  have hbits : BitVec.ofNat 32 Config.resvBits = 8 * 4096 := rfl
  rw [State.loadedRs, RS.skipBytes_totbit, hskip, State.newDiscard]
  cases s.wrapGuard
  · simp only [Bool.false_eq_true, if_false, hflush]
    ring
  · simp only [if_true, Resv.renormalise, hflush, hbits]
    ring

theorem enterMd_chan_eq (s : State) :
    s.enterMd.chan = {
      c0 := { s.chan.c0 with stage := .md, grp := 0 }
      c1 := if s.nch = 2 then { s.chan.c1 with stage := .md, grp := 0 } else s.chan.c1 } := by
  rcases nch_cases s with h | h <;> simp [State.enterMd, State.channels, h, State.mapChan]

/-- The checks of LOAD_MAIN_DATA pass (R208). -/
theorem guardMainData_none {s : State} : guardMainData s = none ↔ s.layer3Frame ∧ s.chan.c0.stage = .si := by
  simp [guardMainData, guardLayer3_none, State.layer3Frame]

/-- Settles O30: the read cursor moves by the flush (R209) and the skip (R212) alone, so that MAIN_DATA_END, DISCARD and
the place it ends at are sums of what the command found. -/
theorem mainDataBookkeeping : Obligations.MainDataBookkeeping := by
  intro s hs hl hst
  have hrun : exec .loadMainData s = .next (complete (.ended (loadMainData s.start).1 (loadMainData s.start).2)) :=
    command_runs (fun s => .ended (loadMainData s).1 (loadMainData s).2) hs (guardMainData_none.2 ⟨hl, hst⟩)
  obtain ⟨t, ht, hagree, hfirst, hresv⟩ := complete_ended (loadMainData s.start).1 (loadMainData s.start).2
  have hmde : BitVec.ofNat 32 ((s.rs.resv.totbit.toNat + 7) / 8) = s.start.newMainDataEnd :=
    (newMainDataEnd_eq s.start).symm
  refine ⟨t, hrun.trans (congrArg _ ht), ?_⟩
  rw [hmde]
  refine ⟨fun hneg => ?_, fun hpos => ?_⟩
  · rw [loadMainData_skip (s := s.start) hneg] at hagree hfirst hresv
    refine ⟨?_, ?_⟩
    · rw [hfirst]
      exact hagree
    · rw [hresv, flush_totbit, copied_tell]
      rfl
  · rw [loadMainData_load (s := s.start) (Int.not_lt.2 hpos), enterMd_chan_eq] at hagree hfirst hresv
    refine ⟨?_, ?_⟩
    · rw [hfirst]
      exact hagree
    · rw [hresv, loadedRs_totbit]
      rfl

end Sys2Proof.Machine
end

section
/-! PROOF. READ_SIDE_INFO takes each field from its fixed bits (R120-R122, R231, R232): O28. A read inside the body,
with no fault recorded, gives the bits at the cursor; so the place of a field is the sum of the widths before it. -/

namespace Sys2Proof.Machine

/-- The side-info read stands at bit `a` of the body `fb`, with no fault recorded. -/
structure SideRead.At (fb : FrameBuf) (a : Nat) (r : SideRead) : Prop where
  buf : r.fb = { fb with bitpos := a }
  clean : r.log.tainted = false

section Reads

variable {fb : FrameBuf} {a : Nat} {r : SideRead}

/-- rd(n) gives the `n` bits at the cursor and moves it by `n` (R214, R231). -/
theorem SideRead.At.rd (h : r.At fb a) {n : Nat} (hn : a + n ≤ 8 * fb.len) :
    (r.rd n).1 = fb.field a n ∧ (r.rd n).2.At fb (a + n) := by
  obtain ⟨hb, hc⟩ := h
  have hread := FrameBuf.read_clean (fb := r.fb) (n := n) (log := r.log) (by rw [hb]; exact hn) hc
  rw [hb] at hread
  refine ⟨?_, ?_, ?_⟩
  · simp [SideRead.rd, hb, hread, FrameBuf.field]
  · simp [SideRead.rd, hb, hread]
  · simp [SideRead.rd, hb, hread, hc]

theorem SideRead.At.flag (h : r.At fb a) (hn : a + 1 ≤ 8 * fb.len) :
    r.flag.1 = decide (fb.field a 1 = 1) ∧ r.flag.2.At fb (a + 1) := by
  obtain ⟨hv, hr⟩ := h.rd hn
  exact ⟨by rw [SideRead.flag, hv], hr⟩

/-- The fields of the window-switching branch that begins at bit `b` (R121, R232). -/
def FrameBuf.switchedFields (fb : FrameBuf) (b : Nat) : BlockFields :=
  let region0 : Nat := if fb.field b 2 = 2 ∧ ¬fb.field (b + 2) 1 = 1 then 8 else 7
  { blockType := BitVec.ofNat 2 (fb.field b 2)
    mixedBlock := decide (fb.field (b + 2) 1 = 1)
    tableSelect := ⟨BitVec.ofNat 5 (fb.field (b + 3) 5), BitVec.ofNat 5 (fb.field (b + 8) 5), 0⟩
    subblockGain := ⟨BitVec.ofNat 3 (fb.field (b + 13) 3), BitVec.ofNat 3 (fb.field (b + 16) 3),
      BitVec.ofNat 3 (fb.field (b + 19) 3)⟩
    region0Count := BitVec.ofNat 4 region0
    region1Count := BitVec.ofNat 5 (20 - region0) }

/-- The fields of the other branch. -/
def FrameBuf.plainFields (fb : FrameBuf) (b : Nat) : BlockFields where
  blockType := 0
  mixedBlock := false
  tableSelect := ⟨BitVec.ofNat 5 (fb.field b 5), BitVec.ofNat 5 (fb.field (b + 5) 5),
    BitVec.ofNat 5 (fb.field (b + 10) 5)⟩
  subblockGain := ⟨0, 0, 0⟩
  region0Count := BitVec.ofNat 4 (fb.field (b + 15) 4)
  region1Count := BitVec.ofNat 5 (fb.field (b + 19) 3)

theorem readSwitched_at (h : r.At fb a) (hn : a + 22 ≤ 8 * fb.len) :
    (readSwitched r).1 = fb.switchedFields a ∧ (readSwitched r).2.At fb (a + 22) := by
  obtain ⟨v1, h1⟩ := h.rd (n := 2) (by omega)
  obtain ⟨v2, h2⟩ := h1.flag (by omega)
  obtain ⟨v3, h3⟩ := h2.rd (n := 5) (by omega)
  obtain ⟨v4, h4⟩ := h3.rd (n := 5) (by omega)
  obtain ⟨v5, h5⟩ := h4.rd (n := 3) (by omega)
  obtain ⟨v6, h6⟩ := h5.rd (n := 3) (by omega)
  obtain ⟨v7, h7⟩ := h6.rd (n := 3) (by omega)
  refine ⟨?_, h7⟩
  simp only [readSwitched, v1, v2, v3, v4, v5, v6, v7, FrameBuf.switchedFields, decide_eq_false_iff_not]

theorem readPlain_at (h : r.At fb a) (hn : a + 22 ≤ 8 * fb.len) :
    (readPlain r).1 = fb.plainFields a ∧ (readPlain r).2.At fb (a + 22) := by
  obtain ⟨v1, h1⟩ := h.rd (n := 5) (by omega)
  obtain ⟨v2, h2⟩ := h1.rd (n := 5) (by omega)
  obtain ⟨v3, h3⟩ := h2.rd (n := 5) (by omega)
  obtain ⟨v4, h4⟩ := h3.rd (n := 4) (by omega)
  obtain ⟨v5, h5⟩ := h4.rd (n := 3) (by omega)
  refine ⟨?_, h5⟩
  simp only [readPlain, v1, v2, v3, v4, v5, FrameBuf.plainFields]

/-- `window_switching_flag` and the branch it selects (R121). -/
theorem readBranch_at (h : r.At fb a) (hn : a + 23 ≤ 8 * fb.len) :
    (if r.flag.1 then readSwitched r.flag.2 else readPlain r.flag.2).1 =
      (if fb.field a 1 = 1 then fb.switchedFields (a + 1) else fb.plainFields (a + 1)) ∧
    (if r.flag.1 then readSwitched r.flag.2 else readPlain r.flag.2).2.At fb (a + 23) := by
  obtain ⟨hv, hr⟩ := h.flag (by omega)
  by_cases hc : fb.field a 1 = 1
  · simpa [hv, hc] using readSwitched_at hr (by omega)
  · simpa [hv, hc] using readPlain_at hr (by omega)

/-- `preflag` is in the stream in MPEG1 only (R121, R232). -/
theorem readPreflag_at (h : r.At fb a) (hn : a + 1 ≤ 8 * fb.len) (mpeg1 : Bool) :
    (if mpeg1 then r.flag else (false, r)).1 = decide (mpeg1 = true ∧ fb.field a 1 = 1) ∧
    (if mpeg1 then r.flag else (false, r)).2.At fb (a + if mpeg1 then 1 else 0) := by
  cases mpeg1
  · exact ⟨by simp, h⟩
  · simpa using h.flag hn

/-- The block of R121 and R232 in the terms of its two branches: `c` is the place of `window_switching_flag`, `d` that
of `scalefac_scale`. -/
theorem FrameBuf.block_eq (mpeg1 : Bool) (fb : FrameBuf) (a : Nat) :
    let w := if mpeg1 then 4 else 9
    let c := a + 29 + w
    let d := c + 23 + if mpeg1 then 1 else 0
    let f := if fb.field c 1 = 1 then fb.switchedFields (c + 1) else fb.plainFields (c + 1)
    fb.block mpeg1 a =
      { part23Length := BitVec.ofNat 12 (fb.field a 12)
        bigValues := BitVec.ofNat 9 (fb.field (a + 12) 9)
        globalGain := BitVec.ofNat 8 (fb.field (a + 21) 8)
        scalefacCompress := BitVec.ofNat 9 (fb.field (a + 29) w)
        windowSwitching := decide (fb.field c 1 = 1)
        blockType := f.blockType
        mixedBlock := f.mixedBlock
        tableSelect := f.tableSelect
        subblockGain := f.subblockGain
        region0Count := f.region0Count
        region1Count := f.region1Count
        preflag := decide (mpeg1 = true ∧ fb.field (c + 23) 1 = 1)
        scalefacScale := decide (fb.field d 1 = 1)
        count1TableSelect := decide (fb.field (d + 1) 1 = 1) } := by
  intro w c d f
  have hb : a + 30 + w = c + 1 := by omega
  by_cases hs : fb.field c 1 = 1
  · simp [FrameBuf.block, FrameBuf.switchedFields, hs, hb, f, d, w, c]
  · simp [FrameBuf.block, FrameBuf.plainFields, hs, hb, f, d, w, c]

/-- The width of a granule-channel block (R121). -/
def blockWidth (mpeg1 : Bool) : Nat := if mpeg1 then 59 else 63

/-- ReadGranuleChannel takes the block at the cursor (R121, R232). -/
theorem readGranuleChannel_at (h : r.At fb a) (mpeg1 : Bool) (hn : a + blockWidth mpeg1 ≤ 8 * fb.len) :
    (readGranuleChannel mpeg1 r).1 = fb.block mpeg1 a ∧
    (readGranuleChannel mpeg1 r).2.At fb (a + blockWidth mpeg1) := by
  have hw : blockWidth mpeg1 = 29 + (if mpeg1 then 4 else 9) + 23 + (if mpeg1 then 1 else 0) + 2 := by
    cases mpeg1 <;> rfl
  obtain ⟨vPart23, h1⟩ := h.rd (n := 12) (by omega)
  obtain ⟨vBig, h2⟩ := h1.rd (n := 9) (by omega)
  obtain ⟨vGain, h3⟩ := h2.rd (n := 8) (by omega)
  obtain ⟨vCompress, h4⟩ := h3.rd (n := if mpeg1 then 4 else 9) (by omega)
  obtain ⟨vSwitched, -⟩ := h4.flag (by omega)
  obtain ⟨vBlock, h5⟩ := readBranch_at h4 (by omega)
  obtain ⟨vPreflag, h6⟩ := readPreflag_at h5 (by omega) mpeg1
  obtain ⟨vScale, h7⟩ := h6.flag (by omega)
  obtain ⟨vCount1, h8⟩ := h7.flag (by omega)
  refine ⟨?_, ?_⟩
  · rw [FrameBuf.block_eq, readGranuleChannel]
    dsimp only
    rw [vCount1, vScale, vPreflag, vBlock, vSwitched, vCompress, vGain, vBig, vPart23]
  · have ha : a + blockWidth mpeg1 = a + 29 + (if mpeg1 then 4 else 9) + 23 + (if mpeg1 then 1 else 0) + 2 := by omega
    rw [ha]
    exact h8

/-- The scfsi fields of the channels `l`, one after the other (R120). -/
theorem readScfsi_at {l : List (Fin 2)} (hl : l.Nodup) (si : SideInfo) (h : r.At fb a)
    (hn : a + 4 * l.length ≤ 8 * fb.len) :
    (readScfsi l si r).2.At fb (a + 4 * l.length) ∧
    (readScfsi l si r).1 = { si with scfsi := (readScfsi l si r).1.scfsi } ∧
    ∀ ch, (readScfsi l si r).1.scfsi.get ch =
      if ch ∈ l then BitVec.ofNat 4 (fb.field (a + 4 * l.idxOf ch) 4) else si.scfsi.get ch := by
  induction l generalizing si a r with
  | nil => exact ⟨h, rfl, fun ch => by simp [readScfsi]⟩
  | cons c l ih =>
    obtain ⟨hc, hl⟩ := List.nodup_cons.1 hl
    rw [List.length_cons] at hn ⊢
    obtain ⟨hv, hr⟩ := h.rd (n := 4) (by omega)
    obtain ⟨hpos, hframe, hget⟩ :=
      ih hl { si with scfsi := si.scfsi.set c (BitVec.ofNat 4 (r.rd 4).1) } hr (by omega)
    rw [readScfsi]
    refine ⟨?_, hframe, fun ch => ?_⟩
    · rwa [show a + 4 * (l.length + 1) = a + 4 + 4 * l.length by omega]
    · rw [hget ch, Two.get_set, hv]
      rcases eq_or_ne ch c with rfl | hne
      · simp [hc]
      · simp only [List.mem_cons, hne, false_or, if_false, List.idxOf_cons_ne l hne.symm]
        rw [show a + 4 * (l.idxOf ch + 1) = a + 4 + 4 * l.idxOf ch by omega]

/-- The blocks of the granule-channels `l`, one after the other (R121, R231). -/
theorem readGranuleChannels_at (mpeg1 : Bool) {l : List (Fin 2 × Fin 2)} (hl : l.Nodup) (si : SideInfo)
    (h : r.At fb a) (hn : a + blockWidth mpeg1 * l.length ≤ 8 * fb.len) :
    (readGranuleChannels mpeg1 l si r).1 = { si with gc := (readGranuleChannels mpeg1 l si r).1.gc } ∧
    ∀ gr ch, ((readGranuleChannels mpeg1 l si r).1.gc.get gr).get ch =
      if (gr, ch) ∈ l then fb.block mpeg1 (a + blockWidth mpeg1 * l.idxOf (gr, ch)) else (si.gc.get gr).get ch := by
  induction l generalizing si a r with
  | nil => exact ⟨rfl, fun gr ch => by simp [readGranuleChannels]⟩
  | cons p l ih =>
    obtain ⟨g, c⟩ := p
    obtain ⟨hp, hl⟩ := List.nodup_cons.1 hl
    rw [List.length_cons, Nat.mul_succ] at hn
    obtain ⟨hv, hr⟩ := readGranuleChannel_at h mpeg1 (by omega)
    obtain ⟨hframe, hget⟩ := ih hl
      { si with gc := si.gc.set g ((si.gc.get g).set c (readGranuleChannel mpeg1 r).1) } hr (by omega)
    rw [readGranuleChannels]
    refine ⟨hframe, fun gr ch => ?_⟩
    rw [hget gr ch, hv]
    rcases eq_or_ne (gr, ch) (g, c) with heq | hne
    · obtain ⟨rfl, rfl⟩ := Prod.mk.inj heq
      simp [hp]
    · have hold : ((si.gc.set g ((si.gc.get g).set c (fb.block mpeg1 a))).get gr).get ch = (si.gc.get gr).get ch := by
        rw [Two.get_set]
        split
        · next hg =>
          subst hg
          exact Two.get_set_other _ (fun hch => hne (by rw [hch])) _
        · rfl
      simp only [List.mem_cons, hne, false_or, List.idxOf_cons_ne l hne.symm, hold, Nat.mul_succ]
      rw [show a + (blockWidth mpeg1 * l.idxOf (gr, ch) + blockWidth mpeg1) =
        a + blockWidth mpeg1 + blockWidth mpeg1 * l.idxOf (gr, ch) by omega]

end Reads

/-! ### The granule-channels of a frame -/

theorem channels_nodup (s : State) : s.channels.Nodup := by
  rcases nch_cases s with h | h <;> simp [State.channels, h]

theorem channels_length (s : State) : s.channels.length = s.nch := by
  rcases nch_cases s with h | h <;> simp [State.channels, h]

theorem channels_idxOf {s : State} {ch : Fin 2} (h : ch.val < s.nch) : s.channels.idxOf ch = ch.val := by
  rcases nch_cases s with hn | hn <;> simp only [State.channels, hn] at h ⊢ <;> revert ch <;> decide

/-- The granule-channels as they stand in the stream (R120, R122). -/
theorem granuleChannels_spec (s : State) :
    s.granuleChannels.Nodup ∧ s.granuleChannels.length = s.ngr * s.nch ∧
    ∀ gr ch : Fin 2, ((gr, ch) ∈ s.granuleChannels ↔ gr.val < s.ngr ∧ ch.val < s.nch) ∧
      ((gr, ch) ∈ s.granuleChannels → s.granuleChannels.idxOf (gr, ch) = s.nch * gr.val + ch.val) := by
  rcases nch_cases s with hc | hc <;> rcases ngr_cases s with hg | hg <;>
    simp only [State.granuleChannels, State.granules, State.channels, hc, hg] <;> decide

/-! ### All fields -/

/-- `si` holds the fields before the blocks from their places in the body, and scfsi of a channel that the frame does
not have as `s` holds it (R120, R122; log entry 20). -/
structure SideInfo.HeadFrom (s : State) (si : SideInfo) : Prop where
  mainDataBegin : si.mainDataBegin = BitVec.ofNat 9 (s.fb.field s.sideInfoStart s.sideInfoWidths.1)
  privateBits : si.privateBits =
    BitVec.ofNat 5 (s.fb.field (s.sideInfoStart + s.sideInfoWidths.1) s.sideInfoWidths.2.1)
  scfsi : ∀ ch : Fin 2, si.scfsi.get ch =
    if s.head.fields.version = .mpeg1 then
      (if ch.val < s.nch then
        BitVec.ofNat 4 (s.fb.field (s.sideInfoStart + s.sideInfoWidths.1 + s.sideInfoWidths.2.1 + 4 * ch.val) 4)
      else s.si.scfsi.get ch)
    else 0

/-- `si` holds every field that the frame has from its place in the body, and every other as `s` holds it
(R120-R122). -/
structure SideInfo.TakenFrom (s : State) (si : SideInfo) : Prop extends SideInfo.HeadFrom s si where
  blocks : ∀ gr ch : Fin 2, (si.gc.get gr).get ch =
    if gr.val < s.ngr ∧ ch.val < s.nch then s.sideInfoBlock gr ch else (s.si.gc.get gr).get ch

/-- The side info of R161 is as long as its fields. -/
theorem sideInfoWidths_sum (s : State) :
    s.sideInfoWidths.1 + s.sideInfoWidths.2.1 + s.sideInfoWidths.2.2.1 + s.sideInfoWidths.2.2.2 * (s.ngr * s.nch) =
      8 * sideinfoBytes s.head.fields := by
  have hh : s.head.fields.nch = s.nch := rfl
  by_cases hv : s.head.fields.version = .mpeg1 <;> rcases nch_cases s with hc | hc <;>
    simp [State.sideInfoWidths, sideinfoBytes, State.ngr, Header.ngr, hv, hc, hh]

theorem sideInfoWidths_blockWidth (s : State) :
    s.sideInfoWidths.2.2.2 = blockWidth (decide (s.head.fields.version = .mpeg1)) := by
  by_cases hv : s.head.fields.version = .mpeg1 <;> simp [State.sideInfoWidths, blockWidth, hv]

/-- The blocks, read from the bit after all other fields, complete side info that has these (R231). -/
theorem readGranuleChannels_takenFrom {s : State} {a : Nat} {r : SideRead} {mpeg1 : Bool} {si : SideInfo}
    (h : r.At s.fb a) (ha : a = s.sideInfoStart + s.sideInfoWidths.1 + s.sideInfoWidths.2.1 + s.sideInfoWidths.2.2.1)
    (hn : s.sideInfoStart + 8 * sideinfoBytes s.head.fields ≤ 8 * s.fb.len)
    (hm : mpeg1 = decide (s.head.fields.version = .mpeg1)) (hgc : si.gc = s.si.gc) (hsi : SideInfo.HeadFrom s si) :
    SideInfo.TakenFrom s (readGranuleChannels mpeg1 s.granuleChannels si r).1 := by
  obtain ⟨hnodup, hlen, hmem⟩ := granuleChannels_spec s
  have hsum := sideInfoWidths_sum s
  have hw := sideInfoWidths_blockWidth s
  rw [← hm] at hw
  obtain ⟨hframe, hget⟩ := readGranuleChannels_at mpeg1 hnodup si h (by rw [hlen, ← hw]; omega)
  refine ⟨?_, fun gr ch => ?_⟩
  · rw [hframe]
    exact ⟨hsi.mainDataBegin, hsi.privateBits, hsi.scfsi⟩
  · obtain ⟨hiff, hidx⟩ := hmem gr ch
    rw [hget gr ch, hgc]
    by_cases hin : (gr, ch) ∈ s.granuleChannels
    · rw [if_pos hin, if_pos (hiff.1 hin), hidx hin, State.sideInfoBlock, ← hm, ← hw, ha]
    · rw [if_neg hin, if_neg fun hc => hin (hiff.2 hc)]

/-- READ_SIDE_INFO's reads take every field from its place (R231). -/
theorem readFields_takenFrom {s : State} {r : SideRead} (h : r.At s.fb s.sideInfoStart)
    (hn : s.sideInfoStart + 8 * sideinfoBytes s.head.fields ≤ 8 * s.fb.len) :
    SideInfo.TakenFrom s (readFields s r).1 := by
  have hsum := sideInfoWidths_sum s
  unfold readFields
  dsimp only
  by_cases hv : s.head.fields.version = .mpeg1
  · have hwidths : s.sideInfoWidths = (9, if s.nch = 1 then 5 else 3, 4 * s.nch, 59) := by
      rw [State.sideInfoWidths, if_pos hv]
    have hlen := channels_length s
    simp only [hwidths] at hsum
    rw [if_pos hv]
    obtain ⟨v1, h1⟩ := h.rd (n := 9) (by omega)
    obtain ⟨v2, h2⟩ := h1.rd (n := if s.nch = 1 then 5 else 3) (by omega)
    rw [v1, v2]
    obtain ⟨h3, hframe, hscfsi⟩ := readScfsi_at (channels_nodup s)
      { s.si with
        mainDataBegin := BitVec.ofNat 9 (s.fb.field s.sideInfoStart 9)
        privateBits := BitVec.ofNat 5 (s.fb.field (s.sideInfoStart + 9) (if s.nch = 1 then 5 else 3)) }
      h2 (by omega)
    refine readGranuleChannels_takenFrom h3 (by rw [hwidths, hlen]) hn (by simp [hv])
      (by rw [hframe]) ⟨?_, ?_, fun ch => ?_⟩
    · rw [hframe, hwidths]
    · rw [hframe, hwidths]
    · rw [hscfsi, if_pos hv, hwidths]
      by_cases hch : ch.val < s.nch
      · rw [if_pos (mem_channels.2 hch), if_pos hch, channels_idxOf hch]
      · rw [if_neg (fun hc => hch (mem_channels.1 hc)), if_neg hch]
  · have hwidths : s.sideInfoWidths = (8, if s.nch = 1 then 1 else 2, 0, 63) := by
      rw [State.sideInfoWidths, if_neg hv]
    simp only [hwidths] at hsum
    rw [if_neg hv]
    obtain ⟨v1, h1⟩ := h.rd (n := 8) (by omega)
    obtain ⟨v2, h2⟩ := h1.rd (n := if s.nch = 1 then 1 else 2) (by omega)
    rw [v1, v2]
    refine readGranuleChannels_takenFrom h2 (by rw [hwidths]; rfl) hn (by simp [hv]) rfl
      ⟨?_, ?_, fun ch => ?_⟩
    · rw [hwidths]
    · rw [hwidths]
    · rw [if_neg hv]
      fin_cases ch <;> rfl

/-! ### The command -/

/-- The checks of READ_SIDE_INFO pass (R231). -/
theorem guardSideInfo_none {s : State} :
    guardSideInfo s = none ↔ s.layer3Frame ∧ s.chan.c0.stage = .idle ∧ s.fb.bitpos = s.sideInfoStart := by
  simp [guardSideInfo, guardLayer3_none, State.layer3Frame, State.sideInfoStart]

/-- Whether it accepts the frame or rejects it, READ_SIDE_INFO leaves the side info it has read. -/
theorem readSideInfo_si (s : State) : (readSideInfo s).1.si = (takeSideInfo s).si := by
  rcases readSideInfo_cases s with ⟨e, -, h⟩ | ⟨-, h⟩ <;> rw [h]
  · rw [rejectFrame_frame]
  · rw [setStages_frame]

/-- Settles O28: no read before the end of the side info can fault, so that each field is the bits at the sum of the
widths before it; what follows the reads leaves the side info alone. -/
theorem sideInfoFields : Obligations.SideInfoFields := by
  intro s hs hclean hl hst hpos hn
  have hrun : exec .readSideInfo s = .next (complete (.ended (readSideInfo s.start).1 (readSideInfo s.start).2)) :=
    command_runs (fun s => .ended (readSideInfo s).1 (readSideInfo s).2) hs (guardSideInfo_none.2 ⟨hl, hst, hpos⟩)
  refine ⟨_, hrun, fun ht => ?_⟩
  have hcursor : s.start.sideInfoStart = s.start.fb.bitpos := hpos.symm
  have hat : SideRead.At s.start.fb s.start.sideInfoStart
      { fb := s.start.fb, log := s.start.rs.log, crc := s.start.crc.engine } := ⟨by rw [hcursor], hclean⟩
  have hinside : s.sideInfoStart + 8 * sideinfoBytes s.head.fields ≤ 8 * s.fb.len := hpos ▸ hn
  have htaken : SideInfo.TakenFrom s.start (takeSideInfo s.start).si := readFields_takenFrom hat hinside
  have hbody : (readSideInfo s.start).1.clean := (complete_agrees _ _).clean_iff.1 ht
  rw [complete_clean hbody, State.finish_si, readSideInfo_si]
  exact ⟨htaken.mainDataBegin, htaken.privateBits, htaken.scfsi, htaken.blocks⟩

end Sys2Proof.Machine
end

section
/-! PROOF. What an invariant needs to be kept by every step, said once: most parts of a step are `Mild`, and an
invariant is given by what it says of them, of the scan, and of the few parts that are not (`Invariant.keeps`). -/

namespace Sys2Proof.Machine

/-! ### Mild changes of the state -/

/-- `d` is the channel `c`, but that it may have left SF, and that NONZERO and IS may be free ones. -/
structure Chan.Mild (c d : Chan) : Prop where
  stage : d.stage = .sf → c.stage = .sf
  grp : d.grp = c.grp
  quant : (d.nonzero = c.nonzero ∧ d.is = c.is) ∨
    ∃ k, d.nonzero = (freeQuantised k).nonzero ∧ d.is = (freeQuantised k).is

/-- From `s` to `t` the frame buffer is only read, the fault log only added to, the reservoir keeps its relations, and
PB, the sync reference and the header state stay; of the header state only what R438 leaves specified. -/
structure State.Calm (s t : State) : Prop where
  pb : t.pb = s.pb
  ref : t.ref = s.ref
  fb : s.fb.Later t.fb
  log : s.rs.log.Later t.rs.log
  resv : s.rs.Ok → t.rs.Ok
  head : t.clean → t.head = s.head
  version : t.head.fields.version = s.head.fields.version
  layer : t.head.fields.layer = s.head.fields.layer
  mode : t.head.fields.mode = s.head.fields.mode
  hdrValid : t.status.hdrValid = s.status.hdrValid
  layer3 : t.status.layer3 = s.status.layer3
  lsf : t.status.lsf = s.status.lsf
  nch2 : t.status.nch2 = s.status.nch2

/-- A calm change that opens no granule-channel and computes no quantised lines. -/
structure State.Mild (s t : State) : Prop extends State.Calm s t where
  order : t.order = s.order
  chan : ∀ c, (s.chan.get c).Mild (t.chan.get c)

theorem Chan.mild_refl (c : Chan) : c.Mild c := ⟨id, rfl, .inl ⟨rfl, rfl⟩⟩

/-- A channel whose stage is not SF. -/
theorem Chan.mild_of_stage {c d : Chan} (hs : d.stage ≠ .sf) (hg : d.grp = c.grp) (hn : d.nonzero = c.nonzero)
    (hi : d.is = c.is) : c.Mild d :=
  ⟨fun h => absurd h hs, hg, .inl ⟨hn, hi⟩⟩

/-- Where channel `ch` alone changes, and mildly, every channel changes mildly. -/
theorem Chan.mild_of_eq_ite {ch c : Fin 2} {t : Two Chan} {d e : Chan} (he : e = if c = ch then d else t.get c)
    (h : (t.get ch).Mild d) : (t.get c).Mild e := by
  rw [he]
  split
  · next hc => rw [hc]; exact h
  · exact Chan.mild_refl _

/-- A change of the stage to one that is not SF. -/
theorem setStage_mild (ch c : Fin 2) {x : Stage} (hx : x ≠ .sf) (s : State) :
    (s.chan.get c).Mild ((s.setStage ch x).chan.get c) :=
  Chan.mild_of_eq_ite (setStage_chan ch c x s) (Chan.mild_of_stage hx rfl rfl rfl)

theorem setStages_mild (c : Fin 2) {x : Stage} (hx : x ≠ .sf) (s : State) :
    (s.chan.get c).Mild ((s.setStages x).chan.get c) := by
  rw [setStages_chan]
  exact Chan.mild_of_stage hx rfl rfl rfl

/-- The items that `State.Mild` speaks of. -/
def State.core (s : State) :=
  (s.pb, s.ref, s.fb, s.rs.resv, s.rs.log.tainted, s.rs.log.sticky, s.head,
    (s.status.hdrValid, s.status.layer3, s.status.lsf, s.status.nch2), s.order, s.chan)

/-- The same reservoir and taint. -/
theorem RS.Ok.congr {r q : RS} (h : r.Ok) (hr : q.resv = r.resv) (ht : q.log.tainted = r.log.tainted) : q.Ok := by
  unfold RS.Ok
  rw [hr, ht]
  exact h

/-- The same bits of the fault log. -/
theorem FaultLog.later_of_eq {a b : FaultLog} (ht : b.tainted = a.tainted) (hs : b.sticky = a.sticky) : a.Later b := by
  rw [FaultLog.Later, ht, hs]
  exact ⟨id, id, id⟩

theorem State.mild_of_core_eq {s t : State} (h : t.core = s.core) : s.Mild t := by
  simp only [State.core, Prod.mk.injEq] at h
  obtain ⟨hpb, href, hfb, hresv, htaint, hsticky, hhead, ⟨hv, h3, hl, h2⟩, horder, hchan⟩ := h
  exact {
    pb := hpb, ref := href, fb := hfb ▸ s.fb.later_refl, log := FaultLog.later_of_eq htaint hsticky
    resv := fun hok => hok.congr hresv htaint, head := fun _ => hhead, version := by rw [hhead]
    layer := by rw [hhead], mode := by rw [hhead], hdrValid := hv, layer3 := h3, lsf := hl, nch2 := h2
    order := horder, chan := fun c => by rw [hchan]; exact Chan.mild_refl _ }

/-- A granule command past Huffman decoding is mild where it is so for the channels. -/
theorem State.mild_of_chanFrame {s t : State} (h : t = s.chanFrame t)
    (hc : ∀ c, (s.chan.get c).Mild (t.chan.get c)) : s.Mild t := by
  refine { State.mild_of_core_eq (s := s) (t := { t with chan := s.chan }) ?_ with order := ?_, chan := hc }
  · rw [h]; rfl
  · rw [h]; rfl

/-! ### The mild parts of a step -/

theorem answer_mild (w : Word) (s : State) : s.Mild (s.answer w) :=
  State.mild_of_core_eq (by simp [State.core])

theorem settle_mild (s : State) : s.Mild s.settle where
  pb := by simp
  ref := by simp
  fb := by simpa using s.fb.later_refl
  log := FaultLog.later_of_eq (by simp) (by simp)
  resv h := h.congr (by simp) (by simp)
  head h := by rw [State.settle_clean ((State.settle_agrees s).clean_iff.1 h)]
  version := by simp
  layer := by simp
  mode := by simp
  hdrValid := by simp
  layer3 := by simp
  lsf := by simp
  nch2 := by simp
  order := by simp
  chan c := by
    refine ⟨fun h => by simpa using h, by simp, ?_⟩
    rcases State.settle_quantised c s with h | h
    · exact .inl ⟨congrArg Chan.nonzero h, congrArg Chan.is h⟩
    · exact .inr h

/-! ### The commands -/

theorem dequantize_mild (gr ch : Fin 2) (s : State) : s.Mild (dequantize gr ch s) :=
  State.mild_of_chanFrame (dequantize_frame gr ch s) fun c => by
    obtain ⟨x, hx⟩ := dequantize_chan gr ch c s
    exact Chan.mild_of_eq_ite hx (Chan.mild_of_stage nofun rfl rfl rfl)

theorem reorder_mild (gr ch : Fin 2) (s : State) : s.Mild (reorder gr ch s) :=
  State.mild_of_chanFrame (reorder_frame gr ch s) fun c => by
    obtain ⟨x, hx⟩ := reorder_chan gr ch c s
    exact Chan.mild_of_eq_ite hx (Chan.mild_of_stage nofun rfl rfl rfl)

theorem antialias_mild (gr ch : Fin 2) (s : State) : s.Mild (antialias gr ch s) :=
  State.mild_of_chanFrame (antialias_frame gr ch s) fun c => by
    obtain ⟨x, hx⟩ := antialias_chan gr ch c s
    exact Chan.mild_of_eq_ite hx (Chan.mild_of_stage nofun rfl rfl rfl)

theorem hybrid_mild (gr ch : Fin 2) (s : State) : s.Mild (hybrid gr ch s) :=
  State.mild_of_chanFrame (hybrid_frame gr ch s) fun c => by
    obtain ⟨x, y, hx⟩ := hybrid_chan gr ch c s
    exact Chan.mild_of_eq_ite hx (Chan.mild_of_stage nofun rfl rfl rfl)

theorem freqInvert_mild (ch : Fin 2) (s : State) : s.Mild (freqInvert ch s) :=
  State.mild_of_chanFrame (freqInvert_frame ch s) fun c => by
    obtain ⟨x, hx⟩ := freqInvert_chan ch c s
    exact Chan.mild_of_eq_ite hx (Chan.mild_of_stage nofun rfl rfl rfl)

theorem stereo_mild (gr : Fin 2) (s : State) : s.Mild (stereo gr s) :=
  State.mild_of_chanFrame (stereo_frame gr s) fun c => by
    have hstage := stereo_stage gr c s
    rw [stereo_chan gr c s]
    refine ⟨fun hsf => ?_, rfl, .inl ⟨rfl, rfl⟩⟩
    have hsf : ((stereo gr s).chan.get c).stage = .sf := hsf
    rw [hstage] at hsf
    split at hsf
    · split at hsf <;> cases hsf
    · exact hsf

/-- A change of the reservoir and the fault log alone. -/
theorem withRs_mild {r : RS} {s : State} (hlog : s.rs.log.Later r.log) (hok : s.rs.Ok → r.Ok) : s.Mild (s.withRs r) :=
  { State.mild_of_core_eq (s := s) (t := s) rfl with
    log := hlog, resv := hok, head := fun _ => rfl }

theorem put_mild (b : Byte) (s : State) : s.Mild (s.withRs (s.rs.put b)) :=
  withRs_mild (RS.putMany_later [b] s.rs) fun h => h.put b

theorem read_mild (n : Nat) (s : State) : s.Mild (s.withRs (s.rs.read n).2) :=
  withRs_mild (FaultLog.later_rsRead n s.rs) fun h => h.read n

theorem rewind_mild (n : Nat) (s : State) : s.Mild (s.withRs (s.rs.rewind n)) :=
  withRs_mild (FaultLog.later_recordIf _ _ _) fun h => h.rewind n

/-- READ_SIDE_INFO, with either outcome. -/
theorem readSideInfo_mild (s : State) : s.Mild (readSideInfo s).1 := by
  obtain ⟨hfb, hlog⟩ := takeSideInfo_later s
  have hok : s.rs.Ok → (takeSideInfo s).rs.Ok := fun h => h.mono hlog
  have htake : s.Mild (takeSideInfo s) :=
    { State.mild_of_core_eq (s := s) (t := s) rfl with
      fb := hfb, log := hlog, resv := hok, head := fun _ => rfl }
  rcases readSideInfo_cases s with ⟨e, -, h⟩ | ⟨-, h⟩ <;> rw [h]
  · exact { htake with
      fb := FrameBuf.later_trans hfb ⟨rfl, rfl, fun _ => le_rfl⟩
      log := FaultLog.later_trans hlog (RS.putMany_later _ _)
      resv := fun h => (hok h).putMany _
      head := fun _ => rfl
      chan := fun c => setStages_mild c (by decide) s }
  · exact { htake with chan := fun c => setStages_mild c (by decide) s }

/-- The skip of LOAD_MAIN_DATA (R210) and all of its load (R211, R212) but the channels and the part order. -/
theorem loadMainData_calm (s : State) : s.Calm (loadMainData s).1 := by
  obtain ⟨hfb, hlog⟩ := copied_later s
  have hcalm : s.Calm s := (State.mild_of_core_eq rfl).toCalm
  by_cases h : s.newDiscard.toInt < 0
  · rw [loadMainData_skip h]
    exact { hcalm with
      fb := hfb
      log := FaultLog.later_trans hlog (flush_later _)
      resv := fun h => flush_closed RS.closed_ok (copied_ok h)
      head := fun _ => rfl }
  · rw [loadMainData_load h]
    exact { hcalm with fb := hfb, log := loadedRs_later s, resv := loadedRs_ok, head := fun _ => rfl }

theorem readScalefactors_calm (gr ch : Fin 2) (s : State) : s.Calm (readScalefactors gr ch s) := by
  have hcalm : s.Calm s := (State.mild_of_core_eq rfl).toCalm
  have hlog : s.rs.log.Later (readScalefactors gr ch s).rs.log :=
    (RS.closed_later s.rs.log).readScalefactors (fun _ _ h => h) gr ch s.rs.log.later_refl
  have hok : s.rs.Ok → (readScalefactors gr ch s).rs.Ok := RS.closed_ok.readScalefactors (fun _ _ h => h) gr ch
  rw [readScalefactors_frame]
  exact { hcalm with log := hlog, resv := hok, head := fun _ => rfl }

theorem huffmanDecode_calm (gr ch : Fin 2) (s : State) : s.Calm (huffmanDecode gr ch s) := by
  have hcalm : s.Calm s := (State.mild_of_core_eq rfl).toCalm
  have hlog : s.rs.log.Later (huffmanDecode gr ch s).rs.log :=
    (RS.closed_later s.rs.log).huffmanDecode (fun _ _ h => h) gr ch s.rs.log.later_refl
  have hok : s.rs.Ok → (huffmanDecode gr ch s).rs.Ok := RS.closed_ok.huffmanDecode (fun _ _ h => h) gr ch
  rw [huffmanDecode_frame]
  exact { hcalm with log := hlog, resv := hok, head := fun _ => rfl }

theorem emitEnd_mild (ch : Fin 2) (s : State) : s.Mild (emitEnd ch s) :=
  { answer_mild 576 (s.setStage ch .em) with
    chan := fun c => by
      rw [emitEnd, State.answer_chan]
      exact setStage_mild ch c (by decide) s }

/-! ### Invariants -/

/-- `R` holds, and `S` of the scan that the command in progress waits in. -/
def Holds (R : State → Prop) (S : SyncPhase → State → Prop) (s : State) : Prop :=
  R s ∧ ∀ p f, s.held = some (.sync p f) → S p s

/-- What is to be shown of `R`, and of `S` for the scan in progress, that every step keeps them. -/
structure Invariant (R : State → Prop) (S : SyncPhase → State → Prop) : Prop where
  mild : ∀ {s t}, s.Mild t → R s → R t
  still : ∀ {p s t}, t.pb = s.pb → t.chan = s.chan → S p s → S p t
  begins : ∀ s, R s → R (syncStart s) ∧ S .begin (syncStart s)
  goes : ∀ p s sc, R s → S p s → (s.scan p).next s.ref = .go sc → R (s.withScan sc) ∧ S sc.phase (s.withScan sc)
  accepts : ∀ p s h body sc, R s → S p s → (s.scan p).next s.ref = .accept h body sc →
    R (accept h body (s.withScan sc))
  stops : ∀ p s sc, R s → S p s → (s.scan p).next s.ref = .ended sc ∨ (s.scan p).next s.ref = .failed sc →
    R (s.withScan sc)
  reset : ∀ s, R s → R (resetStream s)
  load : ∀ s, R s → guardMainData s = none → R (loadMainData s).1
  scalefactors : ∀ s gr ch, R s → guardScalefactors gr ch s = none → R (readScalefactors gr ch s)
  huffman : ∀ s gr ch, R s → guardStage .sf gr ch s = none → R (huffmanDecode gr ch s)

section
variable {R : State → Prop} {S : SyncPhase → State → Prop}

/-- A command that ends leaves no scan. -/
theorem Holds.of_not_scanning {s : State} (h : R s) (hs : ∀ p f, s.held ≠ some (.sync p f)) : Holds R S s :=
  ⟨h, fun p f hp => absurd hp (hs p f)⟩

/-- Where nothing changes that an invariant can see, it stays. -/
theorem Invariant.same (k : Invariant R S) {s t : State} (h : R s) (hc : t.core = s.core) : R t :=
  k.mild (State.mild_of_core_eq hc) h

theorem Invariant.same_holds (k : Invariant R S) {s t : State} (h : Holds R S s) (hc : t.core = s.core)
    (hh : t.held = s.held) : Holds R S t := by
  refine ⟨k.same h.1 hc, fun p f hp => ?_⟩
  simp only [State.core, Prod.mk.injEq] at hc
  obtain ⟨hpb, -, -, -, -, -, -, -, -, hchan⟩ := hc
  exact k.still hpb hchan (h.2 p f (hh ▸ hp))

/-- The end of a command keeps `R`. -/
theorem Invariant.finish (k : Invariant R S) {s t : State} (e : Err) (h : R s) (hc : t.core = s.core) :
    Holds R S (t.settle.finish e) := by
  have hr : R t.settle := k.mild (settle_mild t) (k.same h hc)
  exact Holds.of_not_scanning (k.same hr rfl) nofun

/-- An invariant that meets its conditions is kept by every part of a step. -/
theorem Invariant.keeps (k : Invariant R S) :
    Keeps (Holds R S) R (fun p s => R s ∧ S p s) (fun _ => True) where
  stop _ _ h := Holds.of_not_scanning (k.same h.1 rfl) nofun
  start _ h _ := k.same h.1 rfl
  finish _ _ h := Holds.of_not_scanning (k.same h rfl) nofun
  world _ _ h := k.same_holds h rfl rfl
  port _ _ h := k.same h rfl
  result _ _ h := k.same h rfl
  answer s w h := k.mild (answer_mild w s) h
  settle s h := k.mild (settle_mild s) h
  skipped _ h := k.same h rfl
  ctrl _ _ h := k.same_holds h rfl rfl
  drawn _ h := k.same_holds h rfl rfl
  overrun _ h _ := k.same_holds h rfl rfl
  scanStart := k.begins
  scanGo p s sc h := k.goes p s sc h.1 h.2
  scanAccept p s hd body sc h := k.accepts p s hd body sc h.1 h.2
  scanEnd p s sc h hn := k.finish .endOfStream (k.stops p s sc h.1 h.2 (.inl hn)) rfl
  scanFail p s sc h hn := k.finish .fatalIo (k.stops p s sc h.1 h.2 (.inr hn)) rfl
  scanWait _ s _ h := ⟨k.same h.1 rfl, fun _ _ hp => by
    cases hp
    exact k.still (s := s) rfl rfl h.2⟩
  scanResume p _ f h hp := ⟨h.1, h.2 p f hp⟩
  emitWait _ _ _ _ h _ _ := Holds.of_not_scanning (k.same h rfl) nofun
  emitResume _ _ _ _ h _ := ⟨h.1, trivial⟩
  emitWords _ _ := trivial
  emitDrop _ _ _ := trivial
  emitEnd s ch h := k.mild (emitEnd_mild ch s) h
  reset := k.reset
  put s b h := k.mild (put_mild b s) h
  read s n h := k.mild (read_mild n s) h
  rewind s n h := k.mild (rewind_mild n s) h
  sideInfo s h _ := k.mild (readSideInfo_mild s) h
  mainData := k.load
  scalefactors := k.scalefactors
  huffman := k.huffman
  dequantize s gr ch h _ := k.mild (dequantize_mild gr ch s) h
  reorder s gr ch h _ := k.mild (reorder_mild gr ch s) h
  stereo s gr h _ := k.mild (stereo_mild gr s) h
  antialias s gr ch h _ := k.mild (antialias_mild gr ch s) h
  hybrid s gr ch h _ := k.mild (hybrid_mild gr ch s) h
  freqInvert s _ ch h _ := k.mild (freqInvert_mild ch s) h

/-- A step keeps an invariant that power-on reset establishes. -/
theorem Invariant.step (k : Invariant R S) (hp : ∀ s, R (powerOn s)) {s t : State} (h : Holds R S s)
    (ht : Machine.step s = .next t) : Holds R S t :=
  k.keeps.step (fun s => Holds.of_not_scanning (hp s) nofun) h ht

end

end Sys2Proof.Machine
end

section
/-! PROOF. Where one InByte takes a scan that goes on (R151-R158), and what each place keeps. -/

namespace Sys2Proof.Machine

/-- The scan has no candidate: it is in a window or in an ID3 tag. -/
def SyncPhase.Searching : SyncPhase → Prop
  | .fill _ _ => True
  | .shift _ => True
  | .tag _ => True
  | .skip _ => True
  | .body _ _ _ => False
  | .probe _ _ _ => False

/-- The scan has just found the candidate `h`. -/
def SyncPhase.Found (h : Word) (p : SyncPhase) : Prop :=
  LegalHeader h ∧ ((frameSize (parseHeader h) = 0 ∧ p = .probe h [] []) ∨
    ∃ n, frameSize (parseHeader h) = n + 1 ∧ p = .body h n [])

theorem Scan.window_goes (h : Word) (ref : SyncRef) (sc : Scan) :
    (sc.window h ref).stream = sc.stream ∧
      ((sc.window h ref).phase.Searching ∨ ∃ h', (sc.window h ref).phase.Found h') := by
  rcases sc.window_cases h ref with e | e | ⟨-, hl, hz, e⟩ | ⟨n, -, hl, hz, e⟩ | e <;> rw [e]
  · exact ⟨rfl, .inl trivial⟩
  · exact ⟨rfl, .inl trivial⟩
  · exact ⟨rfl, .inr ⟨h, hl, .inl ⟨hz, rfl⟩⟩⟩
  · exact ⟨rfl, .inr ⟨h, hl, .inr ⟨n, hz, rfl⟩⟩⟩
  · exact ⟨rfl, .inl trivial⟩

/-- Where the byte `b` takes the phase `p` of a scan: to a search, to a candidate found, further in a body or a probe,
or from a rejected candidate back to its first byte, `pushed` being unread. -/
inductive SyncPhase.Goes (b : Byte) (p q : SyncPhase) (pushed : List Byte) : Prop where
  | search (hq : q.Searching) (hu : pushed = [])
  | found (h : Word) (hq : q.Found h) (hu : pushed = [])
  | body (h : Word) (n : Nat) (rev : List Byte) (hp : p = .body h (n + 1) rev) (hq : q = .body h n (b :: rev))
      (hu : pushed = [])
  | last (h : Word) (rev : List Byte) (hp : p = .body h 0 rev) (hq : q = .probe h (b :: rev).reverse [])
      (hu : pushed = [])
  | probe (h : Word) (body rev : List Byte) (hp : p = .probe h body rev) (hl : rev.length < 3)
      (hq : q = .probe h body (b :: rev)) (hu : pushed = [])
  | reject (h : Word) (body rev : List Byte) (hp : p = .probe h body rev) (hq : q = .begin)
      (hu : pushed = body ++ (b :: rev).reverse)

theorem Scan.byte_goes {b : Byte} {ref : SyncRef} {sc sc' : Scan} (hg : sc.byte b ref = .go sc') :
    ∃ pushed, sc.phase.Goes b sc'.phase pushed ∧ sc'.stream = sc.stream.unread pushed := by
  have hwindow : ∀ h, ∃ pushed, sc.phase.Goes b (sc.window h ref).phase pushed ∧
      (sc.window h ref).stream = sc.stream.unread pushed := fun h => by
    obtain ⟨hs, hw | ⟨h', hw⟩⟩ := sc.window_goes h ref
    · exact ⟨[], .search hw rfl, hs⟩
    · exact ⟨[], .found h' hw rfl, hs⟩
  unfold Scan.byte at hg
  split at hg
  · cases hg; exact hwindow _
  · cases hg; exact ⟨[], .search trivial rfl, rfl⟩
  · cases hg; exact hwindow _
  · split at hg
    · cases hg; exact ⟨[], .search trivial rfl, rfl⟩
    · split at hg <;> cases hg
      · exact ⟨[], .search trivial rfl, rfl⟩
      · exact ⟨[], .search trivial rfl, rfl⟩
  · cases hg; exact ⟨[], .search trivial rfl, rfl⟩
  · cases hg; exact ⟨[], .search trivial rfl, rfl⟩
  · next hp => cases hg; exact ⟨[], .last _ _ hp rfl rfl, rfl⟩
  · next hp => cases hg; exact ⟨[], .body _ _ _ hp rfl rfl, rfl⟩
  · next hp =>
    split at hg
    · next hl => cases hg; exact ⟨[], .probe _ _ _ hp hl rfl rfl, rfl⟩
    · dsimp only at hg
      split at hg <;> cases hg
      exact ⟨_, .reject _ _ _ hp rfl rfl, rfl⟩

/-- A byte keeps the phase about a legal header. -/
theorem SyncPhase.Goes.legal {b : Byte} {p q : SyncPhase} {pushed : List Byte} (hg : p.Goes b q pushed)
    (h : p.Legal) : q.Legal := by
  cases hg with
  | search hq =>
    cases q <;> trivial
  | found hd hq =>
    obtain ⟨hl, ⟨hz, rfl⟩ | ⟨n, hz, rfl⟩⟩ := hq
    · exact ⟨hl, hz.symm⟩
    · exact ⟨hl, by rw [hz]; simp⟩
  | body hd n rev hp hq =>
    subst hp hq
    obtain ⟨hl, hsize⟩ := h
    exact ⟨hl, by rw [← hsize, List.length_cons]; omega⟩
  | last hd rev hp hq =>
    subst hp hq
    obtain ⟨hl, hsize⟩ := h
    exact ⟨hl, by rw [← hsize, List.length_reverse, List.length_cons]⟩
  | probe hd body rev hp hlen hq => subst hp hq; exact h
  | reject hd body rev hp hq => subst hq; trivial

/-- InByte goes on with a legal header where the scan was about one. -/
theorem Scan.next_legal {ref : SyncRef} {sc sc' : Scan} (h : sc.phase.Legal) (hn : sc.next ref = .go sc') :
    sc'.phase.Legal := by
  rcases Scan.next_go hn with ⟨b, -, hb⟩ | ⟨hd, body, b, rev, -, -, rfl⟩
  · obtain ⟨pushed, hg, -⟩ := Scan.byte_goes hb
    exact hg.legal h
  · trivial

/-- PB with what the scan may still unread fits PB_BYTES, and so does the candidate at hand. -/
structure Scan.Fits (sc : Scan) : Prop where
  bound : sc.stream.pb.length + sc.phase.retained ≤ Config.pbBytes
  body : sc.phase.bodySize ≤ Config.frameBufBytes
  probe : sc.phase.probeSize ≤ 3

theorem SyncPhase.Searching.sizes {p : SyncPhase} (h : p.Searching) :
    p.retained = 0 ∧ p.bodySize = 0 ∧ p.probeSize = 0 := by
  cases p with
  | fill k h | shift h | tag rev | skip n => exact ⟨rfl, rfl, rfl⟩
  | body | probe => exact absurd h id

theorem SyncPhase.Found.sizes {h : Word} {p : SyncPhase} (hf : p.Found h) :
    p.retained = 0 ∧ p.bodySize ≤ Config.frameBufBytes ∧ p.probeSize = 0 := by
  obtain ⟨hl, hs⟩ := hf
  obtain ⟨-, -, -, -, -, hsize⟩ := hl
  obtain ⟨-, rfl⟩ | ⟨n, hn, rfl⟩ := hs
  · exact ⟨rfl, Nat.zero_le _, rfl⟩
  · refine ⟨rfl, ?_, rfl⟩
    simp only [SyncPhase.bodySize, List.length_nil]
    omega

theorem SyncPhase.retained_le (p : SyncPhase) : p.retained ≤ p.bodySize + p.probeSize := by
  cases p <;> simp only [SyncPhase.retained, SyncPhase.bodySize, SyncPhase.probeSize] <;> omega

/-- A byte keeps the body and the probe within their sizes, and is itself all that is retained or unread anew. -/
theorem SyncPhase.Goes.sizes {b : Byte} {p q : SyncPhase} {pushed : List Byte} (hg : p.Goes b q pushed)
    (hbody : p.bodySize ≤ Config.frameBufBytes) (hprobe : p.probeSize ≤ 3) :
    pushed.length + q.retained ≤ p.retained + 1 ∧ q.bodySize ≤ Config.frameBufBytes ∧ q.probeSize ≤ 3 := by
  cases hg with
  | search hq hu =>
    obtain ⟨h1, h2, h3⟩ := hq.sizes
    subst hu
    exact ⟨by simp [h1], by omega, by omega⟩
  | found h hq hu =>
    obtain ⟨h1, h2, h3⟩ := hq.sizes
    subst hu
    exact ⟨by simp [h1], h2, by omega⟩
  | body h n rev hp hq hu =>
    subst hp hq hu
    refine ⟨by simp [SyncPhase.retained], ?_, hprobe⟩
    simp only [SyncPhase.bodySize, List.length_cons] at hbody ⊢
    omega
  | last h rev hp hq hu =>
    subst hp hq hu
    refine ⟨by simp [SyncPhase.retained], ?_, by simp [SyncPhase.probeSize]⟩
    simp only [SyncPhase.bodySize, List.length_reverse, List.length_cons] at hbody ⊢
    omega
  | probe h body rev hp hl hq hu =>
    subst hp hq hu
    exact ⟨by simp [SyncPhase.retained]; omega, hbody, by simp only [SyncPhase.probeSize, List.length_cons]; omega⟩
  | reject h body rev hp hq hu =>
    subst hp hq hu
    exact ⟨by simp [SyncPhase.retained, SyncPhase.begin]; omega, Nat.zero_le _, Nat.zero_le _⟩

/-- After InByte took a byte, PB has room for all that the scan retained and for that byte. -/
theorem Scan.Fits.take {sc : Scan} (h : sc.Fits) :
    sc.stream.take.2.pb.length + (sc.phase.retained + 1) ≤ Config.pbBytes := by
  obtain ⟨hbound, hbody, hprobe⟩ := h
  have hret := sc.phase.retained_le
  have hpb : Config.pbBytes = Config.frameBufBytes + 4 := rfl
  rcases sc.stream.take_pb with ht | ⟨-, ht⟩
  · omega
  · rw [ht, List.length_nil]
    omega

theorem Scan.Fits.next {ref : SyncRef} {sc sc' : Scan} (h : sc.Fits) (hn : sc.next ref = .go sc') : sc'.Fits := by
  have hroom := h.take
  rcases Scan.next_go hn with ⟨b, -, hb⟩ | ⟨hd, body, b, rev, -, hp, rfl⟩
  · obtain ⟨pushed, hg, hs⟩ := Scan.byte_goes hb
    obtain ⟨hret, hbody, hprobe⟩ := SyncPhase.Goes.sizes (p := sc.phase) hg h.body h.probe
    refine ⟨?_, hbody, hprobe⟩
    simp only [hs, InStream.unread, List.length_append]
    omega
  · refine ⟨?_, Nat.zero_le _, Nat.zero_le _⟩
    simp only [hp, SyncPhase.retained, Scan.reject, SyncPhase.begin, InStream.unread, List.length_append,
      List.length_reverse, List.length_cons] at hroom ⊢
    omega

/-- Where the scan stops, PB fits. -/
theorem Scan.Fits.accept {ref : SyncRef} {sc sc' : Scan} {hd : Word} {body : List Byte} (h : sc.Fits)
    (hn : sc.next ref = .accept hd body sc') : sc'.stream.pb.length ≤ Config.pbBytes := by
  have hroom := h.take
  rcases Scan.next_accept hn with ⟨b, rev, -, hp, -, -, rfl⟩ | ⟨-, -, rfl⟩
  · simp only [hp, SyncPhase.retained, InStream.unread, List.length_append, List.length_reverse,
      List.length_cons] at hroom ⊢
    omega
  · exact (Nat.le_add_right _ _).trans hroom

/-- A frame is accepted with the body of the candidate at hand. -/
theorem Scan.next_accept_phase {ref : SyncRef} {sc sc' : Scan} {hd : Word} {body : List Byte}
    (hn : sc.next ref = .accept hd body sc') : ∃ rev, sc.phase = .probe hd body rev := by
  rcases Scan.next_accept hn with ⟨b, rev, -, hp, -, -, -⟩ | ⟨-, hp, -⟩
  · exact ⟨rev, hp⟩
  · exact ⟨[], hp⟩

/-- The end of the stream or an I/O error leaves the stream as InByte does. -/
theorem Scan.next_stops {ref : SyncRef} {sc sc' : Scan} (hn : sc.next ref = .ended sc' ∨ sc.next ref = .failed sc') :
    sc'.stream = sc.stream.take.2 := by
  rcases hn with hn | hn
  · obtain ⟨-, rfl⟩ := Scan.next_ended hn; rfl
  · obtain ⟨-, rfl⟩ := Scan.next_failed hn; rfl

end Sys2Proof.Machine
end

section
/-! PROOF. FB, RESV and their cursors (R40-R43, R201): O54. -/

namespace Sys2Proof.Machine

/-- The frame buffer in canonical form, inside its array, its cursor inside the body (R40). -/
structure FrameBuf.Ok (fb : FrameBuf) : Prop where
  cells : fb.cells.Within Config.frameBufBytes
  len : fb.len ≤ Config.frameBufBytes
  cursor : fb.bitpos ≤ 8 * fb.len

theorem FrameBuf.Ok.later {a b : FrameBuf} (h : a.Ok) (hl : a.Later b) : b.Ok := by
  obtain ⟨hcells, hlen, hcursor⟩ := hl
  exact ⟨hcells ▸ h.cells, hlen ▸ h.len, hcursor h.cursor⟩

/-- The body of an accepted frame (R157). -/
theorem FrameBuf.Ok.load {fb : FrameBuf} (h : fb.Ok) {body : List Byte} (hb : body.length ≤ Config.frameBufBytes) :
    (fb.load body).Ok :=
  ⟨h.cells.fill (by omega), hb, Nat.zero_le _⟩

/-- The stores of the block are sound. -/
def State.StorageOk (s : State) : Prop := s.rs.Ok ∧ s.fb.Ok

theorem State.StorageOk.calm {s t : State} (hc : s.Calm t) (h : s.StorageOk) : t.StorageOk :=
  ⟨hc.resv h.1, h.2.later hc.fb⟩

/-- RESET_STREAM keeps the cells of RESV and of FB and empties both (R411). -/
theorem resetStream_storageOk {s : State} (h : s.StorageOk) : (resetStream s).StorageOk :=
  ⟨⟨h.1.cells, Nat.zero_le _, rfl, fun _ => rfl⟩, ⟨h.2.cells, Nat.zero_le _, Nat.zero_le _⟩⟩

theorem accept_storageOk {h : Word} {body : List Byte} {s : State} (hs : s.StorageOk)
    (hb : body.length ≤ Config.frameBufBytes) : (accept h body s).StorageOk := by
  obtain ⟨hfb, hlog⟩ := accept_later h body s
  exact ⟨hs.1.mono hlog, (hs.2.load hb).later hfb⟩

theorem storageInvariant :
    Invariant State.StorageOk (fun p _ => p.bodySize ≤ Config.frameBufBytes) where
  mild hm h := h.calm hm.toCalm
  still _ _ h := h
  begins _ h := ⟨h, Nat.zero_le _⟩
  goes p s sc h hp hn := ⟨h, (Scan.next_measure (sc := s.scan p) hp hn).2⟩
  accepts p s hd body sc h hp hn := by
    obtain ⟨rev, hphase⟩ := Scan.next_accept_phase hn
    have hphase : p = .probe hd body rev := hphase
    subst hphase
    exact accept_storageOk (s := s.withScan sc) h hp
  stops _ _ _ h _ _ := h
  reset _ h := resetStream_storageOk h
  load s h _ := h.calm (loadMainData_calm s)
  scalefactors s gr ch h _ := h.calm (readScalefactors_calm gr ch s)
  huffman s gr ch h _ := h.calm (huffmanDecode_calm gr ch s)

/-- The phase of the scan in progress has the sizes of an empty window where no scan is in progress. -/
theorem storageInv_iff {s : State} :
    StorageInv s ↔ Holds State.StorageOk (fun p _ => p.bodySize ≤ Config.frameBufBytes) s := by
  constructor
  · intro h
    refine ⟨⟨⟨h.resvCells, h.history, h.tell, h.ring⟩, h.fbCells, h.fbLen, h.fbCursor⟩, fun p f hp => ?_⟩
    have := h.scan
    rwa [State.phase, hp] at this
  · rintro ⟨⟨hrs, hfb⟩, hscan⟩
    refine ⟨hrs.cells, hfb.cells, hfb.len, hfb.cursor, hrs.history, hrs.tell, hrs.ring, ?_⟩
    unfold State.phase
    split
    · next hp => exact hscan _ _ hp
    · exact Nat.zero_le _
    · exact Nat.zero_le _

/-- Settles O54: reads, rewinds and appends keep the relations of the cursors, and a body fits the frame buffer before
it is loaded. -/
theorem stepKeepsStorage : Obligations.StepKeepsStorage := by
  intro s t h ht
  refine storageInv_iff.2 (storageInvariant.step (fun s => ?_) (storageInv_iff.1 h) ht)
  exact ⟨⟨⟨rfl, nofun⟩, Nat.zero_le _, rfl, fun _ => rfl⟩, ⟨⟨rfl, nofun⟩, Nat.zero_le _, Nat.zero_le _⟩⟩

end Sys2Proof.Machine
end

section
/-! PROOF. PB within PB_BYTES (R41, R87): O55. -/

namespace Sys2Proof.Machine

theorem pushbackInvariant :
    Invariant (fun s => s.pb.length ≤ Config.pbBytes) (fun p s => (s.scan p).Fits) where
  mild hm h := hm.pb ▸ h
  still {p s t} hpb _ h := by
    have hbound : s.pb.length + p.retained ≤ Config.pbBytes := h.bound
    exact ⟨show t.pb.length + p.retained ≤ Config.pbBytes from hpb ▸ hbound, h.body, h.probe⟩
  begins s h := ⟨h, ⟨h, Nat.zero_le _, Nat.zero_le _⟩⟩
  goes p s sc _ hp hn := by
    have hfits : sc.Fits := hp.next hn
    exact ⟨(Nat.le_add_right _ _).trans hfits.bound, hfits⟩
  accepts _ _ _ _ _ _ hp hn := hp.accept hn
  stops p s sc _ hp hn := by
    have hroom := hp.take
    rw [State.withScan_pb, Scan.next_stops hn]
    omega
  reset _ _ := Nat.zero_le _
  load s h _ := (loadMainData_calm s).pb ▸ h
  scalefactors s gr ch h _ := (readScalefactors_calm gr ch s).pb ▸ h
  huffman s gr ch h _ := (huffmanDecode_calm gr ch s).pb ▸ h

theorem pushbackInv_iff {s : State} :
    PushbackInv s ↔ Holds (fun s => s.pb.length ≤ Config.pbBytes) (fun p s => (s.scan p).Fits) s := by
  constructor
  · intro h
    refine ⟨(Nat.le_add_right _ _).trans h.bound, fun p f hp => ?_⟩
    have hphase : s.phase = p := by rw [State.phase, hp]
    exact ⟨hphase ▸ h.bound, hphase ▸ h.scan, hphase ▸ h.probe⟩
  · rintro ⟨hpb, hscan⟩
    suffices h : (s.scan s.phase).Fits from ⟨h.bound, h.body, h.probe⟩
    unfold State.phase
    split
    · next hp => exact hscan _ _ hp
    · exact ⟨hpb, Nat.zero_le _, Nat.zero_le _⟩
    · exact ⟨hpb, Nat.zero_le _, Nat.zero_le _⟩

/-- Settles O55: each byte that a scan retains or unreads has left PB, unless PB was empty, and then a body and a probe
fit PB_BYTES. -/
theorem stepKeepsPushback : Obligations.StepKeepsPushback := by
  intro s t h ht
  exact pushbackInv_iff.2 (pushbackInvariant.step (fun _ => Nat.zero_le _) (pushbackInv_iff.1 h) ht)

end Sys2Proof.Machine
end

section
/-! PROOF. What READ_SCALEFACTORS and HUFFMAN_DECODE may change of a channel (R240, R285). -/

namespace Sys2Proof.Machine

theorem readScfMpeg1_chan (gr ch c : Fin 2) (s : State) :
    ∃ x, (readScfMpeg1 gr ch s).chan.get c = if c = ch then { s.chan.get ch with scf := x } else s.chan.get c :=
  storeScf_chan ch c _ (s.withRs _)

theorem getLsfScaleData_chan (ch c : Fin 2) (s : State) :
    ∃ x, (getLsfScaleData ch s).chan.get c = if c = ch then { s.chan.get ch with lsf := x } else s.chan.get c :=
  storeLsf_chan ch c _ { s with si := _ }

theorem readScfLsf_chan (ch c : Fin 2) (s : State) :
    ∃ x y, (readScfLsf ch s).chan.get c =
      if c = ch then { s.chan.get ch with lsf := x, scf := y } else s.chan.get c := by
  obtain ⟨y, hy⟩ : ∃ y, (readScfLsf ch s).chan.get c = if c = ch then
      { (getLsfScaleData ch s).chan.get ch with scf := y } else (getLsfScaleData ch s).chan.get c :=
    storeScf_chan ch c _ ((getLsfScaleData ch s).withRs _)
  obtain ⟨x, hx⟩ := getLsfScaleData_chan ch c s
  refine ⟨x, y, ?_⟩
  rw [hy, hx]
  split
  · next hc => subst hc; rw [hx, if_pos rfl]
  · rfl

/-- Either layout of the scale factors. -/
theorem readScf_chan (gr ch c : Fin 2) (s : State) :
    ∃ x y, (if s.head.fields.version = .mpeg1 then readScfMpeg1 gr ch s else readScfLsf ch s).chan.get c =
      if c = ch then { s.chan.get ch with lsf := x, scf := y } else s.chan.get c := by
  split
  · obtain ⟨y, hy⟩ := readScfMpeg1_chan gr ch c s
    exact ⟨(s.chan.get ch).lsf, y, hy⟩
  · exact readScfLsf_chan ch c s

theorem readScalefactors_chan (gr ch c : Fin 2) (s : State) :
    ∃ p x y, (readScalefactors gr ch s).chan.get c =
      if c = ch then { s.chan.get ch with stage := .sf, grp := gr, part2Start := p, lsf := x, scf := y }
      else s.chan.get c := by
  obtain ⟨x, y, h⟩ := readScf_chan gr ch c (State.mapChan ch
    (fun c => { c with grp := gr, part2Start := s.rs.resv.totbit })
    { s with order := { s.order with partOpen := true } })
  refine ⟨s.rs.resv.totbit, x, y, ?_⟩
  rw [mapChan_chan, mapChan_chan, if_pos rfl] at h
  unfold readScalefactors
  dsimp only
  rw [setStage_chan]
  split
  · next hc =>
    subst hc
    rw [if_pos rfl] at h
    exact congrArg (fun d => { d with stage := .sf }) h
  · next hc =>
    rw [if_neg hc, if_neg hc] at h
    exact h

theorem huffmanDecode_chan (gr ch c : Fin 2) (s : State) :
    ∃ p q stop, (q = (decodePart3 s.head.fields.sfreq (s.info gr ch) stop s.rs).1 ∨ ∃ k, q = freeQuantised k) ∧
      (huffmanDecode gr ch s).chan.get c =
        if c = ch then { s.chan.get ch with stage := .huf, part23End := p, nonzero := q.nonzero, is := q.is }
        else s.chan.get c := by
  let stop := (s.chan.get ch).part2Start + (s.info gr ch).part23Length.zeroExtend 32
  let v := decodePart3 s.head.fields.sfreq (s.info gr ch) stop.toNat s.rs
  obtain ⟨q, hq, h⟩ := storeQuantised_chan ch c v.1 ((s.withRs v.2).mapChan ch fun c => { c with part23End := stop })
  refine ⟨stop, q, stop.toNat, hq.imp id fun hk => ⟨_, hk⟩, ?_⟩
  rw [mapChan_chan, mapChan_chan, if_pos rfl] at h
  unfold huffmanDecode
  dsimp only
  rw [setStage_chan]
  split
  · next hc =>
    subst hc
    rw [if_pos rfl] at h
    exact congrArg (fun d => { d with stage := .huf }) h
  · next hc =>
    rw [if_neg hc, if_neg hc] at h
    exact h

end Sys2Proof.Machine
end

section
/-! PROOF. The header state while HDR_VALID = 1 (R36, R156, R157, R160, R161): O58. -/

namespace Sys2Proof.Machine

/-- `HeaderInv` but for the scan in progress. -/
structure State.HeaderOk (s : State) : Prop where
  known : s.headerKnown → LegalHeader s.head.hdr ∧ s.head.fields = parseHeader s.head.hdr ∧
    s.head.frameSize = frameSize s.head.fields ∧ s.head.slots = slotCount s.head.fields s.head.frameSize ∧
    s.fb.len = s.head.frameSize
  flags : s.status.hdrValid = true →
    (s.status.layer3 = true ↔ s.head.fields.layer = 3) ∧
    (s.status.lsf = true ↔ s.head.fields.version ≠ .mpeg1) ∧
    (s.status.nch2 = true ↔ s.head.fields.nch = 2)
  mode : s.status.hdrValid = true → s.ref.mode = .strict

/-- With HDR_VALID = 0 nothing is said. -/
theorem State.HeaderOk.of_invalid {s : State} (h : s.status.hdrValid = false) : s.HeaderOk := by
  have hn : ¬s.status.hdrValid = true := by rw [h]; exact Bool.false_ne_true
  exact ⟨fun hk => absurd hk.1 hn, fun hv => absurd hv hn, fun hv => absurd hv hn⟩

/-- NCH depends on MODE alone, which a fault leaves specified. -/
theorem Header.nch_of_mode {a b : Header} (h : a.mode = b.mode) : a.nch = b.nch := by
  rw [Header.nch, Header.nch, h]

theorem FaultLog.Later.untainted {a b : FaultLog} (h : a.Later b) (hb : b.tainted = false) : a.tainted = false := by
  by_contra hn
  rw [h.1 (Bool.eq_true_of_not_eq_false hn)] at hb
  cases hb

theorem State.HeaderOk.calm {s t : State} (hc : s.Calm t) (h : s.HeaderOk) : t.HeaderOk := by
  refine ⟨fun ⟨hv, hclean⟩ => ?_, fun hv => ?_, fun hv => ?_⟩
  · obtain ⟨-, hlen, -⟩ := hc.fb
    rw [hc.head hclean, hlen]
    exact h.known ⟨hc.hdrValid ▸ hv, hc.log.untainted hclean⟩
  · rw [hc.layer3, hc.lsf, hc.nch2, hc.layer, hc.version, Header.nch_of_mode hc.mode]
    exact h.flags (hc.hdrValid ▸ hv)
  · rw [hc.ref]
    exact h.mode (hc.hdrValid ▸ hv)

/-- What Accept derives from a legal header with its body (R157). -/
theorem accept_headerOk {h : Word} {body : List Byte} (s : State) (hl : LegalHeader h)
    (hb : body.length = frameSize (parseHeader h)) : (accept h body s).HeaderOk := by
  obtain ⟨⟨-, hlen, -⟩, -⟩ := accept_later h body s
  exact ⟨fun _ => ⟨hl, rfl, hb, rfl, hlen⟩, fun _ => ⟨decide_eq_true_iff, decide_eq_true_iff, decide_eq_true_iff⟩,
    fun _ => capture_mode h s.ref⟩

theorem headerInvariant : Invariant State.HeaderOk (fun p _ => p.Legal) where
  mild hm h := h.calm hm.toCalm
  still _ _ h := h
  begins _ _ := ⟨.of_invalid rfl, trivial⟩
  goes p s sc h hp hn := ⟨⟨h.known, h.flags, h.mode⟩, Scan.next_legal (sc := s.scan p) hp hn⟩
  accepts p s hd body sc _ hp hn := by
    obtain ⟨rev, hphase⟩ := Scan.next_accept_phase hn
    have hphase : p = .probe hd body rev := hphase
    subst hphase
    exact accept_headerOk _ hp.1 hp.2
  stops _ _ _ h _ _ := ⟨h.known, h.flags, h.mode⟩
  reset _ _ := .of_invalid rfl
  load s h _ := h.calm (loadMainData_calm s)
  scalefactors s gr ch h _ := h.calm (readScalefactors_calm gr ch s)
  huffman s gr ch h _ := h.calm (huffmanDecode_calm gr ch s)

theorem headerInv_iff {s : State} : HeaderInv s ↔ Holds State.HeaderOk (fun p _ => p.Legal) s := by
  constructor
  · intro h
    refine ⟨⟨fun hk => ⟨h.legal hk, h.fields hk, h.size hk, h.slots hk, h.body hk⟩, h.flags, h.mode⟩, fun p f hp => ?_⟩
    have hscan := h.scan
    rwa [State.phase, hp] at hscan
  · rintro ⟨hhead, hscan⟩
    have hphase : s.phase.Legal := by
      unfold State.phase
      split
      · next hp => exact hscan _ _ hp
      · trivial
      · trivial
    have hknown := hhead.known
    exact ⟨fun hk => (hknown hk).1, fun hk => (hknown hk).2.1, fun hk => (hknown hk).2.2.1,
      fun hk => (hknown hk).2.2.2.1, fun hk => (hknown hk).2.2.2.2, hhead.flags, hhead.mode, hphase⟩

/-- Settles O58: a scan is about a legal header from the window it found it in to its acceptance, which alone sets
HDR_VALID, and with it all that the header state derives from HDR. -/
theorem stepKeepsHeader : Obligations.StepKeepsHeader := by
  intro s t h ht
  exact headerInv_iff.2 (headerInvariant.step (fun _ => .of_invalid rfl) (headerInv_iff.1 h) ht)

end Sys2Proof.Machine
end

section
/-! PROOF. The order of the granule-channels (R45, R421): O57. -/

namespace Sys2Proof.Machine

/-- What OrderInv says of a channel at SF. -/
structure State.Opened (s : State) (ch : Fin 2) : Prop where
  hdrValid : s.status.hdrValid = true
  layer3 : s.status.layer3 = true
  channel : ch.val < s.nch
  partOpen : s.order.partOpen = true
  nextGc : s.order.nextGc.toNat = (s.chan.get ch).grp.val * s.nch + ch.val
  last : s.order.nextGc.toNat < 4

/-- `OrderInv` but for the scan in progress. -/
structure State.OrderOk (s : State) : Prop where
  next : s.order.nextGc.toNat ≤ 4
  opened : ∀ ch, (s.chan.get ch).stage = .sf → s.Opened ch

/-- Both channels are IDLE. -/
def State.Idle (s : State) : Prop := ∀ ch, (s.chan.get ch).stage = .idle

/-- With no channel at SF nothing is open. -/
theorem State.OrderOk.of_unopened {s : State} (hn : s.order.nextGc.toNat ≤ 4)
    (h : ∀ ch, (s.chan.get ch).stage ≠ .sf) : s.OrderOk :=
  ⟨hn, fun ch hs => absurd hs (h ch)⟩

theorem State.Idle.unopened {s : State} (h : s.Idle) (ch : Fin 2) : (s.chan.get ch).stage ≠ .sf := by
  rw [h ch]
  decide

theorem State.Calm.nch {s t : State} (h : s.Calm t) : t.nch = s.nch := Header.nch_of_mode h.mode

theorem State.Opened.calm {s t : State} {ch : Fin 2} (h : s.Opened ch) (hc : s.Calm t) (ho : t.order = s.order)
    (hg : (t.chan.get ch).grp = (s.chan.get ch).grp) : t.Opened ch where
  hdrValid := hc.hdrValid ▸ h.hdrValid
  layer3 := hc.layer3 ▸ h.layer3
  channel := by rw [hc.nch]; exact h.channel
  partOpen := by rw [ho]; exact h.partOpen
  nextGc := by rw [ho, hg, hc.nch]; exact h.nextGc
  last := by rw [ho]; exact h.last

theorem State.OrderOk.mild {s t : State} (hm : s.Mild t) (h : s.OrderOk) : t.OrderOk where
  next := by rw [hm.order]; exact h.next
  opened ch hs := (h.opened ch ((hm.chan ch).stage hs)).calm hm.toCalm hm.order (hm.chan ch).grp

/-- LOAD_MAIN_DATA finds no granule-channel open and leaves none. -/
theorem loadMainData_orderOk {s : State} (h : s.OrderOk) : (loadMainData s).1.OrderOk := by
  by_cases hd : s.newDiscard.toInt < 0
  · rw [loadMainData_skip hd]
    refine .of_unopened h.next fun ch => ?_
    show ((s.setStages .idle).chan.get ch).stage ≠ .sf
    rw [setStages_chan]
    nofun
  · rw [loadMainData_load hd]
    refine .of_unopened (Nat.zero_le _) fun ch => ?_
    show (s.enterMd.chan.get ch).stage ≠ .sf
    rw [enterMd_chan]
    split
    · nofun
    · next hch => exact fun hs => hch (h.opened ch hs).channel

/-- The checks of READ_SCALEFACTORS find no granule-channel open and its own next (R421). -/
theorem guardScalefactors_none {s : State} {gr ch : Fin 2} (hg : guardScalefactors gr ch s = none) :
    s.status.hdrValid = true ∧ s.status.layer3 = true ∧ ch.val < s.nch ∧ s.order.partOpen = false ∧
      s.order.nextGc.toNat = gr.val * s.nch + ch.val := by
  simp only [guardScalefactors, thenCheck_none, guardGranule_none, require_none, State.readyForPart2, Bool.and_eq_true,
    decide_eq_true_eq, Bool.not_eq_true'] at hg
  obtain ⟨⟨⟨hv, hl⟩, -, hch⟩, ⟨-, hopen⟩, hnext⟩ := hg
  exact ⟨hv, hl, hch, hopen, hnext⟩

/-- READ_SCALEFACTORS opens the granule-channel that NEXT_GC names, with none open. -/
theorem readScalefactors_orderOk {s : State} {gr ch : Fin 2} (h : s.OrderOk) (hg : guardScalefactors gr ch s = none) :
    (readScalefactors gr ch s).OrderOk := by
  obtain ⟨hv, hl, hch, hopen, hnext⟩ := guardScalefactors_none hg
  have hcalm := readScalefactors_calm gr ch s
  have horder : (readScalefactors gr ch s).order = { s.order with partOpen := true } := by
    rw [readScalefactors_frame]
  refine ⟨by rw [horder]; exact h.next, fun c hs => ?_⟩
  obtain ⟨p, x, y, hc⟩ := readScalefactors_chan gr ch c s
  by_cases hcc : c = ch
  · subst hcc
    rw [if_pos rfl] at hc
    have hlt : gr.val * s.nch + c.val < 4 := by
      rcases nch_cases s with hn | hn <;> rw [hn] at hch ⊢ <;> omega
    refine ⟨hcalm.hdrValid ▸ hv, hcalm.layer3 ▸ hl, by rw [hcalm.nch]; exact hch, by rw [horder], ?_, ?_⟩
    · rw [horder, hcalm.nch, hc]
      exact hnext
    · rw [horder]
      exact hnext ▸ hlt
  · rw [if_neg hcc] at hc
    rw [hc] at hs
    have hother := (h.opened c hs).partOpen
    rw [hopen] at hother
    cases hother

/-- HUFFMAN_DECODE closes the only open granule-channel. -/
theorem huffmanDecode_orderOk {s : State} {gr ch : Fin 2} (h : s.OrderOk) (hg : guardStage .sf gr ch s = none) :
    (huffmanDecode gr ch s).OrderOk := by
  obtain ⟨-, hstage, -⟩ := guardStage_none.1 hg
  have hmine := h.opened ch hstage
  have horder : (huffmanDecode gr ch s).order = { nextGc := s.order.nextGc + 1, partOpen := false } := by
    rw [huffmanDecode_frame]
  refine .of_unopened ?_ fun c hs => ?_
  · have := hmine.last
    rw [horder, BitVec.toNat_add]
    exact (Nat.mod_le _ _).trans (by simpa using this)
  · obtain ⟨p, q, stop, -, hc⟩ := huffmanDecode_chan gr ch c s
    rw [hc] at hs
    split at hs
    · cases hs
    · next hcc =>
      have hother := h.opened c hs
      have h1 := hother.nextGc
      have h2 := hmine.nextGc
      have h3 := hother.channel
      have h4 := hmine.channel
      have hne : c.val ≠ ch.val := fun he => hcc (Fin.ext he)
      rcases nch_cases s with hn | hn <;> rw [hn] at h1 h2 h3 h4 <;> omega

theorem orderInvariant : Invariant State.OrderOk (fun _ s => s.Idle) where
  mild hm h := h.mild hm
  still _ hchan h := fun ch => by rw [hchan]; exact h ch
  begins s h := by
    have hidle : (syncStart s).Idle := fun ch => congrArg Chan.stage (setStages_chan .idle ch s)
    exact ⟨.of_unopened h.next hidle.unopened, hidle⟩
  goes _ _ _ h hp _ := ⟨.of_unopened h.next hp.unopened, hp⟩
  accepts _ _ _ _ _ h hp _ := .of_unopened h.next hp.unopened
  stops _ _ _ h hp _ := .of_unopened h.next hp.unopened
  reset _ _ := .of_unopened (Nat.zero_le _) fun ch => by fin_cases ch <;> nofun
  load _ h _ := loadMainData_orderOk h
  scalefactors _ _ _ h hg := readScalefactors_orderOk h hg
  huffman _ _ _ h hg := huffmanDecode_orderOk h hg

theorem orderInv_iff {s : State} : OrderInv s ↔ Holds State.OrderOk (fun _ s => s.Idle) s := by
  constructor
  · intro h
    refine ⟨⟨h.next, fun ch hs => ?_⟩, h.scan⟩
    obtain ⟨hv, hl, hc, hp, hn, h4⟩ := h.opened ch hs
    exact ⟨hv, hl, hc, hp, hn, h4⟩
  · rintro ⟨h, hscan⟩
    refine ⟨h.next, fun ch hs => ?_, hscan⟩
    obtain ⟨hv, hl, hc, hp, hn, h4⟩ := h.opened ch hs
    exact ⟨hv, hl, hc, hp, hn, h4⟩

/-- Settles O57: READ_SCALEFACTORS opens the granule-channel of NEXT_GC with none open, HUFFMAN_DECODE closes it, and
every other command only takes a channel away from SF. -/
theorem stepKeepsOrder : Obligations.StepKeepsOrder := by
  intro s t h ht
  refine orderInv_iff.2 (orderInvariant.step (fun s => ?_) (orderInv_iff.1 h) ht)
  exact .of_unopened (Nat.zero_le _) fun ch => by fin_cases ch <;> nofun

end Sys2Proof.Machine
end

section
/-! PROOF. The quantised lines stay in their range (R46, R51): O56. -/

namespace Sys2Proof.Machine

/-- NONZERO, the zero fill and the range (R46, R51). -/
structure Quantised.Ok (q : Quantised) : Prop where
  count : q.nonzero ≤ 576
  zeros : ∀ j, q.nonzero ≤ j → quantAt q.is j = 0
  range : ∀ j, (quantAt q.is j).natAbs ≤ 8206

theorem Quantised.of_ok {n : Nat} {f : Nat → Int} (hn : n ≤ 576) (hf : ∀ j, (f j).natAbs ≤ 8206) :
    (Quantised.of n f).Ok := by
  have hat : ∀ j, quantAt (Quantised.of n f).is j = if j < n then f j else 0 := fun j => by
    rcases Nat.lt_or_ge j 576 with hj | hj
    · exact quantAt_tabulate _ hj
    · rw [quantAt_ge _ hj, if_neg (by omega)]
  refine ⟨hn, fun j hj => ?_, fun j => ?_⟩
  · rw [hat, if_neg (show ¬j < n from Nat.not_lt.2 hj)]
  · rw [hat]
    split
    · exact hf j
    · exact Nat.zero_le _

/-- Free quantised lines are in the range (log entry 5). -/
theorem freeQuantised_ok (k : Nat) : (freeQuantised k).Ok :=
  Quantised.of_ok (by omega) fun j => by omega

/-! ### The values of part 3 (R280-R285) -/

/-- A walk ends in a symbol of the book or in the one that stands for an invalid code (R280). -/
theorem huffWalk_mem {σ : Type} (book : Codebook σ) (z : σ) (fuel : Nat) (pre : List Bool) (r : RS) :
    (huffWalk book z fuel pre r).1 = z ∨ ∃ c ∈ book, (huffWalk book z fuel pre r).1 = c.2 := by
  induction fuel generalizing pre r with
  | zero => exact .inl rfl
  | succ fuel ih =>
    unfold huffWalk
    dsimp only
    split
    · next sym hs =>
      obtain ⟨l₁, l₂, hb, -⟩ := List.lookup_eq_some_iff.1 hs
      exact .inr ⟨(_, sym), by rw [hb]; exact List.mem_append_right _ List.mem_cons_self, rfl⟩
    · split
      · exact .inl rfl
      · exact ih _ _

/-- The symbols of a big-values codebook are at most 15 (R280). -/
theorem bigCodebook_le (t : Nat) : ∀ c ∈ bigCodebook t, c.2.1 ≤ 15 ∧ c.2.2 ≤ 15 := by
  unfold bigCodebook
  dsimp only
  split
  · nofun
  · split
    · decide
    · split
      · next h =>
        simp only [Bool.and_eq_true, List.all_eq_true, decide_eq_true_eq] at h
        exact h.2
      · nofun

theorem linbits_le (t : Nat) : linbits t ≤ 13 := by
  unfold linbits
  rcases Nat.lt_or_ge t 32 with h | h
  · revert t
    decide
  · rw [List.getD_eq_default _ _ (by simpa using h)]
    decide

/-- A symbol with its escape (R283). -/
theorem readEscape_le {bits x : Nat} (hb : bits ≤ 13) (hx : x ≤ 15) (r : RS) : (readEscape bits x r).1 ≤ 8206 := by
  have hread := RS.read_lt bits r
  have hpow : 2 ^ bits ≤ 2 ^ 13 := Nat.pow_le_pow_right (by decide) hb
  unfold readEscape
  split
  · dsimp only; omega
  · dsimp only; omega

theorem readSign_natAbs (x : Nat) (r : RS) : (readSign x r).1.natAbs = x := by
  unfold readSign
  split
  · next h => rw [h]; rfl
  · dsimp only
    split
    · omega
    · omega

theorem huffPair_le (t : Nat) (r : RS) : (huffPair t r).1.1.natAbs ≤ 8206 ∧ (huffPair t r).1.2.natAbs ≤ 8206 := by
  have hsym : ∀ sym : (Nat × Nat) × RS, sym = (if t = 0 then ((0, 0), r) else huffSym (bigCodebook t) (0, 0) r) →
      sym.1.1 ≤ 15 ∧ sym.1.2 ≤ 15 := by
    rintro sym rfl
    split
    · exact ⟨Nat.zero_le _, Nat.zero_le _⟩
    · rcases huffWalk_mem (bigCodebook t) (0, 0) 19 [] r with h | ⟨c, hc, h⟩
      · rw [huffSym, h]; exact ⟨Nat.zero_le _, Nat.zero_le _⟩
      · rw [huffSym, h]; exact bigCodebook_le t c hc
  obtain ⟨hx, hy⟩ := hsym _ rfl
  unfold huffPair
  dsimp only
  rw [readSign_natAbs, readSign_natAbs]
  exact ⟨readEscape_le (linbits_le t) hx _, readEscape_le (linbits_le t) hy _⟩

theorem bigValues_le (table : Nat → Nat) (n i : Nat) (r : RS) :
    ∀ v ∈ (bigValues table n i r).1, v.natAbs ≤ 8206 := by
  induction n generalizing i r with
  | zero => nofun
  | succ n ih =>
    obtain ⟨hx, hy⟩ := huffPair_le (table i) r
    intro v hv
    rcases List.mem_cons.1 hv with rfl | hv
    · exact hx
    · rcases List.mem_cons.1 hv with rfl | hv
      · exact hy
      · exact ih _ _ v hv

theorem huffQuad_le (book : Codebook Quad) (r : RS) : ∀ v ∈ (huffQuad book r).1, v.natAbs ≤ 8206 := by
  have hbit : ∀ (b : Bool) (r : RS), (readSign b.toNat r).1.natAbs ≤ 8206 := fun b r => by
    rw [readSign_natAbs]
    exact (Bool.toNat_le b).trans (by decide)
  intro v hv
  simp only [huffQuad, List.mem_cons, List.not_mem_nil, or_false] at hv
  rcases hv with rfl | rfl | rfl | rfl <;> exact hbit _ _

theorem count1_le (book : Codebook Quad) (stop fuel index : Nat) (r : RS) :
    ∀ v ∈ (count1 book stop fuel index r).1, v.natAbs ≤ 8206 := by
  induction fuel generalizing index r with
  | zero => nofun
  | succ fuel ih =>
    unfold count1
    split
    · intro v hv
      rcases List.mem_append.1 hv with hv | hv
      · exact huffQuad_le book r v hv
      · exact ih _ _ v hv
    · nofun

/-- The lines that part 3 decodes (R285). -/
theorem decodePart3_ok (sfreq : Fin 9) (g : GranuleInfo) (stop : Nat) (r : RS) : (decodePart3 sfreq g stop r).1.Ok := by
  refine Quantised.of_ok (Nat.min_le_right _ _) fun j => ?_
  rw [List.getD_eq_getElem?_getD]
  cases hv : (_ : List Int)[j]? with
  | none => exact Nat.zero_le _
  | some v =>
    rcases List.mem_append.1 (List.mem_of_getElem? hv) with h | h
    · exact bigValues_le _ _ _ _ v h
    · exact count1_le _ _ _ _ _ v h

/-! ### The invariant -/

/-- NONZERO and IS of a channel. -/
def Chan.quantised (c : Chan) : Quantised := { nonzero := c.nonzero, is := c.is }

def State.QuantOk (s : State) : Prop := ∀ ch, (s.chan.get ch).quantised.Ok

theorem State.QuantOk.of_mild {s t : State} (h : s.QuantOk) (hm : ∀ ch, (s.chan.get ch).Mild (t.chan.get ch)) :
    t.QuantOk := fun ch => by
  rcases (hm ch).quant with ⟨hn, hi⟩ | ⟨k, hn, hi⟩
  · rw [Chan.quantised, hn, hi]
    exact h ch
  · rw [Chan.quantised, hn, hi]
    exact freeQuantised_ok k

theorem State.QuantOk.of_eq {s t : State} (h : s.QuantOk)
    (ht : ∀ ch, (t.chan.get ch).quantised = (s.chan.get ch).quantised) : t.QuantOk := fun ch => by
  rw [ht ch]
  exact h ch

/-- LOAD_MAIN_DATA changes STAGE and GRP of the channels alone (R208, R210). -/
theorem loadMainData_quantised (s : State) (ch : Fin 2) :
    ((loadMainData s).1.chan.get ch).quantised = (s.chan.get ch).quantised := by
  by_cases hd : s.newDiscard.toInt < 0
  · rw [loadMainData_skip hd]
    refine (congrArg Chan.quantised (setStages_chan .idle ch s)).trans ?_
    rfl
  · rw [loadMainData_load hd]
    refine (congrArg Chan.quantised (enterMd_chan s ch)).trans ?_
    split <;> rfl

/-- Zero lines (R461). -/
theorem powerOn_quantOk (s : State) : (powerOn s).QuantOk := by
  have hreset : Chan.reset.quantised = Quantised.of 0 fun _ => 0 := by
    simp only [Chan.quantised, Chan.reset, Quantised.of, ite_self]
  have hok : Chan.reset.quantised.Ok := by
    rw [hreset]
    exact Quantised.of_ok (Nat.zero_le _) fun _ => Nat.zero_le _
  intro ch
  fin_cases ch
  · exact hok
  · exact hok

theorem quantInvariant : Invariant State.QuantOk (fun _ _ => True) where
  mild hm h := h.of_mild hm.chan
  still _ _ _ := trivial
  begins s h := ⟨h.of_mild fun c => setStages_mild c (by decide) s, trivial⟩
  goes _ _ _ h _ _ := ⟨h, trivial⟩
  accepts _ _ _ _ _ h _ _ := h
  stops _ _ _ h _ _ := h
  reset s h := fun ch => by
    fin_cases ch
    · exact h 0
    · exact h 1
  load s h _ := h.of_eq (loadMainData_quantised s)
  scalefactors s gr ch h _ := fun c => by
    obtain ⟨p, x, y, hc⟩ := readScalefactors_chan gr ch c s
    rw [hc]
    split
    · exact h ch
    · exact h c
  huffman s gr ch h _ := fun c => by
    obtain ⟨p, q, stop, hq, hc⟩ := huffmanDecode_chan gr ch c s
    rw [hc]
    split
    · rcases hq with rfl | ⟨k, rfl⟩
      · exact decodePart3_ok _ _ _ _
      · exact freeQuantised_ok k
    · exact h c

theorem quantInv_iff {s : State} : QuantInv s ↔ State.QuantOk s :=
  ⟨fun h ch => ⟨h.count ch, h.zeros ch, h.range ch⟩,
    fun h => ⟨fun ch => (h ch).count, fun ch => (h ch).zeros, fun ch => (h ch).range⟩⟩

/-- Settles O56: HUFFMAN_DECODE alone computes quantised lines, of symbols up to 15 with escapes of up to 13 bits; every
other command keeps them or leaves free ones. -/
theorem stepKeepsQuantised : Obligations.StepKeepsQuantised := by
  intro s t h ht
  have hinv : Holds State.QuantOk (fun _ _ => True) s := ⟨quantInv_iff.1 h, fun _ _ _ => trivial⟩
  exact quantInv_iff.2 (quantInvariant.step powerOn_quantOk hinv ht).1

end Sys2Proof.Machine
end

section
/-! PROOF. Power-on reset (R460, R461), and what only it clears: O13. -/

namespace Sys2Proof.Machine

/-- STATUS.FAULT is 1 in `t` if in `s`, and SYNC_MODE is STRICT in `t` if in `s`. -/
def State.KeepsFlags (s t : State) : Prop :=
  (s.rs.log.sticky = true → t.rs.log.sticky = true) ∧ (s.ref.mode = .strict → t.ref.mode = .strict)

theorem State.KeepsFlags.calm {s t u : State} (hc : t.Calm u) (h : s.KeepsFlags t) : s.KeepsFlags u := by
  obtain ⟨-, hsticky, -⟩ := hc.log
  refine ⟨fun hs => hsticky (h.1 hs), fun hm => ?_⟩
  rw [hc.ref]
  exact h.2 hm

/-- FAULT and SYNC_MODE are kept from any state on (R37, R460). -/
theorem flagsInvariant (s : State) : Invariant s.KeepsFlags (fun _ _ => True) where
  mild hm h := h.calm hm.toCalm
  still _ _ _ := trivial
  begins _ h := ⟨h, trivial⟩
  goes _ _ _ h _ _ := ⟨h, trivial⟩
  accepts _ t hd body sc h _ _ := by
    obtain ⟨-, -, hsticky, -⟩ := accept_later hd body (t.withScan sc)
    exact ⟨fun hs => hsticky (h.1 hs), fun _ => capture_mode hd t.ref⟩
  stops _ _ _ h _ _ := h
  reset _ h := h
  load t h _ := h.calm (loadMainData_calm t)
  scalefactors t gr ch h _ := h.calm (readScalefactors_calm gr ch t)
  huffman t gr ch h _ := h.calm (huffmanDecode_calm gr ch t)

/-- Every register reads 0 after power-on reset (R461). -/
theorem powerOn_register (s : State) (off : BitVec 8) : (powerOn s).register off = 0 := by
  have hreset : (powerOn s).register off = State.reset.register off := rfl
  rw [hreset]
  unfold State.register
  split <;> decide

/-- Entries of the zero arrays. -/
theorem tabulate_const_getElem? {α : Type} (n : Nat) (x : α) (j : Nat) : ((tabulate n fun _ => x)[j]?).getD x = x := by
  rw [tabulate_getElem?]
  split <;> rfl

/-- Every array of a channel is 0 after power-on reset (R461). -/
theorem chanReset_arrays (j : Nat) :
    (Chan.reset.scf.long j = 0 ∧ ∀ w, Chan.reset.scf.shortAt w j = 0) ∧ quantAt Chan.reset.is j = 0 ∧
      lineAt Chan.reset.xr j = .zero ∧ lineAt Chan.reset.hout j = .zero ∧ lineAt Chan.reset.prev j = .zero := by
  have hlines : lineAt Lines.zeros j = .zero := tabulate_const_getElem? 576 _ j
  have hshort : ∀ w, Chan.reset.scf.S.get w = tabulate 13 fun _ => 0 := fun w => by
    unfold Three.get
    split
    · rfl
    · split <;> rfl
  refine ⟨⟨congrArg BitVec.toNat (tabulate_const_getElem? 23 _ j), fun w => ?_⟩, tabulate_const_getElem? 576 _ j,
    hlines, hlines, hlines⟩
  rw [Scf.shortAt, hshort, tabulate_const_getElem?]
  rfl

/-- Settles O13: no part of a step clears FAULT or SYNC_MODE, and the reset state is given item by item. -/
theorem powerOnReset : Obligations.PowerOnReset := by
  refine ⟨fun s t hr ht => ?_, fun s => ⟨powerOn s, rfl, ?_⟩⟩
  · exact ((flagsInvariant s).keeps.step_running hr ⟨⟨id, id⟩, fun _ _ _ => trivial⟩ ht).1
  have hchan : ∀ ch, (powerOn s).chan.get ch = Chan.reset := fun ch => ite_self _
  refine ⟨rfl, rfl, rfl, powerOn_register s, rfl, rfl, rfl, fun _ => rfl, rfl, rfl, rfl, fun _ => ?_, rfl, rfl, rfl,
    ⟨rfl, rfl, rfl, rfl, rfl, rfl, rfl, rfl⟩, rfl, rfl, rfl, fun gr ch => ?_, fun ch j => ?_⟩
  · exact BitVec.getMsbD_zero
  · fin_cases gr <;> fin_cases ch <;> exact ⟨rfl, rfl⟩
  · obtain ⟨hscf, hquant, hxr, hhout, hprev⟩ := chanReset_arrays j
    rw [hchan]
    exact ⟨hscf, rfl, rfl, rfl, hquant, hxr, hhout, hprev⟩

end Sys2Proof.Machine
end

section
/-! PROOF. The registers of the host's bus (R32-R34, R45, R431): O9 and O10. A word is the sum of its fields, each at
its place, so that a field is read off by division. -/

namespace Sys2Proof.Machine

/-! ### Fields of a word -/

theorem toNat_append_eq_add {v w : Nat} (x : BitVec v) (y : BitVec w) : (x ++ y).toNat = 2 ^ w * x.toNat + y.toNat := by
  rw [BitVec.toNat_append, ← Nat.shiftLeft_add_eq_or_of_lt y.isLt, Nat.shiftLeft_eq, Nat.mul_comm]

theorem getLsbD_eq_of_div {n i : Nat} {x : BitVec n} {b : Bool} (h : x.toNat / 2 ^ i % 2 = (bit b).toNat) :
    x.getLsbD i = b := by
  rw [BitVec.getLsbD, Nat.testBit_eq_decide_div_mod_eq, h]
  cases b <;> rfl

theorem extractLsb'_toNat_div {n : Nat} (x : BitVec n) (i k : Nat) :
    (x.extractLsb' i k).toNat = x.toNat / 2 ^ i % 2 ^ k := by
  rw [BitVec.extractLsb'_toNat, Nat.shiftRight_eq_div_pow]

theorem extractLsb'_eq_of_div {n i k : Nat} {x : BitVec n} {y : BitVec k} (h : x.toNat / 2 ^ i % 2 ^ k = y.toNat) :
    x.extractLsb' i k = y :=
  BitVec.eq_of_toNat_eq ((extractLsb'_toNat_div x i k).trans h)

/-- Reserved bits. -/
theorem extractLsb'_eq_zero {n i k : Nat} {x : BitVec n} (h : x.toNat < 2 ^ i) : x.extractLsb' i k = 0 :=
  extractLsb'_eq_of_div (by rw [Nat.div_eq_of_lt h]; simp)

/-! ### The words as sums -/

theorem statusWord_toNat (s : State) :
    s.statusWord.toNat = (bit s.busy).toNat + 2 ^ 1 * (bit s.status.done).toNat + 2 ^ 2 * (bit s.status.eos).toNat +
      2 ^ 3 * (bit s.status.skipped).toNat + 2 ^ 4 * (bit s.status.crcMismatch).toNat +
      2 ^ 5 * (bit s.rs.log.sticky).toNat + 2 ^ 6 * (bit s.status.fatal).toNat +
      2 ^ 7 * (bit s.status.overrun).toNat + 2 ^ 8 * s.status.err.code.toNat + 2 ^ 16 * (bit s.status.nch2).toNat +
      2 ^ 17 * (bit s.status.hdrValid).toNat + 2 ^ 18 * (bit s.status.layer3).toNat +
      2 ^ 19 * (bit s.status.lsf).toNat := by
  unfold State.statusWord
  rw [toNat_append_eq_add]
  simp only [toNat_append_eq_add, BitVec.ofNat_eq_ofNat, BitVec.toNat_ofNat, Nat.zero_mod]
  omega

theorem stageWord_toNat (s : State) :
    s.stageWord.toNat = s.chan.c0.stage.code.toNat + 2 ^ 4 * s.chan.c1.stage.code.toNat +
      2 ^ 8 * s.chan.c0.grp.val + 2 ^ 9 * s.chan.c1.grp.val + 2 ^ 10 * s.order.nextGc.toNat +
      2 ^ 13 * (bit s.order.partOpen).toNat := by
  unfold State.stageWord
  rw [toNat_append_eq_add, toNat_append_eq_add, toNat_append_eq_add, toNat_append_eq_add, toNat_append_eq_add,
    toNat_append_eq_add]
  simp only [BitVec.toNat_ofFin, BitVec.ofNat_eq_ofNat, BitVec.toNat_ofNat, Nat.zero_mod]
  omega

theorem nonzeroWord_toNat (s : State) :
    s.nonzeroWord.toNat =
      (BitVec.ofNat 10 s.chan.c0.nonzero).toNat + 2 ^ 16 * (BitVec.ofNat 10 s.chan.c1.nonzero).toNat := by
  unfold State.nonzeroWord
  rw [toNat_append_eq_add, toNat_append_eq_add, toNat_append_eq_add]
  simp only [BitVec.ofNat_eq_ofNat, BitVec.toNat_ofNat, Nat.zero_mod]
  omega

theorem syncCfgWord_toNat (s : State) :
    s.syncCfgWord.toNat = (bit (decide (s.ref.mode = .strict))).toNat + 2 * (bit s.ref.singleCh).toNat := by
  unfold State.syncCfgWord
  rw [toNat_append_eq_add, toNat_append_eq_add]
  simp only [BitVec.ofNat_eq_ofNat, BitVec.toNat_ofNat, Nat.zero_mod]
  omega

theorem ctrlWord_toNat (c : Ctrl) :
    c.word.toNat = (bit c.irqEn).toNat + 2 ^ 1 * c.chsel.code.toNat + 2 ^ 3 * (bit c.crcStrict).toNat := by
  unfold Ctrl.word
  rw [toNat_append_eq_add, toNat_append_eq_add, toNat_append_eq_add]
  simp only [BitVec.ofNat_eq_ofNat, BitVec.toNat_ofNat, Nat.zero_mod]
  omega

/-! ### The fields at their places -/

/-- STATUS (R34). -/
theorem statusWord_fields {s : State} {w : Word} (hw : w = s.statusWord) :
    w.getLsbD 0 = s.busy ∧ w.getLsbD 1 = s.status.done ∧ w.getLsbD 2 = s.status.eos ∧
    w.getLsbD 3 = s.status.skipped ∧ w.getLsbD 4 = s.status.crcMismatch ∧ w.getLsbD 5 = s.rs.log.sticky ∧
    w.getLsbD 6 = s.status.fatal ∧ w.getLsbD 7 = s.status.overrun ∧ w.extractLsb' 8 8 = s.status.err.code ∧
    w.getLsbD 16 = s.status.nch2 ∧ w.getLsbD 17 = s.status.hdrValid ∧ w.getLsbD 18 = s.status.layer3 ∧
    w.getLsbD 19 = s.status.lsf ∧ w.extractLsb' 20 12 = 0 := by
  have h := statusWord_toNat s
  rw [← hw] at h
  refine ⟨getLsbD_eq_of_div ?_, getLsbD_eq_of_div ?_, getLsbD_eq_of_div ?_, getLsbD_eq_of_div ?_, getLsbD_eq_of_div ?_,
    getLsbD_eq_of_div ?_, getLsbD_eq_of_div ?_, getLsbD_eq_of_div ?_, extractLsb'_eq_of_div ?_, getLsbD_eq_of_div ?_,
    getLsbD_eq_of_div ?_, getLsbD_eq_of_div ?_, getLsbD_eq_of_div ?_, extractLsb'_eq_zero ?_⟩ <;> omega

/-- A channel number as a bit. -/
theorem bit_fin (c : Fin 2) : (bit (decide (c = 1))).toNat = c.val := by
  fin_cases c <;> rfl

/-- STAGE (R45). -/
theorem stageWord_fields {s : State} {w : Word} (hw : w = s.stageWord) :
    w.extractLsb' 0 4 = s.chan.c0.stage.code ∧ w.extractLsb' 4 4 = s.chan.c1.stage.code ∧
    w.getLsbD 8 = decide (s.chan.c0.grp = 1) ∧ w.getLsbD 9 = decide (s.chan.c1.grp = 1) ∧
    w.extractLsb' 10 3 = s.order.nextGc ∧ w.getLsbD 13 = s.order.partOpen ∧ w.extractLsb' 14 18 = 0 := by
  have h := stageWord_toNat s
  rw [← hw, ← bit_fin, ← bit_fin] at h
  refine ⟨extractLsb'_eq_of_div ?_, extractLsb'_eq_of_div ?_, getLsbD_eq_of_div ?_, getLsbD_eq_of_div ?_,
    extractLsb'_eq_of_div ?_, getLsbD_eq_of_div ?_, extractLsb'_eq_zero ?_⟩ <;> omega

/-- NONZERO (R46). -/
theorem nonzeroWord_fields {s : State} {w : Word} (hw : w = s.nonzeroWord) :
    w.extractLsb' 0 10 = BitVec.ofNat 10 s.chan.c0.nonzero ∧ w.extractLsb' 10 6 = 0 ∧
    w.extractLsb' 16 10 = BitVec.ofNat 10 s.chan.c1.nonzero ∧ w.extractLsb' 26 6 = 0 := by
  have h := nonzeroWord_toNat s
  rw [← hw] at h
  refine ⟨extractLsb'_eq_of_div ?_, extractLsb'_eq_of_div ?_, extractLsb'_eq_of_div ?_, extractLsb'_eq_zero ?_⟩
  all_goals simp only [BitVec.ofNat_eq_ofNat, BitVec.toNat_ofNat] at h ⊢
  all_goals omega

/-- SYNC_CFG (R37). -/
theorem syncCfgWord_fields {s : State} {w : Word} (hw : w = s.syncCfgWord) :
    w.getLsbD 0 = decide (s.ref.mode = .strict) ∧ w.getLsbD 1 = s.ref.singleCh ∧ w.extractLsb' 2 30 = 0 := by
  have h := syncCfgWord_toNat s
  rw [← hw] at h
  refine ⟨getLsbD_eq_of_div ?_, getLsbD_eq_of_div ?_, extractLsb'_eq_zero ?_⟩ <;> omega

/-! ### The numbers of codes and stages -/

/-- A table that lists every value once with its number tells which value has which number. -/
theorem eq_iff_of_table {α β : Type} {f : α → β} {table : List (α × β)} (hall : ∀ a, (a, f a) ∈ table)
    (honce : ∀ p ∈ table, ∀ q ∈ table, p.1 = q.1 ↔ p.2 = q.2) {a b : α} {n : β} (h : (b, n) ∈ table) :
    a = b ↔ f a = n :=
  honce _ (hall a) _ h

/-- A register that the map of R32 does not have. -/
theorem register_reserved (s : State) {off : BitVec 8} (h : 0x50 ≤ off.toNat) : s.register off = 0 := by
  unfold State.register
  split
  case h_21 => rfl
  all_goals omega

/-- Settles O9: each word is the sum of its fields, and every code and stage stands in its table once. -/
theorem registerLayout : Obligations.RegisterLayout := by
  intro s
  obtain ⟨b0, b1, b2, b3, b4, b5, b6, b7, herr, b16, b17, b18, b19, hrsv⟩ := statusWord_fields (s := s) rfl
  obtain ⟨hstage0, hstage1, hgrp0, hgrp1, hnext, hopen, hfree⟩ := stageWord_fields (s := s) rfl
  refine ⟨⟨b0, b1, b2, b3, b4, b5, b6, b7, herr, b16, b17, b18, b19, hrsv, fun e n hen => ?_⟩,
    ⟨hstage0, hstage1, hgrp0, hgrp1, hnext, hopen, hfree, fun x n hxn => ?_⟩,
    nonzeroWord_fields rfl, ⟨?_, ?_⟩, syncCfgWord_fields rfl,
    ⟨rfl, rfl, rfl, rfl, rfl, rfl, rfl, rfl, BitVec.toNat_ofNat _ _, BitVec.toNat_ofNat _ _, ?_, ?_,
      BitVec.toNat_ofNat _ _⟩,
    rfl, fun off => register_reserved s⟩
  · rw [show (s.register 0x08).extractLsb' 8 8 = s.status.err.code from herr]
    exact eq_iff_of_table (fun a => by cases a <;> decide) (by decide) hen
  · rw [show (s.register 0x48).extractLsb' 0 4 = s.chan.c0.stage.code from hstage0,
      show (s.register 0x48).extractLsb' 4 4 = s.chan.c1.stage.code from hstage1]
    have hstage (a : Stage) : a = x ↔ a.code = n := eq_iff_of_table (fun a => by cases a <;> decide) (by decide) hxn
    exact ⟨hstage _, hstage _⟩
  · exact BitVec.extractLsb'_append_eq_right
  · exact BitVec.extractLsb'_append_eq_left
  · exact (BitVec.toNat_ofNat _ _).trans (Nat.mod_eq_of_lt (by rw [Resv.wptr]; omega))
  · exact (BitVec.toNat_ofNat _ _).trans (Nat.mod_eq_of_lt (by omega))

theorem toNat_bit_getLsbD {n : Nat} (x : BitVec n) (i : Nat) : (bit (x.getLsbD i)).toNat = x.toNat / 2 ^ i % 2 := by
  rw [BitVec.getLsbD, Nat.testBit_eq_decide_div_mod_eq]
  rcases Nat.mod_two_eq_zero_or_one (x.toNat / 2 ^ i) with h | h <;> rw [h] <;> rfl

/-- CHSEL has one value for each of its codes (R33). -/
theorem chSel_ofCode : ∀ b : BitVec 2, (ChSel.ofCode b).code = b ∧
    (ChSel.ofCode b = .both ↔ b = 0) ∧ (ChSel.ofCode b = .left ↔ b = 1) ∧
    (ChSel.ofCode b = .right ↔ b = 2) ∧ (ChSel.ofCode b = .downmix ↔ b = 3) := by
  decide

/-- CTRL reads back as bits 3:0 of the word written (R33). -/
theorem ctrl_ofWord_word (w : Word) : (Ctrl.ofWord w).word = w &&& 0xF#32 := by
  have hmask : (w &&& 0xF#32).toNat = w.toNat % 2 ^ 4 := Nat.and_two_pow_sub_one_eq_mod w.toNat 4
  have hchsel : (Ctrl.ofWord w).chsel.code = w.extractLsb' 1 2 := (chSel_ofCode _).1
  apply BitVec.eq_of_toNat_eq
  rw [ctrlWord_toNat, hmask, hchsel, extractLsb'_toNat_div]
  simp only [Ctrl.ofWord, toNat_bit_getLsbD]
  omega

/-- Settles O10: CTRL is the sum of its fields, each the bits of the word. -/
theorem ctrlWrite : Obligations.CtrlWrite := fun w _ =>
  ⟨.ofWord w, rfl, ctrl_ofWord_word w, rfl, rfl, (chSel_ofCode _).2⟩

end Sys2Proof.Machine
end

section
/-! PROOF. The header word (R106, R154-R156, R160, R161, R170): O23. -/

namespace Sys2Proof.Machine

/-! ### The CRC (R170) -/

theorem crcBit_eq (d : Bool) (crc : BitVec 16) :
    crcBit d crc = (crc <<< 1) ^^^ (if (crc.getLsbD 15 ^^ d) = true then 0x8005#16 else 0#16) := by
  rw [crcBit, BitVec.msb_eq_getLsbD_last]
  split
  · rfl
  · rw [BitVec.xor_zero]

/-- The bits of a number enter from bit `n - 1` down. -/
theorem crcBits_eq_foldl (n v : Nat) (crc : BitVec 16) :
    crcBits n v crc = ((List.range n).map fun i => v.testBit (n - 1 - i)).foldl (fun crc d => crcBit d crc) crc := by
  induction n generalizing crc with
  | zero => rfl
  | succ n ih =>
    rw [crcBits, ih, List.range_succ_eq_map, List.map_cons, List.map_map, List.foldl_cons]
    congr 1
    refine List.map_congr_left fun i _ => ?_
    show v.testBit (n - 1 - i) = v.testBit (n + 1 - 1 - (i + 1))
    congr 1
    omega

/-! ### The fields (R106, R156) -/

/-- VERSION of a version_id. -/
theorem versionOf_table : ∀ id : BitVec 2,
    (id.toNat = 3 → versionOf id = .mpeg1) ∧ (id.toNat = 2 → versionOf id = .mpeg2) ∧
      (id.toNat = 0 → versionOf id = .mpeg25) ∧ (versionOf id = .mpeg1 ↔ id.toNat = 3) := by
  decide

/-- LAYER of a layer code. -/
theorem layerOf_table : ∀ l : BitVec 2,
    (l.toNat ≠ 0 → (Fin.ofNat 4 (4 - l.toNat)).val + l.toNat = 4) ∧ (Fin.ofNat 4 (4 - l.toNat) = 3 ↔ l.toNat = 1) ∧
      (Fin.ofNat 4 (4 - l.toNat) = 1 ↔ l.toNat = 3) := by
  decide

theorem sfreqOf_table : ∀ id sr : BitVec 2, id.toNat ≠ 1 → sr.toNat ≠ 3 →
    (sfreqOf (versionOf id) sr).val = sr.toNat + if id.toNat = 3 then 3 else if id.toNat = 2 then 0 else 6 := by
  decide

theorem getLsbD_eq_decide {n : Nat} (x : BitVec n) (i : Nat) : x.getLsbD i = decide (x.toNat / 2 ^ i % 2 ^ 1 = 1) := by
  rw [BitVec.getLsbD, Nat.testBit_eq_decide_div_mod_eq, pow_one]

theorem Header.nch_eq (hd : Header) : hd.nch = if hd.mode.toNat = 3 then 1 else 2 := by
  rw [Header.nch]
  exact if_congr BitVec.toNat_inj.symm rfl rfl

/-! ### The frame size (R60, R61, R160) -/

/-- BITRATE_KBPS in the codes of the header word (R60). -/
theorem bitrateKbps_table : ∀ (id l : BitVec 2) (idx : BitVec 4), id.toNat ≠ 1 → l.toNat ≠ 0 → idx.toNat ≠ 0 →
    bitrateKbps (versionOf id) (Fin.ofNat 4 (4 - l.toNat)) idx =
      (if id.toNat = 3 then
        if l.toNat = 3 then [32, 64, 96, 128, 160, 192, 224, 256, 288, 320, 352, 384, 416, 448]
        else if l.toNat = 2 then [32, 48, 56, 64, 80, 96, 112, 128, 160, 192, 224, 256, 320, 384]
        else [32, 40, 48, 56, 64, 80, 96, 112, 128, 160, 192, 224, 256, 320]
      else if l.toNat = 3 then [32, 48, 56, 64, 80, 96, 112, 128, 144, 160, 176, 192, 224, 256]
      else [8, 16, 24, 32, 40, 48, 56, 64, 80, 96, 112, 128, 144, 160]).getD (idx.toNat - 1) 0 := by
  decide

/-- The smallest rates. -/
theorem bitrateKbps_ge : ∀ (id l : BitVec 2) (idx : BitVec 4), id.toNat ≠ 1 → l.toNat ≠ 0 → idx.toNat ≠ 0 →
    idx.toNat ≠ 15 →
      (if id.toNat = 3 ∨ l.toNat = 3 then 32 else 8) ≤ bitrateKbps (versionOf id) (Fin.ofNat 4 (4 - l.toNat)) idx := by
  decide

/-- SAMPLE_RATE_HZ in the codes of the header word (R61). -/
theorem sampleRateHz_table : ∀ id sr : BitVec 2, id.toNat ≠ 1 → sr.toNat ≠ 3 →
    sampleRateHz (versionOf id) sr =
      (if id.toNat = 3 then [44100, 48000, 32000] else if id.toNat = 2 then [22050, 24000, 16000]
        else [11025, 12000, 8000]).getD sr.toNat 0 := by
  decide

theorem sampleRateHz_le : ∀ id sr : BitVec 2, id.toNat ≠ 1 → sr.toNat ≠ 3 →
    0 < sampleRateHz (versionOf id) sr ∧ sampleRateHz (versionOf id) sr ≤ if id.toNat = 3 then 48000 else 24000 := by
  decide

/-- The quotients of R160 are large enough for the four bytes that it subtracts. -/
theorem frameSize_quotients {kbps hz : Nat} {mpeg1 layer1 : Prop} [Decidable mpeg1] [Decidable layer1] (hpos : 0 < hz)
    (hhz : hz ≤ if mpeg1 then 48000 else 24000) (hkbps : (if mpeg1 ∨ layer1 then 32 else 8) ≤ kbps) :
    (layer1 → 8 ≤ 12 * (1000 * kbps) / hz) ∧ 48 ≤ 144 * (1000 * kbps) / hz := by
  rw [Nat.le_div_iff_mul_le hpos, Nat.le_div_iff_mul_le hpos]
  refine ⟨fun hl => ?_, ?_⟩
  · rw [if_pos (Or.inr hl)] at hkbps
    split at hhz <;> omega
  · by_cases hm : mpeg1
    · rw [if_pos hm] at hhz
      rw [if_pos (Or.inl hm)] at hkbps
      omega
    · rw [if_neg hm] at hhz
      split at hkbps <;> omega

/-- The frame size with the four header bytes (R160): no subtraction in it cuts off. -/
theorem frameSize_add_four {hd : Header} {id l : BitVec 2} (hv : hd.version = versionOf id)
    (hlayer : hd.layer = Fin.ofNat 4 (4 - l.toNat)) (h1 : hd.srIdx.toNat ≠ 3) (h2 : l.toNat ≠ 0)
    (h3 : id.toNat ≠ 1) (h4 : hd.brIdx.toNat ≠ 0) (h5 : hd.brIdx.toNat ≠ 15) :
    frameSize hd + 4 =
      if l.toNat = 3 then
        (12 * (1000 * bitrateKbps hd.version hd.layer hd.brIdx) / sampleRateHz hd.version hd.srIdx +
          hd.padding.toNat) * 4
      else
        (if id.toNat = 3 then
          144 * (1000 * bitrateKbps hd.version hd.layer hd.brIdx) / sampleRateHz hd.version hd.srIdx
        else 144 * (1000 * bitrateKbps hd.version hd.layer hd.brIdx) / sampleRateHz hd.version hd.srIdx / 2) +
          hd.padding.toNat := by
  have hkbps := bitrateKbps_ge id l hd.brIdx h3 h2 h4 h5
  obtain ⟨hpos, hhz⟩ := sampleRateHz_le id hd.srIdx h3 h1
  rw [← hv, ← hlayer] at hkbps
  rw [← hv] at hpos hhz
  have hmpeg1 : hd.version ≠ .mpeg1 ↔ id.toNat ≠ 3 := by rw [hv]; exact (versionOf_table id).2.2.2.not
  have hone : hd.layer = 1 ↔ l.toNat = 3 := by rw [hlayer]; exact (layerOf_table l).2.2
  have hlsf : (hd.layer = 3 ∨ Config.lsfL2Halve = true) = True := eq_true (.inr rfl)
  obtain ⟨hq12, hq144⟩ := frameSize_quotients hpos hhz hkbps
  unfold frameSize
  dsimp only
  simp only [hone, hmpeg1, hlsf, and_true]
  by_cases hl : l.toNat = 3
  · have := hq12 hl
    rw [if_pos hl, if_pos hl]
    omega
  · rw [if_neg hl, if_neg hl]
    by_cases hi : id.toNat = 3
    · rw [if_neg (not_not.2 hi), if_pos hi]
      omega
    · rw [if_pos hi, if_neg hi]
      omega

/-! ### The sync mark (R154, R155) -/

theorem isSyncMark_iff (h : Word) (ref : SyncRef) :
    isSyncMark h ref = true ↔
      (h.extractLsb' 10 2).toNat ≠ 3 ∧ (h.extractLsb' 17 2).toNat ≠ 0 ∧ (h.extractLsb' 19 2).toNat ≠ 1 ∧
        (ref.mode = .initial → (h.extractLsb' 21 11).toNat = 0x7FF) ∧
        (ref.mode = .strict → h &&& 0xFFFE0C00#32 = ref.word ∧
          ((h.extractLsb' 6 2).toNat = 3 ↔ ref.singleCh = true)) := by
  obtain ⟨word, mode, single⟩ := ref
  have hne (x : BitVec 2) (k : BitVec 2) : x ≠ k ↔ x.toNat ≠ k.toNat := BitVec.toNat_inj.symm.not
  simp only [isSyncMark, Bool.and_eq_true, decide_eq_true_eq, hne]
  cases mode
  · have hmark : h.extractLsb' 21 11 = 0x7FF ↔ (h.extractLsb' 21 11).toNat = 0x7FF := BitVec.toNat_inj.symm
    simp only [decide_eq_true_eq, hmark]
    simp only [BitVec.extractLsb'_toNat, Nat.reducePow, BitVec.ofNat_eq_ofNat, BitVec.toNat_ofNat, Nat.mod_succ, ne_eq,
      Nat.zero_mod, Nat.one_mod, forall_const, reduceCtorEq, IsEmpty.forall_iff, and_true]
    tauto
  · have hsingle : (singleChannel h == single) = true ↔ ((h.extractLsb' 6 2).toNat = 3 ↔ single = true) := by
      have hmode : h.extractLsb' 6 2 = 3 ↔ (h.extractLsb' 6 2).toNat = 3 := BitVec.toNat_inj.symm
      rw [beq_iff_eq, Bool.eq_iff_iff, singleChannel, decide_eq_true_eq, hmode]
    have hmask : strictMask = 0xFFFE0C00#32 := rfl
    simp only [Bool.and_eq_true, decide_eq_true_eq, hsingle, hmask]
    simp only [BitVec.extractLsb'_toNat, Nat.reducePow, BitVec.ofNat_eq_ofNat, BitVec.toNat_ofNat, Nat.mod_succ, ne_eq,
      Nat.zero_mod, Nat.one_mod, forall_const, reduceCtorEq, IsEmpty.forall_iff, true_and]
    tauto

/-! ### The slots (R123, R161) -/

theorem slotCount_eq {hd : Header} {id l : BitVec 2} (hv : hd.version = versionOf id)
    (hlayer : hd.layer = Fin.ofNat 4 (4 - l.toNat)) (n : Nat) :
    slotCount hd n =
      if l.toNat = 1 then
        n - (if id.toNat = 3 then (if hd.mode.toNat = 3 then 17 else 32) else (if hd.mode.toNat = 3 then 9 else 17)) -
          (if hd.prot = true then 0 else 2)
      else 0 := by
  have hmpeg1 : hd.version = .mpeg1 ↔ id.toNat = 3 := by rw [hv]; exact (versionOf_table id).2.2.2
  have hthree : hd.layer = 3 ↔ l.toNat = 1 := by rw [hlayer]; exact (layerOf_table l).2.1
  have hnch : hd.nch = 1 ↔ hd.mode.toNat = 3 := by
    rw [Header.nch_eq]
    split
    · next h => exact iff_of_true rfl h
    · next h => exact iff_of_false (by decide) h
  simp only [slotCount, sideinfoBytes, hmpeg1, hthree, hnch]

/-- The fields of the header word, in its bits (R106, R156). -/
theorem parseHeader_fields (h : Word) :
    (parseHeader h).prot = decide ((h.extractLsb' 16 1).toNat = 1) ∧
      (parseHeader h).padding = decide ((h.extractLsb' 9 1).toNat = 1) ∧
      (parseHeader h).nch = (if (h.extractLsb' 6 2).toNat = 3 then 1 else 2) ∧
      (parseHeader h).ngr = (if (h.extractLsb' 19 2).toNat = 3 then 2 else 1) := by
  refine ⟨?_, ?_, Header.nch_eq _, if_congr (versionOf_table _).2.2.2 rfl rfl⟩
  · rw [extractLsb'_toNat_div]
    exact getLsbD_eq_decide h 16
  · rw [extractLsb'_toNat_div]
    exact getLsbD_eq_decide h 9

/-- Settles O23: each field is the bits of its place, and what SYNC derives from them is tabulated in their codes. -/
theorem headerWord : Obligations.HeaderWord := by
  intro h ref
  have hf (p n : Nat) : h.toNat / 2 ^ p % 2 ^ n = (h.extractLsb' p n).toNat := (extractLsb'_toNat_div h p n).symm
  obtain ⟨hprot, hpad, hnch, hngr⟩ := parseHeader_fields h
  obtain ⟨hv3, hv2, hv0, -⟩ := versionOf_table (h.extractLsb' 19 2)
  dsimp only
  simp only [hf]
  refine ⟨⟨⟨hv3, hv2, hv0, (layerOf_table _).1, hprot, rfl, rfl, hpad, rfl, rfl, hnch, hngr, sfreqOf_table _ _⟩,
    isSyncMark_iff h ref, fun h1 h2 h3 h4 h5 => ?_, fun n => ?_⟩, crcBit_eq, crcBits_eq_foldl 16 h.toNat _⟩
  · have hbit : (parseHeader h).padding.toNat = (h.extractLsb' 9 1).toNat := by
      rw [extractLsb'_toNat_div]
      exact (BitVec.toNat_ofBool _).symm.trans (toNat_bit_getLsbD h 9)
    have hsize := frameSize_add_four (hd := parseHeader h) (id := h.extractLsb' 19 2) (l := h.extractLsb' 17 2) rfl rfl
      h1 h2 h3 h4 h5
    have hkbps := bitrateKbps_table (h.extractLsb' 19 2) (h.extractLsb' 17 2) (h.extractLsb' 12 4) h3 h2 h4
    have hhz := sampleRateHz_table (h.extractLsb' 19 2) (h.extractLsb' 10 2) h3 h1
    rw [← hkbps, ← hhz, ← hbit]
    exact hsize
  · have hslots := slotCount_eq (hd := parseHeader h) (id := h.extractLsb' 19 2) (l := h.extractLsb' 17 2) rfl rfl n
    simp only [hprot, decide_eq_true_eq] at hslots
    exact hslots

end Sys2Proof.Machine
end

section
/-! PROOF. ANTIALIAS (R370): O43. -/

namespace Sys2Proof.Machine

/-! ### The coefficients (R69) -/

theorem aaC_real (val : Num → ℝ) {i : Nat} (hi : i < 8) : (aaC i).real val = aliasReal i := by
  interval_cases i <;> simp only [aaC, aliasReal, Exact.real_ratio, List.getD_cons_zero, List.getD_cons_succ] <;>
    norm_num

theorem aaNorm_real {val : Num → ℝ} (hval : Valuation val) {i : Nat} (hi : i < 8) :
    (aaNorm i).real val = √(1 + aliasReal i ^ 2) := by
  rw [aaNorm, Exact.real, Exact.real_plus hval, Exact.real_one, Exact.real_times, aaC_real val hi, pow_two]

theorem aaCs_real {val : Num → ℝ} (hval : Valuation val) {i : Nat} (hi : i < 8) : (aaCs i).real val = aliasCs i := by
  rw [aaCs, Exact.real_quot, Exact.real_one, aaNorm_real hval hi, aliasCs]

theorem aaCa_real {val : Num → ℝ} (hval : Valuation val) {i : Nat} (hi : i < 8) : (aaCa i).real val = aliasCa i := by
  rw [aaCa, Exact.real_quot, aaC_real val hi, aaNorm_real hval hi, aliasCa]

/-! ### The lines (R370) -/

section
variable {n sb i : Nat} (hsb : sb < n) (hi : i < 8) (xr : Lines Num)
include hsb hi

/-- The line below a boundary. -/
theorem aliasLine_below :
    Rounds (aliasLine n xr (18 * sb + 17 - i)) fun val =>
      val (lineAt xr (18 * sb + 17 - i)) * aliasCs i - val (lineAt xr (18 * sb + 18 + i)) * aliasCa i := by
  have hdiv : (18 * sb + 17 - i) / 18 = sb := by omega
  have hmod : (18 * sb + 17 - i) % 18 = 17 - i := by omega
  unfold aliasLine
  dsimp only
  rw [hdiv, hmod, if_pos ⟨by omega, hsb⟩, show 17 - (17 - i) = i by omega]
  refine ⟨_, rfl, fun val hval => ?_⟩
  rw [Exact.real_minus hval, Exact.real_times, Exact.real_times, Exact.real_ofNum hval, Exact.real_ofNum hval,
    aaCs_real hval hi, aaCa_real hval hi]

/-- The line above a boundary. -/
theorem aliasLine_above :
    Rounds (aliasLine n xr (18 * sb + 18 + i)) fun val =>
      val (lineAt xr (18 * sb + 18 + i)) * aliasCs i + val (lineAt xr (18 * sb + 17 - i)) * aliasCa i := by
  have hdiv : (18 * sb + 18 + i) / 18 = sb + 1 := by omega
  have hmod : (18 * sb + 18 + i) % 18 = i := by omega
  unfold aliasLine
  dsimp only
  rw [hdiv, hmod, if_neg (by omega), if_pos ⟨by omega, by omega, by omega⟩, Nat.add_sub_cancel]
  refine ⟨_, rfl, fun val hval => ?_⟩
  rw [Exact.real_plus hval, Exact.real_times, Exact.real_times, Exact.real_ofNum hval, Exact.real_ofNum hval,
    aaCs_real hval hi, aaCa_real hval hi]

end

/-- A line of no butterfly. -/
theorem aliasLine_other {n j : Nat} (xr : Lines Num)
    (hj : ∀ sb < n, ∀ i < 8, j ≠ 18 * sb + 17 - i ∧ j ≠ 18 * sb + 18 + i) : aliasLine n xr j = lineAt xr j := by
  unfold aliasLine
  dsimp only
  split
  · next h =>
    obtain ⟨hbelow, -⟩ := hj (j / 18) h.2 (17 - j % 18) (by omega)
    omega
  · split
    · next h =>
      obtain ⟨-, habove⟩ := hj (j / 18 - 1) h.2.2 (j % 18) (by omega)
      omega
    · rfl

/-! ### The command -/

theorem aliasBoundaries_eq (g : GranuleInfo) :
    aliasBoundaries g = if g.mixed then 1 else if g.short then 0 else 31 := by
  cases hs : g.short <;> simp [aliasBoundaries, GranuleInfo.mixed, hs]

/-- XR after ANTIALIAS: that of a pure short block is left unchanged. -/
def aliased (g : GranuleInfo) (xr : Lines Num) : Lines Num := if g.short && !g.mixed then xr else aliasLines g xr

theorem aliased_of_no_boundary {g : GranuleInfo} (h : aliasBoundaries g = 0) (xr : Lines Num) : aliased g xr = xr := by
  refine if_pos ?_
  rw [aliasBoundaries_eq] at h
  cases hm : g.mixed <;> cases hs : g.short <;> simp [hm, hs] at h ⊢

theorem lineAt_aliased (g : GranuleInfo) (xr : Lines Num) {j : Nat} (hj : j < 576) :
    lineAt (aliased g xr) j = aliasLine (aliasBoundaries g) xr j := by
  unfold aliased
  split
  · next h =>
    have hzero : aliasBoundaries g = 0 := by
      simp only [Bool.and_eq_true, Bool.not_eq_true'] at h
      simp [aliasBoundaries, h]
    rw [hzero, aliasLine_other xr fun sb hsb => absurd hsb (Nat.not_lt_zero sb)]
  · exact lineAt_tabulate _ hj

/-- ANTIALIAS gives XR and STAGE of its channel their values, and changes nothing else. -/
theorem antialias_agrees (gr ch : Fin 2) (s : State) :
    (antialias gr ch s).Agrees (s.mapChan ch fun c =>
      { c with stage := .aa, xr := aliased (s.info gr ch) (s.chan.get ch).xr }) := by
  rw [antialias]
  by_cases hshort : ((s.info gr ch).short && !(s.info gr ch).mixed) = true
  · simp only [aliased, if_pos hshort]
    exact State.agrees_refl (s.setStage ch .aa)
  · have h := (State.storeXr_agrees ch (aliasLines (s.info gr ch) (s.chan.get ch).xr) s).setStage ch .aa
    simp only [aliased, if_neg hshort]
    simp only [State.setStage, mapChan_mapChan] at h ⊢
    exact h

/-- Settles O43: the lines of the butterflies are disjoint, so that each is rounded from the old values. -/
theorem antialiasButterflies : Obligations.AntialiasButterflies := by
  intro gr ch s hr
  obtain ⟨t, ht, hagree⟩ := command_granule hr (antialias_agrees gr ch s.start)
  have hle : aliasBoundaries (s.info gr ch) ≤ 31 := by
    rw [aliasBoundaries_eq]
    split
    · decide
    · split <;> decide
  refine ⟨aliased (s.info gr ch) (s.chan.get ch).xr, t, ht, hagree, ?_⟩
  dsimp only
  rw [← aliasBoundaries_eq]
  refine ⟨fun hn => aliased_of_no_boundary hn _, fun _ => ⟨fun sb hsb i hi => ⟨?_, ?_⟩, fun j hj hother => ?_⟩⟩
  · rw [lineAt_aliased _ _ (by omega)]
    exact aliasLine_below hsb hi _
  · rw [lineAt_aliased _ _ (by omega)]
    exact aliasLine_above hsb hi _
  · rw [lineAt_aliased _ _ hj]
    exact aliasLine_other _ hother

end Sys2Proof.Machine
end

section
/-! PROOF. What `exec` runs for each command: its checks and its effects. -/

namespace Sys2Proof.Machine

/-- The checks of a command after FATAL (R104, R421). -/
def commandGuard : Instr → State → Option Err
  | .readSideInfo => guardSideInfo
  | .loadMainData => guardMainData
  | .readScalefactors gr ch => guardScalefactors gr ch
  | .huffmanDecode gr ch => guardStage .sf gr ch
  | .dequantize gr ch => guardStage .huf gr ch
  | .reorder gr ch => guardStage .dq gr ch
  | .stereo gr => guardStereo gr
  | .antialias gr ch => guardStage .st gr ch
  | .hybrid gr ch => guardStage .aa gr ch
  | .freqInvert gr ch => guardStage .hy gr ch
  | .emit gr ch => guardStage .fi gr ch
  | .nop | .resetStream | .decodeFrame | .sync | .rbPutByte _ | .rbReadBits _ | .rbRewindBits _ | .rbRewindBytes _
  | .rbTell => noGuard

/-- The effects of a command whose checks pass; NOP's are those of `start` (R410). -/
def commandRun : Instr → State → Ran
  | .nop => ended
  | .resetStream => ending resetStream
  | .decodeFrame => fun s => syncFrom true frameBody .begin (syncStart s)
  | .sync => fun s => syncFrom false syncEnd .begin (syncStart s)
  | .readSideInfo => fun s => .ended (readSideInfo s).1 (readSideInfo s).2
  | .loadMainData => fun s => .ended (loadMainData s).1 (loadMainData s).2
  | .rbPutByte imm => ending fun s => s.withRs (s.rs.put (imm.truncate 8))
  | .rbReadBits imm => ending (rbReadBits imm.toNat)
  | .rbRewindBits imm => ending fun s => s.withRs (s.rs.rewind imm.toNat)
  | .rbRewindBytes imm => ending fun s => s.withRs (s.rs.rewind (8 * imm.toNat))
  | .rbTell => ending fun s => s.answer s.rs.resv.totbit
  | .readScalefactors gr ch => ending (readScalefactors gr ch)
  | .huffmanDecode gr ch => ending (huffmanDecode gr ch)
  | .dequantize gr ch => ending (dequantize gr ch)
  | .reorder gr ch => ending (reorder gr ch)
  | .stereo gr => ending (stereo gr)
  | .antialias gr ch => ending (antialias gr ch)
  | .hybrid gr ch => ending (hybrid gr ch)
  | .freqInvert _ ch => ending (freqInvert ch)
  | .emit _ ch => fun s => sendFrom ch none ended (emitWords ch (s.chan.get ch).hout) s

/-- Every command but NOP, which FATAL does not stop (R428), is its checks and its effects. -/
theorem exec_eq_command {i : Instr} (hi : i ≠ .nop) (s : State) :
    exec i s = command (commandGuard i) (commandRun i) s := by
  cases i with
  | nop => exact absurd rfl hi
  | _ => rfl

/-- A command whose checks pass (R425). -/
theorem exec_runs {i : Instr} (hi : i ≠ .nop) {s : State} (hs : s.live) (hg : commandGuard i s.start = none) :
    exec i s = .next (complete (commandRun i s.start)) := by
  rw [exec_eq_command hi, command_runs _ hs hg]

end Sys2Proof.Machine
end

section
/-! PROOF. A command in progress is held only by its port (R91, R92, R427): O60. -/

namespace Sys2Proof.Machine

/-- With no command in progress there is nothing to hold. -/
theorem waitInv_of_idle {s : State} (h : s.held = none) : WaitInv s :=
  ⟨fun _ _ hp => absurd (h ▸ hp) nofun, fun _ _ _ hp => absurd (h ▸ hp) nofun⟩

theorem complete_ended_waitInv (s : State) (e : Err) : WaitInv (complete (.ended s e)) := waitInv_of_idle rfl

/-- A scan waits only at an empty port, since it does not run out of fuel. -/
theorem syncFrom_waitInv (frame : Bool) {andThen : State → Ran} (hthen : ∀ s, WaitInv (complete (andThen s)))
    {p : SyncPhase} (hp : p.bodySize ≤ Config.frameBufBytes) (s : State) :
    WaitInv (complete (syncFrom frame andThen p s)) := by
  have hbody : (s.scan p).phase.bodySize ≤ Config.frameBufBytes := hp
  obtain ⟨hgo, hwait⟩ := Scan.run_starved (ref := s.ref) (Scan.measure_lt_fuel hbody) hbody
  unfold syncFrom
  dsimp only
  split
  · exact hthen _
  · exact complete_ended_waitInv _ _
  · exact complete_ended_waitInv _ _
  · next sc hsc => exact ⟨fun _ _ _ => hwait sc hsc, nofun⟩
  · next sc hsc => exact absurd hsc (hgo sc)

/-- Words are left only when the sink has taken all it was ready for. -/
theorem sendFrom_waitInv (ch : Fin 2) (frame : Option (List Job × Nat)) {andThen : State → Ran}
    (hthen : ∀ s, WaitInv (complete (andThen s))) (ws : List Sample) (s : State) :
    WaitInv (complete (sendFrom ch frame andThen ws s)) := by
  unfold sendFrom State.send
  dsimp only
  split
  · exact hthen _
  · next t w left hs =>
    obtain ⟨rfl, hleft⟩ := Prod.mk.inj hs
    have hlen := congrArg List.length hleft
    simp only [List.length_drop, List.length_cons] at hlen
    refine ⟨nofun, fun _ _ _ _ => ?_⟩
    show s.env.sink - min ws.length s.env.sink = 0
    omega

theorem runJobs_waitInv (jobs : List Job) (n : Nat) (s : State) : WaitInv (complete (runJobs jobs n s)) := by
  induction jobs generalizing n s with
  | nil => exact complete_ended_waitInv _ _
  | cons j jobs ih =>
    cases j with
    | front gr ch | stereo gr =>
      unfold runJobs
      split
      · exact ih _ _
      · exact complete_ended_waitInv _ _
    | back gr ch =>
      unfold runJobs
      split
      · exact sendFrom_waitInv _ _ (ih _) _ _
      · exact complete_ended_waitInv _ _

theorem frameBody_waitInv (s : State) : WaitInv (complete (frameBody s)) := by
  unfold frameBody
  split
  · exact complete_ended_waitInv _ _
  · split
    · exact runJobs_waitInv _ _ _
    · exact complete_ended_waitInv _ _

theorem resume_waitInv {p : Progress} (hp : ∀ phase f, p = .sync phase f → phase.bodySize ≤ Config.frameBufBytes)
    (s : State) : WaitInv (complete (resume p s)) := by
  unfold resume
  split
  · exact syncFrom_waitInv _ (fun _ => complete_ended_waitInv _ _) (hp _ _ rfl) _
  · exact syncFrom_waitInv _ frameBody_waitInv (hp _ _ rfl) _
  · exact sendFrom_waitInv _ _ (fun _ => complete_ended_waitInv _ _) _ _
  · exact sendFrom_waitInv _ _ (runJobs_waitInv _ _) _ _

/-- A command that goes on waits again only at a port that gives it nothing. -/
theorem proceed_waitInv {s : State} (h : PushbackInv s) : WaitInv (proceed s) := by
  unfold proceed
  split
  · next hp => exact waitInv_of_idle hp
  · next p hp =>
    refine resume_waitInv (fun phase f hphase => ?_) s
    subst hphase
    have hscan := h.scan
    rwa [State.phase, hp] at hscan

theorem commandRun_waitInv (i : Instr) (s : State) : WaitInv (complete (commandRun i s)) := by
  cases i with
  | sync =>
    rw [commandRun]
    exact syncFrom_waitInv _ (fun _ => complete_ended_waitInv _ _) (Nat.zero_le _) _
  | decodeFrame =>
    rw [commandRun]
    exact syncFrom_waitInv _ frameBody_waitInv (Nat.zero_le _) _
  | emit gr ch =>
    rw [commandRun]
    exact sendFrom_waitInv _ _ (fun _ => complete_ended_waitInv _ _) _ _
  | _ => exact complete_ended_waitInv _ _

/-- A command that ends holds nothing; SYNC, DECODE_FRAME and EMIT wait only at a port that gives nothing. -/
theorem exec_waitInv {i : Instr} {s t : State} (ht : exec i s = .next t) : WaitInv t := by
  by_cases hi : i = .nop
  · subst hi; cases ht; exact waitInv_of_idle rfl
  · rw [exec_eq_command hi] at ht
    rcases command_cases (commandGuard i) (commandRun i) s with ⟨e, he⟩ | ⟨-, -, he⟩ <;> rw [he] at ht <;> cases ht
    · exact waitInv_of_idle rfl
    · exact commandRun_waitInv i _

/-- What is held at a port stays held there by a change of nothing that `WaitInv` reads. -/
theorem WaitInv.congr {s t : State} (h : WaitInv s) (hheld : t.held = s.held) (hpb : t.pb = s.pb)
    (heof : t.inEof = s.inEof) (hport : t.env.port = s.env.port) (hsink : t.env.sink = s.env.sink) : WaitInv t :=
  ⟨fun p f hp => by rw [hpb, heof, hport]; exact h.input p f (hheld ▸ hp),
    fun ch l f hp => by rw [hsink]; exact h.output ch l f (hheld ▸ hp)⟩

theorem hostWrite_waitInv {off : BitVec 8} {width : Width} {w : Word} {s t : State} (h : WaitInv s)
    (ht : hostWrite off width w s = .next t) : WaitInv t := by
  unfold hostWrite at ht
  split at ht
  · split at ht
    · unfold writeCmd at ht
      split at ht
      · cases ht; exact h.congr rfl rfl rfl rfl rfl
      · split at ht
        · exact exec_waitInv ht
        · cases ht; exact waitInv_of_idle rfl
    · cases ht
      unfold hostWriteRegister
      split
      · exact h.congr rfl rfl rfl rfl rfl
      · exact h
  · cases ht; exact h

theorem hostRead_waitInv {off : BitVec 8} {width : Width} {s : State} (h : WaitInv s) :
    WaitInv (hostRead off width s) := by
  unfold hostRead
  split
  · split <;> exact h.congr rfl rfl rfl rfl rfl
  · exact h.congr rfl rfl rfl rfl rfl

/-- Settles O60: whatever makes a command go on, it runs until its port gives it nothing or it ends; the bound on the
candidate's body is what keeps a scan from running out of fuel first. -/
theorem stepKeepsWaits : Obligations.StepKeepsWaits := by
  intro s t hpush h ht
  unfold step at ht
  split at ht
  · cases ht; exact proceed_waitInv hpush
  · next e _ _ =>
    have hdrop : WaitInv s.dropEvent := h.congr rfl rfl rfl rfl rfl
    have hgo : ∀ env, WaitInv (proceed { s.dropEvent with env := env }) := fun env =>
      proceed_waitInv ⟨hpush.bound, hpush.scan, hpush.probe⟩
    cases e with
    | write off width w => exact hostWrite_waitInv hdrop ht
    | read off width => cases ht; exact hostRead_waitInv hdrop
    | present l | reposition l | sinkReady n => cases ht; exact hgo _
    | powerOnReset => cases ht; exact waitInv_of_idle rfl

end Sys2Proof.Machine
end

section
/-! PROOF. Accesses on the host's bus (R80, R88, R90): O8. -/

namespace Sys2Proof.Machine

theorem aligned_iff {off : BitVec 8} {width : Width} :
    aligned off width = true ↔ width = .w32 ∧ off.toNat % 4 = 0 := by
  simp [aligned]

/-- An access that R80 does not define. -/
theorem access_undefined {off : BitVec 8} {width : Width} (h : ¬(width = .w32 ∧ off.toNat % 4 = 0)) (w : Word)
    (s : State) : hostWrite off width w s = .next s ∧ hostRead off width s = s.returns 0 := by
  have hal : ¬aligned off width = true := aligned_iff.not.2 h
  exact ⟨if_neg hal, if_neg hal⟩

/-- Only CTRL and CMD are writable (R32). -/
theorem hostWrite_readOnly {off : BitVec 8} (hctrl : off ≠ 0x00) (hcmd : off ≠ 0x04) (width : Width) (w : Word)
    (s : State) : hostWrite off width w s = .next s := by
  unfold hostWrite
  rw [if_neg hcmd, hostWriteRegister, if_neg hctrl, ite_self]

/-- A read returns a word, and may draw one free value for it (R90). -/
theorem hostRead_frame (off : BitVec 8) (width : Width) (s : State) :
    ∃ v k, hostRead off width s = { s with
      env := { s.env with rdata := v }
      rs := { s.rs with log := { s.rs.log with draws := k } } } := by
  unfold hostRead
  split
  · split
    · exact ⟨_, s.rs.log.draws + 1, rfl⟩
    · exact ⟨_, s.rs.log.draws, rfl⟩
  · exact ⟨_, s.rs.log.draws, rfl⟩

/-- A register is current while no command is in progress, STATUS always (R88, R90). -/
theorem hostRead_register {off : BitVec 8} (hoff : off.toNat % 4 = 0) {s : State} (h : s.busy = false ∨ off = 0x08) :
    hostRead off .w32 s = s.returns (s.register off) := by
  have hcurrent : ¬(s.busy && mapped off && decide (off ≠ 0x08)) = true := by
    rcases h with h | h <;> simp [h]
  rw [hostRead, if_pos (aligned_iff.2 ⟨rfl, hoff⟩), if_neg hcurrent]

/-- Settles O8. -/
theorem busAccesses : Obligations.BusAccesses := by
  intro off width w s
  exact ⟨fun h => access_undefined h w s, fun hctrl hcmd => hostWrite_readOnly hctrl hcmd width w s,
    hostRead_frame off width s, fun hw hoff hb => by rw [hw]; exact hostRead_register hoff (.inl hb),
    hostRead_register rfl (.inr rfl)⟩

end Sys2Proof.Machine
end

section
/-! PROOF. Bytes appended to the reservoir (R84, R202): where their bits then stand, and what is left as it was. -/

namespace Sys2Proof.Machine

/-! ### Bits and the number they make -/

theorem gather_testBit (f : Nat → Bool) {n k : Nat} (hk : k < n) : (gather f n).testBit (n - 1 - k) = f k := by
  induction n with
  | zero => omega
  | succ n ih =>
    have hbit : gather f (n + 1) = Nat.bit (f n) (gather f n) := by rw [gather, Nat.bit_val]
    rcases Nat.lt_succ_iff_lt_or_eq.1 hk with hlt | rfl
    · rw [hbit, show n + 1 - 1 - k = (n - 1 - k) + 1 by omega, Nat.testBit_bit_succ, ih hlt]
    · rw [hbit, show k + 1 - 1 - k = 0 by omega, Nat.testBit_bit_zero]

theorem gather_getMsbD (f : Nat → Bool) {n k : Nat} (hk : k < n) : (BitVec.ofNat n (gather f n)).getMsbD k = f k := by
  rw [BitVec.getMsbD, decide_eq_true hk, Bool.true_and, BitVec.getLsbD_ofNat, gather_testBit f hk,
    decide_eq_true (show n - 1 - k < n by omega), Bool.true_and]

/-- The bits of a word, the first as the most significant, make its number. -/
theorem gather_getMsbD_eq_toNat {n : Nat} (x : BitVec n) : gather x.getMsbD n = x.toNat := by
  have hx : BitVec.ofNat n (gather x.getMsbD n) = x := BitVec.eq_of_getMsbD_eq fun k hk => gather_getMsbD _ hk
  rw [← congrArg BitVec.toNat hx, BitVec.toNat_ofNat, Nat.mod_eq_of_lt (gather_lt _ _)]

/-! ### Putting bytes -/

theorem RS.putMany_rptr (l : List Byte) (r : RS) : (r.putMany l).resv.rptr = r.resv.rptr := by
  induction l generalizing r with
  | nil => rfl
  | cons b l ih => exact ih (r.put b)

/-- What is put does not depend on the faults recorded. -/
theorem RS.putMany_resv_congr {r q : RS} (h : r.resv = q.resv) (l : List Byte) :
    (r.putMany l).resv = (q.putMany l).resv := by
  induction l generalizing r q with
  | nil => exact h
  | cons b l ih => exact ih (congrArg (Resv.append b) h)

theorem RS.put_wbyte_toNat (b : Byte) (r : RS) :
    (r.put b).resv.wbyte.toNat = (r.resv.wbyte.toNat + 1) % 4096 := BitVec.toNat_add _ _

theorem RS.putMany_wptr (l : List Byte) (r : RS) :
    (r.putMany l).resv.wptr = (r.resv.wptr + 8 * l.length) % 32768 := by
  induction l generalizing r with
  | nil =>
    have hw := r.resv.wbyte.isLt
    simp only [RS.putMany, Resv.wptr, List.length_nil]
    omega
  | cons b l ih =>
    rw [RS.putMany, ih, Resv.wptr, RS.put_wbyte_toNat, Resv.wptr, List.length_cons]
    omega

/-- A byte that the reservoir has room for raises no fault (R202). -/
theorem RS.put_room {r : RS} (h : r.resv.avail + 8 ≤ 32768) (b : Byte) :
    (r.put b).log = r.log ∧ (r.put b).resv.avail = r.resv.avail + 8 := by
  have hb : Config.resvBits = 32768 := rfl
  refine ⟨?_, ?_⟩
  · rw [RS.put, hb, decide_eq_false (by omega), FaultLog.recordIf_false]
  · rw [RS.put, Resv.append_avail, hb, min_eq_left h]

theorem RS.putMany_room {l : List Byte} {r : RS} (h : r.resv.avail + 8 * l.length ≤ 32768) :
    (r.putMany l).log = r.log ∧ (r.putMany l).resv.avail = r.resv.avail + 8 * l.length := by
  induction l generalizing r with
  | nil => exact ⟨rfl, rfl⟩
  | cons b l ih =>
    rw [List.length_cons] at h ⊢
    obtain ⟨hlog, havail⟩ := RS.put_room (r := r) (by omega) b
    obtain ⟨hlogs, havails⟩ := ih (r := r.put b) (by omega)
    exact ⟨hlogs.trans hlog, by rw [RS.putMany, havails]; omega⟩

/-- Byte `q` of the ring after at most 4096 bytes were put: the one put there, else what it was. -/
theorem RS.putMany_get {l : List Byte} {r : RS} (hwf : r.resv.cells.wf = true) (hl : l.length ≤ 4096) {q : Nat}
    (hq : q < 4096) :
    (r.putMany l).resv.cells.get q =
      if (q + 4096 - r.resv.wbyte.toNat) % 4096 < l.length then l.getD ((q + 4096 - r.resv.wbyte.toNat) % 4096) 0
      else r.resv.cells.get q := by
  induction l generalizing r with
  | nil => rfl
  | cons b l ih =>
    have hw := r.resv.wbyte.isLt
    rw [List.length_cons] at hl ⊢
    have hput : (r.put b).resv.cells = r.resv.cells.set r.resv.wbyte.toNat b := rfl
    rw [RS.putMany, ih (hput ▸ Memory.wf_set hwf _ _) (by omega), RS.put_wbyte_toNat, hput, Memory.get_set hwf]
    by_cases hqw : q = r.resv.wbyte.toNat
    · have hd : (q + 4096 - r.resv.wbyte.toNat) % 4096 = 0 := by omega
      rw [if_neg (by omega), if_pos hqw, hd, if_pos (by omega), List.getD_cons_zero]
    · obtain ⟨k, hk⟩ : ∃ k, (q + 4096 - r.resv.wbyte.toNat) % 4096 = k + 1 :=
        ⟨(q + 4096 - r.resv.wbyte.toNat) % 4096 - 1, by omega⟩
      rw [show (q + 4096 - (r.resv.wbyte.toNat + 1) % 4096) % 4096 = k by omega, hk, if_neg hqw,
        List.getD_cons_succ]
      exact if_congr Nat.succ_lt_succ_iff.symm rfl rfl

/-- The bits put stand in stream order from the old write cursor on (R84). -/
theorem RS.putMany_bit {l : List Byte} {r : RS} (hwf : r.resv.cells.wf = true) (hl : l.length ≤ 4096) {i : Nat}
    (hi : i < 8 * l.length) :
    (r.putMany l).resv.bit (r.resv.wptr + i) = (l.getD (i / 8) 0).getMsbD (i % 8) := by
  have hw := r.resv.wbyte.isLt
  have hb : Config.resvBits = 32768 := rfl
  rw [Resv.bit, Memory.bit, hb, Resv.wptr, RS.putMany_get hwf hl (by omega),
    show ((8 * r.resv.wbyte.toNat + i) % 32768 / 8 + 4096 - r.resv.wbyte.toNat) % 4096 = i / 8 by omega,
    if_pos (by omega), show (8 * r.resv.wbyte.toNat + i) % 32768 % 8 = i % 8 by omega]

/-- Every other bit is what it was. -/
theorem RS.putMany_bit_other {l : List Byte} {r : RS} (hwf : r.resv.cells.wf = true) (hl : l.length ≤ 4096) {p : Nat}
    (hp : ∀ i < 8 * l.length, p % 32768 ≠ (r.resv.wptr + i) % 32768) :
    (r.putMany l).resv.bit p = r.resv.bit p := by
  have hw := r.resv.wbyte.isLt
  have hb : Config.resvBits = 32768 := rfl
  rw [Resv.bit, Resv.bit, Memory.bit, Memory.bit, hb, RS.putMany_get hwf hl (by omega), if_neg]
  intro hlt
  rw [Resv.wptr] at hp
  refine hp (8 * ((p % 32768 / 8 + 4096 - r.resv.wbyte.toNat) % 4096) + p % 8) (by omega) ?_
  omega

end Sys2Proof.Machine
end

section
/-! PROOF. The reservoir is a queue of bytes (R84, R202, R203): O21. -/

namespace Sys2Proof.Machine

/-- What the reservoir has unread are the bytes `l`, in order. -/
structure Resv.Holds (l : List Byte) (r : Resv) : Prop where
  avail : r.avail = 8 * l.length
  bits : ∀ i < 8 * l.length, r.bit (r.rptr.toNat + i) = (l.getD (i / 8) 0).getMsbD (i % 8)

/-- The cells are a ring (R42). -/
theorem Resv.bit_mod (r : Resv) {i j : Nat} (h : i % 32768 = j % 32768) : r.bit i = r.bit j := by
  have hb : Config.resvBits = 32768 := rfl
  rw [Resv.bit, Resv.bit, hb, h]

/-- The next eight bits are the first byte. -/
theorem Resv.Holds.peek {b : Byte} {l : List Byte} {r : Resv} (h : r.Holds (b :: l)) : r.peek 8 = b.toNat := by
  rw [Resv.peek, ← gather_getMsbD_eq_toNat b]
  refine gather_congr fun i hi => ?_
  rw [h.bits i (by simp only [List.length_cons]; omega), show i / 8 = 0 by omega, show i % 8 = i by omega,
    List.getD_cons_zero]

/-- Once it is read, the rest is left (R203). -/
theorem Resv.Holds.advance {b : Byte} {l : List Byte} {r : Resv} (h : r.Holds (b :: l)) : (r.advance 8).Holds l := by
  have havail := h.avail
  rw [List.length_cons] at havail
  refine ⟨by rw [Resv.advance_avail]; omega, fun i hi => ?_⟩
  have hptr : (r.advance 8).rptr.toNat = (r.rptr.toNat + 8) % 32768 := BitVec.toNat_add _ _
  have hbits := h.bits (8 + i) (by rw [List.length_cons]; omega)
  rw [show (8 + i) / 8 = i / 8 + 1 by omega, show (8 + i) % 8 = i % 8 by omega, List.getD_cons_succ] at hbits
  rw [← hbits]
  exact r.bit_mod (by rw [hptr]; omega)

/-- Bytes put into an empty reservoir, wherever its cursors stand. -/
theorem RS.putMany_holds {l : List Byte} {r : RS} (hok : r.Ok) (hclean : r.log.tainted = false)
    (hempty : r.resv.avail = 0) (hl : l.length ≤ 4096) : (r.putMany l).resv.Holds l := by
  have hring := hok.ring hclean
  have hb : Config.resvBits = 32768 := rfl
  have hptr := r.resv.rptr.isLt
  rw [hempty, hb, Nat.add_zero, Nat.mod_eq_of_lt (by omega)] at hring
  refine ⟨by rw [(RS.putMany_room (by omega)).2]; omega, fun i hi => ?_⟩
  rw [RS.putMany_rptr, hring]
  exact RS.putMany_bit hok.cells.1 hl hi

/-! ### The commands -/

theorem runCommands_append (is js : List Instr) (s : State) :
    runCommands (is ++ js) s =
      ((runCommands is s).1 ++ (runCommands js (runCommands is s).2).1, (runCommands js (runCommands is s).2).2) := by
  induction is generalizing s with
  | nil => rfl
  | cons i is ih =>
    obtain ⟨t, ht⟩ := exec_next i s
    simp only [List.cons_append, runCommands, ht, ih]

theorem runCommands_cons {i : Instr} {s t : State} (ht : exec i s = .next t) (is : List Instr) :
    runCommands (i :: is) s = (t.result :: (runCommands is t).1, (runCommands is t).2) := by
  rw [runCommands, ht]

/-- RB_PUT_BYTE where the reservoir has room (R202). -/
theorem exec_rbPutByte_room {s : State} (hs : s.live) (hc : s.clean) (h : s.rs.resv.avail + 8 ≤ 32768) (b : Byte) :
    ∃ t, exec (.rbPutByte (b.zeroExtend 16)) s = .next t ∧ t.result = 0 ∧ t.live ∧ t.clean ∧
      t.rs.resv = (s.rs.put b).resv := by
  have hlog : (s.start.rs.put b).log = s.freshLog := (RS.put_room (r := s.start.rs) h b).1
  have hclean : (s.start.withRs (s.start.rs.put b)).clean := (congrArg FaultLog.tainted hlog).trans hc
  have hb : (b.zeroExtend 16).truncate 8 = b := by simp
  refine ⟨_, exec_runs (i := .rbPutByte (b.zeroExtend 16)) nofun hs rfl, ?_⟩
  rw [commandRun, hb, ending, complete_clean hclean]
  exact ⟨rfl, hs, hclean, rfl⟩

/-- RB_READ_BITS 8 of bits that are there (R203). -/
theorem exec_rbReadBits_byte {s : State} (hs : s.live) (hc : s.clean) (h : 8 ≤ s.rs.resv.avail) :
    ∃ t, exec (.rbReadBits 8) s = .next t ∧ t.result = BitVec.ofNat 32 (s.rs.resv.peek 8) ∧ t.live ∧ t.clean ∧
      t.rs.resv = s.rs.resv.advance 8 := by
  have hread := RS.read_clean (r := s.start.rs) h hc
  have hbits : rbReadBits 8 s.start = { s.start with
      result := BitVec.ofNat 32 (s.rs.resv.peek 8)
      rs := { resv := s.rs.resv.advance 8, log := s.freshLog } } := by
    rw [rbReadBits, hread, if_neg (by decide)]
    exact State.answer_clean _ hc
  refine ⟨_, exec_runs (i := .rbReadBits 8) nofun hs rfl, ?_⟩
  rw [commandRun, ending, show (8 : BitVec 16).toNat = 8 from rfl, hbits, complete_clean (by exact hc)]
  exact ⟨rfl, hs, hc, rfl⟩

/-- RB_PUT_BYTE, byte after byte. -/
theorem runCommands_put {l : List Byte} {s : State} (hs : s.live) (hc : s.clean)
    (h : s.rs.resv.avail + 8 * l.length ≤ 32768) :
    ∃ t, runCommands (l.map fun b => .rbPutByte (b.zeroExtend 16)) s = (l.map fun _ => 0, t) ∧ t.live ∧ t.clean ∧
      t.rs.resv = (s.rs.putMany l).resv := by
  induction l generalizing s with
  | nil => exact ⟨s, rfl, hs, hc, rfl⟩
  | cons b l ih =>
    rw [List.length_cons] at h
    obtain ⟨u, hput, hresult, hlive, hclean, hresv⟩ := exec_rbPutByte_room hs hc (by omega) b
    have havail : (s.rs.put b).resv.avail = s.rs.resv.avail + 8 := (RS.put_room (by omega) b).2
    obtain ⟨t, ht, htlive, htclean, htresv⟩ := ih hlive hclean (by rw [hresv]; omega)
    refine ⟨t, ?_, htlive, htclean, htresv.trans (RS.putMany_resv_congr hresv l)⟩
    rw [List.map_cons, runCommands_cons hput, ht, hresult, List.map_cons]

/-- RB_READ_BITS 8, byte after byte. -/
theorem runCommands_read {l : List Byte} {s : State} (hs : s.live) (hc : s.clean) (h : s.rs.resv.Holds l) :
    (runCommands (l.map fun _ => .rbReadBits 8) s).1 = l.map (BitVec.zeroExtend 32) := by
  induction l generalizing s with
  | nil => rfl
  | cons b l ih =>
    have havail : 8 ≤ s.rs.resv.avail := by rw [h.avail, List.length_cons]; omega
    obtain ⟨t, hread, hresult, hlive, hclean, hresv⟩ := exec_rbReadBits_byte hs hc havail
    rw [List.map_cons, runCommands_cons hread, hresult, h.peek, BitVec.ofNat_toNat, List.map_cons,
      ih hlive hclean (hresv ▸ h.advance)]

/-- Settles O21: the bits put stand from the write cursor on, which is where the read cursor of an empty reservoir
stands. -/
theorem reservoirIsAFifo : Obligations.ReservoirIsAFifo := by
  intro l s hs hc hstore hempty hl
  obtain ⟨t, hput, hlive, hclean, hresv⟩ := runCommands_put (l := l) hs hc (by omega)
  have hok : s.rs.Ok := (storageInv_iff.1 hstore).1.1
  rw [runCommands_append, hput, runCommands_read hlive hclean (hresv ▸ RS.putMany_holds hok hc hempty hl)]

end Sys2Proof.Machine
end

section
/-! PROOF. LOAD_MAIN_DATA appends the frame's slots to the reservoir (R208-R214): O31. -/

namespace Sys2Proof.Machine

/-! ### The copy (R208) -/

/-- The next `n` bytes of the frame body, from its bit cursor on. -/
def FrameBuf.octets (fb : FrameBuf) (n : Nat) : List Byte :=
  (List.range n).map fun i => BitVec.ofNat 8 (fb.field (fb.bitpos + 8 * i) 8)

@[simp] theorem FrameBuf.octets_length (fb : FrameBuf) (n : Nat) : (fb.octets n).length = n := by simp [octets]

theorem FrameBuf.octets_succ (fb : FrameBuf) (n : Nat) :
    fb.octets (n + 1) =
      BitVec.ofNat 8 (fb.field fb.bitpos 8) :: FrameBuf.octets { fb with bitpos := fb.bitpos + 8 } n := by
  rw [octets, List.range_succ_eq_map, List.map_cons, List.map_map, octets]
  refine congrArg _ (List.map_congr_left fun i _ => ?_)
  show BitVec.ofNat 8 (fb.field (fb.bitpos + 8 * (i + 1)) 8) = BitVec.ofNat 8 (fb.field (fb.bitpos + 8 + 8 * i) 8)
  rw [show fb.bitpos + 8 * (i + 1) = fb.bitpos + 8 + 8 * i by omega]

/-- Their bits are the body's, in order. -/
theorem FrameBuf.octets_bit (fb : FrameBuf) {n i : Nat} (hi : i < 8 * n) :
    ((fb.octets n).getD (i / 8) 0).getMsbD (i % 8) = fb.cells.bit (fb.bitpos + i) := by
  have hget : (fb.octets n).getD (i / 8) 0 = BitVec.ofNat 8 (fb.field (fb.bitpos + 8 * (i / 8)) 8) := by
    rw [List.getD_eq_getElem _ _ (by rw [octets_length]; omega)]
    simp [octets]
  rw [hget, FrameBuf.field, gather_getMsbD _ (Nat.mod_lt _ (by decide))]
  congr 1
  omega

/-- `RbPut(FbRead(8))`, `n` times, inside the body and with room for all of it. -/
theorem Copy.slots_clean {n : Nat} {c : Copy} (hc : c.rs.log.tainted = false)
    (hfb : c.fb.bitpos + 8 * n ≤ 8 * c.fb.len) (hroom : c.rs.resv.avail + 8 * n ≤ 32768) :
    Copy.slots n c =
      { fb := { c.fb with bitpos := c.fb.bitpos + 8 * n }, rs := c.rs.putMany (c.fb.octets n) } := by
  induction n generalizing c with
  | zero => rfl
  | succ n ih =>
    have hread := FrameBuf.read_clean (fb := c.fb) (n := 8) (by omega) hc
    obtain ⟨hlog, havail⟩ := RS.put_room (r := c.rs) (by omega) (BitVec.ofNat 8 (c.fb.field c.fb.bitpos 8))
    have hstep : Copy.slots (n + 1) c = Copy.slots n {
        fb := { c.fb with bitpos := c.fb.bitpos + 8 }
        rs := c.rs.put (BitVec.ofNat 8 (c.fb.field c.fb.bitpos 8)) } := by
      rw [Copy.slots, hread]; rfl
    rw [hstep, ih ((congrArg FaultLog.tainted hlog).trans hc) (by simp only; omega) (by simp only [havail]; omega),
      FrameBuf.octets_succ, show 8 * (n + 1) = 8 + 8 * n by omega, ← Nat.add_assoc]
    rfl

theorem copied_clean {s : State} (hc : s.clean) (hfb : s.fb.bitpos + 8 * s.head.slots ≤ 8 * s.fb.len)
    (hroom : s.rs.resv.avail + 8 * s.head.slots ≤ 32768) :
    s.copied = {
      fb := { s.fb with bitpos := s.fb.bitpos + 8 * s.head.slots }
      rs := s.rs.putMany (s.fb.octets s.head.slots) } :=
  Copy.slots_clean hc hfb hroom

/-! ### The flush and the discard (R209, R212) -/

/-- Reads, rewinds and faults leave the cells and the write cursor alone. -/
theorem RS.closed_ring (a : Resv) : RS.Closed fun r => r.resv.cells = a.cells ∧ r.resv.wbyte = a.wbyte where
  read r n h := by rw [RS.read_resv]; exact h
  rewind _ _ h := h
  record _ _ h := h

theorem loadedRs_ring (s : State) :
    s.loadedRs.resv.cells = s.copied.rs.resv.cells ∧ s.loadedRs.resv.wbyte = s.copied.rs.resv.wbyte := by
  have hflush := flush_closed (RS.closed_ring s.copied.rs.resv) ⟨rfl, rfl⟩
  refine (RS.closed_ring s.copied.rs.resv).skipBytes s.newDiscard.toNat ?_
  split
  · exact hflush
  · exact hflush

/-- A discard of bits that are there (R212) records no fault. -/
theorem RS.skipBytes_log {n : Nat} {r : RS} (hc : r.log.tainted = false) (h : 8 * n ≤ r.resv.avail) :
    (r.skipBytes n).log = r.log := by
  induction n generalizing r with
  | zero => rfl
  | succ n ih =>
    rw [RS.skipBytes, RS.read_clean (by omega) hc]
    exact ih hc (by rw [Resv.advance_avail]; omega)

/-- A flush of bits that are there (R209). -/
theorem flush_log {r : RS} (hc : r.log.tainted = false) (h : (8 - r.tell % 8) % 8 ≤ r.resv.avail) :
    (flush r).1.log = r.log ∧ (flush r).1.resv.avail = r.resv.avail - (8 - r.tell % 8) % 8 := by
  unfold flush
  dsimp only
  split
  · rw [RS.read_clean (by omega) hc]
    exact ⟨rfl, by rw [Resv.advance_avail]; omega⟩
  · exact ⟨rfl, by dsimp only; omega⟩

theorem loadedRs_log {s : State} (hc : s.copied.rs.log.tainted = false)
    (h : (8 - s.rs.resv.totbit.toNat % 8) % 8 + 8 * s.newDiscard.toNat ≤ s.copied.rs.resv.avail) :
    s.loadedRs.log = s.copied.rs.log := by
  rw [← copied_tell] at h
  obtain ⟨hlog, havail⟩ := flush_log hc (by omega)
  have hskip : ∀ r : Resv, r.avail = (flush s.copied.rs).1.resv.avail →
      (RS.skipBytes s.newDiscard.toNat { (flush s.copied.rs).1 with resv := r }).log = s.copied.rs.log := fun r hr => by
    refine (RS.skipBytes_log ?_ ?_).trans hlog
    · exact (congrArg FaultLog.tainted hlog).trans hc
    · show 8 * s.newDiscard.toNat ≤ r.avail
      omega
  refine hskip _ ?_
  split <;> rfl

/-- A load that discards no more than is there records no fault. -/
theorem loadedRs_log_clean {s : State} (hc : s.clean) (hfb : s.fb.bitpos + 8 * s.head.slots ≤ 8 * s.fb.len)
    (hroom : s.rs.resv.avail + 8 * s.head.slots ≤ 32768)
    (h : (8 - s.rs.resv.totbit.toNat % 8) % 8 + 8 * s.newDiscard.toNat ≤ s.rs.resv.avail + 8 * s.head.slots) :
    s.loadedRs.log = s.rs.log := by
  have hlen := FrameBuf.octets_length s.fb s.head.slots
  obtain ⟨hlog, havail⟩ := RS.putMany_room (l := s.fb.octets s.head.slots) (r := s.rs) (by rw [hlen]; exact hroom)
  have hcopied : s.copied.rs = s.rs.putMany (s.fb.octets s.head.slots) :=
    congrArg Copy.rs (copied_clean hc hfb hroom)
  rw [← hcopied] at hlog havail
  refine (loadedRs_log ((congrArg FaultLog.tainted hlog).trans hc) ?_).trans hlog
  rwa [havail, hlen]

/-! ### The command -/

/-- Either outcome of LOAD_MAIN_DATA leaves the frame cursor, the cells and the write cursor as the copy does. -/
theorem loadMainData_copied (s : State) :
    (loadMainData s).1.fb = s.copied.fb ∧ (loadMainData s).1.rs.resv.cells = s.copied.rs.resv.cells ∧
      (loadMainData s).1.rs.resv.wbyte = s.copied.rs.resv.wbyte := by
  by_cases h : s.newDiscard.toInt < 0
  · rw [loadMainData_skip h]
    exact ⟨rfl, flush_closed (RS.closed_ring s.copied.rs.resv) ⟨rfl, rfl⟩⟩
  · rw [loadMainData_load h]
    exact ⟨rfl, loadedRs_ring s⟩

/-- Settles O31: each slot is eight bits of the body, put where the write cursor stands; the flush and the discard
read only. -/
theorem mainDataAppends : Obligations.MainDataAppends := by
  intro s hs hc hstore hl hst hfb hroom
  have hcopied := copied_clean (s := s.start) hc hfb hroom
  obtain ⟨hbuf, hcells, hwbyte⟩ := loadMainData_copied s.start
  have hwf : s.start.rs.resv.cells.wf = true := hstore.resvCells.1
  have hlen : (s.fb.octets s.head.slots).length ≤ 4096 := by rw [FrameBuf.octets_length]; omega
  have hbit : ∀ p, (loadMainData s.start).1.rs.resv.bit p =
      (s.start.rs.putMany (s.fb.octets s.head.slots)).resv.bit p := fun p => by
    rw [Resv.bit, hcells, hcopied]; rfl
  refine ⟨_, exec_runs (i := .loadMainData) nofun hs (guardMainData_none.2 ⟨hl, hst⟩), ?_⟩
  rw [commandRun, complete]
  simp only [State.finish_fb, State.finish_rs, State.settle_fb, State.settle_resv]
  refine ⟨by rw [hbuf, hcopied]; rfl, fun i hi => ?_, fun p hp => ?_, ?_, fun havail hpos => ?_⟩
  · rw [hbit, ← FrameBuf.octets_bit s.fb hi]
    exact RS.putMany_bit hwf hlen (by rw [FrameBuf.octets_length]; exact hi)
  · rw [hbit]
    exact RS.putMany_bit_other hwf hlen (by rw [FrameBuf.octets_length]; exact hp)
  · rw [Resv.wptr, hwbyte, hcopied]
    exact (RS.putMany_wptr _ _).trans (by rw [FrameBuf.octets_length]; rfl)
  · have hdiscard : s.book.frameStart - BitVec.ofNat 32 ((s.rs.resv.totbit.toNat + 7) / 8) -
        s.si.mainDataBegin.zeroExtend 32 = s.start.newDiscard := by
      rw [State.newDiscard, newMainDataEnd_eq]; rfl
    rw [hdiscard] at havail hpos
    have hlog : s.start.loadedRs.log = s.freshLog := loadedRs_log_clean hc hfb hroom havail
    rw [loadMainData_load (Int.not_lt.2 hpos), State.settle_clean (by exact (congrArg FaultLog.tainted hlog).trans hc)]
    refine ⟨hlog, ?_⟩
    show finalErr .ok s.start.loadedRs.log.first = .ok
    rw [hlog]
    rfl

end Sys2Proof.Machine
end

section
/-! PROOF. Where given bytes take a scan (R151-R158): in a window, in an ID3 tag, in the body of a candidate, in the
probe after it. -/

namespace Sys2Proof.Machine

/-! ### Words of bytes (R82) -/

theorem shiftIn_getLsbD (h : Word) (b : Byte) {i : Nat} (hi : i < 32) :
    (shiftIn h b).getLsbD i = if i < 8 then b.getLsbD i else h.getLsbD (i - 8) := by
  split
  · next h8 => simp [shiftIn, hi, h8]
  · next h8 =>
    simpa [shiftIn, hi, h8, BitVec.getLsbD_of_ge b i (by omega)] using
      (BitVec.getLsbD_eq_getElem (x := h) (i := i - 8) (by omega)).symm

/-- The four bytes of a word make it. -/
theorem wordOf_headerBytes (h : Word) : wordOf (headerBytes h) = h := by
  refine BitVec.eq_of_getLsbD_eq fun i hi => ?_
  simp only [wordOf, headerBytes, List.foldl_cons, List.foldl_nil]
  rw [shiftIn_getLsbD _ _ hi]
  split
  · next h0 => simp [h0]
  · rw [shiftIn_getLsbD _ _ (by omega)]
    split
    · next h1 => simp [h1, show 8 + (i - 8) = i by omega]
    · rw [shiftIn_getLsbD _ _ (by omega)]
      split
      · next h2 => simp [h2, show 16 + (i - 8 - 8) = i by omega]
      · rw [shiftIn_getLsbD _ _ (by omega), if_pos (by omega)]
        simp [show i - 8 - 8 - 8 < 8 by omega, show 24 + (i - 8 - 8 - 8) = i by omega]

/-- The upper three bytes of a window are those it had before the last. -/
theorem shiftIn_upper (h : Word) (b : Byte) : (shiftIn h b).extractLsb' 8 24 = h.extractLsb' 0 24 := by
  refine BitVec.eq_of_getLsbD_eq fun i hi => ?_
  rw [BitVec.getLsbD_extractLsb', BitVec.getLsbD_extractLsb', shiftIn_getLsbD _ _ (by omega), if_neg (by omega)]
  congr 2
  omega

/-! ### Runs of a scan -/

/-- The bytes `l` take a scan from `p` to `q`, whatever follows them, with nothing unread and no candidate rejected. -/
def SyncPhase.Reaches (ref : SyncRef) (l : List Byte) (p q : SyncPhase) : Prop :=
  ∀ i j n, i.Gives l j → Scan.run ref (Scan.mk p i n).fuel ⟨p, i, n⟩ = Scan.run ref (Scan.mk q j n).fuel ⟨q, j, n⟩

/-- A stream that gives no bytes is what is left. -/
theorem InStream.Gives.eq_of_nil {i j : InStream} (h : i.Gives [] j) : i = j := by
  obtain ⟨pb, inEof, port⟩ := i
  obtain ⟨jb, je, jp⟩ := j
  rcases h with ⟨hpb, he, hport⟩ | ⟨he, hjpb, hje, a, ha, hport⟩
  · exact (InStream.mk.injEq _ _ _ _ _ _).mpr ⟨hpb, he.symm, hport.symm⟩
  · obtain ⟨hpb, rfl⟩ := List.append_eq_nil_iff.1 ha.symm
    exact (InStream.mk.injEq _ _ _ _ _ _).mpr ⟨hpb.trans hjpb.symm, he.trans hje.symm, hport⟩

section
variable {ref : SyncRef} {p q r : SyncPhase}

theorem SyncPhase.reaches_nil : p.Reaches ref [] p := fun _ _ _ h => by rw [h.eq_of_nil]

theorem SyncPhase.Reaches.append {l m : List Byte} (hl : p.Reaches ref l q) (hm : q.Reaches ref m r) :
    p.Reaches ref (l ++ m) r := fun i j n h => by
  obtain ⟨k, hk, hj⟩ := h.append
  rw [hl i k n hk, hm k j n hj]

/-- One byte after which the scan goes on. -/
theorem SyncPhase.reaches_byte {b : Byte} (hp : p.bodySize ≤ Config.frameBufBytes)
    (hb : ∀ i n, Scan.byte b ref ⟨p, i, n⟩ = .go ⟨q, i, n⟩) : p.Reaches ref [b] q := fun i j n h => by
  obtain ⟨hbyte, hrest⟩ := h.take
  refine Scan.run_step hp ?_
  rw [Scan.next, hbyte, hrest.eq_of_nil]
  exact hb j n

theorem SyncPhase.Reaches.cons {b : Byte} {l : List Byte} (hp : p.bodySize ≤ Config.frameBufBytes)
    (hb : ∀ i n, Scan.byte b ref ⟨p, i, n⟩ = .go ⟨q, i, n⟩) (hl : q.Reaches ref l r) : p.Reaches ref (b :: l) r :=
  (SyncPhase.reaches_byte hp hb).append hl

/-- A scan that stops at its next InByte. -/
theorem Scan.run_stop {sc : Scan} {m : ScanMove} (hm : sc.next ref = m) (hgo : ∀ sc', m ≠ .go sc') :
    Scan.run ref sc.fuel sc = m := by
  obtain ⟨f, hf⟩ : ∃ f, sc.fuel = f + 1 := ⟨sc.fuel - 1, by unfold Scan.fuel; omega⟩
  rw [hf, Scan.run, hm]
  split
  · exact absurd rfl (hgo _)
  · rfl

/-! ### The window (R151) -/

/-- Bytes that do not fill the window. -/
theorem SyncPhase.reaches_fill {l : List Byte} {k : Nat} (h : Word) (hl : l.length ≤ k) :
    (SyncPhase.fill k h).Reaches ref l (.fill (k - l.length) (l.foldl shiftIn h)) := by
  induction l generalizing k h with
  | nil => exact SyncPhase.reaches_nil
  | cons b l ih =>
    rw [List.length_cons] at hl ⊢
    obtain ⟨k, rfl⟩ : ∃ m, k = m + 1 := ⟨k - 1, by omega⟩
    rw [Nat.add_sub_add_right]
    exact SyncPhase.Reaches.cons (Nat.zero_le _) (fun _ _ => rfl) (ih (shiftIn h b) (by omega))

/-- Four bytes, where the full window goes on without a rejection. -/
theorem SyncPhase.reaches_window {a b c d : Byte}
    (hw : ∀ sc : Scan, sc.window (wordOf [a, b, c, d]) ref = { sc with phase := q }) :
    SyncPhase.begin.Reaches ref [a, b, c, d] q :=
  (SyncPhase.reaches_fill (l := [a, b, c]) 0 le_rfl).append
    (SyncPhase.reaches_byte (Nat.zero_le _) fun i n => congrArg ScanMove.go (hw ⟨_, i, n⟩))

/-! ### The ID3 tag (R152) -/

/-- An ID3 tag begins, whatever its version is. -/
theorem SyncPhase.reaches_tag (major : Byte) : SyncPhase.begin.Reaches ref [0x49, 0x44, 0x33, major] (.tag []) := by
  refine SyncPhase.reaches_window fun sc => ?_
  rw [Scan.window, if_pos]
  exact (shiftIn_upper (wordOf [0x49, 0x44, 0x33]) major).trans (by decide)

/-- A byte of the header of a tag, but its last. -/
theorem Scan.byte_tag {b : Byte} {rev : List Byte} (hl : rev.length < 5) (i : InStream) (m : Word) :
    Scan.byte b ref ⟨.tag rev, i, m⟩ = .go ⟨.tag (b :: rev), i, m⟩ := by
  simp only [Scan.byte, if_pos hl]

/-- The last byte of the header, of a tag that is not empty. -/
theorem Scan.byte_tagSize {b : Byte} {rev : List Byte} {n : Nat} (hl : 5 ≤ rev.length)
    (hn : tagSize (b :: rev) = n + 1) (i : InStream) (m : Word) :
    Scan.byte b ref ⟨.tag rev, i, m⟩ = .go ⟨.skip n, i, m⟩ := by
  simp only [Scan.byte, if_neg (Nat.not_lt.2 hl), hn]

/-- The last byte of the header, of an empty tag. -/
theorem Scan.byte_tagEmpty {b : Byte} {rev : List Byte} (hl : 5 ≤ rev.length) (hn : tagSize (b :: rev) = 0)
    (i : InStream) (m : Word) : Scan.byte b ref ⟨.tag rev, i, m⟩ = .go ⟨.begin, i, m⟩ := by
  simp only [Scan.byte, if_neg (Nat.not_lt.2 hl), hn]

/-- The header of a tag, as long as it is not complete. -/
theorem SyncPhase.reaches_tagHeader {l rev : List Byte} (hl : rev.length + l.length ≤ 5) :
    (SyncPhase.tag rev).Reaches ref l (.tag (l.reverse ++ rev)) := by
  induction l generalizing rev with
  | nil => exact SyncPhase.reaches_nil
  | cons b l ih =>
    rw [List.length_cons] at hl
    rw [List.reverse_cons, List.append_assoc]
    exact SyncPhase.Reaches.cons (Nat.zero_le _) (Scan.byte_tag (by omega))
      (ih (rev := b :: rev) (by rw [List.length_cons]; omega))

/-- The header of a tag that is not empty. -/
theorem SyncPhase.reaches_skip {revision flags s0 s1 s2 s3 : Byte} {n : Nat} (hn : id3Size s0 s1 s2 s3 = n + 1) :
    (SyncPhase.tag []).Reaches ref [revision, flags, s0, s1, s2, s3] (.skip n) := by
  have hsize : tagSize (s3 :: ([revision, flags, s0, s1, s2].reverse ++ [])) = n + 1 := hn
  exact (SyncPhase.reaches_tagHeader (l := [revision, flags, s0, s1, s2]) le_rfl).append
    (SyncPhase.reaches_byte (Nat.zero_le _) (Scan.byte_tagSize le_rfl hsize))

/-- Bytes of the tag, but not its last. -/
theorem SyncPhase.reaches_skipping {l : List Byte} {n : Nat} (hl : l.length ≤ n) :
    (SyncPhase.skip n).Reaches ref l (.skip (n - l.length)) := by
  induction l generalizing n with
  | nil => exact SyncPhase.reaches_nil
  | cons b l ih =>
    rw [List.length_cons] at hl ⊢
    obtain ⟨n, rfl⟩ : ∃ m, n = m + 1 := ⟨n - 1, by omega⟩
    rw [Nat.add_sub_add_right]
    exact SyncPhase.Reaches.cons (Nat.zero_le _) (fun _ _ => rfl) (ih (by omega))

/-! ### The candidate (R158, R162) -/

/-- The first byte of a sync mark is not that of an ID3 tag. -/
theorem not_id3_of_mark {h : Word} (hm : h.extractLsb' 21 11 = 0x7FF#11) : h.extractLsb' 8 24 ≠ 0x494433#24 := by
  intro hid
  have h1 := congrArg (BitVec.getLsbD · 10) hm
  have h2 := congrArg (BitVec.getLsbD · 23) hid
  simp at h1 h2
  rw [h1] at h2
  cases h2

/-- The body of a legal header holds its CRC word (R160). -/
theorem two_le_frameSize {h : Word} (hl : LegalHeader h) : 2 ≤ frameSize (parseHeader h) := by
  obtain ⟨hsr, hlayer, hid, h0, h15, -⟩ := hl
  have hne {n : Nat} {x k : BitVec n} (h : x ≠ k) : x.toNat ≠ k.toNat := BitVec.toNat_inj.not.2 h
  have hsize := frameSize_add_four (hd := parseHeader h) (id := h.extractLsb' 19 2) (l := h.extractLsb' 17 2) rfl rfl
    (hne hsr) (hne hlayer) (hne hid) (hne h0) (hne h15)
  obtain ⟨hpos, hhz⟩ := sampleRateHz_le (h.extractLsb' 19 2) (h.extractLsb' 10 2) (hne hid) (hne hsr)
  have hkbps := bitrateKbps_ge (h.extractLsb' 19 2) (h.extractLsb' 17 2) (h.extractLsb' 12 4) (hne hid) (hne hlayer)
    (hne h0) (hne h15)
  obtain ⟨hq12, hq144⟩ := frameSize_quotients hpos hhz hkbps
  split at hsize
  · next h3 =>
    have hq := hq12 h3
    have hq' : 8 ≤ 12 * (1000 * bitrateKbps (parseHeader h).version (parseHeader h).layer (parseHeader h).brIdx) /
      sampleRateHz (parseHeader h).version (parseHeader h).srIdx := hq
    omega
  · have hq' : 48 ≤ 144 * (1000 * bitrateKbps (parseHeader h).version (parseHeader h).layer (parseHeader h).brIdx) /
      sampleRateHz (parseHeader h).version (parseHeader h).srIdx := hq144
    split at hsize <;> omega

/-- A header that SYNC may accept is a candidate with a body. -/
theorem SyncPhase.reaches_candidate {s : State} {h : Word} (hm : s.marks h) (hl : LegalHeader h) {n : Nat}
    (hn : frameSize (parseHeader h) = n + 1) : SyncPhase.begin.Reaches s.ref (headerBytes h) (.body h n []) := by
  obtain ⟨hmark, hsync⟩ := hm
  obtain ⟨-, -, -, h0, h15, hsize⟩ := hl
  refine SyncPhase.reaches_window fun sc => ?_
  have hfits : ¬((parseHeader h).brIdx = 0 ∨ (parseHeader h).brIdx = 15 ∨
      Config.frameBufBytes < frameSize (parseHeader h)) := by
    rintro (e | e | e)
    · exact h0 e
    · exact h15 e
    · omega
  rw [show wordOf [h.extractLsb' 24 8, h.extractLsb' 16 8, h.extractLsb' 8 8, h.extractLsb' 0 8] = h from
    wordOf_headerBytes h, Scan.window, if_neg (not_id3_of_mark hmark), if_pos hsync]
  dsimp only
  rw [if_neg hfits, hn]

/-- Bytes of the body, but not its last. -/
theorem SyncPhase.reaches_body {l rev : List Byte} {h : Word} {n : Nat} (hl : l.length ≤ n)
    (hsize : rev.length + n + 1 ≤ Config.frameBufBytes) :
    (SyncPhase.body h n rev).Reaches ref l (.body h (n - l.length) (l.reverse ++ rev)) := by
  induction l generalizing n rev with
  | nil => exact SyncPhase.reaches_nil
  | cons b l ih =>
    rw [List.length_cons] at hl ⊢
    obtain ⟨n, rfl⟩ : ∃ m, n = m + 1 := ⟨n - 1, by omega⟩
    rw [Nat.add_sub_add_right, List.reverse_cons, List.append_assoc]
    exact SyncPhase.Reaches.cons hsize (fun _ _ => rfl)
      (ih (rev := b :: rev) (by omega) (by rw [List.length_cons]; omega))

/-- The whole body. -/
theorem SyncPhase.reaches_probe {body : List Byte} {h : Word} {n : Nat} (hl : body.length = n + 1)
    (hsize : n + 1 ≤ Config.frameBufBytes) : (SyncPhase.body h n []).Reaches ref body (.probe h body []) := by
  obtain ⟨l, b, rfl⟩ : ∃ l b, body = l ++ [b] :=
    ⟨_, _, (List.dropLast_append_getLast (List.ne_nil_of_length_eq_add_one hl)).symm⟩
  rw [List.length_append, List.length_singleton, Nat.add_right_cancel_iff] at hl
  subst hl
  refine (SyncPhase.reaches_body le_rfl (by simpa using hsize)).append (SyncPhase.reaches_byte ?_ fun i m => ?_)
  · simpa [SyncPhase.bodySize] using hsize
  · simp [Scan.byte]

/-- Bytes of the next header, but not its last. -/
theorem SyncPhase.reaches_probing {l rev body : List Byte} {h : Word} (hl : rev.length + l.length ≤ 3)
    (hsize : body.length ≤ Config.frameBufBytes) :
    (SyncPhase.probe h body rev).Reaches ref l (.probe h body (l.reverse ++ rev)) := by
  induction l generalizing rev with
  | nil => exact SyncPhase.reaches_nil
  | cons b l ih =>
    rw [List.length_cons] at hl
    rw [List.reverse_cons, List.append_assoc]
    refine SyncPhase.Reaches.cons hsize (fun _ _ => ?_) (ih (rev := b :: rev) (by rw [List.length_cons]; omega))
    exact if_pos (show rev.length < 3 by omega)

/-- A header with its whole body. -/
theorem State.frameOf.reaches {s : State} {h : Word} {body : List Byte} (hf : s.frameOf h body) :
    SyncPhase.begin.Reaches s.ref (headerBytes h ++ body) (.probe h body []) := by
  obtain ⟨hm, hl, hbody⟩ := hf
  obtain ⟨-, -, -, -, -, hsize⟩ := id hl
  obtain ⟨n, hn⟩ : ∃ n, frameSize (parseHeader h) = n + 1 :=
    ⟨frameSize (parseHeader h) - 1, by have := two_le_frameSize hl; omega⟩
  exact (SyncPhase.reaches_candidate hm hl hn).append (SyncPhase.reaches_probe (hbody.trans hn) (hn ▸ hsize))

end

end Sys2Proof.Machine
end

section
/-! PROOF. SYNC at the end of the stream and at an I/O error (R162, R163): O26. -/

namespace Sys2Proof.Machine

/-- A scan that the bytes of the stream take to where it stops. -/
theorem SyncPhase.Reaches.run {ref : SyncRef} {l : List Byte} {p q : SyncPhase} (hr : p.Reaches ref l q)
    {i j : InStream} (hg : i.Gives l j) {n : Word} {m : ScanMove} (hm : Scan.next ref ⟨q, j, n⟩ = m)
    (hgo : ∀ sc, m ≠ .go sc) : Scan.run ref (Scan.mk p i n).fuel ⟨p, i, n⟩ = m :=
  (hr i j n hg).trans (Scan.run_stop hm hgo)

theorem Scan.next_atEnd {sc : Scan} (h : sc.stream.AtEnd) (ref : SyncRef) :
    sc.next ref = Scan.eof { sc with stream := { sc.stream with inEof := true } } := by
  rw [Scan.next, h.take]

theorem Scan.next_atError {sc : Scan} (h : sc.stream.AtError) (ref : SyncRef) : sc.next ref = .failed sc := by
  rw [Scan.next, h.take]

/-- The scan is in no probe of a next header, where alone the end of the stream is none of the scan (R158). -/
def SyncPhase.Ends (q : SyncPhase) : Prop := ∀ h body rev, q ≠ .probe h body rev

theorem Scan.eof_of_ends {sc : Scan} (h : sc.phase.Ends) : sc.eof = .ended sc := by
  unfold Scan.eof
  split
  · next hp => exact absurd hp (h _ _ _)
  · next hp => exact absurd hp (h _ _ _)
  all_goals rfl

/-- In a tag that is not over. -/
theorem SyncPhase.reaches_in_tag {ref : SyncRef} {tag : List Byte}
    (h : tag.length < 7 ∨
      tag.length < 7 + id3Size (tag.getD 3 0) (tag.getD 4 0) (tag.getD 5 0) (tag.getD 6 0)) :
    ∃ q, SyncPhase.begin.Reaches ref ([0x49, 0x44, 0x33] ++ tag) q ∧ q.Ends := by
  match tag with
  | [] => exact ⟨_, SyncPhase.reaches_fill 0 le_rfl, nofun⟩
  | major :: l =>
    have hbegin := SyncPhase.reaches_tag (ref := ref) major
    by_cases hshort : l.length ≤ 5
    · exact ⟨_, hbegin.append (SyncPhase.reaches_tagHeader (by simpa using hshort)), nofun⟩
    · match l with
      | revision :: flags :: s0 :: s1 :: s2 :: s3 :: rest =>
        simp only [List.length_cons, List.getD_cons_succ, List.getD_cons_zero] at h
        obtain ⟨n, hn⟩ : ∃ n, id3Size s0 s1 s2 s3 = n + 1 := ⟨id3Size s0 s1 s2 s3 - 1, by omega⟩
        exact ⟨_, hbegin.append ((SyncPhase.reaches_skip hn).append
          (SyncPhase.reaches_skipping (l := rest) (by omega))), nofun⟩
      | [] | [_] | [_, _] | [_, _, _] | [_, _, _, _] | [_, _, _, _, _] => simp at hshort

/-- Where the bytes of R162 and R163 leave the scan. -/
theorem State.Unfinished.reaches {s : State} {l : List Byte} (h : s.Unfinished l) :
    ∃ q, SyncPhase.begin.Reaches s.ref l q ∧ q.Ends := by
  rcases h with hl | ⟨tag, rfl, htag⟩ | ⟨h, body, rfl, hm, hlegal, hbody⟩
  · exact ⟨_, SyncPhase.reaches_fill 0 (Nat.le_of_lt_succ hl), nofun⟩
  · exact SyncPhase.reaches_in_tag htag
  · obtain ⟨-, -, -, -, -, hsize⟩ := id hlegal
    obtain ⟨n, hn⟩ : ∃ n, frameSize (parseHeader h) = n + 1 := ⟨frameSize (parseHeader h) - 1, by omega⟩
    refine ⟨_, (SyncPhase.reaches_candidate hm hlegal hn).append (SyncPhase.reaches_body (l := body) ?_ ?_), nofun⟩
    · omega
    · rw [List.length_nil]; omega

/-! ### SYNC by how its scan stops -/

/-- How SYNC goes on from state `s` where its scan has stopped so (R150, R163, R427). -/
def syncStop (frame : Bool) (andThen : State → Ran) (s : State) : ScanMove → Ran
  | .accept h body sc => andThen (accept h body (s.withScan sc))
  | .ended sc => .ended { s.withScan sc with status := { s.status with eos := true } } .endOfStream
  | .failed sc => .ended { s.withScan sc with status := { s.status with fatal := true } } .fatalIo
  | .waits sc => .waiting (.sync sc.phase frame) (s.withScan sc)
  | .go sc => .waiting (.sync sc.phase frame) (s.withScan sc)

theorem syncFrom_of_run {frame : Bool} {andThen : State → Ran} {p : SyncPhase} {s : State} {m : ScanMove}
    (hm : Scan.run s.ref (s.scan p).fuel (s.scan p) = m) :
    syncFrom frame andThen p s = syncStop frame andThen s m := by
  unfold syncFrom
  dsimp only
  rw [hm]
  cases m <;> rfl

/-- SYNC whose checks pass (R150). -/
theorem exec_sync_runs {s : State} (hs : s.live) :
    exec .sync s = .next (complete (syncFrom false syncEnd .begin (syncStart s.start))) :=
  exec_runs (i := .sync) nofun hs rfl

theorem syncStart_chan (s : State) (c : Fin 2) : (syncStart s).chan.get c = { s.chan.get c with stage := .idle } :=
  setStages_chan .idle c s

/-- Settles O26: the bytes leave the scan in a window, a tag or a body, where the end of the stream ends it, or in the
probe; an I/O error ends it anywhere. -/
theorem syncAtTheEnd : Obligations.SyncAtTheEnd := by
  intro s l j hs hg
  refine ⟨fun hu hend => ?_, fun hu herr => ?_⟩
  · obtain ⟨q, hr, hq⟩ := hu.reaches
    have hnext : Scan.next s.ref ⟨q, j, s.resync⟩ = .ended ⟨q, { j with inEof := true }, s.resync⟩ :=
      (Scan.next_atEnd hend s.ref).trans (Scan.eof_of_ends hq)
    refine ⟨_, (syncStart s.start).chan, exec_sync_runs hs, ?_, syncStart_chan s.start⟩
    rw [syncFrom_of_run (s := syncStart s.start) (hr.run hg hnext nofun)]
    obtain ⟨pb, inEof, port⟩ := j
    obtain ⟨hpb, -⟩ := hend
    cases hpb
    exact complete_agrees _ _
  · obtain ⟨q, hr⟩ : ∃ q, SyncPhase.begin.Reaches s.ref l q := by
      rcases hu with hu | ⟨h, body, p, hf, hp, rfl⟩
      · obtain ⟨q, hr, -⟩ := hu.reaches
        exact ⟨q, hr⟩
      · obtain ⟨-, ⟨-, -, -, -, -, hsize⟩, hbody⟩ := id hf
        exact ⟨_, hf.reaches.append (SyncPhase.reaches_probing (by simpa using Nat.le_of_lt_succ hp) (hbody ▸ hsize))⟩
    have hnext : Scan.next s.ref ⟨q, j, s.resync⟩ = .failed ⟨q, j, s.resync⟩ := Scan.next_atError herr s.ref
    refine ⟨_, (syncStart s.start).chan, exec_sync_runs hs, ?_, syncStart_chan s.start⟩
    rw [syncFrom_of_run (s := syncStart s.start) (hr.run hg hnext nofun)]
    obtain ⟨pb, inEof, port⟩ := j
    obtain ⟨hpb, heof, -⟩ := herr
    cases hpb
    cases heof
    exact complete_agrees _ _

end Sys2Proof.Machine
end

section
/-! PROOF. SYNC accepts a frame (R157, R158): O24. -/

namespace Sys2Proof.Machine

/-! ### The scan -/

/-- The last byte of a sync mark after the body accepts the frame, and the mark is unread (R158). -/
theorem Scan.next_probe_mark {ref : SyncRef} {h : Word} {body : List Byte} {a b c d : Byte} {i j : InStream} {n : Word}
    (hg : i.Gives [d] j) (hm : isSyncMark (wordOf [a, b, c, d]) ref = true) :
    Scan.next ref ⟨.probe h body [c, b, a], i, n⟩ =
      .accept h body ⟨.probe h body [c, b, a], { j with pb := [a, b, c, d] ++ j.pb }, n⟩ := by
  obtain ⟨hbyte, hrest⟩ := hg.take
  rw [Scan.next, hbyte, hrest.eq_of_nil]
  exact if_pos hm

/-- The scan of a stream with a frame stops at it. -/
theorem State.hasFrame.run {s : State} {h : Word} {body : List Byte} {k : InStream} (hf : s.hasFrame h body k)
    (n : Word) :
    ∃ phase, Scan.run s.ref (Scan.mk .begin s.stream n).fuel ⟨.begin, s.stream, n⟩ =
      .accept h body ⟨phase, k, n⟩ := by
  obtain ⟨hframe, j, hg, hnext⟩ := hf
  obtain ⟨-, ⟨-, -, -, -, -, hsize⟩, hbody⟩ := id hframe
  rw [hframe.reaches _ j n hg]
  rcases hnext with ⟨hend, rfl⟩ | ⟨q, r, hq, hj, rfl⟩
  · exact ⟨_, Scan.run_stop (Scan.next_atEnd hend s.ref) nofun⟩
  · obtain ⟨i, hi, hlast⟩ := InStream.Gives.append (l := (headerBytes q).take 3) (m := [q.extractLsb' 0 8]) hj
    rw [SyncPhase.reaches_probing (rev := []) le_rfl (hbody ▸ hsize) j i n hi]
    exact ⟨_, Scan.run_stop (Scan.next_probe_mark hlast ((wordOf_headerBytes q).symm ▸ hq)) nofun⟩

/-! ### Accept (R157) -/

theorem FrameBuf.load_get {fb : FrameBuf} (hwf : fb.cells.wf = true) (body : List Byte) (i : Nat) :
    (fb.load body).cells.get i = if i < body.length then body.getD i 0 else fb.cells.get i := by
  rw [FrameBuf.load, Memory.get_fill hwf]
  simp

/-- The first two bytes of the body, as the CRC word is read (R10, R157). -/
theorem FrameBuf.load_crcWord {fb : FrameBuf} (hwf : fb.cells.wf = true) {body : List Byte} (hb : 2 ≤ body.length) :
    BitVec.ofNat 16 ((fb.load body).field 0 16) = body.getD 0 0 ++ body.getD 1 0 := by
  refine BitVec.eq_of_getMsbD_eq fun i hi => ?_
  rw [FrameBuf.field, gather_getMsbD _ hi, Memory.bit, FrameBuf.load_get hwf, if_pos (by omega), Nat.zero_add,
    BitVec.getMsbD_append]
  split
  · next hge => rw [show i / 8 = 1 by omega, show i % 8 = i - 8 by omega]
  · next hlt => rw [show i / 8 = 0 by omega, show i % 8 = i by omega]

/-- What a frame with room for its CRC word leaves, with no fault recorded. -/
theorem accept_clean {s : State} (hc : s.clean) (h : Word) {body : List Byte} (hb : 2 ≤ body.length) :
    accept h body s = { s with
      ref := s.ref.capture h
      head := {
        hdr := h, fields := parseHeader h, frameSize := body.length
        slots := slotCount (parseHeader h) body.length }
      fb := { s.fb.load body with bitpos := if h.getLsbD 16 then 0 else 16 }
      crc := { s.crc with
        engine := crcStart h
        crcRead := if h.getLsbD 16 then 0 else BitVec.ofNat 16 ((s.fb.load body).field 0 16) }
      status := { s.status with
        hdrValid := true, layer3 := decide ((parseHeader h).layer = 3)
        lsf := decide ((parseHeader h).version ≠ .mpeg1), nch2 := decide ((parseHeader h).nch = 2) } } := by
  have hread := FrameBuf.read_clean (n := 16) (fb := s.fb.load body) (log := s.rs.log)
    (show 0 + 16 ≤ 8 * body.length by omega) hc
  have hprot : (parseHeader h).prot = h.getLsbD 16 := rfl
  unfold accept
  dsimp only
  rw [hprot]
  cases h.getLsbD 16
  · rw [readCrcWord, if_neg Bool.false_ne_true, hread]
    rfl
  · rfl

/-- The strict-sync reference (R157). -/
theorem capture_initial {ref : SyncRef} (hm : ref.mode = .initial) (h : Word) :
    ref.capture h =
      { word := h &&& 0xFFFE0C00#32, mode := .strict, singleCh := decide (h.extractLsb' 6 2 = 3) } := by
  rw [SyncRef.capture, hm]
  rfl

theorem capture_strict {ref : SyncRef} (hm : ref.mode = .strict) (h : Word) : ref.capture h = ref := by
  rw [SyncRef.capture, hm]

/-- Settles O24: the scan finds the candidate, takes its body and stops after the probe; a legal frame has room for its
CRC word, so that Accept records no fault. -/
theorem syncAcceptsFrame : Obligations.SyncAcceptsFrame := by
  intro h body k s hs hc hstore hf
  obtain ⟨phase, hrun⟩ := hf.run s.resync
  obtain ⟨-, hlegal, hbody⟩ := hf.1
  have hwf : s.fb.cells.wf = true := hstore.fbCells.1
  have htwo : 2 ≤ body.length := hbody ▸ two_le_frameSize hlegal
  refine ⟨_, exec_sync_runs hs, ?_⟩
  rw [syncFrom_of_run (s := syncStart s.start) hrun, syncStop, accept_clean (by exact hc) h htwo, syncEnd,
    State.answer_clean _ (by exact hc), complete_clean (by exact hc)]
  refine ⟨rfl, fun hm => capture_initial hm h, fun hm => capture_strict hm h, rfl, fun i hi => ?_, fun i hi => ?_, rfl,
    rfl, rfl, ?_, syncStart_chan s.start⟩
  · exact (FrameBuf.load_get hwf body i).trans (if_pos hi)
  · exact (FrameBuf.load_get hwf body i).trans (if_neg (Nat.not_lt.2 hi))
  · rw [← FrameBuf.load_crcWord hwf htwo]
    rfl

end Sys2Proof.Machine
end

section
/-! PROOF. The effects of the commands do not see what comes later at the ports, nor which command is held: each is the
same before and after an arrival (R91, R92). -/

namespace Sys2Proof.Machine

/-- The state with `p` held, where the byte source presents `m` after what it already has and the sink is ready for `b`
further words. -/
def State.amid (p : Option Progress) (m : List Transfer) (b : Nat) (s : State) : State :=
  { s with held := p, env := { s.env with port := s.env.port ++ m, sink := s.env.sink + b } }

/-- `f` does the same before and after an arrival. -/
def Steady (f : State → State) : Prop := ∀ p m b s, f (s.amid p m b) = (f s).amid p m b

theorem Steady.comp {f g : State → State} (hf : Steady f) (hg : Steady g) : Steady fun s => g (f s) :=
  fun p m b s => by
    dsimp only
    rw [hf, hg]

theorem Steady.ite {c : State → Prop} [DecidablePred c] {f g : State → State}
    (hc : ∀ p m b s, c (s.amid p m b) ↔ c s) (hf : Steady f) (hg : Steady g) :
    Steady fun s => if c s then f s else g s := fun p m b s => by
  dsimp only
  rw [if_congr (hc p m b s) (hf p m b s) (hg p m b s)]
  split <;> rfl

section
variable (p : Option Progress) (m : List Transfer) (b : Nat) (s : State)

/-! ### What an arrival leaves as it is -/

@[simp] theorem State.amid_head : (s.amid p m b).head = s.head := rfl
@[simp] theorem State.amid_chan : (s.amid p m b).chan = s.chan := rfl
@[simp] theorem State.amid_rs : (s.amid p m b).rs = s.rs := rfl
@[simp] theorem State.amid_si : (s.amid p m b).si = s.si := rfl
@[simp] theorem State.amid_info (gr ch : Fin 2) : (s.amid p m b).info gr ch = s.info gr ch := rfl
@[simp] theorem State.amid_nch : (s.amid p m b).nch = s.nch := rfl

/-! ### The operations -/

@[simp] theorem mapChan_amid (ch : Fin 2) (f : Chan → Chan) :
    (s.amid p m b).mapChan ch f = (s.mapChan ch f).amid p m b := rfl

@[simp] theorem setStage_amid (ch : Fin 2) (x : Stage) :
    (s.amid p m b).setStage ch x = (s.setStage ch x).amid p m b := rfl

@[simp] theorem withRs_amid (r : RS) : (s.amid p m b).withRs r = (s.withRs r).amid p m b := rfl

end

theorem storeOrFree_steady {α : Type} (x : α) (free : Nat → α) {store : α → State → State}
    (h : ∀ v, Steady (store v)) : Steady (State.storeOrFree x free store) := fun p m b s => by
  unfold State.storeOrFree
  rw [State.amid_rs]
  split
  · exact h _ p m b s.drawn
  · exact h _ p m b s

section
variable (p : Option Progress) (m : List Transfer) (b : Nat) (s : State) (ch : Fin 2)

@[simp] theorem storeQuantised_amid (v : Quantised) :
    (s.amid p m b).storeQuantised ch v = (s.storeQuantised ch v).amid p m b :=
  storeOrFree_steady v _ (fun _ _ _ _ _ => rfl) p m b s

@[simp] theorem storeScf_amid (v : Scf) : (s.amid p m b).storeScf ch v = (s.storeScf ch v).amid p m b :=
  storeOrFree_steady v _ (fun _ _ _ _ _ => rfl) p m b s

@[simp] theorem storeLsf_amid (v : LsfInfo) : (s.amid p m b).storeLsf ch v = (s.storeLsf ch v).amid p m b :=
  storeOrFree_steady v _ (fun _ _ _ _ _ => rfl) p m b s

@[simp] theorem storeXr_amid (v : Lines Num) : (s.amid p m b).storeXr ch v = (s.storeXr ch v).amid p m b :=
  storeOrFree_steady v _ (fun _ _ _ _ _ => rfl) p m b s

@[simp] theorem storeHout_amid (v : Lines Num) : (s.amid p m b).storeHout ch v = (s.storeHout ch v).amid p m b :=
  storeOrFree_steady v _ (fun _ _ _ _ _ => rfl) p m b s

@[simp] theorem storePrev_amid (v : Lines Num) : (s.amid p m b).storePrev ch v = (s.storePrev ch v).amid p m b :=
  storeOrFree_steady v _ (fun _ _ _ _ _ => rfl) p m b s

@[simp] theorem answer_amid (w : Word) : (s.amid p m b).answer w = (s.answer w).amid p m b :=
  storeOrFree_steady w _ (fun _ _ _ _ _ => rfl) p m b s

@[simp] theorem settle_amid : (s.amid p m b).settle = s.settle.amid p m b := by
  unfold State.settle
  rw [State.amid_rs]
  split <;> rfl

end

/-! ### The commands -/

theorem rbReadBits_steady (n : Nat) : Steady (rbReadBits n) := fun p m b s => by
  unfold rbReadBits
  dsimp only
  split
  · rfl
  · simp

theorem dequantize_steady (gr ch : Fin 2) : Steady (dequantize gr ch) := fun p m b s => by
  simp [dequantize]

theorem reorder_steady (gr ch : Fin 2) : Steady (reorder gr ch) := fun p m b s => by
  unfold reorder
  dsimp only
  rw [State.amid_info]
  split <;> simp

theorem antialias_steady (gr ch : Fin 2) : Steady (antialias gr ch) := fun p m b s => by
  unfold antialias
  dsimp only
  rw [State.amid_info]
  split <;> simp

theorem hybrid_steady (gr ch : Fin 2) : Steady (hybrid gr ch) := fun p m b s => by
  simp [hybrid]

theorem freqInvert_steady (ch : Fin 2) : Steady (freqInvert ch) := fun p m b s => by
  simp [freqInvert]

theorem emitEnd_steady (ch : Fin 2) : Steady (emitEnd ch) := fun p m b s => by
  simp [emitEnd]

theorem foldl_steady {f : Fin 2 → State → State} (hf : ∀ ch, Steady (f ch)) (l : List (Fin 2)) :
    Steady fun s => l.foldl (fun s ch => f ch s) s := fun p m b s => by
  induction l generalizing s with
  | nil => rfl
  | cons ch l ih =>
    simp only [List.foldl_cons, hf ch p m b s]
    exact ih (f ch s)

theorem stereoLines_steady (gr : Fin 2) : Steady (stereoLines gr) := fun p m b s => by
  unfold stereoLines
  dsimp only
  rw [State.amid_nch]
  split
  · rw [storeXr_amid, storeXr_amid]
    rfl
  · rfl

theorem select_steady : Steady select := by
  have hdownmix : Steady fun s => if s.nch = 2 ∧ s.cmdCtrl.chsel = .downmix then
      s.storeXr 0 (tabulate 576 fun j => average (lineAt s.chan.c0.xr j) (lineAt s.chan.c1.xr j)) else s :=
    Steady.ite (fun _ _ _ _ => Iff.rfl) (fun p m b s => storeXr_amid p m b s 0 _) fun _ _ _ _ => rfl
  have hstages : Steady fun s =>
      s.channels.foldl (fun t ch => t.setStage ch (if s.sel.contains ch then .st else .em)) s := fun p m b s =>
    foldl_steady (f := fun ch t => t.setStage ch (if s.sel.contains ch then .st else .em)) (fun _ _ _ _ _ => rfl)
      s.channels p m b s
  exact hdownmix.comp hstages

theorem stereo_steady (gr : Fin 2) : Steady (stereo gr) := fun p m b s => by
  rw [stereo, stereo, stereoLines_steady, select_steady]

theorem readScfMpeg1_steady (gr ch : Fin 2) : Steady (readScfMpeg1 gr ch) := fun p m b s => by
  simp [readScfMpeg1]

theorem getLsfScaleData_steady (ch : Fin 2) : Steady (getLsfScaleData ch) := fun p m b s => by
  unfold getLsfScaleData
  exact storeLsf_amid p m b { s with si := _ } ch _

theorem readScfLsf_steady (ch : Fin 2) : Steady (readScfLsf ch) := fun p m b s => by
  unfold readScfLsf
  rw [getLsfScaleData_steady]
  exact storeScf_amid p m b ((getLsfScaleData ch s).withRs _) ch _

theorem readScalefactors_steady (gr ch : Fin 2) : Steady (readScalefactors gr ch) := by
  have hopen : Steady fun s => State.mapChan ch (fun c => { c with grp := gr, part2Start := s.rs.resv.totbit })
      { s with order := { s.order with partOpen := true } } := fun _ _ _ _ => rfl
  have hread : Steady fun s =>
      if s.head.fields.version = .mpeg1 then readScfMpeg1 gr ch s else readScfLsf ch s :=
    Steady.ite (fun _ _ _ _ => Iff.rfl) (readScfMpeg1_steady gr ch) (readScfLsf_steady ch)
  exact (hopen.comp hread).comp fun p m b s => setStage_amid p m b s ch .sf

theorem huffmanDecode_steady (gr ch : Fin 2) : Steady (huffmanDecode gr ch) := fun p m b s => by
  unfold huffmanDecode
  dsimp only
  rw [withRs_amid, mapChan_amid, storeQuantised_amid]
  rfl

theorem resetStream_steady : Steady resetStream := fun _ _ _ _ => rfl

theorem syncStart_steady : Steady syncStart := fun _ _ _ _ => rfl

theorem strobe_steady (w : OutWord) : Steady (State.strobe w) := fun _ _ _ _ => rfl

/-! ### The stages of DECODE_FRAME -/

/-- The same of an effect that may raise a code. -/
def SteadyRaise (f : State → State × Err) : Prop := ∀ p m b s, f (s.amid p m b) = ((f s).1.amid p m b, (f s).2)

theorem readSideInfo_steady : SteadyRaise readSideInfo := fun p m b s => by
  have htake : takeSideInfo (s.amid p m b) = (takeSideInfo s).amid p m b := rfl
  unfold readSideInfo
  dsimp only
  rw [htake, show ((takeSideInfo s).amid p m b).rejection = (takeSideInfo s).rejection from rfl]
  split <;> rfl

theorem loadMainData_steady : SteadyRaise loadMainData := fun p m b s => by
  by_cases h : s.newDiscard.toInt < 0
  · rw [loadMainData_skip h, loadMainData_skip (s := s.amid p m b) h]
    rfl
  · rw [loadMainData_load h, loadMainData_load (s := s.amid p m b) h, enterMd_chan_eq, enterMd_chan_eq]
    rfl

end Sys2Proof.Machine
end

section
/-! PROOF. A scan at a port that more comes to (R91, R427): as far as it could run without that it runs the same, and
where it waited it goes on. -/

namespace Sys2Proof.Machine

/-- The stream whose source will present `m` after what it has. -/
def InStream.more (m : List Transfer) (i : InStream) : InStream := { i with port := i.port ++ m }

/-- The scan of that stream. -/
def Scan.more (m : List Transfer) (sc : Scan) : Scan := { sc with stream := sc.stream.more m }

/-- Where a scan stops, with more at the port behind it. -/
def ScanMove.more (m : List Transfer) : ScanMove → ScanMove
  | .go sc => .go (sc.more m)
  | .accept h body sc => .accept h body (sc.more m)
  | .ended sc => .ended (sc.more m)
  | .failed sc => .failed (sc.more m)
  | .waits sc => .waits (sc.more m)

/-- InByte at a port that is not empty. -/
theorem InStream.take_more {i : InStream} (h : i.take.1 ≠ .nothing) (m : List Transfer) :
    (i.more m).take = (i.take.1, i.take.2.more m) := by
  obtain ⟨pb, inEof, port⟩ := i
  cases pb with
  | cons b pb => rfl
  | nil =>
    cases inEof with
    | true => rfl
    | false =>
      cases port with
      | nil => exact absurd rfl h
      | cons t port => cases t <;> rfl

theorem Scan.window_more (h : Word) (ref : SyncRef) (m : List Transfer) (sc : Scan) :
    (sc.more m).window h ref = (sc.window h ref).more m := by
  by_cases hid : h.extractLsb' 8 24 = 0x494433#24
  · simp only [Scan.window, if_pos hid]
    rfl
  · by_cases hsync : isSyncMark h ref = true
    · simp only [Scan.window, if_neg hid, if_pos hsync]
      generalize frameSize (parseHeader h) = size
      split_ifs
      · rfl
      · cases size <;> rfl
    · simp only [Scan.window, if_neg hid, if_neg hsync]
      rfl

theorem Scan.byte_more (b : Byte) (ref : SyncRef) (m : List Transfer) (sc : Scan) :
    (sc.more m).byte b ref = (sc.byte b ref).more m := by
  obtain ⟨phase, stream, n⟩ := sc
  cases phase with
  | fill k h =>
    cases k with
    | zero => exact congrArg ScanMove.go (Scan.window_more _ _ _ _)
    | succ k => rfl
  | shift h => exact congrArg ScanMove.go (Scan.window_more _ _ _ _)
  | tag rev =>
    rw [Scan.more]
    by_cases hl : rev.length < 5
    · rw [Scan.byte_tag hl, Scan.byte_tag hl]
      rfl
    · cases hsize : tagSize (b :: rev) with
      | zero =>
        rw [Scan.byte_tagEmpty (by omega) hsize, Scan.byte_tagEmpty (by omega) hsize]
        rfl
      | succ k =>
        rw [Scan.byte_tagSize (by omega) hsize, Scan.byte_tagSize (by omega) hsize]
        rfl
  | skip n => cases n <;> rfl
  | body h left rev => cases left <;> rfl
  | probe h body rev =>
    by_cases hl : rev.length < 3
    · simp only [Scan.byte, Scan.more, if_pos hl]
      rfl
    · by_cases hm : isSyncMark (wordOf (b :: rev).reverse) ref = true
      · simp only [Scan.byte, Scan.more, if_neg hl, if_pos hm]
        rfl
      · simp only [Scan.byte, Scan.more, if_neg hl, if_neg hm]
        rfl

theorem Scan.eof_more (m : List Transfer) (sc : Scan) : (sc.more m).eof = sc.eof.more m := by
  obtain ⟨phase, stream, n⟩ := sc
  cases phase with
  | probe h body rev => cases rev <;> rfl
  | _ => rfl

/-- One InByte that does not wait. -/
theorem Scan.next_more {ref : SyncRef} {sc : Scan} (h : ∀ sc', sc.next ref ≠ .waits sc') (m : List Transfer) :
    (sc.more m).next ref = (sc.next ref).more m := by
  have hsome : sc.stream.take.1 ≠ .nothing := fun hn => h { sc with stream := sc.stream.take.2 } (by
    rw [Scan.next, hn])
  have htake := InStream.take_more hsome m
  unfold Scan.next
  rw [show (sc.more m).stream = sc.stream.more m from rfl, htake]
  dsimp only
  split
  · exact Scan.byte_more _ ref m { sc with stream := sc.stream.take.2 }
  · exact Scan.eof_more m { sc with stream := sc.stream.take.2 }
  · rfl
  · next hn => exact absurd hn hsome

/-- How a scan that stopped so goes on when more comes to the port. -/
def ScanMove.resumed (ref : SyncRef) (m : List Transfer) : ScanMove → ScanMove
  | .waits sc => Scan.run ref (sc.more m).fuel (sc.more m)
  | .go sc => .go (sc.more m)
  | .accept h body sc => .accept h body (sc.more m)
  | .ended sc => .ended (sc.more m)
  | .failed sc => .failed (sc.more m)

/-- A scan that has more at the port from the start does what the scan without it does and then goes on from there. -/
theorem Scan.run_resumed {ref : SyncRef} {sc : Scan} (hb : sc.phase.bodySize ≤ Config.frameBufBytes)
    (m : List Transfer) :
    Scan.run ref (sc.more m).fuel (sc.more m) = (Scan.run ref sc.fuel sc).resumed ref m := by
  suffices hrun : ∀ fuel, sc.measure < fuel →
      Scan.run ref (sc.more m).fuel (sc.more m) = (Scan.run ref fuel sc).resumed ref m from
    hrun _ (Scan.measure_lt_fuel hb)
  intro fuel hf
  induction fuel generalizing sc with
  | zero => omega
  | succ fuel ih =>
    rw [Scan.run]
    cases hn : sc.next ref with
    | go sc1 =>
      obtain ⟨hlt, hb1⟩ := Scan.next_measure hb hn
      have hmore : (sc.more m).next ref = .go (sc1.more m) := by
        rw [Scan.next_more (by rw [hn]; nofun), hn]; rfl
      rw [Scan.run_step (sc := sc.more m) hb hmore]
      exact ih hb1 (by omega)
    | waits sc1 =>
      cases Scan.next_waits hn
      rfl
    | accept h body sc1 | ended sc1 | failed sc1 =>
      have hmore := Scan.next_more (ref := ref) (sc := sc) (by rw [hn]; nofun) m
      rw [hn] at hmore
      exact Scan.run_stop hmore nofun

end Sys2Proof.Machine
end

section
/-! PROOF. A command held by its port goes on to the state that it would have reached at once (R91, R92, R427): O47. -/

namespace Sys2Proof.Machine

/-- The state after an arrival at its ports, before the command in progress goes on. -/
def State.later (m : List Transfer) (b : Nat) (s : State) : State := s.amid s.held m b

/-- Running with more at the ports from the start is running without it and going on when it comes. -/
def Resumes (run : State → Ran) : Prop :=
  ∀ p m b s, complete (run (s.amid p m b)) = proceed ((complete (run s)).later m b)

/-- Which command was held when `run` began leaves no trace. -/
def HeldFree (run : State → Ran) : Prop :=
  ∀ (p : Option Progress) (s : State), complete (run { s with held := p }) = complete (run s)

theorem State.amid_sink (p : Option Progress) (b : Nat) (s : State) :
    s.amid p [] b = { s with held := p, env := { s.env with sink := s.env.sink + b } } := by
  rw [State.amid, List.append_nil]

/-- The arrival of nothing. -/
theorem State.amid_nothing (p : Option Progress) (s : State) : s.amid p [] 0 = { s with held := p } :=
  State.amid_sink p 0 s

theorem Resumes.heldFree {run : State → Ran} (h : Resumes run) : HeldFree run := fun p s =>
  calc complete (run { s with held := p })
    _ = complete (run (s.amid p [] 0)) := by rw [State.amid_nothing]
    _ = complete (run (s.amid s.held [] 0)) := (h p [] 0 s).trans (h s.held [] 0 s).symm
    _ = complete (run s) := by rw [State.amid_nothing]

/-- An arrival after a command has ended starts nothing. -/
theorem complete_ended_amid (p : Option Progress) (m : List Transfer) (b : Nat) (t : State) (e : Err) :
    complete (.ended (t.amid p m b) e) = proceed ((complete (.ended t e)).later m b) := by
  rw [complete, settle_amid]
  rfl

theorem ended_resumes (e : Err) : Resumes fun s => .ended s e := fun p m b s => complete_ended_amid p m b s e

theorem Steady.resumes {f : State → State} (hf : Steady f) (e : Err) : Resumes fun s => .ended (f s) e :=
  fun p m b s => by
    dsimp only
    rw [hf, complete_ended_amid]

theorem SteadyRaise.resumes {f : State → State × Err} (hf : SteadyRaise f) :
    Resumes fun s => .ended (f s).1 (f s).2 := fun p m b s => by
  dsimp only
  rw [hf, complete_ended_amid]

theorem Resumes.comp {run : State → Ran} {f : State → State} (hrun : Resumes run) (hf : Steady f) :
    Resumes fun s => run (f s) := fun p m b s => by
  dsimp only
  rw [hf, hrun]

/-! ### The stages of DECODE_FRAME -/

/-- Goes on with `k` if the stage raised nothing. -/
def stageThen (k : State → Ran) (r : State × Err) : Ran := if r.2 = .ok then k r.1 else .ended r.1 r.2

theorem stageThen_eq_match (k : State → Ran) (r : State × Err) :
    (match r with
      | (s, .ok) => k s
      | (s, e) => .ended s e) = stageThen k r := by
  obtain ⟨t, e⟩ := r
  cases e <;> rfl

theorem Resumes.stageThen {k : State → Ran} (hk : Resumes k) {f : State → State × Err} (hf : SteadyRaise f) :
    Resumes fun s => stageThen k (f s) := fun p m b s => by
  dsimp only
  rw [hf, Machine.stageThen, Machine.stageThen]
  split
  · exact hk p m b _
  · exact complete_ended_amid p m b _ _

theorem SteadyRaise.thenStage {f g : State → State × Err} (hf : SteadyRaise f) (hg : SteadyRaise g) :
    SteadyRaise (thenStage f g) := fun p m b s => by
  unfold Machine.thenStage
  dsimp only
  rw [hf]
  split
  · exact hg p m b _
  · rfl

theorem SteadyRaise.runStage {f : State → State × Err} (hf : SteadyRaise f) {g : State → Option Err}
    (hg : ∀ p m b s, g (s.amid p m b) = g s) : SteadyRaise (runStage g f) := fun p m b s => by
  unfold Machine.runStage
  rw [hg]
  split
  · rfl
  · exact hf p m b s

theorem Steady.runPlain {f : State → State} (hf : Steady f) {g : State → Option Err}
    (hg : ∀ p m b s, g (s.amid p m b) = g s) : SteadyRaise (runPlain g f) :=
  SteadyRaise.runStage (fun p m b s => by rw [hf]) hg

theorem guardStage_amid (x : Stage) (gr ch : Fin 2) (p : Option Progress) (m : List Transfer) (b : Nat) (s : State) :
    guardStage x gr ch (s.amid p m b) = guardStage x gr ch s := rfl

theorem runFront_steady (gr ch : Fin 2) : SteadyRaise (runFront gr ch) :=
  ((readScalefactors_steady gr ch).runPlain fun _ _ _ _ => rfl).thenStage
    (((huffmanDecode_steady gr ch).runPlain (guardStage_amid _ _ _)).thenStage
      (((dequantize_steady gr ch).runPlain (guardStage_amid _ _ _)).thenStage
        ((reorder_steady gr ch).runPlain (guardStage_amid _ _ _))))

theorem runBack_steady (gr ch : Fin 2) : SteadyRaise (runBack gr ch) :=
  ((antialias_steady gr ch).runPlain (guardStage_amid _ _ _)).thenStage
    (((hybrid_steady gr ch).runPlain (guardStage_amid _ _ _)).thenStage
      (((freqInvert_steady ch).runPlain (guardStage_amid _ _ _)).thenStage
        (Steady.runPlain (fun _ _ _ _ => rfl) (guardStage_amid _ _ _))))

/-! ### Emit (R92) -/

/-- The state after the sink has taken the words `l`. -/
def State.sent (l : List Sample) (s : State) : State :=
  { s with env := { s.env with sink := s.env.sink - l.length, out := s.env.out ++ l.map OutWord.sample } }

theorem State.send_eq (ws : List Sample) (s : State) :
    s.send ws = (s.sent (ws.take s.env.sink), ws.drop s.env.sink) := by
  rcases Nat.le_total ws.length s.env.sink with h | h
  · simp [State.send, State.sent, Nat.min_eq_left h, List.take_of_length_le h, List.drop_of_length_le h]
  · simp [State.send, State.sent, Nat.min_eq_right h, Nat.min_eq_left h]

/-- What the sink takes later follows what it takes now. -/
theorem State.send_amid {ws : List Sample} {s : State} (h : s.env.sink ≤ ws.length) (p : Option Progress)
    (m : List Transfer) (b : Nat) :
    (s.amid p m b).send ws = ((s.sent (ws.take s.env.sink)).amid p m b).send (ws.drop s.env.sink) := by
  simp [State.send_eq, State.sent, State.amid, Nat.min_eq_left h, List.take_add, Nat.add_sub_add_left]

/-- The words that the sink has room for already. -/
theorem State.sent_amid {ws : List Sample} {s : State} (h : ws.length ≤ s.env.sink) (p : Option Progress)
    (m : List Transfer) (b : Nat) : (s.amid p m b).sent ws = (s.sent ws).amid p m b := by
  simp [State.sent, State.amid, Nat.sub_add_comm h]

section
variable {ch : Fin 2} {frame : Option (List Job × Nat)} {andThen : State → Ran} {ws : List Sample} {s : State}

theorem sendFrom_done (h : ws.length ≤ s.env.sink) :
    sendFrom ch frame andThen ws s = andThen (emitEnd ch (s.sent ws)) := by
  rw [sendFrom, State.send_eq, List.drop_of_length_le h, List.take_of_length_le h]

theorem sendFrom_waits (h : s.env.sink < ws.length) :
    sendFrom ch frame andThen ws s =
      .waiting (.emit ch (ws.drop s.env.sink) frame) (s.sent (ws.take s.env.sink)) := by
  rw [sendFrom, State.send_eq]
  cases hleft : ws.drop s.env.sink with
  | nil => exact absurd (List.drop_eq_nil_iff.1 hleft) (Nat.not_le.2 h)
  | cons w left => rfl

theorem sendFrom_heldFree (hthen : Resumes andThen) (ws : List Sample) : HeldFree (sendFrom ch frame andThen ws) :=
  fun p s => by
    rcases Nat.lt_or_ge s.env.sink ws.length with h | h
    · rw [sendFrom_waits h, sendFrom_waits (s := { s with held := p }) h]
      rfl
    · rw [sendFrom_done h, sendFrom_done (s := { s with held := p }) h]
      exact (hthen.comp (emitEnd_steady ch)).heldFree p (s.sent ws)

/-- EMIT waits with the words that the sink has not taken. -/
theorem sendFrom_resumes (hthen : Resumes andThen)
    (hresume : ∀ l, resume (.emit ch l frame) = sendFrom ch frame andThen l) (ws : List Sample) :
    Resumes (sendFrom ch frame andThen ws) := fun p m b s => by
  rcases Nat.lt_or_ge s.env.sink ws.length with h | h
  · have hsplit : sendFrom ch frame andThen ws (s.amid p m b) =
        sendFrom ch frame andThen (ws.drop s.env.sink) ((s.sent (ws.take s.env.sink)).amid p m b) := by
      rw [sendFrom, State.send_amid (Nat.le_of_lt h), ← sendFrom]
    rw [hsplit, sendFrom_waits h]
    show _ = complete (resume (.emit ch _ frame) _)
    rw [hresume]
    exact sendFrom_heldFree hthen _ p ((s.sent (ws.take s.env.sink)).amid _ m b)
  · have hroom : ws.length ≤ (s.amid p m b).env.sink := Nat.le_add_right_of_le h
    rw [sendFrom_done h, sendFrom_done hroom, State.sent_amid h]
    exact hthen.comp (emitEnd_steady ch) p m b (s.sent ws)

/-- EMIT of the words that the channel holds. -/
theorem emit_resumes (hthen : Resumes andThen)
    (hresume : ∀ l, resume (.emit ch l frame) = sendFrom ch frame andThen l) :
    Resumes fun s => sendFrom ch frame andThen (emitWords ch (s.chan.get ch).hout) s := fun p m b s =>
  sendFrom_resumes hthen hresume (emitWords ch (s.chan.get ch).hout) p m b s

end

/-! ### InByte (R91) -/

/-- The next state of a scan is that of the scan, not of the ports that it began at. -/
theorem syncStop_amid {frame : Bool} {andThen : State → Ran} (hthen : HeldFree andThen) (mv : ScanMove) (sc : Scan)
    (p q : Option Progress) (m : List Transfer) (b : Nat) (s : State) :
    complete (syncStop frame andThen (s.amid p m b) mv) =
      complete (syncStop frame andThen ((s.withScan sc).amid q m b) mv) := by
  cases mv with
  | accept h body sc1 => exact hthen p (accept h body (((s.withScan sc).amid q m b).withScan sc1))
  | ended sc1 =>
    exact (ended_resumes .endOfStream).heldFree p
      { ((s.withScan sc).amid q m b).withScan sc1 with status := { s.status with eos := true } }
  | failed sc1 =>
    exact (ended_resumes .fatalIo).heldFree p
      { ((s.withScan sc).amid q m b).withScan sc1 with status := { s.status with fatal := true } }
  | waits sc1 | go sc1 => rfl

/-- SYNC waits with its scan as far as it has come. -/
theorem syncFrom_resumes {frame : Bool} {andThen : State → Ran} (hthen : Resumes andThen)
    (hresume : ∀ phase, resume (.sync phase frame) = syncFrom frame andThen phase) {phase : SyncPhase}
    (hb : phase.bodySize ≤ Config.frameBufBytes) : Resumes (syncFrom frame andThen phase) := fun p m b s => by
  have hbody : (s.scan phase).phase.bodySize ≤ Config.frameBufBytes := hb
  obtain ⟨hgo, -⟩ := Scan.run_starved (ref := s.ref) (Scan.measure_lt_fuel hbody) hbody
  have hmore : Scan.run s.ref ((s.amid p m b).scan phase).fuel ((s.amid p m b).scan phase) =
      (Scan.run s.ref (s.scan phase).fuel (s.scan phase)).resumed s.ref m := Scan.run_resumed hbody m
  rw [syncFrom_of_run (s := s.amid p m b) hmore, syncFrom_of_run (s := s) rfl]
  cases hrun : Scan.run s.ref (s.scan phase).fuel (s.scan phase) with
  | accept h body sc => exact hthen p m b (accept h body (s.withScan sc))
  | ended sc =>
    exact complete_ended_amid p m b { s.withScan sc with status := { s.status with eos := true } } .endOfStream
  | failed sc =>
    exact complete_ended_amid p m b { s.withScan sc with status := { s.status with fatal := true } } .fatalIo
  | go sc => exact absurd hrun (hgo sc)
  | waits sc =>
    show _ = complete (resume (.sync sc.phase frame) _)
    rw [hresume, syncFrom_of_run rfl]
    exact syncStop_amid hthen.heldFree _ sc p _ m b s

/-! ### The commands -/

theorem frameEnd_resumes (n : Nat) : Resumes (frameEnd n) := by
  have hstrobe : Steady fun s => if 0 < n then s.strobe .frameEnd else s :=
    Steady.ite (fun _ _ _ _ => Iff.rfl) (strobe_steady .frameEnd) fun _ _ _ _ => rfl
  exact (hstrobe.comp fun p m b s => answer_amid p m b s (BitVec.ofNat 32 n)).resumes .ok

theorem runJobs_front (gr ch : Fin 2) (jobs : List Job) (n : Nat) (s : State) :
    runJobs (.front gr ch :: jobs) n s = stageThen (runJobs jobs n) (runFront gr ch s) := by
  rw [runJobs]
  exact stageThen_eq_match _ _

theorem runJobs_stereo (gr : Fin 2) (jobs : List Job) (n : Nat) (s : State) :
    runJobs (.stereo gr :: jobs) n s = stageThen (runJobs jobs n) (runPlain (guardStereo gr) (stereo gr) s) := by
  rw [runJobs]
  exact stageThen_eq_match _ _

/-- EMIT of DECODE_FRAME with the jobs that come after it. -/
def emitThen (ch : Fin 2) (jobs : List Job) (n : Nat) (s : State) : Ran :=
  sendFrom ch (some (jobs, n)) (runJobs jobs (n + 576)) (emitWords ch (s.chan.get ch).hout) s

theorem runJobs_back (gr ch : Fin 2) (jobs : List Job) (n : Nat) (s : State) :
    runJobs (.back gr ch :: jobs) n s = stageThen (emitThen ch jobs n) (runBack gr ch s) := by
  rw [runJobs]
  exact stageThen_eq_match _ _

theorem emitThen_resumes {ch : Fin 2} {jobs : List Job} {n : Nat} (h : Resumes (runJobs jobs (n + 576))) :
    Resumes (emitThen ch jobs n) := emit_resumes h fun _ => rfl

theorem runJobs_resumes (jobs : List Job) (n : Nat) : Resumes (runJobs jobs n) := by
  induction jobs generalizing n with
  | nil => exact frameEnd_resumes n
  | cons j jobs ih =>
    cases j with
    | front gr ch =>
      rw [funext (runJobs_front gr ch jobs n)]
      exact (ih n).stageThen (runFront_steady gr ch)
    | stereo gr =>
      rw [funext (runJobs_stereo gr jobs n)]
      exact (ih n).stageThen ((stereo_steady gr).runPlain fun _ _ _ _ => rfl)
    | back gr ch =>
      rw [funext (runJobs_back gr ch jobs n)]
      exact (emitThen_resumes (ih (n + 576))).stageThen (runBack_steady gr ch)

/-- The stages of DECODE_FRAME before its granules. -/
def frameStages : State → State × Err :=
  thenStage (runStage guardSideInfo readSideInfo) (runStage guardMainData loadMainData)

/-- The granules of DECODE_FRAME. -/
def frameGranules (s : State) : Ran := runJobs (frameJobs s.granules s.channels s.sel) 0 s

theorem frameBody_eq (s : State) :
    frameBody s = if s.head.fields.layer ≠ 3 then
      .ended { s with status := { s.status with skipped := true } } .notLayer3
      else stageThen frameGranules (frameStages s) := by
  rw [frameBody]
  exact if_congr Iff.rfl rfl (stageThen_eq_match _ _)

theorem frameStages_steady : SteadyRaise frameStages :=
  (readSideInfo_steady.runStage fun _ _ _ _ => rfl).thenStage (loadMainData_steady.runStage fun _ _ _ _ => rfl)

theorem frameGranules_resumes : Resumes frameGranules := fun p m b s =>
  runJobs_resumes (frameJobs s.granules s.channels s.sel) 0 p m b s

theorem frameBody_resumes : Resumes frameBody := fun p m b s => by
  have hskip : Steady fun s => { s with status := { s.status with skipped := true } } := fun _ _ _ _ => rfl
  rw [frameBody_eq, frameBody_eq, State.amid_head]
  split
  · exact hskip.resumes .notLayer3 p m b s
  · exact frameGranules_resumes.stageThen frameStages_steady p m b s

theorem rs_steady (f : RS → RS) : Steady fun s => s.withRs (f s.rs) := fun _ _ _ _ => rfl

theorem commandRun_resumes (i : Instr) : Resumes (commandRun i) := by
  cases i with
  | nop => exact ended_resumes .ok
  | resetStream => exact resetStream_steady.resumes .ok
  | decodeFrame => exact (syncFrom_resumes frameBody_resumes (fun _ => rfl) (Nat.zero_le _)).comp syncStart_steady
  | sync =>
    have hend : Resumes syncEnd := Steady.resumes (fun p m b s => answer_amid p m b s s.head.hdr) .ok
    exact (syncFrom_resumes hend (fun _ => rfl) (Nat.zero_le _)).comp syncStart_steady
  | readSideInfo => exact readSideInfo_steady.resumes
  | loadMainData => exact loadMainData_steady.resumes
  | rbPutByte imm => exact (rs_steady fun r => r.put (imm.truncate 8)).resumes .ok
  | rbRewindBits imm => exact (rs_steady fun r => r.rewind imm.toNat).resumes .ok
  | rbRewindBytes imm => exact (rs_steady fun r => r.rewind (8 * imm.toNat)).resumes .ok
  | rbReadBits imm => exact (rbReadBits_steady imm.toNat).resumes .ok
  | rbTell => exact Steady.resumes (fun p m b s => answer_amid p m b s s.rs.resv.totbit) .ok
  | readScalefactors gr ch => exact (readScalefactors_steady gr ch).resumes .ok
  | huffmanDecode gr ch => exact (huffmanDecode_steady gr ch).resumes .ok
  | dequantize gr ch => exact (dequantize_steady gr ch).resumes .ok
  | reorder gr ch => exact (reorder_steady gr ch).resumes .ok
  | stereo gr => exact (stereo_steady gr).resumes .ok
  | antialias gr ch => exact (antialias_steady gr ch).resumes .ok
  | hybrid gr ch => exact (hybrid_steady gr ch).resumes .ok
  | freqInvert gr ch => exact (freqInvert_steady ch).resumes .ok
  | emit gr ch =>
    rw [commandRun]
    exact emit_resumes (ended_resumes .ok) fun _ => rfl

theorem commandGuard_amid (i : Instr) (p : Option Progress) (m : List Transfer) (b : Nat) (s : State) :
    commandGuard i (s.amid p m b) = commandGuard i s := by
  cases i <;> rfl

/-- A command with more at the ports from the start is the command without it, going on when it comes. -/
theorem exec_later {i : Instr} {s u : State} (h : exec i s = .next u) (m : List Transfer) (b : Nat) :
    exec i (s.later m b) = .next (proceed (u.later m b)) := by
  by_cases hi : i = .nop
  · subst hi; cases h; rfl
  · rw [exec_eq_command hi] at h ⊢
    rcases hf : s.status.fatal with _ | _
    · cases hg : commandGuard i s.start with
      | some e =>
        rw [command_check (commandRun i) hf hg] at h
        rw [command_check (commandRun i) (s := s.later m b) hf ((commandGuard_amid i s.held m b s.start).trans hg)]
        cases h; rfl
      | none =>
        rw [command_runs (commandRun i) hf hg] at h
        rw [command_runs (commandRun i) (s := s.later m b) hf ((commandGuard_amid i s.held m b s.start).trans hg)]
        cases h
        exact congrArg _ (commandRun_resumes i s.held m b s.start)
    · rw [command_fatal _ _ hf] at h
      rw [command_fatal _ _ (s := s.later m b) hf]
      cases h; rfl

theorem event_sinkReady (b : Nat) (s : State) :
    event (.sinkReady b) s = .next (proceed (s.later [] b)) := by
  rw [State.later, State.amid_sink]
  rfl

/-! ### The waits of R427 -/

/-- InByte at an empty port. -/
theorem InStream.take_empty {i : InStream} (hpb : i.pb = []) (heof : i.inEof = false) (hport : i.port = []) :
    i.take = (.nothing, i) := by
  simp [InStream.take, hpb, heof, hport]

/-- A scan at an empty port waits where it is. -/
theorem syncFrom_waits {s : State} (hpb : s.pb = []) (heof : s.inEof = false) (hport : s.env.port = []) (frame : Bool)
    (andThen : State → Ran) (p : SyncPhase) : syncFrom frame andThen p s = .waiting (.sync p frame) s := by
  have htake : (s.scan p).stream.take = (.nothing, (s.scan p).stream) := InStream.take_empty hpb heof hport
  have hnext : (s.scan p).next s.ref = .waits (s.scan p) := by rw [Scan.next, htake]
  rw [syncFrom_of_run (Scan.run_stop hnext nofun)]
  rfl

theorem commandRun_waits {i : Instr} (hi : i = .sync ∨ i = .decodeFrame) {s : State} (hpb : s.pb = [])
    (heof : s.inEof = false) (hport : s.env.port = []) :
    ∃ frame, commandRun i s = .waiting (.sync .begin frame) (syncStart s) := by
  rcases hi with rfl | rfl
  · exact ⟨false, syncFrom_waits (s := syncStart s) hpb heof hport _ _ _⟩
  · exact ⟨true, syncFrom_waits (s := syncStart s) hpb heof hport _ _ _⟩

theorem emitWords_length (ch : Fin 2) (hout : Lines Num) : (emitWords ch hout).length = 576 := by
  rw [emitWords, List.length_map, List.length_range]

/-- EMIT whose sink takes fewer than its words. -/
theorem exec_emit_waits {gr ch : Fin 2} {s : State} (hs : s.ready .fi gr ch) (hsink : s.env.sink < 576) :
    ∃ u, exec (.emit gr ch) s = .next u ∧ u.busy = true ∧ u.status.done = false ∧ u.env.sink = 0 := by
  have hlen : s.start.env.sink < (emitWords ch (s.start.chan.get ch).hout).length := by
    rw [emitWords_length]
    exact hsink
  refine ⟨_, exec_runs (i := .emit gr ch) nofun hs.1 hs.guardStage_start, ?_⟩
  rw [commandRun]
  beta_reduce
  rw [sendFrom_waits hlen]
  refine ⟨rfl, rfl, ?_⟩
  show s.env.sink - (List.take s.env.sink _).length = 0
  rw [List.length_take, emitWords_length]
  omega

/-- Settles O47: the effects of a command see its ports only where a scan takes a byte and where EMIT sends a word, and
both go on later as they would have gone on at once. -/
theorem commandsInPortions : Obligations.CommandsInPortions := by
  have hsink : ∀ (i : Instr) (s u : State) (a b : Nat), exec i { s with env := { s.env with sink := a } } = .next u →
      event (.sinkReady b) u = exec i { s with env := { s.env with sink := a + b } } := fun i s u a b h => by
    rw [event_sinkReady, ← exec_later h [] b, State.later, State.amid_sink]
  refine ⟨fun i s u l m h => (exec_later h m 0).symm, hsink, fun i s hi hs hpb heof hport => ?_,
    fun gr ch s a b hs ha _ => ?_⟩
  · obtain ⟨frame, hrun⟩ := commandRun_waits hi (s := s.start) hpb heof hport
    have hne : i ≠ .nop := by rcases hi with rfl | rfl <;> nofun
    have hg : commandGuard i s.start = none := by rcases hi with rfl | rfl <;> rfl
    exact ⟨_, exec_runs hne hs hg, hrun ▸ ⟨rfl, rfl, rfl⟩⟩
  · obtain ⟨u, hu, hbusy, hdone, hleft⟩ := exec_emit_waits (s := { s with env := { s.env with sink := a } }) hs ha
    exact ⟨u, hu, hbusy, hdone, hleft, hsink _ s u a b hu⟩

end Sys2Proof.Machine
end

section
/-! PROOF. Command words (R101-R105, R130): the decoder answers `i` exactly on the fields of `i`, if `i` is
well-formed, and its rows are those of R103; a write to CMD: O1 to O5. -/

namespace Sys2Proof

open Machine

/-! ### What each form of the decoder takes -/

/-- The operand fields are what a row of R103 allows. -/
def Fields.Meets (f : Fields) (row : OpcodeRow) : Prop :=
  (row.gr = false → f.gr = 0) ∧ (row.ch = false → f.ch = 0) ∧ f.imm.toNat ≤ row.limit

section
variable {f : Fields} {j : Instr} (o : Nat)

theorem Fields.imm_le_zero : f.imm.toNat ≤ 0 ↔ f.imm = 0 := by
  rw [Nat.le_zero, ← BitVec.toNat_inj]
  rfl

theorem decodeBare_ok {i : Instr} : decodeBare f i = .ok j ↔ f.Meets ⟨o, false, false, 0⟩ ∧ j = i := by
  unfold decodeBare Fields.Meets
  rw [Fields.imm_le_zero]
  split
  · next h => exact ⟨nofun, fun hj => absurd hj.1 (by tauto)⟩
  · next h => exact ⟨fun hj => ⟨by tauto, (Decoded.ok.inj hj).symm⟩, fun hj => congrArg _ hj.2.symm⟩

theorem decodeImm_ok {limit : Nat} {mk : BitVec 16 → Instr} :
    decodeImm f limit mk = .ok j ↔ f.Meets ⟨o, false, false, limit⟩ ∧ j = mk f.imm := by
  unfold decodeImm Fields.Meets
  split
  · next h => exact ⟨nofun, fun hj => absurd hj.1 (by tauto)⟩
  · split
    · next h => exact ⟨nofun, fun hj => absurd hj.1.2.2 (Nat.not_le.2 h)⟩
    · next hu h =>
      exact ⟨fun hj => ⟨⟨by tauto, by tauto, Nat.not_lt.1 h⟩, (Decoded.ok.inj hj).symm⟩, fun hj => congrArg _ hj.2.symm⟩

theorem decodeGrCh_ok {mk : Fin 2 → Fin 2 → Instr} :
    decodeGrCh f mk = .ok j ↔ f.Meets ⟨o, true, true, 0⟩ ∧ j = mk (bitOperand f.gr) (bitOperand f.ch) := by
  unfold decodeGrCh Fields.Meets
  rw [Fields.imm_le_zero]
  split
  · next h => exact ⟨nofun, fun hj => absurd hj.1.2.2 h⟩
  · next h => exact ⟨fun hj => ⟨⟨nofun, nofun, not_not.1 h⟩, (Decoded.ok.inj hj).symm⟩, fun hj => congrArg _ hj.2.symm⟩

theorem decodeGr_ok {mk : Fin 2 → Instr} :
    decodeGr f mk = .ok j ↔ f.Meets ⟨o, true, false, 0⟩ ∧ j = mk (bitOperand f.gr) := by
  unfold decodeGr Fields.Meets
  rw [Fields.imm_le_zero]
  split
  · next h => exact ⟨nofun, fun hj => absurd hj.1 (by tauto)⟩
  · next h => exact ⟨fun hj => ⟨by tauto, (Decoded.ok.inj hj).symm⟩, fun hj => congrArg _ hj.2.symm⟩

/-- Fields with the opcode of `g` and RSV = 0 are those of `g` if the operands are. -/
theorem Fields.eq_of_operands {o : Nat} {g : Fields} (hopc : f.opc.toNat = o) (hrsv : f.rsv = 0)
    (hg : g.opc = BitVec.ofNat 8 o ∧ g.rsv = 0) (hch : f.ch = g.ch) (hgr : f.gr = g.gr) (himm : f.imm = g.imm) :
    g = f := by
  obtain ⟨opc, ch, gr, rsv, imm⟩ := f
  obtain ⟨_, _, _, _, _⟩ := g
  obtain ⟨rfl, rfl⟩ := hg
  rw [Fields.mk.injEq, ← hopc]
  exact ⟨BitVec.ofNat_toNat 8 opc, hch.symm, hgr.symm, hrsv.symm, himm.symm⟩

end

/-! ### The words of commands -/

/-- The decoder answers a well-formed command on its fields: only the limit of an immediate can fail. -/
theorem decodeFields_encodeFields {i : Instr} (h : i.wf = true) : decodeFields (encodeFields i) = .ok i := by
  have hlimit : ¬i.immLimit < i.imm.toNat := Nat.not_lt.2 (of_decide_eq_true h)
  cases i with
  | rbPutByte imm | rbReadBits imm | rbRewindBits imm | rbRewindBytes imm => exact if_neg hlimit
  | _ => rfl

/-- The decoder answers only on the fields of a well-formed command, row by row of R103. -/
theorem encodeFields_of_decodeFields {f : Fields} {i : Instr} (h : decodeFields f = .ok i) :
    encodeFields i = f ∧ i.wf = true := by
  unfold decodeFields at h
  split at h
  · cases h
  · next hr =>
    have hrsv : f.rsv = 0 := not_not.1 hr
    split at h
    case h_1 ho | h_2 ho | h_3 ho | h_4 ho | h_5 ho | h_6 ho | h_11 ho =>
      obtain ⟨⟨hgr, hch, himm⟩, rfl⟩ := (decodeBare_ok 0).1 h
      exact ⟨Fields.eq_of_operands ho hrsv ⟨rfl, rfl⟩ (hch rfl) (hgr rfl) (Fields.imm_le_zero.1 himm), rfl⟩
    case h_7 ho | h_8 ho | h_9 ho | h_10 ho =>
      obtain ⟨⟨hgr, hch, himm⟩, rfl⟩ := (decodeImm_ok 0).1 h
      exact ⟨Fields.eq_of_operands ho hrsv ⟨rfl, rfl⟩ (hch rfl) (hgr rfl) rfl, decide_eq_true himm⟩
    case h_12 ho | h_13 ho | h_14 ho | h_15 ho | h_17 ho | h_18 ho | h_19 ho | h_20 ho =>
      obtain ⟨⟨-, -, himm⟩, rfl⟩ := (decodeGrCh_ok 0).1 h
      exact ⟨Fields.eq_of_operands ho hrsv ⟨rfl, rfl⟩ rfl rfl (Fields.imm_le_zero.1 himm), rfl⟩
    case h_16 ho =>
      obtain ⟨⟨-, hch, himm⟩, rfl⟩ := (decodeGr_ok 0).1 h
      exact ⟨Fields.eq_of_operands ho hrsv ⟨rfl, rfl⟩ (hch rfl) rfl (Fields.imm_le_zero.1 himm), rfl⟩
    case h_21 => cases h

/-- Settles O2: the fields come back out of the word (R101), and the decoder answers `i` on the fields of `i`. -/
theorem decodeOfEncode : Obligations.DecodeOfEncode := fun i h => by
  rw [decode, encode, fieldsOf_packFields, decodeFields_encodeFields h]

/-- Settles O3: the decoder answers `i` only on the fields of `i`, and the fields of a word make it (R101). -/
theorem encodeOfDecode : Obligations.EncodeOfDecode := fun w i h => by
  obtain ⟨hf, hwf⟩ := encodeFields_of_decodeFields h
  exact ⟨by rw [encode, hf, packFields_fieldsOf], hwf⟩

/-- Settles O1. -/
theorem writtenWordsDecode : Obligations.WrittenWordsDecode := by
  unfold Obligations.WrittenWordsDecode
  decide

/-! ### The words that R103's table allows -/

/-- The fields are those of a row of R103 (R102). -/
def Fields.Legal (f : Fields) : Prop :=
  ∃ row ∈ opcodeTable, f.opc = BitVec.ofNat 8 row.opc ∧ f.rsv = 0 ∧ f.Meets row

theorem opcodeTable_nodup : (opcodeTable.map fun row => BitVec.ofNat 8 row.opc).Nodup := by decide

theorem opcodeTable_lt : ∀ row ∈ opcodeTable, row.opc < 2 ^ 8 := by decide

/-- An opcode is that of one row. -/
theorem Fields.legal_iff {f : Fields} {row : OpcodeRow} (hmem : row ∈ opcodeTable) (hopc : f.opc.toNat = row.opc)
    (hrsv : f.rsv = 0) : f.Legal ↔ f.Meets row := by
  have hrow : f.opc = BitVec.ofNat 8 row.opc := by rw [← hopc, BitVec.ofNat_toNat, BitVec.setWidth_eq]
  refine ⟨fun ⟨r, hr, hr_opc, _, hmeets⟩ => ?_, fun hmeets => ⟨row, hmem, hrow, hrsv, hmeets⟩⟩
  rwa [← List.inj_on_of_nodup_map opcodeTable_nodup hr hmem (hr_opc.symm.trans hrow)]

/-- A row answers some command where what it asks of the fields holds. -/
theorem decodes_iff_of_ok_iff {p : Prop} {d : Decoded} {i : Instr} (h : ∀ {j}, d = .ok j ↔ p ∧ j = i) :
    (∃ j, d = .ok j) ↔ p :=
  ⟨fun ⟨_, hj⟩ => (h.1 hj).1, fun hp => ⟨i, h.2 ⟨hp, rfl⟩⟩⟩

/-- The decoder's rows are those of R103. -/
theorem decodeFields_decodes (f : Fields) : (∃ i, decodeFields f = .ok i) ↔ f.Legal := by
  unfold decodeFields
  split
  · next hr => exact ⟨nofun, fun ⟨_, _, _, hrsv, _⟩ => absurd hrsv hr⟩
  · next hr =>
    have hrsv : f.rsv = 0 := not_not.1 hr
    split
    case h_1 ho | h_2 ho | h_3 ho | h_4 ho | h_5 ho | h_6 ho | h_11 ho =>
      exact (decodes_iff_of_ok_iff (decodeBare_ok _)).trans (Fields.legal_iff (by simp [opcodeTable]) ho hrsv).symm
    case h_7 ho | h_8 ho | h_9 ho | h_10 ho =>
      exact (decodes_iff_of_ok_iff (decodeImm_ok _)).trans (Fields.legal_iff (by simp [opcodeTable]) ho hrsv).symm
    case h_12 ho | h_13 ho | h_14 ho | h_15 ho | h_17 ho | h_18 ho | h_19 ho | h_20 ho =>
      exact (decodes_iff_of_ok_iff (decodeGrCh_ok _)).trans (Fields.legal_iff (by simp [opcodeTable]) ho hrsv).symm
    case h_16 ho =>
      exact (decodes_iff_of_ok_iff (decodeGr_ok _)).trans (Fields.legal_iff (by simp [opcodeTable]) ho hrsv).symm
    case h_21 =>
      refine ⟨nofun, fun ⟨row, hmem, hopc, _⟩ => ?_⟩
      have hnat : f.opc.toNat = row.opc := by
        rw [hopc, BitVec.toNat_ofNat]
        exact Nat.mod_eq_of_lt (opcodeTable_lt row hmem)
      simp only [opcodeTable, List.mem_cons, List.not_mem_nil, or_false] at hmem
      rcases hmem with rfl | rfl | rfl | rfl | rfl | rfl | rfl | rfl | rfl | rfl | rfl | rfl | rfl | rfl | rfl | rfl |
        rfl | rfl | rfl | rfl <;> contradiction

/-- R102's legal words are those that decode. -/
theorem legalWord_iff (w : Word) : LegalWord w ↔ ∃ i, decode w = .ok i := by
  have hbit : ∀ i, w.extractLsb' i 1 = 0 ↔ w.getLsbD i = false := fun i => by
    rw [BitVec.eq_of_getLsbD_eq_iff]
    simp
  simp only [decode, decodeFields_decodes, Fields.Legal, Fields.Meets, fieldsOf, hbit, LegalWord]

namespace Machine

/-! ### A write to CMD -/

/-- R426. -/
theorem hostWrite_cmd_busy {s : State} (hb : s.busy = true) (w : Word) :
    hostWrite 0x04 .w32 w s = .next { s with status := { s.status with overrun := true } } :=
  if_pos hb

/-- R100: with no command in progress the word of a command executes it. -/
theorem hostWrite_cmd_ok {s : State} (hb : s.busy = false) {w : Word} {i : Instr} (hd : decode w = .ok i) :
    hostWrite 0x04 .w32 w s = exec i s := by
  show writeCmd w s = exec i s
  rw [writeCmd, if_neg (Bool.not_eq_true _ ▸ hb), hd]

/-- R102: with no command in progress any other word ends with ILLEGAL_CMD. -/
theorem hostWrite_cmd_rejected {s : State} (hb : s.busy = false) {w : Word} {r : Reject} (hd : decode w = .rejected r) :
    hostWrite 0x04 .w32 w s = .next (s.endedWith .illegalCmd) := by
  show writeCmd w s = _
  rw [writeCmd, if_neg (Bool.not_eq_true _ ▸ hb), hd, ← illegalCommand_eq]

/-- Settles O4: R102's words are those that decode, and a CMD write executes what the word decodes to. -/
theorem commandWordLegality : Obligations.CommandWordLegality := by
  intro w s hb
  rw [legalWord_iff]
  cases hd : decode w with
  | ok i => exact ⟨fun _ => ⟨i, rfl, hostWrite_cmd_ok hb hd⟩, fun hno => absurd ⟨i, rfl⟩ hno⟩
  | rejected r => exact ⟨nofun, fun _ => hostWrite_cmd_rejected hb hd⟩

/-- A step whose event is a CMD write of a command's word. -/
theorem step_command {s : State} {w : Word} {i : Instr} {rest : List Event} (hb : s.busy = false)
    (hhost : s.env.host = .write 0x04 .w32 w :: rest) (hd : decode w = .ok i) :
    step s = exec i { s with env := { s.env with host := rest } } := by
  have hdrop : s.dropEvent = { s with env := { s.env with host := rest } } := by rw [State.dropEvent, hhost]; rfl
  have hevent : step s = hostWrite 0x04 .w32 w s.dropEvent := by rw [step, hhost]; rfl
  rw [hevent, hdrop]
  exact hostWrite_cmd_ok (s := { s with env := { s.env with host := rest } }) hb hd

theorem decode_of_decodeTableWord {w : Nat} {i : Instr} (h : decodeTableWord 32 w = some i) :
    decode (BitVec.ofNat 32 (w % 2 ^ 32)) = .ok i := by
  unfold decodeTableWord at h
  rw [if_neg (lt_irrefl 32)] at h
  split at h
  · next hd => rw [hd, Option.some.inj h]
  · cases h

/-- Settles O5. -/
theorem stepRunsTheCommand : Obligations.StepRunsTheCommand :=
  ⟨fun _ _ _ _ hb hhost hd => step_command hb hhost hd,
    fun _ _ _ h => step_command rfl rfl (decode_of_decodeTableWord h)⟩

end Machine

end Sys2Proof
end

section
/-! PROOF. irq (R113, R440): no command writes CTRL, DONE is 0 from its start to its end and 1 from then on; so irq is
IRQ_EN while no command waits: O11. -/

namespace Sys2Proof.Machine

/-- What irq is made of. -/
def State.irqInputs (s : State) : Ctrl × Bool := (s.ctrl, s.status.done)

/-- The state in which a command's effects stop. -/
def Ran.state : Ran → State
  | .ended s _ => s
  | .waiting _ s => s

/-- CTRL and DONE stay. -/
def KeepsIrq (f : State → State) : Prop := ∀ s, (f s).irqInputs = s.irqInputs

/-- So they do in effects that may raise a code, and in all effects of a command. -/
def RaiseKeepsIrq (f : State → State × Err) : Prop := ∀ s, (f s).1.irqInputs = s.irqInputs

def RunKeepsIrq (run : State → Ran) : Prop := ∀ s, (run s).state.irqInputs = s.irqInputs

/-! ### The parts of a command -/

theorem answer_keepsIrq (w : Word) : KeepsIrq (State.answer w) := fun s => by simp [State.irqInputs]

theorem syncFrom_keepsIrq (frame : Bool) {andThen : State → Ran} (hthen : RunKeepsIrq andThen)
    (p : SyncPhase) : RunKeepsIrq (syncFrom frame andThen p) := fun s => by
  rw [syncFrom_of_run rfl]
  cases Scan.run s.ref (s.scan p).fuel (s.scan p) with
  | accept h body sc => exact hthen (accept h body (s.withScan sc))
  | ended sc | failed sc | waits sc | go sc => rfl

theorem sendFrom_keepsIrq (ch : Fin 2) (frame : Option (List Job × Nat)) {andThen : State → Ran}
    (hthen : RunKeepsIrq andThen) (ws : List Sample) :
    RunKeepsIrq (sendFrom ch frame andThen ws) := fun s => by
  rcases Nat.lt_or_ge s.env.sink ws.length with h | h
  · rw [sendFrom_waits h]
    rfl
  · rw [sendFrom_done h]
    exact (hthen _).trans (answer_keepsIrq 576 ((s.sent ws).setStage ch .em))

/-- EMIT of the words that the channel holds. -/
theorem emit_keepsIrq (ch : Fin 2) (frame : Option (List Job × Nat)) {andThen : State → Ran}
    (hthen : RunKeepsIrq andThen) :
    RunKeepsIrq fun s => sendFrom ch frame andThen (emitWords ch (s.chan.get ch).hout) s := fun s =>
  sendFrom_keepsIrq ch frame hthen (emitWords ch (s.chan.get ch).hout) s

theorem readSideInfo_keepsIrq : RaiseKeepsIrq readSideInfo := fun s => by
  rcases readSideInfo_cases s with ⟨e, -, h⟩ | ⟨-, h⟩ <;> rw [h] <;> rfl

theorem loadMainData_keepsIrq : RaiseKeepsIrq loadMainData := fun s => by
  by_cases h : s.newDiscard.toInt < 0
  · rw [loadMainData_skip h]; rfl
  · rw [loadMainData_load h]; rfl

theorem readScalefactors_keepsIrq (gr ch : Fin 2) : KeepsIrq (readScalefactors gr ch) := fun s => by
  rw [readScalefactors_frame]; rfl

theorem huffmanDecode_keepsIrq (gr ch : Fin 2) : KeepsIrq (huffmanDecode gr ch) := fun s => by
  rw [huffmanDecode_frame]; rfl

/-- A granule command past Huffman decoding. -/
theorem keepsIrq_of_chanFrame {f : State → State} (h : ∀ s, f s = s.chanFrame (f s)) : KeepsIrq f := fun s => by
  rw [h]; rfl

theorem rbReadBits_keepsIrq (n : Nat) : KeepsIrq (rbReadBits n) := fun s => by
  unfold rbReadBits
  dsimp only
  split
  · rfl
  · exact answer_keepsIrq _ (s.withRs (s.rs.read n).2)

/-! ### The stages of DECODE_FRAME -/

theorem runStage_keepsIrq {f : State → State × Err} (hf : RaiseKeepsIrq f) (g : State → Option Err) :
    RaiseKeepsIrq (runStage g f) := fun s => by
  unfold runStage
  split
  · rfl
  · exact hf s

theorem runPlain_keepsIrq {f : State → State} (hf : KeepsIrq f) (g : State → Option Err) :
    RaiseKeepsIrq (runPlain g f) := runStage_keepsIrq (f := fun s => (f s, .ok)) hf g

theorem thenStage_keepsIrq {f g : State → State × Err} (hf : RaiseKeepsIrq f)
    (hg : RaiseKeepsIrq g) : RaiseKeepsIrq (thenStage f g) := fun s => by
  unfold thenStage
  dsimp only
  split
  · exact (hg _).trans (hf s)
  · exact hf s

theorem stageThen_keepsIrq {k : State → Ran} (hk : RunKeepsIrq k) {f : State → State × Err}
    (hf : RaiseKeepsIrq f) : RunKeepsIrq fun s => stageThen k (f s) := fun s => by
  unfold stageThen
  dsimp only
  split
  · exact (hk _).trans (hf s)
  · exact hf s

theorem runFront_keepsIrq (gr ch : Fin 2) : RaiseKeepsIrq (runFront gr ch) :=
  thenStage_keepsIrq (runPlain_keepsIrq (readScalefactors_keepsIrq gr ch) _)
    (thenStage_keepsIrq (runPlain_keepsIrq (huffmanDecode_keepsIrq gr ch) _)
      (thenStage_keepsIrq (runPlain_keepsIrq (keepsIrq_of_chanFrame (dequantize_frame gr ch)) _)
        (runPlain_keepsIrq (keepsIrq_of_chanFrame (reorder_frame gr ch)) _)))

theorem runBack_keepsIrq (gr ch : Fin 2) : RaiseKeepsIrq (runBack gr ch) :=
  thenStage_keepsIrq (runPlain_keepsIrq (keepsIrq_of_chanFrame (antialias_frame gr ch)) _)
    (thenStage_keepsIrq (runPlain_keepsIrq (keepsIrq_of_chanFrame (hybrid_frame gr ch)) _)
      (thenStage_keepsIrq (runPlain_keepsIrq (keepsIrq_of_chanFrame (freqInvert_frame ch)) _)
        (runPlain_keepsIrq (fun _ => rfl) _)))

theorem frameEnd_keepsIrq (n : Nat) : RunKeepsIrq (frameEnd n) := fun s => by
  unfold frameEnd
  dsimp only
  split
  · exact answer_keepsIrq _ (s.strobe .frameEnd)
  · exact answer_keepsIrq _ s

theorem runJobs_keepsIrq (jobs : List Job) (n : Nat) : RunKeepsIrq (runJobs jobs n) := by
  induction jobs generalizing n with
  | nil => exact frameEnd_keepsIrq n
  | cons j jobs ih =>
    intro s
    cases j with
    | front gr ch =>
      rw [runJobs_front]
      exact stageThen_keepsIrq (ih n) (runFront_keepsIrq gr ch) s
    | stereo gr =>
      rw [runJobs_stereo]
      exact stageThen_keepsIrq (ih n) (runPlain_keepsIrq (keepsIrq_of_chanFrame (stereo_frame gr)) _) s
    | back gr ch =>
      rw [runJobs_back]
      exact stageThen_keepsIrq (emit_keepsIrq ch (some (jobs, n)) (ih (n + 576))) (runBack_keepsIrq gr ch) s

theorem frameBody_keepsIrq : RunKeepsIrq frameBody := fun s => by
  rw [frameBody_eq]
  split
  · rfl
  · exact stageThen_keepsIrq (fun s => runJobs_keepsIrq _ _ s)
      (thenStage_keepsIrq (runStage_keepsIrq readSideInfo_keepsIrq _) (runStage_keepsIrq loadMainData_keepsIrq _)) s

/-! ### The commands -/

/-- A command that raises nothing. -/
theorem ending_keepsIrq {f : State → State} (hf : KeepsIrq f) : RunKeepsIrq (ending f) := hf

theorem ending_keepsIrq_of_chanFrame {f : State → State} (h : ∀ s, f s = s.chanFrame (f s)) : RunKeepsIrq (ending f) :=
  ending_keepsIrq (keepsIrq_of_chanFrame h)

theorem commandRun_keepsIrq (i : Instr) : RunKeepsIrq (commandRun i) := by
  cases i with
  | decodeFrame => exact fun s => syncFrom_keepsIrq true frameBody_keepsIrq .begin (syncStart s)
  | sync =>
    have hend : RunKeepsIrq syncEnd := fun s => answer_keepsIrq s.head.hdr s
    exact fun s => syncFrom_keepsIrq false hend .begin (syncStart s)
  | readSideInfo => exact readSideInfo_keepsIrq
  | loadMainData => exact loadMainData_keepsIrq
  | rbReadBits imm => exact ending_keepsIrq (rbReadBits_keepsIrq imm.toNat)
  | rbTell => exact ending_keepsIrq fun s => answer_keepsIrq s.rs.resv.totbit s
  | readScalefactors gr ch => exact ending_keepsIrq (readScalefactors_keepsIrq gr ch)
  | huffmanDecode gr ch => exact ending_keepsIrq (huffmanDecode_keepsIrq gr ch)
  | dequantize gr ch => exact ending_keepsIrq_of_chanFrame (dequantize_frame gr ch)
  | reorder gr ch => exact ending_keepsIrq_of_chanFrame (reorder_frame gr ch)
  | stereo gr => exact ending_keepsIrq_of_chanFrame (stereo_frame gr)
  | antialias gr ch => exact ending_keepsIrq_of_chanFrame (antialias_frame gr ch)
  | hybrid gr ch => exact ending_keepsIrq_of_chanFrame (hybrid_frame gr ch)
  | freqInvert gr ch => exact ending_keepsIrq_of_chanFrame (freqInvert_frame ch)
  | emit gr ch => exact emit_keepsIrq ch none (andThen := ended) fun _ => rfl
  | nop | resetStream | rbPutByte imm | rbRewindBits imm | rbRewindBytes imm => exact fun _ => rfl

/-- DONE is 1 at the end of a command; at a wait CTRL and DONE are as its effects left them. -/
theorem complete_irqInputs (r : Ran) :
    (complete r).irqInputs = (r.state.ctrl, if (complete r).busy then r.state.status.done else true) := by
  cases r with
  | ended s e => simp [complete, State.irqInputs, State.busy, Ran.state]
  | waiting p s => rfl

/-- R425: no command writes CTRL, and DONE is 0 exactly while the command waits. -/
theorem exec_irqInputs {i : Instr} {s t : State} (ht : exec i s = .next t) : t.irqInputs = (s.ctrl, !t.busy) := by
  by_cases hi : i = .nop
  · subst hi; cases ht; rfl
  · rw [exec_eq_command hi] at ht
    rcases command_cases (commandGuard i) (commandRun i) s with ⟨e, he⟩ | ⟨-, -, he⟩
    · rw [he] at ht
      cases ht
      rfl
    · rw [he] at ht
      cases ht
      obtain ⟨hctrl, hdone⟩ := Prod.mk.inj (commandRun_keepsIrq i s.start)
      rw [complete_irqInputs, hctrl, hdone]
      cases (complete (commandRun i s.start)).busy <;> rfl

/-! ### irq -/

theorem irq_of_irqInputs {t : State} {c : Ctrl} {d : Bool} (h : t.irqInputs = (c, d)) : t.irq = (c.irqEn && d) := by
  obtain ⟨rfl, rfl⟩ := Prod.mk.inj h
  rfl

/-- A write does not end a command in progress (R426). -/
theorem hostWrite_held {off : BitVec 8} {width : Width} {w : Word} {s t : State} (hb : s.busy = true)
    (ht : hostWrite off width w s = .next t) : t.held = s.held := by
  by_cases hcmd : off = 0x04
  · subst hcmd
    unfold hostWrite at ht
    rw [if_pos rfl, writeCmd, if_pos hb] at ht
    split at ht <;> cases ht <;> rfl
  · unfold hostWrite hostWriteRegister at ht
    rw [if_neg hcmd] at ht
    split at ht
    · cases ht
      split <;> rfl
    · cases ht; rfl

/-- A command that ends after a wait raises DONE (R440). -/
theorem proceed_done {s : State} (hb : s.busy = true) (ht : (proceed s).busy = false) :
    (proceed s).status.done = true := by
  unfold proceed at ht ⊢
  split at ht
  · next h => simp [State.busy, h] at hb
  · next p _ =>
    have h : (complete (resume p s)).status.done = _ := congrArg Prod.snd (complete_irqInputs (resume p s))
    rw [ht] at h
    exact h

/-- An event other than power-on reset leaves a command in progress, or raises DONE. -/
theorem event_done {e : Event} (he : e ≠ .powerOnReset) {s t : State} (hb : s.busy = true) (ht : event e s = .next t)
    (hidle : t.busy = false) : t.status.done = true := by
  cases e with
  | write off width w =>
    rw [State.busy, hostWrite_held hb ht] at hidle
    exact absurd (hidle.symm.trans hb) nofun
  | read off width =>
    obtain ⟨v, k, hread⟩ := hostRead_frame off width s
    cases ht
    rw [hread] at hidle
    exact absurd (hidle.symm.trans hb) nofun
  | present l | reposition l | sinkReady n =>
    cases ht
    exact proceed_done hb hidle
  | powerOnReset => exact absurd rfl he

/-- Settles O11: DONE is 0 exactly while the command of a CMD write waits, and it is 1 when that command has ended. -/
theorem irqFollowsDone : Obligations.IrqFollowsDone := by
  refine ⟨fun s => rfl, fun w s t hb ht => ?_, fun e s t he hb ht hidle => ?_, fun w s t hw ht => ?_,
    fun w s t hb ht => ?_⟩
  · cases hd : decode w with
    | ok i => exact irq_of_irqInputs (exec_irqInputs (hostWrite_cmd_ok hb hd ▸ ht))
    | rejected r =>
      rw [hostWrite_cmd_rejected hb hd] at ht
      cases ht
      rfl
  · rw [State.irq, event_done he hb ht hidle, Bool.and_true]
  · cases ht
    show (w.getLsbD 0 && s.status.done) = false
    rw [hw, Bool.false_and]
  · rw [hostWrite_cmd_busy hb] at ht
    cases ht
    rfl

end Sys2Proof.Machine
end

section
/-! PROOF. The checks of the frame and granule commands in order (R104, R208, R231, R421, R433): O32. -/

namespace Sys2Proof.Machine

/-- A command whose checks answer a code ends with it (R425). -/
theorem exec_check {i : Instr} (hi : i ≠ .nop) {s : State} {e : Err} (hs : s.live)
    (hg : commandGuard i s.start = some e) : exec i s = .next (s.endedWith e) := by
  rw [exec_eq_command hi, command_check _ hs hg]

/-! ### What a failing check answers -/

theorem require_some {c : Bool} {P : Prop} (hc : c = true ↔ P) (e : Err) (h : ¬P) : require c e = some e :=
  if_neg (mt hc.1 h)

theorem thenCheck_first {a : Option Err} {e : Err} (h : a = some e) (b : Option Err) : thenCheck a b = some e := by
  rw [h]; rfl

theorem thenCheck_second {a : Option Err} (h : a = none) (b : Option Err) : thenCheck a b = b := by
  rw [h]; rfl

theorem guardLayer3_some {s : State} (h : ¬s.layer3Frame) : guardLayer3 s = some .notLayer3 :=
  if_neg (by simpa [State.layer3Frame] using h)

/-- The frame commands: NOT_LAYER3 comes before SEQUENCE. -/
theorem exec_frameChecks {i : Instr} {s : State} {c : Bool} {C : Prop} (hi : i ≠ .nop) (hs : s.live)
    (hg : commandGuard i s.start = thenCheck (guardLayer3 s) (require c .sequence)) (hc : c = true ↔ C) :
    (¬s.layer3Frame → exec i s = .next (s.endedWith .notLayer3)) ∧
    (s.layer3Frame → ¬C → exec i s = .next (s.endedWith .sequence)) := by
  refine ⟨fun hl => ?_, fun hl hC => ?_⟩ <;> refine exec_check hi hs (hg.trans ?_)
  · exact thenCheck_first (guardLayer3_some hl) _
  · rw [thenCheck_second (guardLayer3_none.2 hl), require_some hc _ hC]

/-- The granule commands: NOT_LAYER3 comes before BAD_OPERAND, and that before SEQUENCE. -/
theorem exec_granuleChecks {i : Instr} {s : State} {a c : Bool} {A C : Prop} (hi : i ≠ .nop) (hs : s.live)
    (hg : commandGuard i s.start =
      thenCheck (guardLayer3 s) (thenCheck (require a .badOperand) (require c .sequence)))
    (ha : a = true ↔ A) (hc : c = true ↔ C) :
    (¬s.layer3Frame → exec i s = .next (s.endedWith .notLayer3)) ∧
    (s.layer3Frame → ¬A → exec i s = .next (s.endedWith .badOperand)) ∧
    (s.layer3Frame → A → ¬C → exec i s = .next (s.endedWith .sequence)) := by
  refine ⟨fun hl => ?_, fun hl hA => ?_, fun hl hA hC => ?_⟩ <;> refine exec_check hi hs (hg.trans ?_)
  · exact thenCheck_first (guardLayer3_some hl) _
  · rw [thenCheck_second (guardLayer3_none.2 hl), thenCheck_first (require_some ha _ hA)]
  · rw [thenCheck_second (guardLayer3_none.2 hl), thenCheck_second (require_none.2 (ha.2 hA)), require_some hc _ hC]

theorem thenCheck_assoc (a b c : Option Err) : thenCheck (thenCheck a b) c = thenCheck a (thenCheck b c) := by
  cases a <;> rfl

/-! ### The conditions of the checks -/

theorem hasOperands_iff {gr ch : Fin 2} {s : State} :
    (decide (gr.val < s.ngr) && decide (ch.val < s.nch)) = true ↔ s.hasOperands gr ch := by
  simp [State.hasOperands]

theorem beforeScalefactors_iff {gr ch : Fin 2} {s : State} :
    s.readyForPart2 gr ch = true ↔ s.beforeScalefactors gr ch := by
  match gr with
  | 0 => simp [State.readyForPart2, State.beforeScalefactors, and_assoc]
  | 1 => simp [State.readyForPart2, State.beforeScalefactors, at_iff, and_assoc]

theorem beforeStereo_iff {gr : Fin 2} {s : State} :
    (s.channels.all fun c => s.at .ro gr c) = true ↔ s.beforeStereo gr := by
  simp [State.beforeStereo, State.stageIs, at_iff, mem_channels]

/-- A granule command that needs STAGE[ch] = x (R421). -/
theorem exec_stageChecks {i : Instr} {x : Stage} {gr ch : Fin 2} {s : State} (hi : i ≠ .nop) (hs : s.live)
    (hg : commandGuard i = guardStage x gr ch) :
    (¬s.layer3Frame → exec i s = .next (s.endedWith .notLayer3)) ∧
    (s.layer3Frame → ¬s.hasOperands gr ch → exec i s = .next (s.endedWith .badOperand)) ∧
    (s.layer3Frame → s.hasOperands gr ch → ¬s.stageIs x gr ch → exec i s = .next (s.endedWith .sequence)) :=
  exec_granuleChecks hi hs (by rw [hg, start_guardStage]; exact thenCheck_assoc _ _ _) hasOperands_iff at_iff

/-- Settles O32: the checks stand in the order of R433, and the first that fails ends the command. -/
theorem commandChecks : Obligations.CommandChecks := by
  intro gr ch s hs
  obtain ⟨hside3, hsideSeq⟩ := exec_frameChecks (i := .readSideInfo) (s := s)
    (C := s.chan.c0.stage = .idle ∧ s.fb.bitpos = s.sideInfoStart) nofun hs rfl
    (by rw [Bool.and_eq_true, decide_eq_true_iff, decide_eq_true_iff]; rfl)
  obtain ⟨hmain3, hmainSeq⟩ := exec_frameChecks (i := .loadMainData) nofun hs rfl decide_eq_true_iff
  obtain ⟨hscf3, hscfOperand, hscfSeq⟩ := exec_granuleChecks (i := .readScalefactors gr ch) (s := s) nofun hs
    (thenCheck_assoc _ _ _) hasOperands_iff beforeScalefactors_iff
  obtain ⟨hst3, hstOperand, hstSeq⟩ := exec_granuleChecks (i := .stereo gr) (s := s) nofun hs rfl
    decide_eq_true_iff beforeStereo_iff
  refine ⟨⟨fun h => ⟨hside3 h, hmain3 h⟩, hsideSeq, hmainSeq⟩, fun x i hmem => ?_, fun h => ⟨hscf3 h, hst3 h⟩,
    fun h => ⟨hscfOperand h, hscfSeq h, hstOperand h, hstSeq h⟩⟩
  simp only [List.mem_cons, List.not_mem_nil, or_false, Prod.mk.injEq] at hmem
  rcases hmem with ⟨rfl, rfl⟩ | ⟨rfl, rfl⟩ | ⟨rfl, rfl⟩ | ⟨rfl, rfl⟩ | ⟨rfl, rfl⟩ | ⟨rfl, rfl⟩ | ⟨rfl, rfl⟩ <;>
    exact exec_stageChecks nofun hs rfl

end Sys2Proof.Machine
end

section
/-! PROOF. EMIT (R92, R112, R392): O46. -/

namespace Sys2Proof.Machine

/-- Word 32 ss + sb of EMIT (R392). -/
theorem emitWords_getElem? (ch : Fin 2) (hout : Lines Num) {ss sb : Nat} (hss : ss < 18) (hsb : sb < 32) :
    (emitWords ch hout)[32 * ss + sb]? = some {
      ch := ch, ss := BitVec.ofNat 5 ss, sb := BitVec.ofNat 5 sb, value := lineAt hout (18 * sb + ss) } := by
  have hlt : 32 * ss + sb < 576 := by omega
  have hdiv : (32 * ss + sb) / 32 = ss := by omega
  have hmod : (32 * ss + sb) % 32 = sb := by omega
  rw [emitWords, List.getElem?_map, List.getElem?_range hlt, Option.map_some, hdiv, hmod]

/-- A command that writes RESULT last: it is the value, with no fault on record. -/
theorem complete_answer (w : Word) (u : State) :
    ∃ t, complete (.ended (u.answer w) .ok) = t ∧ t.Agrees { u.finish .ok with result := t.result } ∧
      (u.clean → t.result = w) := by
  have hend : u.clean → complete (.ended (u.answer w) .ok) = { u.finish .ok with result := w } := fun hc => by
    rw [complete_clean (by simpa [State.clean] using hc), State.answer_clean w hc]
    rfl
  obtain ⟨-, hvalues⟩ := complete_agrees (u.answer w) .ok
  have hresult : (complete (.ended (u.answer w) .ok)).result = (u.answer w).result := by rw [hvalues]; rfl
  refine ⟨_, rfl, ⟨fun hc => ?_, hvalues.trans ?_⟩, fun hc => by rw [hend hc]⟩
  · have hu : u.clean := hc
    rw [hend hu]
  · rw [hresult, State.answer_frame w u]
    rfl

/-- EMIT whose sink takes all its words. -/
theorem exec_emit_sends {gr ch : Fin 2} {s : State} (hs : s.ready .fi gr ch) (hsink : 576 ≤ s.env.sink) :
    exec (.emit gr ch) s =
      .next (complete (.ended (emitEnd ch (s.start.sent (emitWords ch (s.chan.get ch).hout))) .ok)) := by
  have hroom : (emitWords ch (s.start.chan.get ch).hout).length ≤ s.start.env.sink := by
    rw [emitWords_length]
    exact hsink
  rw [exec_runs (i := .emit gr ch) nofun hs.1 hs.guardStage_start, commandRun]
  beta_reduce
  rw [sendFrom_done hroom]
  rfl

/-- Settles O46: the sink takes the 576 words of HOUT in the order of R392, and then only STAGE and RESULT change. -/
theorem emitSendsInOrder : Obligations.EmitSendsInOrder := by
  intro gr ch s hs hsink
  obtain ⟨t, ht, hagree, hresult⟩ :=
    complete_answer 576 ((s.start.sent (emitWords ch (s.chan.get ch).hout)).setStage ch .em)
  refine ⟨emitWords ch (s.chan.get ch).hout, t, (exec_emit_sends hs hsink).trans (congrArg _ ht), ?_, hresult,
    emitWords_length _ _, fun ss hss sb hsb => emitWords_getElem? ch _ hss hsb⟩
  have hlen : (emitWords ch (s.chan.get ch).hout).length = 576 := emitWords_length _ _
  rw [← hlen]
  exact hagree

end Sys2Proof.Machine
end

section
/-! PROOF. READ_SIDE_INFO (R124, R170-R172, R230-R233): where its reads leave the cursor and the CRC engine, which code
they give, and O29. -/

namespace Sys2Proof.Machine

/-! ### The reads as one -/

/-- The read moved on by `n` bits, which the CRC engine has taken (R170, R231). -/
def SideRead.moved (n : Nat) (r : SideRead) : SideRead where
  fb := { r.fb with bitpos := r.fb.bitpos + n }
  log := r.log
  crc := ((List.range n).map fun i => r.fb.cells.bit (r.fb.bitpos + i)).foldl (fun crc d => crcBit d crc) r.crc

/-- If the next `n` bits stand in the body and no fault is on record, `q` is `r` moved on by them. -/
def SideRead.Takes (n : Nat) (r q : SideRead) : Prop :=
  r.log.tainted = false → r.fb.bitpos + n ≤ 8 * r.fb.len → q = r.moved n

section
variable {m n : Nat} {r q p : SideRead}

theorem SideRead.takes_none : r.Takes 0 r := fun _ _ => rfl

theorem SideRead.moved_moved (m n : Nat) (r : SideRead) : (r.moved m).moved n = r.moved (m + n) := by
  simp [SideRead.moved, List.range_add, Nat.add_assoc, Function.comp_def]

theorem SideRead.Takes.trans (h : r.Takes m q) (h' : q.Takes n p) : r.Takes (m + n) p := fun hc hroom => by
  have hq : q = r.moved m := h hc (by omega)
  subst hq
  rw [h' hc (by simp only [SideRead.moved]; omega), SideRead.moved_moved]

theorem SideRead.takes_rd (n : Nat) (r : SideRead) : r.Takes n (r.rd n).2 := fun hc hroom => by
  have hbits : ((List.range n).map fun i =>
        (gather (fun i => r.fb.cells.bit (r.fb.bitpos + i)) n).testBit (n - 1 - i)) =
      (List.range n).map fun i => r.fb.cells.bit (r.fb.bitpos + i) :=
    List.map_congr_left fun i hi => gather_testBit _ (List.mem_range.1 hi)
  rw [SideRead.rd, FrameBuf.read_clean hroom hc]
  dsimp only
  rw [crcBits_eq_foldl, hbits, SideRead.moved]

theorem SideRead.takes_flag (r : SideRead) : r.Takes 1 r.flag.2 := r.takes_rd 1

theorem readSwitched_takes (r : SideRead) : r.Takes 22 (readSwitched r).2 :=
  (r.takes_rd 2).trans (SideRead.takes_flag _) |>.trans (SideRead.takes_rd 5 _) |>.trans (SideRead.takes_rd 5 _)
    |>.trans (SideRead.takes_rd 3 _) |>.trans (SideRead.takes_rd 3 _) |>.trans (SideRead.takes_rd 3 _)

theorem readPlain_takes (r : SideRead) : r.Takes 22 (readPlain r).2 :=
  (r.takes_rd 5).trans (SideRead.takes_rd 5 _) |>.trans (SideRead.takes_rd 5 _) |>.trans (SideRead.takes_rd 4 _)
    |>.trans (SideRead.takes_rd 3 _)

theorem readGranuleChannel_takes (mpeg1 : Bool) (r : SideRead) :
    r.Takes (blockWidth mpeg1) (readGranuleChannel mpeg1 r).2 := by
  have hbranch : ∀ (c : Bool) (r : SideRead), r.Takes 22 (if c then readSwitched r else readPlain r).2 := fun c r => by
    cases c
    · exact readPlain_takes r
    · exact readSwitched_takes r
  have hfields := (r.takes_rd 12).trans (SideRead.takes_rd 9 _) |>.trans (SideRead.takes_rd 8 _)
  cases mpeg1 with
  | true =>
    exact hfields.trans (SideRead.takes_rd 4 _) |>.trans (SideRead.takes_flag _) |>.trans (hbranch _ _)
      |>.trans (SideRead.takes_flag _) |>.trans (SideRead.takes_flag _) |>.trans (SideRead.takes_flag _)
  | false =>
    exact hfields.trans (SideRead.takes_rd 9 _) |>.trans (SideRead.takes_flag _) |>.trans (hbranch _ _)
      |>.trans (SideRead.takes_flag _) |>.trans (SideRead.takes_flag _)

theorem readGranuleChannels_takes (mpeg1 : Bool) (l : List (Fin 2 × Fin 2)) (si : SideInfo) (r : SideRead) :
    r.Takes (blockWidth mpeg1 * l.length) (readGranuleChannels mpeg1 l si r).2 := by
  induction l generalizing si r with
  | nil => exact SideRead.takes_none
  | cons p l ih =>
    rw [List.length_cons, Nat.mul_succ, Nat.add_comm]
    exact (readGranuleChannel_takes mpeg1 r).trans (ih _ _)

theorem readScfsi_takes (l : List (Fin 2)) (si : SideInfo) (r : SideRead) :
    r.Takes (4 * l.length) (readScfsi l si r).2 := by
  induction l generalizing si r with
  | nil => exact SideRead.takes_none
  | cons ch l ih =>
    rw [List.length_cons, Nat.mul_succ, Nat.add_comm]
    exact (r.takes_rd 4).trans (ih _ _)

end

/-- All reads of READ_SIDE_INFO take the side info's bits (R161, R231). -/
theorem readFields_takes (s : State) (r : SideRead) : r.Takes (8 * sideinfoBytes s.head.fields) (readFields s r).2 := by
  obtain ⟨-, hblocks, -⟩ := granuleChannels_spec s
  have hsum := sideInfoWidths_sum s
  unfold readFields
  dsimp only
  by_cases hv : s.head.fields.version = .mpeg1
  · simp only [State.sideInfoWidths, hv, if_true] at hsum
    rw [if_pos hv, ← hsum, ← hblocks, ← channels_length]
    exact (r.takes_rd 9).trans (SideRead.takes_rd _ _) |>.trans (readScfsi_takes _ _ _)
      |>.trans (readGranuleChannels_takes true _ _ _)
  · simp only [State.sideInfoWidths, hv, if_false] at hsum
    rw [if_neg hv, ← hsum, ← hblocks]
    exact (r.takes_rd 8).trans (SideRead.takes_rd _ _) |>.trans (readGranuleChannels_takes false _ _ _)

/-! ### What they leave -/

/-- The CRC engine after the side info (R170, R171). -/
def State.sideInfoEngine (s : State) : BitVec 16 :=
  ((List.range (8 * sideinfoBytes s.head.fields)).map fun i => s.fb.cells.bit (s.fb.bitpos + i)).foldl
    (fun crc d => crcBit d crc) s.crc.engine

/-- The frame has a CRC, and the side info does not have it (R172). -/
def State.sideInfoWrong (s : State) : Bool := !s.head.fields.prot && decide (s.sideInfoEngine ≠ s.crc.crcRead)

/-- The state after the reads, `si` being what they took; CRC_CALC with PROT = 1 by log entry 14. -/
def State.sideInfoTaken (si : SideInfo) (s : State) : State :=
  { s with
    si := si
    fb := { s.fb with bitpos := s.fb.bitpos + 8 * sideinfoBytes s.head.fields }
    crc := { s.crc with
      engine := s.sideInfoEngine
      crcCalc := if s.head.fields.prot then s.crc.crcCalc else s.sideInfoEngine }
    status := { s.status with crcMismatch := s.status.crcMismatch || s.sideInfoWrong } }

theorem sideInfoTaken_crcMismatch (si : SideInfo) (s : State) : (s.sideInfoTaken si).crcMismatch = s.sideInfoWrong := by
  cases hp : s.head.fields.prot <;> simp [State.crcMismatch, State.sideInfoWrong, State.sideInfoTaken, hp]

/-- Reads inside the body with no fault on record. -/
theorem takeSideInfo_eq {s : State} (hc : s.clean) (hpos : s.fb.bitpos = s.sideInfoStart)
    (hroom : s.fb.bitpos + 8 * sideinfoBytes s.head.fields ≤ 8 * s.fb.len) :
    ∃ si, takeSideInfo s = s.sideInfoTaken si ∧ SideInfo.TakenFrom s si := by
  have hat : SideRead.At s.fb s.sideInfoStart { fb := s.fb, log := s.rs.log, crc := s.crc.engine } :=
    ⟨by rw [← hpos], hc⟩
  have hread := readFields_takes s { fb := s.fb, log := s.rs.log, crc := s.crc.engine } hc hroom
  refine ⟨_, ?_, readFields_takenFrom hat (hpos ▸ hroom)⟩
  rw [State.sideInfoTaken, ← sideInfoTaken_crcMismatch s.si]
  simp only [takeSideInfo, hread]
  rfl

/-- The blocks that R233 looks at are those of the body. -/
theorem sideInfoTaken_blocks {s : State} {si : SideInfo} (h : SideInfo.TakenFrom s si) :
    ((s.sideInfoTaken si).granuleChannels.map fun p => (s.sideInfoTaken si).info p.1 p.2) =
      s.granuleChannels.map fun p => s.sideInfoBlock p.1 p.2 := by
  obtain ⟨-, -, hmem⟩ := granuleChannels_spec s
  refine List.map_congr_left fun p hp => ?_
  exact (h.blocks p.1 p.2).trans (if_pos ((hmem p.1 p.2).1.1 hp))

/-! ### Rejection (R172, R233) -/

/-- The first row of R233 that applies, else `e`. -/
theorem invalidCode_getD (sfreq : Fin 9) (gs : List GranuleInfo) (e : Err) :
    (invalidCode sfreq gs).getD e =
      if ∃ g ∈ gs, g.windowSwitching = true ∧ g.blockType = 0 then .sideinfoInvalid
      else if ∃ g ∈ gs, 288 < g.bigValues.toNat then .sideinfoInvalid
      else if ∃ g ∈ gs, ∃ x ∈ usedTables sfreq g, x = 4 ∨ x = 14 then .sideinfoInvalid
      else if ∃ g ∈ gs, g.mixed = true ∧ sfreq = 8 then .unsupported
      else e := by
  have hblock : gs.any badBlockType = true ↔ ∃ g ∈ gs, g.windowSwitching = true ∧ g.blockType = 0 := by
    simp [badBlockType]
  have hbig : gs.any badBigValues = true ↔ ∃ g ∈ gs, 288 < g.bigValues.toNat := by
    simp [badBigValues]
  have htable : gs.any (badTable sfreq) = true ↔ ∃ g ∈ gs, ∃ x ∈ usedTables sfreq g, x = 4 ∨ x = 14 := by
    simp [badTable]
  have hmixed : gs.any (badMixed sfreq) = true ↔ ∃ g ∈ gs, g.mixed = true ∧ sfreq = 8 := by
    simp [badMixed]
  unfold invalidCode
  simp only [hblock, hbig, htable, hmixed, apply_ite (Option.getD · e), Option.getD_some, Option.getD_none]

theorem rejection_getD (s : State) :
    s.rejection.getD .ok =
      (invalidCode s.head.fields.sfreq (s.granuleChannels.map fun p => s.info p.1 p.2)).getD
        (if (s.crcMismatch && s.cmdCtrl.crcStrict) = true then .crcReject else .ok) := by
  unfold State.rejection
  cases invalidCode s.head.fields.sfreq (s.granuleChannels.map fun p => s.info p.1 p.2) with
  | some e => rfl
  | none =>
    dsimp only
    split <;> rfl

/-- A rejection raises a code that is kept behind a reservoir fault (R430). -/
theorem rejection_code {s : State} {e : Err} (h : s.rejection = some e) : e ≠ .ok ∧ e ≠ .fatalIo := by
  have hinvalid : ∀ {sfreq gs}, invalidCode sfreq gs = some e → e ≠ .ok ∧ e ≠ .fatalIo := fun {sfreq gs} h => by
    unfold invalidCode at h
    split_ifs at h <;> cases h <;> exact ⟨nofun, nofun⟩
  unfold State.rejection at h
  split at h
  · next hi => exact hinvalid (hi.trans h)
  · split at h <;> cases h
    exact ⟨nofun, nofun⟩

/-! ### The command -/

/-- The state that agrees with the rules' state may be named with its own side info. -/
theorem State.Agrees.withOwnSi {t u : State} (h : t.Agrees u) : t.Agrees { u with si := t.si } := by
  refine ⟨fun hc => ?_, h.2⟩
  have hu : t = u := h.1 hc
  subst hu
  rfl

/-- The end of a rejected frame, with what stays exact whatever has been recorded. -/
theorem complete_rejectFrame (s : State) {e : Err} (hok : e ≠ .ok) (hfatal : e ≠ .fatalIo) :
    ∃ t, complete (.ended (rejectFrame s) e) = t ∧ t.Agrees { rejectFrame s with
      si := t.si
      held := none
      result := 0
      status := { s.status with skipped := true, done := true, err := t.rs.log.first.getD e } } := by
  refine ⟨_, rfl, ?_⟩
  have hagree := (complete_agrees (rejectFrame s) e).withOwnSi
  have hfirst : (complete (.ended (rejectFrame s) e)).rs.log.first = (rejectFrame s).rs.log.first :=
    State.settle_log_first _
  rw [State.finish, if_neg hok, finalErr, if_neg hfatal] at hagree
  rw [hfirst]
  exact hagree

/-- Settles O29: inside the body no read faults, so the fields, the cursor and the CRC are what the body gives; R233
looks at these blocks, and what its rejection appends to the reservoir is all that a fault can come from. -/
theorem sideInfoOutcome : Obligations.SideInfoOutcome := by
  intro s hs hc hl hst hpos hroom
  obtain ⟨si, htake, htaken⟩ := takeSideInfo_eq (s := s.start) hc hpos hroom
  have hrun : exec .readSideInfo s = .next (complete (.ended (readSideInfo s.start).1 (readSideInfo s.start).2)) :=
    exec_runs (i := .readSideInfo) nofun hs (guardSideInfo_none.2 ⟨hl, hst, hpos⟩)
  have hcode : (s.start.sideInfoTaken si).rejection.getD .ok = _ :=
    (rejection_getD _).trans (by rw [sideInfoTaken_blocks htaken, sideInfoTaken_crcMismatch, invalidCode_getD])
  rcases readSideInfo_cases s.start with ⟨e, hrej, hbody⟩ | ⟨hrej, hbody⟩ <;> rw [htake] at hrej hbody <;>
    rw [hbody] at hrun <;> rw [hrej] at hcode
  · obtain ⟨hok, hfatal⟩ := rejection_code hrej
    obtain ⟨t, ht, hagree⟩ := complete_rejectFrame (s.start.sideInfoTaken si) hok hfatal
    exact ⟨t, e, hrun.trans (congrArg _ ht), hcode, fun h => absurd h hok, fun _ => hagree⟩
  · have hclean : ((s.start.sideInfoTaken si).setStages .si).clean := hc
    exact ⟨_, .ok, hrun.trans (congrArg _ (complete_clean hclean .ok)), hcode, fun _ => rfl, fun h => absurd rfl h⟩

end Sys2Proof.Machine
end

section
/-! PROOF. What SYNC does with an ID3 tag and with bytes that begin no frame it accepts (R150-R153, R158, R159): O27,
O25. -/

namespace Sys2Proof.Machine

/-! ### SYNC by the run of its scan -/

/-- SYNC by where its scan stops (R150). -/
theorem exec_sync_of_scan {s : State} (hs : s.live) {m : ScanMove}
    (hm : Scan.run s.ref (s.scan .begin).fuel (s.scan .begin) = m) :
    exec .sync s = .next (complete (syncStop false syncEnd (syncStart s.start) m)) := by
  rw [exec_sync_runs hs, syncFrom_of_run (s := syncStart s.start) hm]

/-- A scan overwrites the stream and RESYNC_COUNT it starts from, wherever it stops. -/
theorem syncStop_restart (s : State) (i : InStream) (n : Word) (m : ScanMove) :
    syncStop false syncEnd (syncStart ({ s with resync := n }.withStream i).start) m =
      syncStop false syncEnd (syncStart s.start) m := by
  cases m <;> rfl

/-- SYNC on two streams whose scans stop with one effect. -/
theorem exec_sync_of_stop {s : State} (hs : s.live) {i : InStream} {n : Word} {m m' : ScanMove}
    (hm : Scan.run s.ref (Scan.mk .begin s.stream s.resync).fuel ⟨.begin, s.stream, s.resync⟩ = m)
    (hm' : Scan.run s.ref (Scan.mk .begin i n).fuel ⟨.begin, i, n⟩ = m')
    (hstop : ∀ u, syncStop false syncEnd u m = syncStop false syncEnd u m') :
    exec .sync s = exec .sync ({ s with resync := n }.withStream i) := by
  rw [exec_sync_of_scan hs hm, exec_sync_of_scan (s := ({ s with resync := n } : State).withStream i) hs hm',
    syncStop_restart, hstop]

/-- SYNC on a stream whose scan runs on as that of another. -/
theorem exec_sync_of_run {s : State} (hs : s.live) {i : InStream} {n : Word}
    (hrun : Scan.run s.ref (Scan.mk .begin s.stream s.resync).fuel ⟨.begin, s.stream, s.resync⟩ =
      Scan.run s.ref (Scan.mk .begin i n).fuel ⟨.begin, i, n⟩) :
    exec .sync s = exec .sync ({ s with resync := n }.withStream i) :=
  exec_sync_of_stop hs hrun rfl fun _ => rfl

section
variable {ref : SyncRef}

/-- A scan that the bytes of the stream take to where its next InByte goes on. -/
theorem SyncPhase.Reaches.run_go {l : List Byte} {p q : SyncPhase} (hr : p.Reaches ref l q) {i j : InStream}
    (hg : i.Gives l j) {n : Word} {sc : Scan} (hq : q.bodySize ≤ Config.frameBufBytes)
    (hgo : Scan.next ref ⟨q, j, n⟩ = .go sc) :
    Scan.run ref (Scan.mk p i n).fuel ⟨p, i, n⟩ = Scan.run ref sc.fuel sc :=
  (hr i j n hg).trans (Scan.run_step hq hgo)

/-- The next InByte of a scan whose stream gives one more byte. -/
theorem InStream.Gives.next {b : Byte} {i j : InStream} (h : i.Gives [b] j) (p : SyncPhase) (n : Word) :
    Scan.next ref ⟨p, i, n⟩ = Scan.byte b ref ⟨p, j, n⟩ := by
  obtain ⟨hbyte, hrest⟩ := h.take
  rw [Scan.next, hbyte, hrest.eq_of_nil]

/-! ### An ID3 tag (R152, R153) -/

/-- The rest of the header of an empty tag. -/
theorem SyncPhase.reaches_tagEmpty {revision flags s0 s1 s2 s3 : Byte} (hn : id3Size s0 s1 s2 s3 = 0) :
    (SyncPhase.tag []).Reaches ref [revision, flags, s0, s1, s2, s3] .begin := by
  have hsize : tagSize (s3 :: ([revision, flags, s0, s1, s2].reverse ++ [])) = 0 := hn
  exact (SyncPhase.reaches_tagHeader (l := [revision, flags, s0, s1, s2]) le_rfl).append
    (SyncPhase.reaches_byte (Nat.zero_le _) (Scan.byte_tagEmpty le_rfl hsize))

/-- All the bytes of a tag that is not empty. -/
theorem SyncPhase.reaches_tagEnd {tag : List Byte} {n : Nat} (hl : tag.length = n + 1) :
    (SyncPhase.skip n).Reaches ref tag .begin := by
  obtain ⟨l, b, rfl⟩ : ∃ l b, tag = l ++ [b] :=
    ⟨_, _, (List.dropLast_append_getLast (List.ne_nil_of_length_eq_add_one hl)).symm⟩
  rw [List.length_append, List.length_singleton, Nat.add_right_cancel_iff] at hl
  subst hl
  have hlast := SyncPhase.reaches_skipping (ref := ref) (le_refl l.length)
  rw [Nat.sub_self] at hlast
  exact hlast.append (SyncPhase.reaches_byte (Nat.zero_le _) fun _ _ => rfl)

/-- A whole tag takes the scan from an empty window to an empty window. -/
theorem SyncPhase.reaches_after_tag {major revision flags s0 s1 s2 s3 : Byte} {tag : List Byte}
    (hl : tag.length = id3Size s0 s1 s2 s3) :
    SyncPhase.begin.Reaches ref ([0x49, 0x44, 0x33, major, revision, flags, s0, s1, s2, s3] ++ tag) .begin := by
  refine (SyncPhase.reaches_tag major).append (m := [revision, flags, s0, s1, s2, s3] ++ tag) ?_
  cases hn : id3Size s0 s1 s2 s3 with
  | zero =>
    rw [List.length_eq_zero_iff.1 (hl.trans hn), List.append_nil]
    exact SyncPhase.reaches_tagEmpty hn
  | succ n => exact (SyncPhase.reaches_skip hn).append (SyncPhase.reaches_tagEnd (hl.trans hn))

end

/-- Settles O27: the scan is at an empty window after the tag, as it was before, with nothing unread or counted. -/
theorem tagIsSkipped : Obligations.TagIsSkipped := by
  intro s major revision flags s0 s1 s2 s3 tag j hs hl hg
  exact exec_sync_of_run hs (SyncPhase.reaches_after_tag hl s.stream j s.resync hg)

section
variable {ref : SyncRef}

/-! ### A candidate without a frame size (R159) -/

/-- A full window that is a sync mark with a bit rate index outside the table. -/
theorem Scan.window_of_noBitrate {s : State} {h : Word} (hm : s.marks h)
    (hbr : h.extractLsb' 12 4 = 0 ∨ h.extractLsb' 12 4 = 15) (sc : Scan) : sc.window h s.ref = sc.reject := by
  obtain ⟨hmark, hsync⟩ := hm
  have hout : (parseHeader h).brIdx = 0 ∨ (parseHeader h).brIdx = 15 ∨
      Config.frameBufBytes < frameSize (parseHeader h) := hbr.imp_right .inl
  rw [Scan.window, if_neg (not_id3_of_mark hmark), if_pos hsync]
  exact if_pos hout

/-- The scan drops the four bytes of a window that it rejects and counts it. -/
theorem Scan.run_rejected_window {h : Word} (hw : ∀ sc : Scan, sc.window h ref = sc.reject) {i j : InStream}
    (hg : i.Gives (headerBytes h) j) (n : Word) :
    Scan.run ref (Scan.mk .begin i n).fuel ⟨.begin, i, n⟩ =
      Scan.run ref (Scan.mk .begin j (n + 1)).fuel ⟨.begin, j, n + 1⟩ := by
  obtain ⟨k, hk, hlast⟩ := InStream.Gives.append (l := (headerBytes h).take 3) (m := [h.extractLsb' 0 8]) hg
  refine (SyncPhase.reaches_fill 0 le_rfl).run_go hk (Nat.zero_le _) ((hlast.next _ n).trans ?_)
  have hword : shiftIn (((headerBytes h).take 3).foldl shiftIn 0) (h.extractLsb' 0 8) = h := wordOf_headerBytes h
  exact congrArg ScanMove.go (hword.symm ▸ hw _)

/-! ### A body that no sync mark follows (R158) -/

/-- The last byte of a word after the body that is no sync mark: the body and the word are unread. -/
theorem Scan.next_probe_noMark {h : Word} {body : List Byte} {a b c d : Byte} {i j : InStream} {n : Word}
    (hg : i.Gives [d] j) (hm : isSyncMark (wordOf [a, b, c, d]) ref = false) :
    Scan.next ref ⟨.probe h body [c, b, a], i, n⟩ =
      .go ⟨.begin, { j with pb := body ++ [a, b, c, d] ++ j.pb }, n + 1⟩ :=
  (hg.next _ n).trans (if_neg (Bool.eq_false_iff.1 hm))

/-- The end of the stream within a next header: the body and what there is of the header are unread. -/
theorem Scan.next_probe_atEnd {h : Word} {body p : List Byte} {j : InStream} {n : Word} (hp : 0 < p.length)
    (hend : j.AtEnd) :
    Scan.next ref ⟨.probe h body (p.reverse ++ []), j, n⟩ =
      .go ⟨.begin, { j with pb := body ++ p, inEof := true }, n + 1⟩ := by
  obtain ⟨b, rev, hrev⟩ := List.exists_cons_of_length_pos (l := p.reverse) (by rwa [List.length_reverse])
  have hpb : body ++ (b :: rev).reverse ++ j.pb = body ++ p := by
    rw [← hrev, List.reverse_reverse, hend.1, List.append_nil]
  rw [List.append_nil, hrev, Scan.next_atEnd hend, ← hpb]
  rfl

/-! ### A window that is no candidate (R151) -/

/-- Four bytes fill the window, whatever it was (R151). -/
theorem foldl_shiftIn_four (h : Word) (a b c d : Byte) : [a, b, c, d].foldl shiftIn h = wordOf [a, b, c, d] := by
  simp [wordOf, shiftIn, BitVec.shiftLeft_or_distrib, ← BitVec.shiftLeft_add]

/-- A further byte shifts the first of the window's four bytes out. -/
theorem shiftIn_tail (w : Word) (b : Byte) : shiftIn ((headerBytes w).tail.foldl shiftIn 0) b = shiftIn w b := by
  conv_rhs => rw [← wordOf_headerBytes w]
  exact (foldl_shiftIn_four (shiftIn 0 (w.extractLsb' 24 8)) _ _ _ b).symm

/-- Bytes that are no candidate leave a window to be shifted. -/
theorem SyncPhase.reaches_shift {w : Word} (hid : w.extractLsb' 8 24 ≠ 0x494433#24) (hm : isSyncMark w ref = false) :
    SyncPhase.begin.Reaches ref (headerBytes w) (.shift w) := by
  refine SyncPhase.reaches_window fun sc => ?_
  rw [show wordOf [w.extractLsb' 24 8, w.extractLsb' 16 8, w.extractLsb' 8 8, w.extractLsb' 0 8] = w from
    wordOf_headerBytes w, Scan.window, if_neg hid, if_neg (Bool.eq_false_iff.1 hm)]

/-- The bytes of a window but its first, from an empty window on. -/
theorem SyncPhase.reaches_tail (w : Word) :
    SyncPhase.begin.Reaches ref (headerBytes w).tail (.fill 0 ((headerBytes w).tail.foldl shiftIn 0)) :=
  SyncPhase.reaches_fill 0 le_rfl

/-- A further byte leads a window without its first byte to where it leads the whole window. -/
theorem Scan.byte_tail (w : Word) (b : Byte) (i : InStream) (n : Word) :
    Scan.byte b ref ⟨.fill 0 ((headerBytes w).tail.foldl shiftIn 0), i, n⟩ = Scan.byte b ref ⟨.shift w, i, n⟩ := by
  unfold Scan.byte
  dsimp only
  rw [shiftIn_tail]
  rfl

end

/-- InByte of a stream that is ready answers a byte, the end of the stream or an I/O error. -/
theorem InStream.Ready.take_ne_nothing {i : InStream} (h : i.Ready) : i.take.1 ≠ .nothing := by
  intro ht
  obtain ⟨hpb, heof, hport, -⟩ := InStream.take_nothing ht
  rcases h with h | h | h
  · exact h hpb
  · exact Bool.false_ne_true (heof.symm.trans h)
  · exact h hport

/-- SYNC on a window that is no candidate goes on with the window's second byte. -/
theorem exec_sync_of_no_candidate {s : State} (hs : s.live) {w : Word} {j : InStream}
    (hid : w.extractLsb' 8 24 ≠ 0x494433#24) (hm : isSyncMark w s.ref = false)
    (hg : s.stream.Gives (headerBytes w) j) (hj : j.Ready) :
    exec .sync s = exec .sync (s.withStream { j with pb := (headerBytes w).tail ++ j.pb }) := by
  have hwhole := SyncPhase.reaches_shift hid hm s.stream j s.resync hg
  have htail := SyncPhase.reaches_tail (ref := s.ref) w { j with pb := (headerBytes w).tail ++ j.pb } j s.resync
    (.inl ⟨rfl, rfl, rfl⟩)
  cases ht : j.take.1 with
  | byte b =>
    have hnext (p : SyncPhase) : Scan.next s.ref ⟨p, j, s.resync⟩ = Scan.byte b s.ref ⟨p, j.take.2, s.resync⟩ := by
      rw [Scan.next, ht]
    refine exec_sync_of_run (n := s.resync) hs (hwhole.trans (.trans ?_ htail.symm))
    have hstep := (hnext (.fill 0 _)).trans (Scan.byte_tail w b j.take.2 s.resync)
    exact (Scan.run_step (Nat.zero_le _) (hnext (.shift w))).trans (Scan.run_step (Nat.zero_le _) hstep).symm
  | eof =>
    have hnext (p : SyncPhase) (hp : p.Ends) : Scan.next s.ref ⟨p, j, s.resync⟩ = .ended ⟨p, j.take.2, s.resync⟩ := by
      rw [Scan.next, ht]
      exact Scan.eof_of_ends hp
    exact exec_sync_of_stop (n := s.resync) hs (hwhole.trans (Scan.run_stop (hnext _ nofun) nofun))
      (htail.trans (Scan.run_stop (hnext _ nofun) nofun)) fun _ => rfl
  | ioerr =>
    have hnext (p : SyncPhase) : Scan.next s.ref ⟨p, j, s.resync⟩ = .failed ⟨p, j.take.2, s.resync⟩ := by
      rw [Scan.next, ht]
    exact exec_sync_of_stop (n := s.resync) hs (hwhole.trans (Scan.run_stop (hnext _) nofun))
      (htail.trans (Scan.run_stop (hnext _) nofun)) fun _ => rfl
  | nothing => exact absurd ht hj.take_ne_nothing

/-- Settles O25: the scan is at an empty window again after a rejected candidate, what it unreads being in front of the
stream; a window that is no candidate and one without its first byte go on alike. -/
theorem syncRejects : Obligations.SyncRejects := by
  intro s hs
  refine ⟨fun h j hm hbr hg => ?_, fun h body j k hf hg => ?_, fun w j hid hm hg hj =>
    exec_sync_of_no_candidate hs hid hm hg hj⟩
  · exact exec_sync_of_run hs (Scan.run_rejected_window (Scan.window_of_noBitrate hm hbr) hg s.resync)
  · obtain ⟨-, ⟨-, -, -, -, -, hsize⟩, hbody⟩ := id hf
    rw [← hbody] at hsize
    have hprobe := hf.reaches s.stream j s.resync hg
    refine ⟨fun q hq hj => ?_, fun p hpos hlt hj hend => ?_⟩
    · obtain ⟨i, hi, hlast⟩ := InStream.Gives.append (l := (headerBytes q).take 3) (m := [q.extractLsb' 0 8]) hj
      have hreject := Scan.next_probe_noMark (h := h) (body := body) (n := s.resync) hlast
        ((wordOf_headerBytes q).symm ▸ hq)
      exact exec_sync_of_run hs
        (hprobe.trans ((SyncPhase.reaches_probing (rev := []) le_rfl hsize).run_go hi hsize hreject))
    · have hreject := Scan.next_probe_atEnd (ref := s.ref) (h := h) (body := body) (n := s.resync) hpos hend
      exact exec_sync_of_run hs (hprobe.trans
        ((SyncPhase.reaches_probing (rev := []) (by simpa using Nat.le_of_lt_succ hlt) hsize).run_go hj hsize hreject))

end Sys2Proof.Machine
end

section
/-! PROOF. What the RB commands have in common (R201, R207, R425): each changes RESULT and the reservoir with its fault
log, and leaves everything else but what a fault leaves unspecified. -/

namespace Sys2Proof.Machine

/-! ### Words and cursors -/

/-- The word of a command with an immediate (R101, R103). -/
theorem packFields_withImm (opc : BitVec 8) (imm : BitVec 16) :
    packFields (withImm opc imm) = imm ++ opc.zeroExtend 16 := by
  have hlow : ∀ opc : BitVec 8, (0#6 ++ (0#1 ++ (0#1 ++ opc)) : BitVec 16) = opc.zeroExtend 16 := by decide
  exact congrArg (imm ++ ·) (hlow opc)

theorem instr_wf_iff {i : Instr} : i.wf = true ↔ i.imm.toNat ≤ i.immLimit := decide_eq_true_iff

/-- A cursor moved back by `n` comes by `n` to where it was (R205, R206). -/
theorem toNat_sub_ofNat_add {w : Nat} (x : BitVec w) (n : Nat) :
    ((x - BitVec.ofNat w n).toNat + n) % 2 ^ w = x.toNat := by
  have hback := congrArg BitVec.toNat (BitVec.sub_add_cancel x (BitVec.ofNat w n))
  rwa [BitVec.toNat_add, BitVec.toNat_ofNat, Nat.add_mod_mod] at hback

theorem add_ofNat_eq_ofNat {w : Nat} (x : BitVec w) (n : Nat) : x + BitVec.ofNat w n = BitVec.ofNat w (x.toNat + n) := by
  rw [BitVec.ofNat_add, BitVec.ofNat_toNat, BitVec.setWidth_eq]

/-! ### The fault log -/

/-- A fault that is recorded unless `P`. -/
theorem FaultLog.recordIf_eq_ite {P : Prop} [Decidable P] {c : Bool} (hc : c = true ↔ ¬P) (e : Err) (l : FaultLog) :
    l.recordIf c e = if P then l else l.record e := by
  by_cases hP : P
  · rw [if_pos hP, FaultLog.recordIf, if_neg fun h => hc.1 h hP]
  · rw [if_neg hP, FaultLog.recordIf, if_pos (hc.2 hP)]

/-- The code of a command that records `e` unless `P`, and raises nothing (R430). -/
theorem freshLog_first_getD {P : Prop} [Decidable P] (e : Err) (s : State) :
    (if P then s.freshLog else s.freshLog.record e).first.getD .ok = if P then .ok else e := by
  split <;> rfl

/-! ### A command that changes RESULT and the reservoir -/

/-- The rules' state may be named with the RESULT and the reservoir that the command left, where these are the rules' but
for the free values drawn. -/
theorem State.Agrees.withOwnAnswer {t u : State} (h : t.Agrees u) : t.Agrees { u with result := t.result, rs := t.rs } := by
  refine ⟨fun hc => ?_, h.2.trans (by rw [h.2]; rfl)⟩
  have hu : t = u := h.1 (h.clean_iff.1 hc)
  subst hu
  rfl

/-- `u` is `s` but for RESULT and the reservoir with its fault log. -/
def State.SameButReservoir (s u : State) : Prop := u = { s with result := u.result, rs := u.rs }

theorem State.SameButReservoir.pipeline {s u : State} (h : s.SameButReservoir u) :
    u.book = s.book ∧ u.chan = s.chan ∧ u.order = s.order := by
  rw [h]
  exact ⟨rfl, rfl, rfl⟩

/-- The end of a command that has changed only these and raises nothing (R425, R430). -/
theorem State.SameButReservoir.finish {s u : State} (h : s.start.SameButReservoir u) :
    u.finish .ok = { s.endedWith (u.rs.log.first.getD .ok) with result := u.result, rs := u.rs } := by
  conv_lhs => rw [h]
  rfl

/-- A command without checks whose effect is on RESULT and the reservoir alone and which records `e` unless `P`. -/
theorem command_reservoir {body : State → State} {P : Prop} [Decidable P] {e : Err} {s : State} (hs : s.live)
    (hbody : s.start.SameButReservoir (body s.start))
    (hlog : (body s.start).rs.log = { (if P then s.freshLog else s.freshLog.record e) with
      draws := (body s.start).rs.log.draws }) :
    ∃ t, command noGuard (ending body) s = .next t ∧
      t.Agrees { s.endedWith (if P then .ok else e) with result := t.result, rs := t.rs } ∧
      t.rs.resv = (body s.start).rs.resv ∧ t.result = (body s.start).result ∧
      t.rs.log = { (if P then s.freshLog else s.freshLog.record e) with draws := t.rs.log.draws } ∧
      (t.clean → P ∧ t.rs.log = (body s.start).rs.log) := by
  have hfirst : (body s.start).rs.log.first.getD .ok = if P then .ok else e := by
    rw [hlog, ← freshLog_first_getD e s]
  obtain ⟨t, ht, hagree⟩ := command_ending body hs (g := noGuard) rfl
  have hlogs : t.rs.log = { (body s.start).rs.log with draws := t.rs.log.draws } := by rw [hagree.2]; rfl
  have hends : t.rs.log = { (if P then s.freshLog else s.freshLog.record e) with draws := t.rs.log.draws } :=
    hlogs.trans (by rw [hlog])
  refine ⟨t, ht, ?_, by rw [hagree.2]; rfl, by rw [hagree.2]; rfl, hends, fun hc => ⟨?_, ?_⟩⟩
  · have hown := hagree.withOwnAnswer
    rw [hbody.finish, hfirst] at hown
    exact hown
  · by_contra hP
    rw [State.clean, hends, if_neg hP] at hc
    cases hc
  · rw [hagree.1 (hagree.clean_iff.1 hc)]
    rfl

/-- A command that changes the reservoir alone by `f`, and records `e` unless `P`. -/
theorem command_withRs {f : RS → RS} {P : Prop} [Decidable P] {e : Err} {s : State} (hs : s.live)
    (hlog : (f s.start.rs).log = if P then s.freshLog else s.freshLog.record e) :
    ∃ t, command noGuard (ending fun s => s.withRs (f s.rs)) s = .next t ∧
      t.Agrees { s.endedWith (if P then .ok else e) with rs := t.rs } ∧ t.rs.resv = (f s.start.rs).resv ∧
      t.rs.log = { (if P then s.freshLog else s.freshLog.record e) with draws := t.rs.log.draws } ∧
      (t.clean → t.rs.log = s.freshLog) := by
  obtain ⟨t, ht, hagree, hresv, hresult, hlogs, hclean⟩ :=
    command_reservoir (body := fun s => s.withRs (f s.rs)) (P := P) (e := e) hs rfl (by rw [← hlog]; rfl)
  rw [hresult] at hagree
  refine ⟨t, ht, hagree, hresv, hlogs, fun hc => ?_⟩
  obtain ⟨hP, hfresh⟩ := hclean hc
  exact hfresh.trans (hlog.trans (if_pos hP))

end Sys2Proof.Machine
end

section
/-! PROOF. RB_TELL, RB_PUT_BYTE and the two rewinds (R202, R204-R206): O17, O19, O20. -/

namespace Sys2Proof.Machine

/-- Settles O19. -/
theorem rbTellAnswers : Obligations.RbTellAnswers := by
  refine ⟨rfl, fun s hs => ?_⟩
  obtain ⟨t, ht, hagree, hresult⟩ := complete_answer s.rs.resv.totbit s.start
  exact ⟨t, (exec_runs (i := .rbTell) nofun hs rfl).trans (congrArg _ ht), hagree, hresult⟩

/-- RbPut records RESV_OVERFLOW unless there is room for the byte (R202). -/
theorem RS.put_log (b : Byte) (r : RS) :
    (r.put b).log = if r.resv.avail + 8 ≤ 32768 then r.log else r.log.record .resvOverflow :=
  FaultLog.recordIf_eq_ite (by rw [decide_eq_true_iff, Nat.not_le]; rfl) _ _

/-- RbRewind records RESV_OVERREWIND unless the history holds `n` bits (R205). -/
theorem RS.rewind_log (n : Nat) (r : RS) :
    (r.rewind n).log = if n ≤ r.resv.hist then r.log else r.log.record .resvOverrewind :=
  FaultLog.recordIf_eq_ite (by rw [decide_eq_true_iff, Nat.not_le]) _ _

/-- Settles O17: a byte is put as a list of one. -/
theorem rbPutByteAppends : Obligations.RbPutByteAppends := by
  refine ⟨fun imm => ⟨packFields_withImm _ imm, instr_wf_iff⟩, fun b s hs hstore => ?_⟩
  have hb : (b.zeroExtend 16).truncate 8 = b := by simp
  have hwf : s.rs.resv.cells.wf = true := hstore.resvCells.1
  obtain ⟨t, ht, hagree, hresv, hlog, hclean⟩ := command_withRs (f := fun r => r.put b) hs (RS.put_log b s.start.rs)
  have hput : t.rs.resv = (s.rs.putMany [b]).resv := hresv
  refine ⟨t, ?_, hagree, fun i hi => ?_, fun p hp => ?_, ?_, ?_, ?_, ?_, ?_, hlog, hclean⟩
  · rw [← ht, exec, execRbPutByte, hb]
  · rw [hput, RS.putMany_bit hwf (by simp) (by simpa using hi), Nat.div_eq_of_lt hi, Nat.mod_eq_of_lt hi]
    rfl
  · rw [hput, RS.putMany_bit_other hwf (by simp) (by simpa using hp)]
  · rw [hput, RS.putMany_wptr]
    rfl
  all_goals rw [hput]; rfl

/-- Settles O20: the byte form is a rewind by 8 bits for each byte. -/
theorem rbRewinds : Obligations.RbRewinds := by
  refine ⟨fun imm => ⟨packFields_withImm _ imm, instr_wf_iff.2 (Nat.le_of_lt_succ imm.isLt), packFields_withImm _ imm,
    instr_wf_iff⟩, fun n i s hs hi => ?_⟩
  have hexec : exec i s = command noGuard (ending fun s => s.withRs (s.rs.rewind n)) s := by
    rcases hi with ⟨imm, rfl, rfl⟩ | ⟨imm, rfl, -, rfl⟩ <;> rfl
  obtain ⟨t, ht, hagree, hresv, hlog, hclean⟩ :=
    command_withRs (f := fun r => r.rewind n) hs (RS.rewind_log n s.start.rs)
  refine ⟨t, hexec.trans ht, hagree, ?_, ?_, ?_, hlog, hclean⟩
  · rw [hresv]; rfl
  · rw [hresv]; exact toNat_sub_ofNat_add s.rs.resv.rptr n
  · rw [hresv]; exact toNat_sub_ofNat_add s.rs.resv.totbit n

end Sys2Proof.Machine
end

section
/-! PROOF. RB_READ_BITS (R203): O18. -/

namespace Sys2Proof.Machine

theorem rbReadBits_sameButReservoir (n : Nat) (s : State) : s.SameButReservoir (rbReadBits n s) := by
  unfold rbReadBits
  dsimp only
  split
  · rfl
  · rw [State.answer_frame]; rfl

theorem rbReadBits_resv (n : Nat) (s : State) : (rbReadBits n s).rs.resv = s.rs.resv.advance n := by
  unfold rbReadBits
  dsimp only
  split <;> simp

/-- A read records RESV_OVERREAD unless `n` bits are there, and may draw free values. -/
theorem rbReadBits_log (n : Nat) (s : State) :
    (rbReadBits n s).rs.log =
      { (if n ≤ s.rs.resv.avail then s.rs.log else s.rs.log.record .resvOverread) with
        draws := (rbReadBits n s).rs.log.draws } := by
  have hread : (s.rs.read n).2.log =
      { (if n ≤ s.rs.resv.avail then s.rs.log else s.rs.log.record .resvOverread) with
        draws := (s.rs.read n).2.log.draws } := by
    rw [← FaultLog.recordIf_eq_ite (c := decide (s.rs.resv.avail < n)) (by rw [decide_eq_true_iff, Nat.not_le])]
    rcases RS.read_log n s.rs with h | h
    · rw [h]
    · rw [h]; rfl
  unfold rbReadBits
  dsimp only
  split
  · exact hread
  · rw [State.answer_frame, State.withRs_rs, hread]

/-- A read of bits that are there, with no fault on record. -/
theorem rbReadBits_clean {n : Nat} {s : State} (hc : s.clean) (hn : n ≤ s.rs.resv.avail) :
    rbReadBits n s = { s with
      result := BitVec.ofNat 32 (s.rs.resv.peek n)
      rs := { resv := s.rs.resv.advance n, log := s.rs.log } } := by
  rw [rbReadBits, RS.read_clean hn hc]
  dsimp only
  split
  · next h0 => subst h0; rfl
  · exact State.answer_clean _ hc

/-- The bits of RESULT are those of the ring, the first as the most significant (R203). -/
theorem Resv.peek_getLsbD (r : Resv) {n i : Nat} (hn : n ≤ 32) (hi : i < n) :
    (BitVec.ofNat 32 (r.peek n)).getLsbD (n - 1 - i) = r.bit (r.rptr.toNat + i) := by
  rw [BitVec.getLsbD_ofNat, decide_eq_true (by omega), Bool.true_and]
  exact gather_testBit _ hi

theorem Resv.peek_toNat_lt (r : Resv) (n : Nat) : (BitVec.ofNat 32 (r.peek n)).toNat < 2 ^ n :=
  Nat.lt_of_le_of_lt (BitVec.toNat_ofNat (r.peek n) 32 ▸ Nat.mod_le _ _) (gather_lt _ n)

theorem Resv.advance_zero (r : Resv) : r.advance 0 = r := by
  simp [Resv.advance]

/-- Settles O18. -/
theorem rbReadBitsReads : Obligations.RbReadBitsReads := by
  refine ⟨fun imm => ⟨packFields_withImm _ imm, instr_wf_iff⟩, fun n s hn hs => ?_⟩
  have himm : (BitVec.ofNat 16 n).toNat = n := by rw [BitVec.toNat_ofNat]; omega
  obtain ⟨t, ht, hagree, hresv, hresult, hlog, hclean⟩ :=
    command_reservoir (body := rbReadBits n) hs (rbReadBits_sameButReservoir n _) (rbReadBits_log n s.start)
  have hadvance : t.rs.resv = s.rs.resv.advance n := hresv.trans (rbReadBits_resv n s.start)
  refine ⟨t, ?_, hagree, ?_, hlog, fun h0 => ?_, fun havail hc => ?_⟩
  · rw [← ht, exec, execRbReadBits, himm]
  · rw [hadvance, ← add_ofNat_eq_ofNat, ← add_ofNat_eq_ofNat]; rfl
  · subst h0
    exact ⟨hresult, hadvance.trans (Resv.advance_zero _)⟩
  · have hread := rbReadBits_clean (s := s.start) hc havail
    have hfresh : t.clean := by
      rw [if_pos (by exact havail)] at hlog
      exact (congrArg FaultLog.tainted hlog).trans hc
    have hvalue : t.result = BitVec.ofNat 32 (s.rs.resv.peek n) := hresult.trans (congrArg State.result hread)
    rw [hvalue]
    exact ⟨(hclean hfresh).2.trans (congrArg (fun u => u.rs.log) hread), s.rs.resv.peek_toNat_lt n,
      fun i hi => s.rs.resv.peek_getLsbD hn hi⟩

end Sys2Proof.Machine
end

section
/-! PROOF. The RB commands and the bookkeeping of the pipeline (R207, R421, R425): O22. -/

namespace Sys2Proof.Machine

/-- `s` with another frame bookkeeping, other channels and another part order. -/
def State.elsewhere (b : Book) (c : Two Chan) (o : PartOrder) (s : State) : State :=
  { s with book := b, chan := c, order := o }

/-- The codes that an RB command can end with (R201). -/
def Err.ofReservoir (e : Err) : Prop := e = .ok ∨ e = .resvOverread ∨ e = .resvOverrewind ∨ e = .resvOverflow

/-- Effects that change RESULT and the reservoir alone, do not depend on the pipeline's bookkeeping, and record
reservoir faults. -/
structure Isolated (body : State → State) : Prop where
  frame : ∀ s : State, s.SameButReservoir (body s)
  blind : ∀ b c o s, body (s.elsewhere b c o) = (body s).elsewhere b c o
  code : ∀ s, s.rs.log.first = none → ((body s).rs.log.first.getD .ok).ofReservoir

/-! ### The effects of the RB commands -/

theorem FaultLog.recordIf_ofReservoir {c : Bool} {e : Err} {l : FaultLog} (he : e.ofReservoir) (hl : l.first = none) :
    ((l.recordIf c e).first.getD .ok).ofReservoir := by
  cases c
  · rw [FaultLog.recordIf_false, hl]; exact .inl rfl
  · rw [FaultLog.recordIf_true, FaultLog.record_first, hl]; exact he

/-- A change of the reservoir alone. -/
theorem isolated_withRs {f : RS → RS} (hf : ∀ r, r.log.first = none → ((f r).log.first.getD .ok).ofReservoir) :
    Isolated fun s => s.withRs (f s.rs) :=
  ⟨fun _ => rfl, fun _ _ _ _ => rfl, fun s => hf s.rs⟩

theorem isolated_put (b : Byte) : Isolated fun s => s.withRs (s.rs.put b) :=
  isolated_withRs fun _ => FaultLog.recordIf_ofReservoir (.inr (.inr (.inr rfl)))

theorem isolated_rewind (n : Nat) : Isolated fun s => s.withRs (s.rs.rewind n) :=
  isolated_withRs fun _ => FaultLog.recordIf_ofReservoir (.inr (.inr (.inl rfl)))

theorem answer_elsewhere (w : Word) (b : Book) (c : Two Chan) (o : PartOrder) (s : State) :
    (s.elsewhere b c o).answer w = (s.answer w).elsewhere b c o := by
  have hrs : (s.elsewhere b c o).rs = s.rs := rfl
  unfold State.answer State.storeOrFree
  rw [hrs]
  split <;> rfl

theorem isolated_tell : Isolated fun s => s.answer s.rs.resv.totbit where
  frame s := by rw [State.SameButReservoir, State.answer_frame]
  blind b c o s := answer_elsewhere _ b c o s
  code s h := by rw [State.answer_log_first, h]; exact .inl rfl

theorem isolated_rbReadBits (n : Nat) : Isolated (rbReadBits n) where
  frame := rbReadBits_sameButReservoir n
  blind b c o s := by
    unfold rbReadBits
    dsimp only
    split
    · rfl
    · exact answer_elsewhere _ b c o (s.withRs (s.rs.read n).2)
  code s h := by
    rw [rbReadBits_log]
    split
    · rw [h]; exact .inl rfl
    · rw [FaultLog.record_first, h]; exact .inr (.inl rfl)

/-! ### The commands -/

/-- The commands RB_TELL, RB_PUT_BYTE, RB_READ_BITS, RB_REWIND_BITS and RB_REWIND_BYTES (R202-R206). -/
def IsRb (i : Instr) : Prop :=
  i = .rbTell ∨ (∃ imm, i = .rbPutByte imm) ∨ (∃ imm, i = .rbReadBits imm) ∨ (∃ imm, i = .rbRewindBits imm) ∨
    ∃ imm, i = .rbRewindBytes imm

/-- An RB command has no check but FATAL, and isolated effects. -/
theorem exec_rb {i : Instr} (hi : IsRb i) : ∃ body, exec i = command noGuard (ending body) ∧ Isolated body := by
  obtain rfl | ⟨imm, rfl⟩ | ⟨imm, rfl⟩ | ⟨imm, rfl⟩ | ⟨imm, rfl⟩ := hi
  · exact ⟨_, rfl, isolated_tell⟩
  · exact ⟨_, rfl, isolated_put _⟩
  · exact ⟨_, rfl, isolated_rbReadBits _⟩
  · exact ⟨_, rfl, isolated_rewind _⟩
  · exact ⟨_, rfl, isolated_rewind _⟩

/-- Settles O22: FATAL ends the command the same way whatever the bookkeeping is; otherwise its effects, isolated, are
what it leaves, but for what a fault leaves unspecified. -/
theorem rbCommandsAreIsolated : Obligations.RbCommandsAreIsolated := by
  intro i s t b c o hi ht
  obtain ⟨body, hexec, hbody⟩ := exec_rb hi
  rw [hexec] at ht ⊢
  cases hfatal : s.status.fatal with
  | true =>
    have hother : command noGuard (ending body) (s.elsewhere b c o) = .next ((s.elsewhere b c o).endedWith .fatalIo) :=
      command_fatal _ _ hfatal
    rw [command_fatal _ _ hfatal] at ht
    cases ht
    exact ⟨fun _ => ⟨⟨rfl, rfl⟩, hother⟩, rfl, fun _ => ⟨rfl, rfl⟩, fun hs => absurd (hfatal.symm.trans hs) nofun⟩
  | false =>
    obtain ⟨hbook, hchan, horder⟩ := (hbody.frame s.start).pipeline
    rw [command_runs _ hfatal rfl] at ht
    cases ht
    refine ⟨fun hc => ?_, ?_, fun ch => ⟨?_, ?_⟩, fun _ => ?_⟩
    · have hclean : (body s.start).clean := (complete_agrees _ _).clean_iff.1 hc
      have hother : body (s.elsewhere b c o).start = (body s.start).elsewhere b c o := hbody.blind b c o s.start
      rw [ending, complete_clean hclean]
      refine ⟨⟨hbook, hchan⟩, ?_⟩
      refine (command_runs (s := s.elsewhere b c o) _ hfatal rfl).trans ?_
      rw [ending, hother, complete_clean (by exact hclean)]
      rfl
    · exact (State.settle_order _).trans horder
    · exact (State.settle_stage ch _).trans (congrArg (fun c => (c.get ch).stage) hchan)
    · exact (State.settle_grp ch _).trans (congrArg (fun c => (c.get ch).grp) hchan)
    · have hcode : ((body s.start).settle.rs.log.first.getD .ok).ofReservoir := by
        rw [State.settle_log_first]
        exact hbody.code s.start rfl
      exact hcode

end Sys2Proof.Machine
end

section
/-! PROOF. Reads of the reservoir in a row (R203): each takes the bits behind those of the reads before it, and a
read of no bits can be left out. -/

namespace Sys2Proof.Machine

theorem Resv.advance_advance (m n : Nat) (r : Resv) : (r.advance m).advance n = r.advance (m + n) := by
  have hhist : r.hist + min m r.avail + min n (r.avail - m) = r.hist + min (m + n) r.avail := by omega
  simp only [Resv.advance, hhist, BitVec.ofNat_add, BitVec.add_assoc, Nat.sub_sub]

/-- The bits at the read cursor, once it has moved by `m`. -/
theorem Resv.peek_advance (m n : Nat) (r : Resv) : (r.advance m).peek n = r.field m n := by
  refine gather_congr fun i _ => ?_
  have hring : Config.resvBits = 2 ^ 15 := rfl
  simp only [Resv.bit, Resv.advance_cells, Resv.advance_rptr, BitVec.toNat_add, BitVec.toNat_ofNat, hring,
    Nat.add_mod_mod, Nat.mod_add_mod]

/-- Factor `k` of the stream whose factors have the widths `width` (R246). -/
def Resv.factor (width : Nat → Nat) (r : Resv) (k : Nat) : Nat :=
  r.field (∑ i ∈ Finset.range k, width i) (width k)

theorem Resv.factor_lt (width : Nat → Nat) (r : Resv) (k : Nat) : r.factor width k < 2 ^ width k := gather_lt _ _

theorem RS.readMany_append (ws ws' : List Nat) (r : RS) :
    r.readMany (ws ++ ws') =
      ((r.readMany ws).1 ++ ((r.readMany ws).2.readMany ws').1, ((r.readMany ws).2.readMany ws').2) := by
  induction ws generalizing r with
  | nil => rfl
  | cons w ws ih => simp only [List.cons_append, RS.readMany, ih]

/-- Whatever faults they record, the reads move the cursors by the sum of the widths (R201). -/
theorem RS.readMany_resv (ws : List Nat) (r : RS) : (r.readMany ws).2.resv = r.resv.advance ws.sum := by
  induction ws generalizing r with
  | nil => exact (Resv.advance_zero _).symm
  | cons w ws ih => rw [RS.readMany, ih, RS.read_resv, Resv.advance_advance, List.sum_cons]

section

variable {p : Nat → Bool} {width : Nat → Nat} (hp : ∀ k, p k = false → width k = 0)
include hp

/-- The widths of the fields that are read have the sum of all widths. -/
theorem sum_map_filter (n : Nat) :
    (((List.range n).filter p).map width).sum = ∑ k ∈ Finset.range n, width k := by
  induction n with
  | zero => rfl
  | succ n ih =>
    rw [List.range_succ, List.filter_append, List.map_append, List.sum_append, ih, Finset.sum_range_succ]
    cases hn : p n
    · simp [hn, hp n hn]
    · simp [hn]

/-- Each read gives the field at its place, if the bits are there and no fault is on record. -/
theorem RS.readMany_filter {r : RS} (hc : r.log.tainted = false) (n : Nat)
    (hroom : ∑ k ∈ Finset.range n, width k ≤ r.resv.avail) :
    r.readMany (((List.range n).filter p).map width) =
      (((List.range n).filter p).map (r.resv.factor width),
        { r with resv := r.resv.advance (∑ k ∈ Finset.range n, width k) }) := by
  induction n with
  | zero => exact congrArg (fun v => ([], { r with resv := v })) (Resv.advance_zero _).symm
  | succ n ih =>
    rw [Finset.sum_range_succ] at hroom ⊢
    rw [List.range_succ, List.filter_append, List.map_append, List.map_append, RS.readMany_append,
      ih (Nat.le_of_add_right_le hroom)]
    cases hn : p n
    · simp [hn, hp n hn, RS.readMany]
    · have hread := RS.read_clean (n := width n)
        (r := { r with resv := r.resv.advance (∑ k ∈ Finset.range n, width k) })
        (by rw [Resv.advance_avail]; omega) hc
      simp [hn, RS.readMany, hread, Resv.peek_advance, Resv.advance_advance, Resv.factor]

end

end Sys2Proof.Machine
end

section
/-! PROOF. Where the scale factors go (R243, R244, R246): the slot of each place of the stream, and what a store of
all of them leaves in SCF. -/

namespace Sys2Proof.Machine

/-! ### Slots -/

/-- The slot's value in SCF. -/
def Scf.value (f : Scf) : Slot → Nat
  | .L b => f.long b
  | .S w b => f.shortAt w b

/-- SCF has the slot's window (R48). -/
def Slot.HasWindow : Slot → Prop
  | .L _ => True
  | .S w _ => w < 3

/-- SCF has the slot (R48). -/
def Slot.InScf : Slot → Prop
  | .L b => b < 23
  | .S w b => w < 3 ∧ b < 13

theorem Slot.InScf.hasWindow {x : Slot} (h : x.InScf) : x.HasWindow :=
  match x with
  | .L _ => trivial
  | .S _ _ => h.1

theorem Scf.store_L (b v : Nat) (f : Scf) :
    f.store (.L b) v = { f with L := f.L.setIfInBounds b (BitVec.ofNat 5 v) } := rfl

/-- A store into a short band leaves the long ones. -/
theorem Scf.store_S_L (w b v : Nat) (f : Scf) : (f.store (.S w b) v).L = f.L :=
  match w with
  | 0 => rfl
  | 1 => rfl
  | _ + 2 => rfl

theorem Scf.store_S_get {w u : Nat} (hw : w < 3) (hu : u < 3) (b v : Nat) (f : Scf) :
    (f.store (.S w b) v).S.get u =
      if w = u then (f.S.get u).setIfInBounds b (BitVec.ofNat 5 v) else f.S.get u := by
  interval_cases w <;> interval_cases u <;> rfl

theorem Scf.value_store_same {x : Slot} (hx : x.InScf) (v : Nat) (f : Scf) : (f.store x v).value x = v % 32 := by
  match x with
  | .L b =>
    have hb : b < 23 := hx
    simp [Scf.store_L, Scf.value, Scf.long, hb]
  | .S w b =>
    obtain ⟨hw, hb⟩ := hx
    simp [Scf.value, Scf.shortAt, Scf.store_S_get hw hw, hb]

theorem Scf.value_store_other {x y : Slot} (hx : x.HasWindow) (hy : y.HasWindow) (hne : x ≠ y) (v : Nat) (f : Scf) :
    (f.store x v).value y = f.value y := by
  match x, y with
  | .L b, .L c =>
    have hbc : b ≠ c := fun h => hne (h ▸ rfl)
    simp [Scf.store_L, Scf.value, Scf.long, Vector.getElem?_setIfInBounds_ne hbc]
  | .L b, .S u c => rfl
  | .S w b, .L c => rw [Scf.value, Scf.long, Scf.store_S_L]; rfl
  | .S w b, .S u c =>
    rw [Scf.value, Scf.shortAt, Scf.store_S_get hx hy]
    split
    · next hwu =>
      have hbc : b ≠ c := fun h => hne (h ▸ hwu ▸ rfl)
      rw [Vector.getElem?_setIfInBounds_ne hbc]
      rfl
    · rfl

/-! ### A list of stores -/

theorem Scf.storeAll_append (l l' : List (Slot × Nat)) (f : Scf) :
    (f.storeAll l).storeAll l' = f.storeAll (l ++ l') := by
  induction l generalizing f with
  | nil => rfl
  | cons q l ih => exact ih _

/-- Stores into other slots. -/
theorem Scf.value_storeAll_other {l : List (Slot × Nat)} {y : Slot} (hy : y.HasWindow)
    (hl : ∀ q ∈ l, q.1.HasWindow ∧ q.1 ≠ y) (f : Scf) : (f.storeAll l).value y = f.value y := by
  induction l generalizing f with
  | nil => rfl
  | cons q l ih =>
    obtain ⟨⟨hw, hne⟩, hl⟩ := List.forall_mem_cons.1 hl
    rw [Scf.storeAll, ih hl, Scf.value_store_other hw hy hne]

/-- Stores into different slots: each keeps its value. -/
theorem Scf.value_storeAll_mem {l : List (Slot × Nat)} (hnodup : (l.map Prod.fst).Nodup) (hin : ∀ q ∈ l, q.1.InScf)
    {q : Slot × Nat} (hq : q ∈ l) (f : Scf) : (f.storeAll l).value q.1 = q.2 % 32 := by
  induction l generalizing f with
  | nil => cases hq
  | cons c l ih =>
    obtain ⟨hc, hnodup⟩ := List.nodup_cons.1 hnodup
    obtain ⟨hcin, hrest⟩ := List.forall_mem_cons.1 hin
    rw [Scf.storeAll]
    rcases List.mem_cons.1 hq with rfl | hq
    · rw [Scf.value_storeAll_other (l := l) hcin.hasWindow
        fun d hd => ⟨(hrest d hd).hasWindow, fun h => hc (h ▸ List.mem_map_of_mem hd)⟩, Scf.value_store_same hcin]
    · exact ih hnodup hrest hq _

theorem Scf.storeAll_S {l : List (Slot × Nat)} (hl : ∀ q ∈ l, ∃ b, q.1 = .L b) (f : Scf) : (f.storeAll l).S = f.S := by
  induction l generalizing f with
  | nil => rfl
  | cons q l ih =>
    obtain ⟨⟨b, hq⟩, hl⟩ := List.forall_mem_cons.1 hl
    rw [Scf.storeAll, ih hl, hq]
    rfl

theorem Scf.storeAll_L {l : List (Slot × Nat)} (hl : ∀ q ∈ l, ∃ w b, q.1 = .S w b) (f : Scf) :
    (f.storeAll l).L = f.L := by
  induction l generalizing f with
  | nil => rfl
  | cons q l ih =>
    obtain ⟨⟨w, b, hq⟩, hl⟩ := List.forall_mem_cons.1 hl
    rw [Scf.storeAll, ih hl, hq, Scf.store_S_L]

/-! ### The slots in stream order -/

/-- The slot of place `k` of the stream; `longs` is the number of long bands of a mixed block (R243, R244, R246). -/
def scfSlot (g : GranuleInfo) (longs k : Nat) : Slot :=
  if g.short then
    if g.mixedBlock then
      if k < longs then .L k else .S ((k - longs) % 3) (3 + (k - longs) / 3)
    else .S (k % 3) (k / 3)
  else .L k

/-- Place `k` of the stream is read: its partition is not shared (R243). -/
def scfIsRead (g : GranuleInfo) (shared : Nat → Bool) (k : Nat) : Bool := g.short || !shared (scfPartition k)

/-- The places of the stream that are read. -/
def scfPlaces (g : GranuleInfo) (longs : Nat) (shared : Nat → Bool) : List Nat :=
  (List.range (scfCount g longs)).filter (scfIsRead g shared)

variable {g : GranuleInfo} {longs : Nat} {shared : Nat → Bool}

theorem scfSlot_long (h : g.short = false) (k : Nat) : scfSlot g longs k = .L k := by simp [scfSlot, h]

theorem scfSlot_pure (h : g.short = true) (hm : g.mixedBlock = false) (k : Nat) :
    scfSlot g longs k = .S (k % 3) (k / 3) := by simp [scfSlot, h, hm]

theorem scfSlot_mixed (h : g.short = true) (hm : g.mixedBlock = true) (k : Nat) :
    scfSlot g longs k = if k < longs then .L k else .S ((k - longs) % 3) (3 + (k - longs) / 3) := by
  simp [scfSlot, h, hm]

/-- No place of a mixed block is a long band from `longs` on. -/
theorem scfSlot_mixed_ne_L (h : g.short = true) (hm : g.mixedBlock = true) {b : Nat} (hb : longs ≤ b) (k : Nat) :
    scfSlot g longs k ≠ .L b := by
  rw [scfSlot_mixed h hm]
  split
  · rintro ⟨rfl⟩
    omega
  · nofun

/-- No place of a mixed block is a short band below 3. -/
theorem scfSlot_mixed_ne_S (h : g.short = true) (hm : g.mixedBlock = true) (w : Nat) {b : Nat} (hb : b < 3) (k : Nat) :
    scfSlot g longs k ≠ .S w b := by
  rw [scfSlot_mixed h hm]
  split
  · nofun
  · rintro ⟨-, rfl⟩
    omega

/-- R247's flat index is the place of the stream. -/
theorem scfSlot_flatShort (h : g.short = true) {w b : Nat} (hw : w < 3) (hb : g.mixedBlock = true → 3 ≤ b) :
    scfSlot g longs (flatShort g.mixedBlock longs w b) = .S w b := by
  cases hm : g.mixedBlock
  · rw [scfSlot_pure h hm, flatShort, if_neg Bool.false_ne_true, Slot.S.injEq]
    omega
  · have h3 : 3 ≤ b := hb hm
    rw [scfSlot_mixed h hm, flatShort, if_pos rfl, if_neg (by omega), Slot.S.injEq]
    omega

theorem flatShort_lt (h : g.short = true) {w b : Nat} (hw : w < 3) (hlt : b < 12) (hb : g.mixedBlock = true → 3 ≤ b) :
    flatShort g.mixedBlock longs w b < scfCount g longs := by
  cases hm : g.mixedBlock
  · simp only [flatShort, scfCount, h, hm, if_true, Bool.false_eq_true, if_false]
    omega
  · have h3 : 3 ≤ b := hb hm
    simp only [flatShort, scfCount, h, hm, if_true]
    omega

theorem scfSlot_injective (g : GranuleInfo) (longs : Nat) : Function.Injective (scfSlot g longs) := by
  intro j k hjk
  cases h : g.short
  · simpa [scfSlot_long h] using hjk
  · cases hm : g.mixedBlock
    · simp only [scfSlot_pure h hm, Slot.S.injEq] at hjk
      omega
    · simp only [scfSlot_mixed h hm] at hjk
      split at hjk <;> split at hjk
      · exact Slot.L.inj hjk
      · cases hjk
      · cases hjk
      · rw [Slot.S.injEq] at hjk
        omega

/-! ### What the stores leave -/

/-- The slot is of a band that no block has in the stream: `L[21..22]`, `S[0..2][12]`. -/
def Slot.IsTop : Slot → Prop
  | .L b => 21 ≤ b
  | .S _ b => 12 ≤ b

theorem zeroSlots_inScf {short : Bool} : ∀ q ∈ zeroSlots short, q.1.InScf ∧ q.1.IsTop ∧ q.2 = 0 := by
  cases short <;> simp [zeroSlots, Slot.InScf, Slot.IsTop]

theorem zeroSlots_ne {short : Bool} {x : Slot} (hx : ¬x.IsTop) : ∀ q ∈ zeroSlots short, q.1 ≠ x :=
  fun q hq h => hx (h ▸ (zeroSlots_inScf q hq).2.1)

/-- A place of the stream is a band of SCF below those. -/
theorem scfSlot_inScf (hlongs : longs ≤ 21) {k : Nat} (hk : k < scfCount g longs) :
    (scfSlot g longs k).InScf ∧ ¬(scfSlot g longs k).IsTop := by
  unfold scfCount at hk
  cases h : g.short
  · rw [h, if_neg Bool.false_ne_true] at hk
    simp only [scfSlot_long h, Slot.InScf, Slot.IsTop]
    omega
  · rw [h, if_pos rfl] at hk
    cases hm : g.mixedBlock
    · rw [hm, if_neg Bool.false_ne_true] at hk
      simp only [scfSlot_pure h hm, Slot.InScf, Slot.IsTop]
      omega
    · rw [hm, if_pos rfl] at hk
      rw [scfSlot_mixed h hm]
      split <;> simp only [Slot.InScf, Slot.IsTop] <;> omega

/-- The stores of a READ_SCALEFACTORS whose factor of place `k` is `v k`. -/
def scfStores (g : GranuleInfo) (longs : Nat) (shared : Nat → Bool) (v : Nat → Nat) : List (Slot × Nat) :=
  ((scfPlaces g longs shared).map fun k => (scfSlot g longs k, v k)) ++ zeroSlots g.short

theorem mem_scfPlaces {k : Nat} :
    k ∈ scfPlaces g longs shared ↔ k < scfCount g longs ∧ scfIsRead g shared k = true := by
  rw [scfPlaces, List.mem_filter, List.mem_range]

/-- A store is that of a place that is read, or one of 0. -/
theorem forall_scfStores {v : Nat → Nat} {P : Slot × Nat → Prop}
    (hplace : ∀ k < scfCount g longs, scfIsRead g shared k = true → P (scfSlot g longs k, v k))
    (hzero : ∀ q ∈ zeroSlots g.short, P q) : ∀ q ∈ scfStores g longs shared v, P q := by
  intro q hq
  rcases List.mem_append.1 hq with hq | hq
  · obtain ⟨k, hk, rfl⟩ := List.mem_map.1 hq
    obtain ⟨hlt, hread⟩ := mem_scfPlaces.1 hk
    exact hplace k hlt hread
  · exact hzero q hq

theorem scfStores_inScf (hlongs : longs ≤ 21) {v : Nat → Nat} : ∀ q ∈ scfStores g longs shared v, q.1.InScf :=
  forall_scfStores (fun _ hk _ => (scfSlot_inScf hlongs hk).1) fun q hq => (zeroSlots_inScf q hq).1

theorem scfStores_nodup (hlongs : longs ≤ 21) (v : Nat → Nat) :
    ((scfStores g longs shared v).map Prod.fst).Nodup := by
  have hplaces : (scfPlaces g longs shared).Nodup := List.nodup_range.filter _
  have hzero : ((zeroSlots g.short).map Prod.fst).Nodup := by cases g.short <;> decide
  rw [scfStores, List.map_append, List.map_map]
  refine (hplaces.map (scfSlot_injective g longs)).append hzero fun x hx hz => ?_
  obtain ⟨k, hk, rfl⟩ := List.mem_map.1 hx
  obtain ⟨q, hq, hqx⟩ := List.mem_map.1 hz
  exact zeroSlots_ne (scfSlot_inScf hlongs (mem_scfPlaces.1 hk).1).2 q hq hqx

section

variable (hlongs : longs ≤ 21) {v : Nat → Nat} (old : Scf)
include hlongs

/-- A place that is read has its factor. -/
theorem scfStores_value_place {k : Nat} (hk : k < scfCount g longs) (hread : scfIsRead g shared k = true)
    (hv : v k < 32) : (old.storeAll (scfStores g longs shared v)).value (scfSlot g longs k) = v k := by
  have hmem : (scfSlot g longs k, v k) ∈ scfStores g longs shared v :=
    List.mem_append_left _ (List.mem_map.2 ⟨k, mem_scfPlaces.2 ⟨hk, hread⟩, rfl⟩)
  rw [Scf.value_storeAll_mem (scfStores_nodup hlongs v) (scfStores_inScf hlongs) hmem, Nat.mod_eq_of_lt hv]

theorem scfStores_value_zero {x : Slot} (hx : (x, 0) ∈ zeroSlots g.short) :
    (old.storeAll (scfStores g longs shared v)).value x = 0 :=
  Scf.value_storeAll_mem (q := (x, 0)) (scfStores_nodup hlongs v) (scfStores_inScf hlongs)
    (List.mem_append_right _ hx) old

/-- A slot that is of no place that is read, and none of those left at 0, keeps its value. -/
theorem scfStores_value_other {x : Slot} (hx : x.HasWindow)
    (hplace : ∀ k < scfCount g longs, scfIsRead g shared k = true → scfSlot g longs k ≠ x)
    (hzero : ∀ q ∈ zeroSlots g.short, q.1 ≠ x) : (old.storeAll (scfStores g longs shared v)).value x = old.value x :=
  Scf.value_storeAll_other hx
    (fun q hq => ⟨(scfStores_inScf hlongs q hq).hasWindow, forall_scfStores hplace hzero q hq⟩) old

/-- The stores are what R243, R244 and R246 say, if the factors are those of the stream. -/
theorem scfRead_scfStores {r : Resv} {width : Nat → Nat} (hwidth : ∀ k < scfCount g longs, width k ≤ 5) :
    ScfRead r g longs width shared old (old.storeAll (scfStores g longs shared (r.factor width))) := by
  have hfield : ∀ k < scfCount g longs, scfIsRead g shared k = true → ScfField r width k
      ((old.storeAll (scfStores g longs shared (r.factor width))).value (scfSlot g longs k)) := fun k hk hread =>
    scfStores_value_place hlongs old hk hread
      (Nat.lt_of_lt_of_le (r.factor_lt width k) (Nat.pow_le_pow_right (by decide) (hwidth k hk)))
  have hother := fun {x : Slot} =>
    scfStores_value_other (g := g) (shared := shared) (x := x) (v := r.factor width) hlongs old
  have hzero := fun {x : Slot} =>
    scfStores_value_zero (g := g) (shared := shared) (x := x) (v := r.factor width) hlongs old
  constructor
  case long =>
    intro h b hb
    have hcount : scfCount g longs = 21 := by rw [scfCount, h]; rfl
    refine ⟨fun hs => hother (x := .L b) trivial (fun k _ hread => ?_) (zeroSlots_ne (Nat.not_le.2 hb)), fun hs => ?_⟩
    · rw [scfSlot_long h]
      rintro ⟨rfl⟩
      simp [scfIsRead, h, hs] at hread
    · have hplace := hfield b (hcount ▸ hb) (by simp [scfIsRead, hs])
      rwa [scfSlot_long h] at hplace
  case longTop =>
    intro h
    exact ⟨hzero (x := .L 21) (by simp [h, zeroSlots]), hzero (x := .L 22) (by simp [h, zeroSlots]),
      Scf.storeAll_S (forall_scfStores (fun k _ _ => ⟨k, scfSlot_long h k⟩) (by simp [h, zeroSlots])) old⟩
  case short =>
    intro h w hw b hb hm
    have hplace := hfield _ (flatShort_lt h hw hb hm) (by simp [scfIsRead, h])
    rwa [scfSlot_flatShort h hw hm] at hplace
  case shortTop =>
    intro h w hw
    refine hzero (x := .S w 12) ?_
    interval_cases w <;> simp [h, zeroSlots]
  case mixed =>
    intro h hm
    refine ⟨fun b hb => ?_, fun b hb => ?_, fun w hw b hb => ?_⟩
    · have hcount : scfCount g longs = longs + 27 := by simp [scfCount, h, hm]
      have hplace := hfield b (by omega) (by simp [scfIsRead, h])
      rwa [scfSlot_mixed h hm, if_pos hb] at hplace
    · exact hother (x := .L b) trivial (fun k _ _ => scfSlot_mixed_ne_L h hm hb k) (by simp [h, zeroSlots])
    · exact hother (x := .S w b) hw (fun k _ _ => scfSlot_mixed_ne_S h hm w hb k)
        (zeroSlots_ne (Nat.not_le.2 (Nat.lt_trans hb (by decide))))
  case pure =>
    intro h hm
    exact Scf.storeAll_L (forall_scfStores (fun k _ _ => ⟨_, _, scfSlot_pure h hm k⟩) (by simp [h, zeroSlots])) old

end

end Sys2Proof.Machine
end

section
/-! PROOF. READ_SCALEFACTORS (R240-R244): what either layout reads and stores, what the command leaves, and O33. -/

namespace Sys2Proof.Machine

/-! ### Reads and stores -/

/-- The factors of a block, read from the places of `width` in the stream and stored into `old`. -/
def readFactors (g : GranuleInfo) (longs : Nat) (width : Nat → Nat) (shared : Nat → Bool) (old : Scf) (r : RS) :
    Scf × RS :=
  let v := r.readMany ((scfPlaces g longs shared).map width)
  ((old.storeAll (((scfPlaces g longs shared).map (scfSlot g longs)).zip v.1)).storeAll (zeroSlots g.short), v.2)

section

variable {g : GranuleInfo} {longs : Nat} {width : Nat → Nat} {shared : Nat → Bool} (old : Scf) {r : RS}
  (hshared : ∀ k, scfIsRead g shared k = false → width k = 0)
include hshared

/-- R241: the read cursor moves by the bits of the factors, whatever has been recorded. -/
theorem readFactors_resv : (readFactors g longs width shared old r).2.resv =
    r.resv.advance (∑ k ∈ Finset.range (scfCount g longs), width k) := by
  rw [readFactors, RS.readMany_resv, scfPlaces, sum_map_filter hshared]

/-- With no fault on record and the bits there, no fault is recorded, and the factors are those of the stream. -/
theorem readFactors_clean (hlongs : longs ≤ 21) (hwidth : ∀ k < scfCount g longs, width k ≤ 5)
    (hc : r.log.tainted = false) (hroom : ∑ k ∈ Finset.range (scfCount g longs), width k ≤ r.resv.avail) :
    (readFactors g longs width shared old r).2.log = r.log ∧
    ScfRead r.resv g longs width shared old (readFactors g longs width shared old r).1 := by
  have hread := RS.readMany_filter hshared hc (scfCount g longs) hroom
  rw [readFactors, scfPlaces, hread, List.zip_map', Scf.storeAll_append]
  exact ⟨rfl, scfRead_scfStores hlongs old hwidth⟩

end

/-! ### The command -/

theorem State.storeScf_agrees (ch : Fin 2) (v : Scf) (s : State) :
    (s.storeScf ch v).Agrees (s.mapChan ch fun c => { c with scf := v }) := by
  refine ⟨fun h => State.storeScf_clean ch v h, ?_⟩
  unfold State.storeScf State.storeOrFree
  split
  · generalize freeScf s.rs.log.draws = w
    match ch with
    | 0 => rfl
    | 1 => rfl
  · rfl

/-- The checks of READ_SCALEFACTORS pass (R240, R421). -/
theorem State.readyScalefactors.guard_start {gr ch : Fin 2} {s : State} (h : s.readyScalefactors gr ch) :
    guardScalefactors gr ch s.start = none := by
  obtain ⟨-, hl, ho, hb⟩ := h
  rw [start_guardScalefactors, guardScalefactors, thenCheck_none, guardGranule_none, require_none]
  exact ⟨⟨hl, ho⟩, beforeScalefactors_iff.2 hb⟩

/-- The state in which READ_SCALEFACTORS begins to read (R240). -/
def State.opened (gr ch : Fin 2) (s : State) : State :=
  ({ s with order := { s.order with partOpen := true } } : State).mapChan ch fun c =>
    { c with grp := gr, part2Start := s.rs.resv.totbit }

/-- The channel `c` after READ_SCALEFACTORS for granule `gr` with the read position `p` (R240, R241). -/
def Chan.withFactors (gr : Fin 2) (p : Word) (lsf : LsfInfo) (x : Scf) (c : Chan) : Chan :=
  { c with stage := .sf, grp := gr, part2Start := p, lsf := lsf, scf := x }

/-- The state after READ_SCALEFACTORS with the reservoir `r`, the side info `si`, the LSF bookkeeping `lsf` and the
factors `x`. -/
def State.withFactors (gr ch : Fin 2) (r : RS) (si : SideInfo) (lsf : LsfInfo) (x : Scf) (s : State) : State :=
  { s with
    order := { s.order with partOpen := true }
    rs := r
    si := si
    chan := s.chan.set ch ((s.chan.get ch).withFactors gr s.rs.resv.totbit lsf x) }

/-- READ_SCALEFACTORS stores its factors last. -/
theorem storeFactors_agrees {gr ch : Fin 2} {r : RS} {si : SideInfo} {lsf : LsfInfo} {x : Scf} {s u : State}
    (hu : u = ({ s.opened gr ch with si := si } : State).mapChan ch fun c => { c with lsf := lsf }) :
    (((u.withRs r).storeScf ch x).setStage ch .sf).Agrees (s.withFactors gr ch r si lsf x) := by
  have hstore := (State.storeScf_agrees ch x (u.withRs r)).setStage ch .sf
  have hall : ((u.withRs r).mapChan ch fun c => { c with scf := x }).setStage ch .sf =
      s.withFactors gr ch r si lsf x := by
    rw [hu]
    simp only [State.setStage, State.opened, State.mapChan, State.withRs, State.withFactors, Chan.withFactors,
      Two.get_set_same, Two.set_set]
  rwa [hall] at hstore

/-- The values that a fault leaves unspecified are not those that READ_SCALEFACTORS reads and stores. -/
theorem withValuesOf_withFactors {gr ch : Fin 2} {r : RS} {si : SideInfo} {lsf : LsfInfo} {x : Scf} {s t : State}
    (hrs : t.rs = { r with log := { r.log with draws := t.rs.log.draws } }) (lsf' : LsfInfo) (x' : Scf) :
    State.withValuesOf t ((s.withFactors gr ch t.rs si lsf' x').finish .ok) =
      State.withValuesOf t ((s.withFactors gr ch r si lsf x).finish .ok) := by
  rw [hrs]
  match ch with
  | 0 => rfl
  | 1 => rfl

/-- READ_SCALEFACTORS, by what its effects agree with: the rules' state may be named with the reservoir and the factors
that it left, and with any LSF bookkeeping that is right with no fault on record. -/
theorem exec_readScalefactors {gr ch : Fin 2} {s : State} {r : RS} {si : SideInfo} {lsf : LsfInfo} {x : Scf}
    (hr : s.readyScalefactors gr ch)
    (hbody : (readScalefactors gr ch s.start).Agrees (s.start.withFactors gr ch r si lsf x)) :
    ∃ t, exec (.readScalefactors gr ch) s = .next t ∧ t.rs.resv = r.resv ∧ (t.clean ↔ r.log.tainted = false) ∧
      (t.clean → t.rs.log = r.log ∧ (t.chan.get ch).lsf = lsf ∧ (t.chan.get ch).scf = x) ∧
      ∀ lsf', (t.clean → lsf' = lsf) → t.Agrees { s.endedWith (t.rs.log.first.getD .ok) with
        rs := t.rs, order := { s.order with partOpen := true }, si := si
        chan := s.chan.set ch ((s.chan.get ch).withFactors gr s.rs.resv.totbit lsf' (t.chan.get ch).scf) } := by
  obtain ⟨t, ht, hends⟩ := command_ending (readScalefactors gr ch) hr.1 hr.guard_start
  have hagree := hends.trans (hbody.finish .ok)
  have hrs : t.rs = { r with log := { r.log with draws := t.rs.log.draws } } := by rw [hagree.2]; rfl
  have hclean : t.clean → t = (s.start.withFactors gr ch r si lsf x).finish .ok := fun hc =>
    hagree.1 (hagree.clean_iff.1 hc)
  have hchan : t.clean → t.chan.get ch = (s.chan.get ch).withFactors gr s.rs.resv.totbit lsf x := fun hc => by
    rw [hclean hc]
    exact Two.get_set_same _ _ _
  have hnamed : ∀ lsf', { s.endedWith (t.rs.log.first.getD .ok) with
      rs := t.rs, order := { s.order with partOpen := true }, si := si
      chan := s.chan.set ch ((s.chan.get ch).withFactors gr s.rs.resv.totbit lsf' (t.chan.get ch).scf) } =
      (s.start.withFactors gr ch t.rs si lsf' (t.chan.get ch).scf).finish .ok := fun _ => rfl
  refine ⟨t, ht, by rw [hrs], hagree.clean_iff, fun hc => ⟨?_, ?_, ?_⟩, fun lsf' hlsf => ?_⟩
  · rw [hclean hc]; rfl
  · rw [hchan hc]; rfl
  · rw [hchan hc]; rfl
  · rw [hnamed]
    refine ⟨fun hc => ?_, ?_⟩
    · have hc : t.clean := hc
      have hr' : t.rs = r := by rw [hclean hc]; rfl
      rw [hlsf hc, hchan hc, hr']
      exact hclean hc
    · exact hagree.2.trans (withValuesOf_withFactors hrs _ _).symm

/-! ### MPEG1 (R242-R244) -/

section

variable {g : GranuleInfo} {shared : Nat → Bool}

/-- R243: a factor of a long block has the width of its band, unless its partition is shared. -/
theorem mpeg1Width_long (h : g.short = false) (k : Nat) : mpeg1Width g shared k =
    if shared (scfPartition k) then 0
    else if k < 11 then slen0 g.scalefacCompress.toNat else slen1 g.scalefacCompress.toNat := by
  simp only [mpeg1Width, scfPartition, h, Bool.false_eq_true, if_false]
  grind

/-- A factor that is not read takes no bits. -/
theorem mpeg1Width_shared {k : Nat} (hk : scfIsRead g shared k = false) : mpeg1Width g shared k = 0 := by
  obtain ⟨h, hs⟩ : g.short = false ∧ shared (scfPartition k) = true := by simpa [scfIsRead] using hk
  rw [mpeg1Width_long h, if_pos hs]

theorem getD_le_of_forall {l : List Nat} {m : Nat} (h : ∀ x ∈ l, x ≤ m) (k : Nat) : l.getD k 0 ≤ m := by
  rcases Nat.lt_or_ge k l.length with hk | hk
  · rw [List.getD_eq_getElem _ _ hk]
    exact h _ (List.getElem_mem hk)
  · rw [List.getD_eq_default _ _ hk]
    exact Nat.zero_le m

theorem mpeg1Width_le (k : Nat) : mpeg1Width g shared k ≤ 5 := by
  have h0 : slen0 g.scalefacCompress.toNat ≤ 5 := getD_le_of_forall (by decide) _
  have h1 : slen1 g.scalefacCompress.toNat ≤ 5 := getD_le_of_forall (by decide) _
  unfold mpeg1Width
  dsimp only
  split_ifs <;> omega

/-- The reads of a partition, the `n` long bands from `a` on, are those of its places (R243). -/
theorem partitionReads_eq (h : g.short = false) {a n q w : Nat} (hq : ∀ i < n, scfPartition (a + i) = q)
    (hw : ∀ i < n, (if a + i < 11 then slen0 g.scalefacCompress.toNat else slen1 g.scalefacCompress.toNat) = w) :
    (if shared q then [] else (longSlots a n).map fun x => (x, w)) =
      (((List.range n).map (a + ·)).filter (scfIsRead g shared)).map fun k =>
        (scfSlot g 8 k, mpeg1Width g shared k) := by
  have hread : ∀ i < n, scfIsRead g shared (a + i) = !shared q := fun i hi => by rw [scfIsRead, h, hq i hi]; rfl
  cases hs : shared q
  · have hall : ((List.range n).map (a + ·)).filter (scfIsRead g shared) = (List.range n).map (a + ·) :=
      List.filter_eq_self.2 fun k hk => by
        obtain ⟨i, hi, rfl⟩ := List.mem_map.1 hk
        rw [hread i (List.mem_range.1 hi), hs]; rfl
    rw [hall, if_neg Bool.false_ne_true, longSlots, List.map_map, List.map_map]
    refine List.map_congr_left fun i hi => ?_
    have hi := List.mem_range.1 hi
    simp only [Function.comp, scfSlot_long h, mpeg1Width_long h, hq i hi, hs, hw i hi, Bool.false_eq_true, if_false]
  · have hnone : ((List.range n).map (a + ·)).filter (scfIsRead g shared) = [] :=
      List.filter_eq_nil_iff.2 fun k hk => by
        obtain ⟨i, hi, rfl⟩ := List.mem_map.1 hk
        rw [hread i (List.mem_range.1 hi), hs]; exact Bool.false_ne_true
    rw [hnone, if_pos rfl, List.map_nil]

/-- R243, R244: the reads of an MPEG1 block are those of its places, in stream order. -/
theorem mpeg1Schedule_eq : mpeg1Schedule g shared =
    (scfPlaces g 8 shared).map fun k => (scfSlot g 8 k, mpeg1Width g shared k) := by
  cases h : g.short with
  | false =>
    have hrange : List.range (scfCount g 8) = (List.range 6).map (0 + ·) ++ (List.range 5).map (6 + ·) ++
        (List.range 5).map (11 + ·) ++ (List.range 5).map (16 + ·) := by rw [scfCount, h]; rfl
    unfold mpeg1Schedule
    dsimp only
    rw [if_neg (by simp [h]), partitionReads_eq h (q := 0) (by decide) fun i hi => if_pos (by omega),
      partitionReads_eq h (q := 1) (by decide) fun i hi => if_pos (by omega),
      partitionReads_eq h (q := 2) (by decide) fun i hi => if_neg (by omega),
      partitionReads_eq h (q := 3) (by decide) fun i hi => if_neg (by omega),
      scfPlaces, hrange]
    simp only [List.filter_append, List.map_append]
  | true =>
    unfold mpeg1Schedule scfPlaces scfCount scfIsRead scfSlot mpeg1Width
    rw [h]
    cases g.mixedBlock <;> rfl

end

theorem readScfMpeg1_eq (gr ch : Fin 2) (s : State) : readScfMpeg1 gr ch s =
    let g := s.info gr ch
    let shared := fun i => decide (gr = 1) && (s.si.scfsi.get ch).getMsbD i
    let v := readFactors g 8 (mpeg1Width g shared) shared (s.chan.get ch).scf s.rs
    (s.withRs v.2).storeScf ch v.1 := by
  unfold readScfMpeg1 readSchedule readFactors
  dsimp only
  rw [mpeg1Schedule_eq, List.map_map, List.map_map]
  rfl

theorem opened_scf (gr ch : Fin 2) (s : State) : ((s.opened gr ch).chan.get ch).scf = (s.chan.get ch).scf := by
  rw [State.opened, State.mapChan_chan, Two.get_set_same]

theorem opened_keeps_lsf (gr ch : Fin 2) (s : State) :
    s.opened gr ch = ({ s.opened gr ch with si := s.si } : State).mapChan ch fun c =>
      { c with lsf := (s.chan.get ch).lsf } := by
  match ch with
  | 0 => rfl
  | 1 => rfl

/-- READ_SCALEFACTORS of an MPEG1 frame, whatever has been recorded before it. -/
theorem readScalefactors_mpeg1_agrees {gr ch : Fin 2} {s : State} (hv : s.head.fields.version = .mpeg1) :
    let g := s.info gr ch
    let shared := fun i => decide (gr = 1) && (s.si.scfsi.get ch).getMsbD i
    let v := readFactors g 8 (mpeg1Width g shared) shared (s.chan.get ch).scf s.rs
    (readScalefactors gr ch s).Agrees (s.withFactors gr ch v.2 s.si (s.chan.get ch).lsf v.1) := by
  intro g shared v
  have hbody : readScalefactors gr ch s = (readScfMpeg1 gr ch (s.opened gr ch)).setStage ch .sf := by
    unfold readScalefactors
    exact congrArg (State.setStage ch .sf) (if_pos hv)
  have hagree := storeFactors_agrees (r := v.2) (x := v.1) (opened_keeps_lsf gr ch s)
  rw [hbody, readScfMpeg1_eq]
  dsimp only
  rw [opened_scf]
  exact hagree

/-- Settles O33: the places that are read are the whole stream with the shared partitions at width 0, so that each
factor stands at the sum of the widths before it. -/
theorem scalefactorsMpeg1 : Obligations.ScalefactorsMpeg1 := by
  intro gr ch s hr hv
  obtain ⟨t, ht, hresv, hiff, hclean, hagree⟩ :=
    exec_readScalefactors hr (readScalefactors_mpeg1_agrees (s := s.start) hv)
  refine ⟨t, ht, hagree _ fun _ => rfl, hresv.trans (readFactors_resv _ fun k => mpeg1Width_shared),
    fun hc hroom => ?_⟩
  obtain ⟨hfresh, hread⟩ := readFactors_clean (s.chan.get ch).scf (fun k => mpeg1Width_shared) (by decide)
    (fun k _ => mpeg1Width_le k) (r := s.start.rs) hc hroom
  obtain ⟨hlog, -, hscf⟩ := hclean (hiff.2 ((congrArg FaultLog.tainted hfresh).trans hc))
  exact ⟨hlog.trans hfresh, hscf ▸ hread⟩

end Sys2Proof.Machine
end

section
/-! PROOF. READ_SCALEFACTORS of an LSF frame (R245, R246): the slen values, the widths of the flat buffer, and O34. -/

namespace Sys2Proof.Machine

/-! ### GetLSFScaleData (R245) -/

/-- The four slen values, in order. -/
def LsfScale.slens (v : LsfScale) : List Nat := [v.slen.1, v.slen.2.1, v.slen.2.2.1, v.slen.2.2.2]

section

variable {sc : Nat}

theorem lsfScale_below400 (h : sc < 400) :
    (lsfScale false sc).slens = [sc / 16 / 5, sc / 16 % 5, sc % 16 / 4, sc % 4] ∧
    (lsfScale false sc).preflag = false ∧ (lsfScale false sc).blockNum = 0 := by
  simp [lsfScale, LsfScale.slens, h]

theorem lsfScale_below500 (h : 400 ≤ sc) (h' : sc < 500) :
    (lsfScale false sc).slens = [(sc - 400) / 4 / 5, (sc - 400) / 4 % 5, (sc - 400) % 4, 0] ∧
    (lsfScale false sc).preflag = false ∧ (lsfScale false sc).blockNum = 1 := by
  simp [lsfScale, LsfScale.slens, Nat.not_lt.2 h, h']

theorem lsfScale_from500 (h : 500 ≤ sc) :
    (lsfScale false sc).slens = [(sc - 500) / 3, (sc - 500) % 3, 0, 0] ∧
    (lsfScale false sc).preflag = true ∧ (lsfScale false sc).blockNum = 2 := by
  have h' : 400 ≤ sc := by omega
  simp [lsfScale, LsfScale.slens, Nat.not_lt.2 h, Nat.not_lt.2 h']

theorem lsfScale_intensity_below180 (h : sc / 2 < 180) :
    (lsfScale true sc).slens = [sc / 2 / 36, sc / 2 % 36 / 6, sc / 2 % 36 % 6, 0] ∧
    (lsfScale true sc).preflag = false ∧ (lsfScale true sc).blockNum = 3 := by
  simp [lsfScale, LsfScale.slens, h]

theorem lsfScale_intensity_below244 (h : 180 ≤ sc / 2) (h' : sc / 2 < 244) :
    (lsfScale true sc).slens =
      [(sc / 2 - 180) % 64 / 16, (sc / 2 - 180) % 16 / 4, (sc / 2 - 180) % 4, 0] ∧
    (lsfScale true sc).preflag = false ∧ (lsfScale true sc).blockNum = 4 := by
  simp [lsfScale, LsfScale.slens, Nat.not_lt.2 h, h']

theorem lsfScale_intensity_from244 (h : 244 ≤ sc / 2) :
    (lsfScale true sc).slens = [(sc / 2 - 244) / 3, (sc / 2 - 244) % 3, 0, 0] ∧
    (lsfScale true sc).preflag = false ∧ (lsfScale true sc).blockNum = 5 := by
  have h' : 180 ≤ sc / 2 := by omega
  simp [lsfScale, LsfScale.slens, Nat.not_lt.2 h, Nat.not_lt.2 h']

end

/-- Each slen is at most 5 (R49). -/
theorem lsfScale_slens_lt (intensity : Bool) {sc : Nat} (hsc : sc < 512) :
    ∀ w ∈ (lsfScale intensity sc).slens, w < 6 := by
  simp only [LsfScale.slens, List.forall_mem_cons, List.not_mem_nil, false_imp_iff, implies_true, and_true]
  unfold lsfScale
  dsimp only
  split_ifs <;> dsimp only <;> omega

/-- The bookkeeping holds the slen values themselves. -/
theorem slenVector_toList {v : LsfScale} (h : ∀ w ∈ v.slens, w < 6) :
    (slenVector v.slen).toList.map Fin.val = v.slens := by
  simp only [LsfScale.slens, List.forall_mem_cons, List.not_mem_nil, false_imp_iff, implies_true, and_true] at h
  obtain ⟨h0, h1, h2, h3⟩ := h
  simp [slenVector, LsfScale.slens, Nat.mod_eq_of_lt, h0, h1, h2, h3]

/-! ### The flat buffer (R246) -/

/-- The widths of the flat buffer, partition by partition. -/
theorem flatMap_replicate_eq {n slen : List Nat} (h : n.length = slen.length) :
    ((n.zip slen).flatMap fun p => List.replicate p.1 p.2) = (List.range n.sum).map (lsfWidth n slen) := by
  induction n generalizing slen with
  | nil => simp
  | cons c n ih =>
    match slen with
    | w :: slen =>
      have hfirst : List.replicate c w = (List.range c).map (lsfWidth (c :: n) (w :: slen)) := by
        refine (List.eq_replicate_iff.2 ⟨by simp, fun b hb => ?_⟩).symm
        obtain ⟨i, hi, rfl⟩ := List.mem_map.1 hb
        exact if_pos (List.mem_range.1 hi)
      have hrest : lsfWidth n slen = lsfWidth (c :: n) (w :: slen) ∘ (c + ·) := by
        funext k
        simp [lsfWidth]
      rw [List.zip_cons_cons, List.flatMap_cons, ih (Nat.succ.inj h), hfirst, List.sum_cons, List.range_add,
        List.map_append, List.map_map, hrest]

theorem lsfWidth_le {m : Nat} (n : List Nat) {slen : List Nat} (h : ∀ w ∈ slen, w ≤ m) (k : Nat) :
    lsfWidth n slen k ≤ m := by
  induction n generalizing slen k with
  | nil => exact Nat.zero_le m
  | cons c n ih =>
    match slen with
    | [] => exact Nat.zero_le m
    | w :: slen =>
      obtain ⟨hw, hrest⟩ := List.forall_mem_cons.1 h
      rw [lsfWidth]
      split
      · exact hw
      · exact ih hrest _

/-- R67: four partitions, and as many factors as the block has in the stream. -/
theorem nrOfSfbBlock_spec (bn : Fin 6) (g : GranuleInfo) :
    (nrOfSfbBlock bn (lsfBlockTypeNum g)).length = 4 ∧ (nrOfSfbBlock bn (lsfBlockTypeNum g)).sum = scfCount g 6 := by
  have hrows : ∀ bn btn, (nrOfSfbBlock bn btn).length = 4 ∧
      (nrOfSfbBlock bn btn).sum = if btn = 0 then 21 else if btn = 1 then 36 else 33 := by decide
  refine ⟨(hrows _ _).1, (hrows _ _).2.trans ?_⟩
  unfold lsfBlockTypeNum scfCount
  cases g.short
  · rfl
  · cases g.mixedBlock <;> rfl

/-- The flat buffer's entries are the places of the stream, all of them read. -/
theorem lsfPlaces_eq (g : GranuleInfo) : scfPlaces g 6 (fun _ => false) = List.range (scfCount g 6) := by
  simp [scfPlaces, scfIsRead]

theorem lsfSlots_eq (g : GranuleInfo) :
    lsfSlots (lsfBlockTypeNum g) = (List.range (scfCount g 6)).map (scfSlot g 6) := by
  unfold lsfBlockTypeNum scfCount scfSlot
  cases g.short
  · rfl
  · cases g.mixedBlock <;> rfl

theorem lsfBlockTypeNum_ne_zero (g : GranuleInfo) : decide (lsfBlockTypeNum g ≠ 0) = g.short := by
  unfold lsfBlockTypeNum
  cases g.short
  · rfl
  · cases g.mixedBlock <;> rfl

/-- The width of each place of the flat buffer. -/
theorem lsfWidths_eq {g : GranuleInfo} {i : LsfInfo} (hi : i.blockTypeNum = lsfBlockTypeNum g) :
    lsfWidths i = (List.range (scfCount g 6)).map
      (lsfWidth (nrOfSfbBlock i.blockNum (lsfBlockTypeNum g)) (i.slen.toList.map Fin.val)) := by
  obtain ⟨hlen, hsum⟩ := nrOfSfbBlock_spec i.blockNum g
  rw [lsfWidths, hi, flatMap_replicate_eq (by simp [hlen]), hsum]

/-! ### The command -/

/-- What R245 derives from the channel's scalefac_compress. -/
def State.lsfScale (ch : Fin 2) (s : State) : LsfScale :=
  Machine.lsfScale (s.isOn && decide (ch = 1)) (s.info 0 ch).scalefacCompress.toNat

/-- The LSF bookkeeping that R245 gives the channel. -/
def State.lsfInfo (ch : Fin 2) (s : State) : LsfInfo where
  slen := slenVector (s.lsfScale ch).slen
  blockNum := (s.lsfScale ch).blockNum
  blockTypeNum := lsfBlockTypeNum (s.info 0 ch)

/-- The side info with the preflag of R245. -/
def State.lsfSideInfo (ch : Fin 2) (s : State) : SideInfo :=
  { s.si with
    gc := s.si.gc.set 0 ((s.si.gc.get 0).set ch { s.info 0 ch with preflag := (s.lsfScale ch).preflag }) }

/-- The widths of the channel's factors (R245, R246). -/
def State.lsfWidth (ch : Fin 2) (s : State) : Nat → Nat :=
  Machine.lsfWidth (nrOfSfbBlock (s.lsfScale ch).blockNum (lsfBlockTypeNum (s.info 0 ch))) (s.lsfScale ch).slens

section

variable {gr ch : Fin 2} {s : State}

theorem State.lsfScale_slens_lt : ∀ w ∈ (s.lsfScale ch).slens, w < 6 :=
  Machine.lsfScale_slens_lt _ (s.info 0 ch).scalefacCompress.isLt

theorem State.lsfInfo_slens : (s.lsfInfo ch).slen.toList.map Fin.val = (s.lsfScale ch).slens :=
  slenVector_toList s.lsfScale_slens_lt

theorem State.lsfWidth_le (k : Nat) : s.lsfWidth ch k ≤ 5 :=
  Machine.lsfWidth_le _ (fun w hw => Nat.le_of_lt_succ (s.lsfScale_slens_lt w hw)) k

theorem State.lsfScale_plain (h : ¬(s.isOn = true ∧ ch = 1)) :
    s.lsfScale ch = Machine.lsfScale false (s.info 0 ch).scalefacCompress.toNat := by
  rw [State.lsfScale, (by simpa using h : (s.isOn && decide (ch = 1)) = false)]

theorem State.lsfScale_right (h : s.isOn = true ∧ ch = 1) :
    s.lsfScale ch = Machine.lsfScale true (s.info 0 ch).scalefacCompress.toNat := by
  rw [State.lsfScale, (by simpa using h : (s.isOn && decide (ch = 1)) = true)]

theorem getLsfScaleData_clean (hc : s.clean) :
    getLsfScaleData ch s = ({ s with si := s.lsfSideInfo ch } : State).mapChan ch fun c =>
      { c with lsf := s.lsfInfo ch } :=
  State.storeLsf_clean ch (s.lsfInfo ch) (s := { s with si := s.lsfSideInfo ch }) hc

theorem readScfLsf_clean (hc : s.clean) : readScfLsf ch s =
    let v := readFactors (s.info 0 ch) 6 (s.lsfWidth ch) (fun _ => false) (s.chan.get ch).scf s.rs
    ((getLsfScaleData ch s).withRs v.2).storeScf ch v.1 := by
  have hchan : (getLsfScaleData ch s).chan.get ch = { s.chan.get ch with lsf := s.lsfInfo ch } := by
    rw [getLsfScaleData_clean hc, State.mapChan_chan, Two.get_set_same]
  have hrs : (getLsfScaleData ch s).rs = s.rs := by rw [getLsfScaleData_clean hc]; rfl
  have hbtn : (s.lsfInfo ch).blockTypeNum = lsfBlockTypeNum (s.info 0 ch) := rfl
  unfold readScfLsf readFactors
  dsimp only
  rw [hchan, hrs]
  dsimp only
  rw [lsfWidths_eq hbtn, State.lsfInfo_slens, hbtn, lsfSlots_eq, lsfBlockTypeNum_ne_zero, lsfPlaces_eq]
  rfl

/-- READ_SCALEFACTORS of an LSF frame with no fault on record before it. -/
theorem readScalefactors_lsf_agrees (hv : s.head.fields.version ≠ .mpeg1) (hc : s.clean) :
    let v := readFactors (s.info 0 ch) 6 (s.lsfWidth ch) (fun _ => false) (s.chan.get ch).scf s.rs
    (readScalefactors gr ch s).Agrees (s.withFactors gr ch v.2 (s.lsfSideInfo ch) (s.lsfInfo ch) v.1) := by
  intro v
  have hopened : (s.opened gr ch).clean := hc
  have hbody : readScalefactors gr ch s = (readScfLsf ch (s.opened gr ch)).setStage ch .sf := by
    unfold readScalefactors
    exact congrArg (State.setStage ch .sf) (if_neg hv)
  have hagree := storeFactors_agrees (r := v.2) (x := v.1) (getLsfScaleData_clean (ch := ch) hopened)
  rw [hbody, readScfLsf_clean hopened]
  dsimp only
  rw [opened_scf]
  exact hagree

end

/-- Settles O34: the flat buffer's widths are those of the partitions in turn, so that each factor stands at the sum of
the widths before it; the slen values are R245's for each range. -/
theorem scalefactorsLsf : Obligations.ScalefactorsLsf := by
  intro gr ch s hr hv hc
  obtain ⟨t, ht, hresv, hiff, hclean, hagree⟩ :=
    exec_readScalefactors hr (readScalefactors_lsf_agrees (s := s.start) hv hc)
  have hnever : ∀ k, scfIsRead (s.info 0 ch) (fun _ => false) k = false → s.lsfWidth ch k = 0 := by simp [scfIsRead]
  refine ⟨t, (s.lsfScale ch).slens, (s.lsfScale ch).blockNum, (s.lsfScale ch).preflag, ht,
    hagree _ fun h => (hclean h).2.1, fun h => ?_, fun h => ?_, fun h => ?_, fun h => ?_, fun h => ?_, fun h => ?_,
    fun h => ?_, hresv.trans (readFactors_resv _ hnever), fun hroom => ?_⟩
  · rw [State.lsfScale_plain h]; exact lsfScale_below400
  · rw [State.lsfScale_plain h]; exact lsfScale_below500
  · rw [State.lsfScale_plain h]; exact lsfScale_from500
  · rw [State.lsfScale_right h]; exact lsfScale_intensity_below180
  · rw [State.lsfScale_right h]; exact lsfScale_intensity_below244
  · rw [State.lsfScale_right h]; exact lsfScale_intensity_from244
  · rw [(hclean h).2.1]
    exact ⟨State.lsfInfo_slens, rfl, rfl⟩
  · obtain ⟨hfresh, hread⟩ := readFactors_clean (s.chan.get ch).scf hnever (by decide)
      (fun k _ => State.lsfWidth_le k) (r := s.start.rs) hc hroom
    obtain ⟨hlog, -, hscf⟩ := hclean (hiff.2 ((congrArg FaultLog.tainted hfresh).trans hc))
    exact ⟨hlog.trans hfresh, hscf ▸ hread⟩

end Sys2Proof.Machine
end

section
/-! PROOF. The bits at the read cursor, and what it is to decode them: a reader that takes a code from the reservoir
gives its value and moves the cursor past it, whatever follows. -/

namespace Sys2Proof.Machine

/-! ### The bits that come next -/

/-- The next bits of the reservoir are `code`, and no fault is on record. -/
structure RS.Next (code : List Bool) (r : RS) : Prop where
  clean : r.log.tainted = false
  room : code.length ≤ r.resv.avail
  bits : ∀ i < code.length, r.resv.bit (r.resv.rptr.toNat + i) = code.getD i false

/-- The reservoir with the read cursor moved by `n` bits (R203). -/
def RS.skip (n : Nat) (r : RS) : RS := { r with resv := r.resv.advance n }

theorem RS.skip_zero (r : RS) : r.skip 0 = r := by rw [RS.skip, Resv.advance_zero]

theorem RS.skip_skip (m n : Nat) (r : RS) : (r.skip m).skip n = r.skip (m + n) := by
  simp only [RS.skip, Resv.advance_advance]

theorem RS.skip_tell {n : Nat} {r : RS} (h : r.tell + n < 2 ^ 32) : (r.skip n).tell = r.tell + n := by
  unfold RS.tell at h ⊢
  rw [RS.skip, Resv.advance_totbit, BitVec.toNat_add, BitVec.toNat_ofNat, Nat.add_mod_mod, Nat.mod_eq_of_lt h]

/-- The cells from the read cursor on, once it has moved by `m` (R84). -/
theorem Resv.bit_advance (m i : Nat) (r : Resv) :
    (r.advance m).bit ((r.advance m).rptr.toNat + i) = r.bit (r.rptr.toNat + (m + i)) := by
  have hring : Config.resvBits = 2 ^ 15 := rfl
  simp only [Resv.bit, Resv.advance_cells, Resv.advance_rptr, BitVec.toNat_add, BitVec.toNat_ofNat, hring,
    Nat.add_mod_mod, Nat.mod_add_mod, Nat.add_assoc]

/-- A code in two parts: the first comes next, and the second once it is skipped. -/
theorem RS.Next.split {a b : List Bool} {r : RS} (h : r.Next (a ++ b)) : r.Next a ∧ (r.skip a.length).Next b := by
  obtain ⟨hclean, hroom, hbits⟩ := h
  rw [List.length_append] at hroom hbits
  refine ⟨⟨hclean, by omega, fun i hi => ?_⟩, ⟨hclean, ?_, fun i hi => ?_⟩⟩
  · rw [hbits i (by omega), List.getD_append _ _ _ _ hi]
  · simp only [RS.skip, Resv.advance_avail]; omega
  · simp only [RS.skip, Resv.bit_advance]
    rw [hbits _ (by omega), List.getD_append_right _ _ _ _ (by omega), Nat.add_sub_cancel_left]

/-! ### Readers -/

/-- Wherever `code` comes next, `f` gives `x` and moves the cursor past it. -/
def Decodes {α : Type} (f : RS → α × RS) (code : List Bool) (x : α) : Prop :=
  ∀ r, r.Next code → f r = (x, r.skip code.length)

/-- A reader that takes no bits. -/
theorem decodes_nil {α : Type} {f : RS → α × RS} {x : α} (h : ∀ r, f r = (x, r)) : Decodes f [] x := fun r _ => by
  rw [h, List.length_nil, RS.skip_zero]

/-- One reader after the other. -/
theorem Decodes.andThen {α β : Type} {f : RS → α × RS} {g : α → RS → β × RS} {c d : List Bool} {x : α} {y : β}
    (hf : Decodes f c x) (hg : Decodes (g x) d y) : Decodes (fun r => g (f r).1 (f r).2) (c ++ d) y := fun r h => by
  obtain ⟨hc, hd⟩ := h.split
  simp only [hf r hc, hg _ hd, RS.skip_skip, List.length_append]

/-- The value alone changed. -/
theorem Decodes.map {α β : Type} {f : RS → α × RS} {c : List Bool} {x : α} (hf : Decodes f c x) (k : α → β) :
    Decodes (fun r => (k (f r).1, (f r).2)) c (k x) := fun r h => by simp only [hf r h]

/-- RbRead takes its bits, the first as the most significant (R203). -/
theorem decodes_read (code : List Bool) :
    Decodes (RS.read code.length) code (gather (fun i => code.getD i false) code.length) := fun r h => by
  rw [RS.read_clean h.room h.clean, Resv.peek, gather_congr h.bits, RS.skip]

theorem decodes_readBit (b : Bool) : Decodes (RS.read 1) [b] b.toNat := by
  simpa [gather] using decodes_read [b]

theorem bitsOf_length (n v : Nat) : (bitsOf n v).length = n := by simp [bitsOf]

/-- The bits of a number make it. -/
theorem gather_bitsOf {n v : Nat} (hv : v < 2 ^ n) : gather (fun i => (bitsOf n v).getD i false) n = v := by
  have hbits : ∀ i < n, (bitsOf n v).getD i false = (BitVec.ofNat n v).getMsbD i := fun i hi => by
    rw [List.getD_eq_getElem _ _ (by rwa [bitsOf_length]), BitVec.getMsbD, BitVec.getLsbD_ofNat]
    simp only [bitsOf, List.getElem_map, List.getElem_range, hi, decide_true, Bool.true_and,
      show n - 1 - i < n by omega]
  rw [gather_congr hbits, gather_getMsbD_eq_toNat, BitVec.toNat_ofNat, Nat.mod_eq_of_lt hv]

theorem decodes_readNumber {n v : Nat} (hv : v < 2 ^ n) : Decodes (RS.read n) (bitsOf n v) v := by
  have h := decodes_read (bitsOf n v)
  rwa [bitsOf_length, gather_bitsOf hv] at h

end Sys2Proof.Machine
end

section
/-! PROOF. HuffSym (R280): the walk of a well-formed codebook ends at the codeword that comes next, in its symbol. -/

namespace Sys2Proof.Machine

section

variable {σ : Type} {book : Codebook σ}

/-- R280: the codewords of a well-formed codebook are non-empty, at most 19 bits long, and no two of them agree at
their beginning. -/
theorem codebook_wellFormed_spec (h : book.wellFormed = true) :
    (∀ c ∈ book, c.1 ≠ [] ∧ c.1.length ≤ 19) ∧ book.Pairwise fun c d => ¬c.1 <+: d.1 ∧ ¬d.1 <+: c.1 := by
  induction book with
  | nil => exact ⟨nofun, .nil⟩
  | cons c rest ih =>
    simp only [Codebook.wellFormed, Bool.and_eq_true, Bool.not_eq_true', List.isEmpty_eq_false_iff,
      decide_eq_true_eq, List.all_eq_true] at h
    obtain ⟨⟨⟨hne, hlen⟩, hall⟩, hrest⟩ := h
    obtain ⟨hwords, hpairs⟩ := ih hrest
    refine ⟨List.forall_mem_cons.2 ⟨⟨hne, hlen⟩, hwords⟩, List.pairwise_cons.2 ⟨fun d hd => ?_, hpairs⟩⟩
    simpa [← List.isPrefixOf_iff_prefix] using hall d hd

/-- A codeword that another begins with is that other. -/
theorem codebook_prefix_eq (h : book.wellFormed = true) {c d : List Bool × σ} (hc : c ∈ book) (hd : d ∈ book)
    (hp : c.1 <+: d.1) : c = d := by
  have hapart := (codebook_wellFormed_spec h).2
  have hall : book.Pairwise fun c d => c.1 <+: d.1 → c = d := hapart.imp fun hn hp => absurd hp hn.1
  exact hall.forall_of_forall_of_flip (fun _ _ _ => rfl) (hapart.imp fun hn hp => absurd hp hn.2) hc hd hp

theorem codebook_lookup_mem (h : book.wellFormed = true) {word : List Bool} {x : σ} (hm : (word, x) ∈ book) :
    book.lookup word = some x := by
  cases hl : book.lookup word with
  | none => simpa using List.lookup_eq_none_iff.1 hl _ hm
  | some y =>
    obtain ⟨l₁, l₂, hb, -⟩ := List.lookup_eq_some_iff.1 hl
    have hy : (word, y) ∈ book := by rw [hb]; simp
    cases codebook_prefix_eq h hy hm List.prefix_rfl
    rfl

/-- The beginning of a codeword is none. -/
theorem codebook_lookup_prefix (h : book.wellFormed = true) {pre rest : List Bool} {x : σ}
    (hm : (pre ++ rest, x) ∈ book) (hr : rest ≠ []) : book.lookup pre = none := by
  rw [Option.eq_none_iff_forall_ne_some]
  intro y hl
  obtain ⟨l₁, l₂, hb, -⟩ := List.lookup_eq_some_iff.1 hl
  have hy : (pre, y) ∈ book := by rw [hb]; simp
  have heq := congrArg Prod.fst (codebook_prefix_eq h hy hm (List.prefix_append pre rest))
  exact hr (List.self_eq_append_right.1 heq)

/-- The walk of the bits `rest` of a codeword whose first bits `pre` are read (R280). -/
theorem huffWalk_decodes (h : book.wellFormed = true) (z x : σ) {rest pre : List Bool} {fuel : Nat}
    (hm : (pre ++ rest, x) ∈ book) (hr : rest ≠ []) (hf : rest.length ≤ fuel) :
    Decodes (huffWalk book z fuel pre) rest x := by
  induction rest generalizing pre fuel with
  | nil => exact absurd rfl hr
  | cons b rest ih =>
    obtain ⟨fuel, rfl⟩ : ∃ n, fuel = n + 1 := Nat.exists_eq_succ_of_ne_zero (by rintro rfl; simp at hf)
    rw [List.append_cons] at hm
    intro r hn
    obtain ⟨hbit, hrest⟩ := RS.Next.split (a := [b]) hn
    have hb : decide (b.toNat = 1) = b := by cases b <;> rfl
    simp only [huffWalk, decodes_readBit b r hbit, hb]
    by_cases hr' : rest = []
    · subst hr'
      rw [List.append_nil] at hm
      rw [codebook_lookup_mem h hm]
    · have hgoes : (book.all fun c => !((pre ++ [b]).isPrefixOf c.1)) = false := by
        rw [List.all_eq_false]
        exact ⟨_, hm, by simp [List.isPrefixOf_iff_prefix]⟩
      rw [codebook_lookup_prefix h hm hr']
      simp only [hgoes, Bool.false_eq_true, if_false]
      rw [ih hm hr' (Nat.le_of_succ_le_succ hf) _ hrest, RS.skip_skip]
      simp [Nat.add_comm]

/-- HuffSym of a codeword gives its symbol (R280). -/
theorem huffSym_decodes (h : book.wellFormed = true) (z : σ) {word : List Bool} {x : σ} (hm : (word, x) ∈ book) :
    Decodes (huffSym book z) word x := by
  obtain ⟨hne, hlen⟩ := (codebook_wellFormed_spec h).1 _ hm
  exact huffWalk_decodes h z x (pre := []) hm hne hlen

end

theorem bigCodebook_wellFormed (t : Nat) : (bigCodebook t).wellFormed = true := by
  unfold bigCodebook
  dsimp only
  split
  · rfl
  · split
    · decide
    · split
      · next h => exact (Bool.and_eq_true_iff.1 h).1
      · rfl

theorem quadCodebook_wellFormed (select : Bool) : (quadCodebook select).wellFormed = true := by
  revert select
  decide

end Sys2Proof.Machine
end

section
/-! PROOF. The values of part 3 (R282-R285): pairs with their escapes and signs, quads, and the two loops. -/

namespace Sys2Proof.Machine

/-! ### Escapes and signs -/

/-- A sign bit, for a value that is not 0 (R283, R285). -/
theorem readSign_decodes {x : Nat} {v : Int} (h : v.natAbs = x) : Decodes (readSign x) (signBits v) v := by
  subst h
  by_cases hv : v = 0
  · subst hv
    exact decodes_nil fun r => rfl
  · intro r hn
    rw [signBits, if_neg hv] at hn ⊢
    rw [readSign, if_neg (Int.natAbs_ne_zero.2 hv), decodes_readBit _ r hn]
    rcases Int.lt_or_gt_of_ne hv with hneg | hpos
    · simp only [hneg, decide_true, Bool.toNat_true, if_true, List.length_singleton, Prod.mk.injEq, and_true]
      omega
    · simp only [show ¬v < 0 by omega, decide_false, Bool.toNat_false, Nat.zero_ne_one, if_false, List.length_singleton,
        Prod.mk.injEq, and_true]
      omega

/-- The escape of a value, if it has one (R283). -/
theorem readEscape_decodes {t x : Nat} {v : Int} (h : Codes t x v) :
    Decodes (readEscape (linbits t) x) (if 0 < linbits t ∧ x = 15 then bitsOf (linbits t) (v.natAbs - 15) else [])
      v.natAbs := by
  unfold Codes at h
  split at h
  · next hx =>
    intro r hn
    rw [if_pos hx] at hn ⊢
    rw [readEscape, if_pos hx, decodes_readNumber (by omega) r hn, hx.2]
    simp only [Prod.mk.injEq, and_true]
    omega
  · next hx =>
    rw [if_neg hx, h]
    exact decodes_nil fun r => if_neg hx

/-- A value of a pair: escape, then sign (R283). -/
def readValue (bits x : Nat) (r : RS) : Int × RS := readSign (readEscape bits x r).1 (readEscape bits x r).2

theorem readValue_decodes {t x : Nat} {v : Int} (h : Codes t x v) :
    Decodes (readValue (linbits t) x) (valueBits t x v) v :=
  (readEscape_decodes h).andThen (readSign_decodes rfl)

/-! ### Pairs and quads -/

/-- Both values of a pair whose symbol is `x` (R283). -/
def readValues (bits : Nat) (x : Nat × Nat) (r : RS) : (Int × Int) × RS :=
  let u := readValue bits x.1 r
  let v := readValue bits x.2 u.2
  ((u.1, v.1), v.2)

theorem huffPair_eq (t : Nat) (r : RS) : huffPair t r =
    let sym := if t = 0 then ((0, 0), r) else huffSym (bigCodebook t) (0, 0) r
    readValues (linbits t) sym.1 sym.2 := rfl

theorem readValues_decodes {t x y : Nat} {u v : Int} (hu : Codes t x u) (hv : Codes t y v) :
    Decodes (readValues (linbits t) (x, y)) (valueBits t x u ++ valueBits t y v) (u, v) :=
  (readValue_decodes hu).andThen (g := fun u r => ((u, (readValue (linbits t) y r).1), (readValue (linbits t) y r).2))
    ((readValue_decodes hv).map (Prod.mk u))

/-- HuffPair gives the pair whose code comes next (R282, R283). -/
theorem huffPair_decodes {t : Nat} {u v : Int} {code : List Bool} (h : PairCode t u v code) :
    Decodes (huffPair t) code (u, v) := by
  unfold PairCode at h
  split at h
  · next ht =>
    obtain ⟨rfl, rfl, rfl⟩ := h
    subst ht
    exact decodes_nil fun r => rfl
  · next ht =>
    obtain ⟨word, x, y, hm, hu, hv, rfl⟩ := h
    have hpair := (huffSym_decodes (bigCodebook_wellFormed t) (0, 0) hm).andThen (readValues_decodes hu hv)
    intro r hn
    rw [List.append_assoc] at hn ⊢
    rw [huffPair_eq, if_neg ht]
    exact hpair r hn

/-- A quad gives the values whose code comes next (R285). -/
theorem huffQuad_decodes {select : Bool} {v w x y : Int} {code : List Bool}
    (h : QuadCode (quadCodebook select) v w x y code) :
    Decodes (huffQuad (quadCodebook select)) code [v, w, x, y] := by
  obtain ⟨word, a, b, c, d, hm, hv, hw, hx, hy, rfl⟩ := h
  intro r hn
  obtain ⟨hn, hny⟩ := hn.split
  obtain ⟨hn, hnx⟩ := hn.split
  obtain ⟨hn, hnw⟩ := hn.split
  obtain ⟨hn, hnv⟩ := hn.split
  simp only [List.length_append, ← RS.skip_skip] at hnw hnx hny ⊢
  simp only [huffQuad, huffSym_decodes (quadCodebook_wellFormed select) _ hm r hn, readSign_decodes hv _ hnv,
    readSign_decodes hw _ hnw, readSign_decodes hx _ hnx, readSign_decodes hy _ hny]

/-- The big-values loop gives the pairs whose codes come next (R285). -/
theorem bigValues_decodes {table : Nat → Nat} {i n : Nat} {values : List Int} {code : List Bool}
    (h : PairsCode table i values code) (hn : values.length = 2 * n) : Decodes (bigValues table n i) code values := by
  induction h generalizing n with
  | nil i =>
    obtain rfl : n = 0 := by simpa using hn.symm
    exact decodes_nil fun r => rfl
  | cons i u v values code rest hpair _ ih =>
    obtain ⟨n, rfl⟩ : ∃ m, n = m + 1 := Nat.exists_eq_succ_of_ne_zero (by rintro rfl; simp at hn)
    exact (huffPair_decodes hpair).andThen
      (g := fun p r => (p.1 :: p.2 :: (bigValues table n (i + 1) r).1, (bigValues table n (i + 1) r).2))
      ((ih (by simp only [List.length_cons] at hn; omega)).map fun rest => u :: v :: rest)

end Sys2Proof.Machine
end

section
/-! PROOF. The end of part 3 (R285-R287): wherever the decoding stops, the excess is rewound or the stuffing skipped, so
that the read cursor ends at PART2_3_END. -/

namespace Sys2Proof.Machine

theorem RS.tell_lt (r : RS) : r.tell < 2 ^ 32 := r.resv.totbit.isLt

/-! ### Stuffing -/

/-- The stuffing loop reads up to PART2_3_END (R287), and records no fault if the bits are there. -/
theorem stuffing_spec {stop fuel : Nat} {r : RS} (hstop : stop < 2 ^ 32) (h : r.tell ≤ stop)
    (hfuel : stop - r.tell ≤ 32 * fuel) :
    (stuffing stop fuel r).resv = r.resv.advance (stop - r.tell) ∧
    (r.log.tainted = false → stop - r.tell ≤ r.resv.avail → (stuffing stop fuel r).log = r.log) := by
  induction fuel generalizing r with
  | zero => exact ⟨by rw [show stop - r.tell = 0 by omega, Resv.advance_zero]; rfl, fun _ _ => rfl⟩
  | succ fuel ih =>
    unfold stuffing
    split
    · next hlt =>
      set n := min 32 (stop - r.tell) with hn
      have htell : (r.read n).2.tell = r.tell + n := by
        rw [RS.tell, RS.read_resv]
        exact RS.skip_tell (r := r) (by omega)
      obtain ⟨hresv, hlog⟩ := ih (r := (r.read n).2) (by omega) (by omega)
      refine ⟨?_, fun hc hroom => ?_⟩
      · rw [hresv, htell, RS.read_resv, Resv.advance_advance, show n + (stop - (r.tell + n)) = stop - r.tell by omega]
      · have hread := congrArg Prod.snd (RS.read_clean (n := n) (by omega) hc)
        rw [hlog (by rw [hread]; exact hc) (by rw [htell, hread]; simp only [Resv.advance_avail]; omega), hread]
    · next hge => exact ⟨by rw [show stop - r.tell = 0 by omega, Resv.advance_zero], fun _ _ => rfl⟩

/-- The rounds of R287 suffice. -/
theorem stuffing_rounds (n : Nat) : n ≤ 32 * (n / 32 + 1) := by omega

theorem stuffing_tell {stop : Nat} {r : RS} (hstop : stop < 2 ^ 32) (h : r.tell ≤ stop) :
    (stuffing stop ((stop - r.tell) / 32 + 1) r).tell = stop := by
  rw [RS.tell, (stuffing_spec hstop h (stuffing_rounds _)).1]
  exact (RS.skip_tell (by omega)).trans (by omega)

theorem stuffing_clean {stop : Nat} {r : RS} (hstop : stop < 2 ^ 32) (h : r.tell ≤ stop) (hc : r.log.tainted = false)
    (hroom : stop - r.tell ≤ r.resv.avail) : stuffing stop ((stop - r.tell) / 32 + 1) r = r.skip (stop - r.tell) := by
  obtain ⟨hresv, hlog⟩ := stuffing_spec hstop h (stuffing_rounds _)
  rw [RS.skip, ← hresv, ← hlog hc hroom]

/-- At PART2_3_END there is no stuffing. -/
theorem stuffing_done {stop fuel : Nat} {r : RS} (h : stop ≤ r.tell) : stuffing stop fuel r = r := by
  cases fuel with
  | zero => rfl
  | succ fuel => exact if_neg (Nat.not_lt.2 h)

/-! ### Rewinding (R286) -/

theorem RS.rewind_tell {n : Nat} {r : RS} (h : n ≤ r.tell) : (r.rewind n).tell = r.tell - n := by
  have hlt := r.tell_lt
  unfold RS.tell at *
  rw [RS.rewind, Resv.retreat_totbit, BitVec.toNat_sub, BitVec.toNat_ofNat]
  omega

section

variable {r : Resv} {m n : Nat}

/-- Bits that were read and are rewound, but for the first of them. -/
theorem Resv.retreat_advance_of_le (hroom : m ≤ r.avail) (hring : r.avail ≤ Config.resvBits) (h : n ≤ m) :
    (r.advance m).retreat n = r.advance (m - n) := by
  obtain ⟨k, rfl⟩ := Nat.exists_eq_add_of_le' h
  have havail : min (r.avail - (k + n) + n) Config.resvBits = r.avail - k := by omega
  have hhist : r.hist + min (k + n) r.avail - n = r.hist + min k r.avail := by omega
  simp only [Resv.advance, Resv.retreat, havail, hhist, Nat.add_sub_cancel, BitVec.ofNat_add, ← BitVec.add_assoc,
    BitVec.add_sub_cancel]

/-- Bits that were read and are rewound, and others before them. -/
theorem Resv.retreat_advance_of_ge (hroom : m ≤ r.avail) (h : m ≤ n) :
    (r.advance m).retreat n = r.retreat (n - m) := by
  obtain ⟨k, rfl⟩ := Nat.exists_eq_add_of_le h
  have havail : r.avail - m + (m + k) = r.avail + k := by omega
  have hhist : r.hist + min m r.avail - (m + k) = r.hist - k := by omega
  have hback : ∀ {w : Nat} (x : BitVec w), x + BitVec.ofNat w m - BitVec.ofNat w (m + k) = x - BitVec.ofNat w k :=
    fun x => by rw [Nat.add_comm, BitVec.ofNat_add, add_sub_add_right_eq_sub]
  simp only [Resv.advance, Resv.retreat, havail, hhist, hback, Nat.add_sub_cancel_left]

end

/-- The reservoir with its read cursor at `stop`, behind or before where it was (R285). -/
def RS.seek (stop : Nat) (r : RS) : RS :=
  { r with resv := if r.tell ≤ stop then r.resv.advance (stop - r.tell) else r.resv.retreat (r.tell - stop) }

/-- Bits read past PART2_3_END are rewound without a fault as far as there is a history (R205, R286). -/
theorem RS.rewind_skip {stop m : Nat} {r : RS} (hroom : m ≤ r.resv.avail)
    (hring : r.resv.avail + r.resv.hist ≤ Config.resvBits) (hback : r.tell ≤ stop + r.resv.hist)
    (h : stop ≤ r.tell + m) : (r.skip m).rewind (r.tell + m - stop) = r.seek stop := by
  have hlog : decide ((r.resv.advance m).hist < r.tell + m - stop) = false := by
    rw [decide_eq_false_iff_not, Resv.advance_hist]; omega
  have hresv : (r.resv.advance m).retreat (r.tell + m - stop) = (r.seek stop).resv := by
    dsimp only [RS.seek]
    split
    · rw [Resv.retreat_advance_of_le hroom (by omega) (by omega), show m - (r.tell + m - stop) = stop - r.tell by omega]
    · rw [Resv.retreat_advance_of_ge hroom (by omega), show r.tell + m - stop - m = r.tell - stop by omega]
  rw [RS.rewind, RS.skip, hlog, hresv, FaultLog.recordIf_false]
  rfl

/-! ### Part 3 by where its decoding stops -/

section

variable {sfreq : Fin 9} {g : GranuleInfo} {stop : Nat} {r r' r'' : RS} {big quads : List Int}
  (hbig : bigValues (pairTable sfreq g) g.bigValues.toNat 0 r = (big, r'))
  (hquads : count1 (quadCodebook g.count1TableSelect) stop 145 big.length r' = (quads, r''))
include hbig hquads

/-- Decoding that stops at or before PART2_3_END: all values are kept, and stuffing is skipped (R287). -/
theorem decodePart3_within (h : r''.tell ≤ stop) : decodePart3 sfreq g stop r =
    (Quantised.of (min (big ++ quads).length 576) fun j => (big ++ quads).getD j 0,
      stuffing stop ((stop - r''.tell) / 32 + 1) r'') := by
  simp only [decodePart3, hbig, hquads, Nat.not_lt.2 h, decide_false, Bool.false_eq_true, if_false]

/-- Decoding that stops past PART2_3_END: the last four values are dropped, and the excess is rewound (R286). -/
theorem decodePart3_past (h : stop < r''.tell) : decodePart3 sfreq g stop r =
    (Quantised.of (min ((big ++ quads).length - 4) 576) fun j => (big ++ quads).getD j 0,
      r''.rewind (r''.tell - stop)) := by
  have htell := RS.rewind_tell (n := r''.tell - stop) (r := r'') (Nat.sub_le _ _)
  simp only [decodePart3, hbig, hquads, h, decide_true, if_true]
  rw [stuffing_done (by omega)]

end

/-- Wherever the decoding stops, the read cursor ends at PART2_3_END (R285). -/
theorem decodePart3_tell (sfreq : Fin 9) (g : GranuleInfo) {stop : Nat} (hstop : stop < 2 ^ 32) (r : RS) :
    (decodePart3 sfreq g stop r).2.tell = stop := by
  obtain ⟨big, r', hbig⟩ : ∃ big r', bigValues (pairTable sfreq g) g.bigValues.toNat 0 r = (big, r') := ⟨_, _, rfl⟩
  obtain ⟨quads, r'', hquads⟩ :
    ∃ quads r'', count1 (quadCodebook g.count1TableSelect) stop 145 big.length r' = (quads, r'') := ⟨_, _, rfl⟩
  rcases Nat.lt_or_ge stop r''.tell with h | h
  · rw [decodePart3_past hbig hquads h]
    exact (RS.rewind_tell (Nat.sub_le _ _)).trans (by omega)
  · rw [decodePart3_within hbig hquads h]
    exact stuffing_tell hstop h

/-- Decoding writes no cell of the reservoir and moves no write cursor. -/
theorem decodePart3_cells (sfreq : Fin 9) (g : GranuleInfo) (stop : Nat) (r : RS) :
    (decodePart3 sfreq g stop r).2.resv.cells = r.resv.cells ∧
    (decodePart3 sfreq g stop r).2.resv.wbyte = r.resv.wbyte := by
  have hclosed : RS.Closed fun q => q.resv.cells = r.resv.cells ∧ q.resv.wbyte = r.resv.wbyte :=
    ⟨fun q n h => by rw [RS.read_resv]; exact h, fun _ _ h => h, fun _ _ h => h⟩
  exact hclosed.decodePart3 sfreq g stop ⟨rfl, rfl⟩

end Sys2Proof.Machine
end

section
/-! PROOF. HUFFMAN_DECODE (R285): what the command leaves, and O35. -/

namespace Sys2Proof.Machine

/-- PART2_3_END of HUFFMAN_DECODE (R285). -/
def State.part3Stop (gr ch : Fin 2) (s : State) : Word :=
  (s.chan.get ch).part2Start + (s.info gr ch).part23Length.zeroExtend 32

/-- Part 3 as HUFFMAN_DECODE decodes it. -/
def State.part3 (gr ch : Fin 2) (s : State) : Quantised × RS :=
  decodePart3 s.head.fields.sfreq (s.info gr ch) (s.part3Stop gr ch).toNat s.rs

/-- The state after HUFFMAN_DECODE with the reservoir `r` and the quantised lines `q`. -/
def State.withPart3 (gr ch : Fin 2) (r : RS) (q : Quantised) (s : State) : State :=
  { s with
    rs := r
    order := { nextGc := s.order.nextGc + 1, partOpen := false }
    chan := s.chan.set ch { s.chan.get ch with
      stage := .huf, part23End := s.part3Stop gr ch, nonzero := q.nonzero, is := q.is } }

/-- A store of quantised lines leaves its value, but for what a fault leaves unspecified (R438, R478). -/
theorem State.storeQuantised_agrees (ch : Fin 2) (q : Quantised) (s : State) :
    (s.storeQuantised ch q).Agrees (s.mapChan ch fun c => { c with nonzero := q.nonzero, is := q.is }) := by
  refine ⟨fun h => State.storeQuantised_clean ch q h, ?_⟩
  unfold State.storeQuantised State.storeOrFree
  split
  · generalize freeQuantised s.rs.log.draws = w
    match ch with
    | 0 => rfl
    | 1 => rfl
  · rfl

/-- NEXT_GC and PART_OPEN are exact after a fault too (log entry 10). -/
theorem State.Agrees.withOrder {t u : State} (h : t.Agrees u) (o : PartOrder) :
    ({ t with order := o } : State).Agrees { u with order := o } := by
  refine ⟨fun hu => by rw [h.1 hu], ?_⟩
  rw [h.2]
  rfl

/-- HUFFMAN_DECODE gives the lines, the cursors and the bookkeeping of its channel their values, and changes nothing
else. -/
theorem huffmanDecode_agrees (gr ch : Fin 2) (s : State) :
    (huffmanDecode gr ch s).Agrees (s.withPart3 gr ch (s.part3 gr ch).2 (s.part3 gr ch).1) := by
  have hbody : huffmanDecode gr ch s = State.setStage ch .huf
      { ((s.withRs (s.part3 gr ch).2).mapChan ch fun c => { c with part23End := s.part3Stop gr ch }).storeQuantised ch
          (s.part3 gr ch).1 with
        order := { nextGc := s.order.nextGc + 1, partOpen := false } } := by
    rw [huffmanDecode]
    simp only [State.storeQuantised_order]
    rfl
  rw [hbody]
  generalize s.part3 gr ch = v
  have hstore := ((State.storeQuantised_agrees ch v.1
    ((s.withRs v.2).mapChan ch fun c => { c with part23End := s.part3Stop gr ch })).withOrder
      { nextGc := s.order.nextGc + 1, partOpen := false }).setStage ch .huf
  simp only [State.setStage, State.mapChan, State.withRs, Two.get_set_same, Two.set_set] at hstore
  exact hstore

/-- The lines that HUFFMAN_DECODE leaves before the end of the command, decoded or free. -/
theorem huffmanDecode_quantised (gr ch : Fin 2) (s : State) : ((huffmanDecode gr ch s).chan.get ch).quantised.Ok := by
  obtain ⟨p, q, stop, hq, hc⟩ := huffmanDecode_chan gr ch ch s
  rw [hc, if_pos rfl]
  rcases hq with rfl | ⟨k, rfl⟩
  · exact decodePart3_ok _ _ _ _
  · exact freeQuantised_ok k

/-- The end of a command leaves quantised lines in their range. -/
theorem settle_quantised_ok {c : Fin 2} {s : State} (h : (s.chan.get c).quantised.Ok) :
    (s.settle.chan.get c).quantised.Ok := by
  rcases ((settle_mild s).chan c).quant with ⟨hn, hi⟩ | ⟨k, hn, hi⟩
  · rw [Chan.quantised, hn, hi]; exact h
  · rw [Chan.quantised, hn, hi]; exact freeQuantised_ok k

/-- HUFFMAN_DECODE, by the part 3 that it decodes. -/
theorem exec_huffmanDecode {gr ch : Fin 2} {s : State} (hr : s.ready .sf gr ch) :
    ∃ t, exec (.huffmanDecode gr ch) s = .next t ∧
      t.Agrees ((s.start.withPart3 gr ch (s.start.part3 gr ch).2 (s.start.part3 gr ch).1).finish .ok) ∧
      (t.chan.get ch).quantised.Ok :=
  ⟨_, command_runs _ hr.1 hr.guardStage_start, (complete_agrees _ _).trans ((huffmanDecode_agrees gr ch _).finish .ok),
    settle_quantised_ok (huffmanDecode_quantised gr ch _)⟩

/-- The rules' state may be named with the reservoir and the lines that the command left. -/
theorem State.Agrees.withOwnPart3 {gr ch : Fin 2} {r : RS} {q : Quantised} {s t : State}
    (h : t.Agrees ((s.withPart3 gr ch r q).finish .ok)) :
    t.Agrees ((s.withPart3 gr ch t.rs (t.chan.get ch).quantised).finish .ok) := by
  have hrs : t.rs = { r with log := { r.log with draws := t.rs.log.draws } } := by rw [h.2]; rfl
  refine ⟨fun hc => ?_, h.2.trans ?_⟩
  · have ht := h.1 (h.clean_iff.1 hc)
    have hr : t.rs = r := by rw [ht]; rfl
    have hq : (t.chan.get ch).quantised = q := by
      rw [ht, State.finish_chan, State.withPart3, Two.get_set_same]; rfl
    rw [hr, hq]
    exact ht
  · rw [hrs]
    match ch with
    | 0 => rfl
    | 1 => rfl

/-- Settles O35: the decoding stops at PART2_3_END wherever its codes end, and what it stores, or a fault leaves in its
place, is in the range of R46. -/
theorem huffmanEndsAtPart3End : Obligations.HuffmanEndsAtPart3End := by
  intro gr ch s hr
  obtain ⟨t, ht, hagree, hok⟩ := exec_huffmanDecode hr
  have hresv : t.rs.resv = (s.start.part3 gr ch).2.resv := by rw [hagree.2]; rfl
  have htell : (s.start.part3 gr ch).2.resv.totbit = s.part3Stop gr ch :=
    BitVec.eq_of_toNat_eq (decodePart3_tell _ _ (s.part3Stop gr ch).isLt _)
  obtain ⟨hcells, hwbyte⟩ := decodePart3_cells s.head.fields.sfreq (s.info gr ch) (s.part3Stop gr ch).toNat s.start.rs
  refine ⟨t, ht, hagree.withOwnPart3, ?_, ?_, ?_, hok.count, hok.zeros⟩
  · rw [hresv]; exact htell
  · rw [hresv]; exact hcells
  · rw [hresv]; exact hwbyte

end Sys2Proof.Machine
end

section
/-! PROOF. HUFFMAN_DECODE reads back what an encoder writes (R280-R288): the count1 loop over the codes of quads, the
four ways in which they meet PART2_3_END, and O36. -/

namespace Sys2Proof.Machine

/-! ### The count1 loop (R285) -/

section

variable {select : Bool} {stop fuel index : Nat} {r : RS}

theorem count1_stops (h : ¬(r.tell < stop ∧ index < 576)) :
    count1 (quadCodebook select) stop fuel index r = ([], r) := by
  cases fuel with
  | zero => rfl
  | succ fuel => exact if_neg h

theorem count1_goes {v w x y : Int} {code : List Bool} (h : QuadCode (quadCodebook select) v w x y code)
    (htell : r.tell < stop) (hindex : index < 576) (hn : r.Next code) :
    count1 (quadCodebook select) stop (fuel + 1) index r =
      let rest := count1 (quadCodebook select) stop fuel (index + 4) (r.skip code.length)
      ([v, w, x, y] ++ rest.1, rest.2) := by
  rw [count1, if_pos ⟨htell, hindex⟩, huffQuad_decodes h r hn]

/-- The code of a quad has a bit at least (R280). -/
theorem quadCode_length_pos {v w x y : Int} {code : List Bool} (h : QuadCode (quadCodebook select) v w x y code) :
    0 < code.length := by
  obtain ⟨word, a, b, c, d, hm, -, -, -, -, rfl⟩ := h
  have hword : 0 < word.length :=
    List.length_pos_iff.2 ((codebook_wellFormed_spec (quadCodebook_wellFormed select)).1 _ hm).1
  simp only [List.length_append]
  omega

/-- Quads that end by PART2_3_END and begin below line 576 are decoded, and the loop goes on behind them. -/
theorem count1_quads {quads last : List Int} {code : List Bool} {r' : RS}
    (h : QuadsCode (quadCodebook select) quads code) (hfuel : quads.length < 4 * fuel)
    (hindex : index + quads.length < 580) (htell : r.tell + code.length ≤ stop) (hstop : stop < 2 ^ 32)
    (hn : r.Next code)
    (hlast : ∀ fuel, count1 (quadCodebook select) stop (fuel + 1) (index + quads.length) (r.skip code.length) =
      (last, r')) :
    count1 (quadCodebook select) stop fuel index r = (quads ++ last, r') := by
  obtain ⟨fuel, rfl⟩ : ∃ n, fuel = n + 1 := Nat.exists_eq_succ_of_ne_zero (by omega)
  induction h generalizing fuel index r with
  | nil => simpa [RS.skip_zero] using hlast fuel
  | cons v w x y values code rest hquad _ ih =>
    have hpos := quadCode_length_pos hquad
    obtain ⟨hcode, hrest⟩ := hn.split
    simp only [List.length_cons, List.length_append] at hfuel hindex htell hlast
    obtain ⟨fuel, rfl⟩ : ∃ n, fuel = n + 1 := Nat.exists_eq_succ_of_ne_zero (by omega)
    have htail := ih (index := index + 4) (r := r.skip code.length) (by omega)
      (by rw [RS.skip_tell (by omega)]; omega) hrest
      (fun fuel => by
        rw [RS.skip_skip, ← hlast fuel]
        congr 1
        omega)
      fuel (by omega)
    rw [count1_goes hquad (by omega) (by omega) hcode, htail]
    rfl

end

/-! ### Part 3 as an encoder writes it -/

/-- Lines of which only the kept ones are given (R285). -/
theorem Quantised.of_congr {n : Nat} {f k : Nat → Int} (h : ∀ j < n, f j = k j) :
    Quantised.of n f = Quantised.of n k := by
  have hlines : (fun j => if j < n then f j else 0) = fun j => if j < n then k j else 0 :=
    funext fun j => by
      split
      · next hj => exact h j hj
      · rfl
  rw [Quantised.of, Quantised.of, hlines]

section

variable {sfreq : Fin 9} {g : GranuleInfo} {stop : Nat} {r : RS} {pairs quads : List Int} {a b c : List Bool}
  (hpairs : PairsCode (pairTable sfreq g) 0 pairs a) (hcount : pairs.length = 2 * g.bigValues.toNat)
include hpairs hcount

/-- PART2_3_END inside or before the pairs: their last four values are dropped (R286). -/
theorem decodePart3_inPairs (hn : r.Next a) (hring : r.resv.avail + r.resv.hist ≤ Config.resvBits)
    (hlast : r.tell + a.length < 2 ^ 32) (hstop : stop < r.tell + a.length) (hback : r.tell ≤ stop + r.resv.hist)
    (hfew : pairs.length ≤ 578) :
    decodePart3 sfreq g stop r = (Quantised.of (pairs.length - 4) fun j => pairs.getD j 0, r.seek stop) := by
  have htell := RS.skip_tell hlast
  have hquads : count1 (quadCodebook g.count1TableSelect) stop 145 pairs.length (r.skip a.length) =
      ([], r.skip a.length) := count1_stops (by omega)
  rw [decodePart3_past (bigValues_decodes hpairs hcount r hn) hquads (by omega), htell,
    RS.rewind_skip hn.room hring hback (by omega), List.append_nil, Nat.min_eq_left (by omega)]

variable (hquads : QuadsCode (quadCodebook g.count1TableSelect) quads b)
include hquads

/-- The quads end at PART2_3_END, or they fill the 576 lines and stuffing follows (R287): all lines there are are
kept. -/
theorem decodePart3_full (hn : r.Next (a ++ b ++ c)) (hstop : stop = r.tell + (a ++ b ++ c).length)
    (hlast : stop < 2 ^ 32) (hlines : pairs.length + quads.length ≤ 578)
    (hc : c = [] ∨ 576 ≤ pairs.length + quads.length) :
    decodePart3 sfreq g stop r =
      (Quantised.of (min (pairs.length + quads.length) 576) fun j => (pairs ++ quads).getD j 0, r.seek stop) := by
  obtain ⟨hab, hstuff⟩ := hn.split
  obtain ⟨ha, hb⟩ := hab.split
  simp only [List.length_append] at hstop hstuff
  have htella : (r.skip a.length).tell = r.tell + a.length := RS.skip_tell (by omega)
  have htellb : (r.skip (a.length + b.length)).tell = r.tell + (a.length + b.length) := RS.skip_tell (by omega)
  have hloop : count1 (quadCodebook g.count1TableSelect) stop 145 pairs.length (r.skip a.length) =
      (quads ++ [], r.skip (a.length + b.length)) :=
    count1_quads hquads (by omega) (by omega) (by omega) hlast hb fun fuel => by
      rw [RS.skip_skip]
      refine count1_stops ?_
      rcases hc with rfl | hc
      · rw [List.length_nil] at hstop; omega
      · omega
  rw [List.append_nil] at hloop
  have hleft : stop - (r.skip (a.length + b.length)).tell = c.length := by omega
  have hroom : stop - (r.skip (a.length + b.length)).tell ≤ (r.skip (a.length + b.length)).resv.avail :=
    hleft ▸ hstuff.room
  rw [decodePart3_within (bigValues_decodes hpairs hcount r ha) hloop (by omega),
    stuffing_clean hlast (by omega) hstuff.clean hroom, hleft, RS.skip_skip, List.length_append, RS.seek,
    if_pos (by omega), show stop - r.tell = a.length + b.length + c.length by omega]
  rfl

/-- A further quad begins before PART2_3_END and ends past it: it is dropped (R286). -/
theorem decodePart3_dropsQuad {v w x y : Int} (hc : QuadCode (quadCodebook g.count1TableSelect) v w x y c)
    (hn : r.Next (a ++ b ++ c)) (hring : r.resv.avail + r.resv.hist ≤ Config.resvBits)
    (hlast : r.tell + (a ++ b ++ c).length < 2 ^ 32) (hbegin : r.tell + (a ++ b).length < stop)
    (hend : stop < r.tell + (a ++ b ++ c).length) (hfew : pairs.length + quads.length < 576) :
    decodePart3 sfreq g stop r =
      (Quantised.of (pairs.length + quads.length) fun j => (pairs ++ quads).getD j 0, r.seek stop) := by
  obtain ⟨hab, hquad⟩ := hn.split
  obtain ⟨ha, hb⟩ := hab.split
  have htell := RS.skip_tell hlast
  have hroom := hn.room
  simp only [List.length_append] at hlast hbegin hend hquad htell hroom
  have htella : (r.skip a.length).tell = r.tell + a.length := RS.skip_tell (by omega)
  have htellb : (r.skip (a.length + b.length)).tell = r.tell + (a.length + b.length) := RS.skip_tell (by omega)
  have hloop : count1 (quadCodebook g.count1TableSelect) stop 145 pairs.length (r.skip a.length) =
      (quads ++ [v, w, x, y], r.skip (a.length + b.length + c.length)) :=
    count1_quads hquads (by omega) (by omega) (by omega) (by omega) hb fun fuel => by
      rw [RS.skip_skip, count1_goes hc (by omega) hfew hquad, RS.skip_skip, count1_stops (by omega)]
      rfl
  have hkept : (pairs ++ (quads ++ [v, w, x, y])).length - 4 = pairs.length + quads.length := by
    simp only [List.length_append, List.length_cons, List.length_nil]; omega
  rw [decodePart3_past (bigValues_decodes hpairs hcount r ha) hloop (by omega), htell,
    RS.rewind_skip hroom hring (by omega) (by omega), hkept, Nat.min_eq_left (by omega)]
  refine congrArg (·, r.seek stop) (Quantised.of_congr fun j hj => ?_)
  rw [← List.append_assoc, List.getD_append _ _ _ _ (by rwa [List.length_append])]

end

/-! ### The command -/

/-- HUFFMAN_DECODE of a part 3 that it decodes to the first `kept` of `values` without a fault. -/
theorem exec_huffmanDecode_clean {gr ch : Fin 2} {s : State} {kept : Nat} {values : List Int} (hr : s.ready .sf gr ch)
    (hc : s.clean)
    (hpart : s.start.part3 gr ch =
      (Quantised.of kept fun j => values.getD j 0, s.start.rs.seek (s.part3Stop gr ch).toNat)) :
    ∃ t, exec (.huffmanDecode gr ch) s = .next t ∧ t.status.err = .ok ∧
      t.rs = s.start.rs.seek (s.part3Stop gr ch).toNat ∧ (t.chan.get ch).nonzero = kept ∧
      ∀ j < 576, quantAt (t.chan.get ch).is j = if j < kept then values.getD j 0 else 0 := by
  obtain ⟨t, ht, hagree, -⟩ := exec_huffmanDecode hr
  rw [hpart] at hagree
  have hend := hagree.1 hc
  have hchan : t.chan.get ch = { s.chan.get ch with
      stage := .huf, part23End := s.part3Stop gr ch, nonzero := kept
      is := (Quantised.of kept fun j => values.getD j 0).is } := by
    rw [hend]
    exact Two.get_set_same _ _ _
  refine ⟨t, ht, by rw [hend]; rfl, by rw [hend]; rfl, by rw [hchan], fun j hj => ?_⟩
  rw [hchan]
  exact quantAt_tabulate _ hj

/-- Settles O36: the pairs and the quads are decoded code by code; then the decoding stands at PART2_3_END, before
stuffing, past a quad that is dropped, or in the pairs. -/
theorem huffmanReadsCodes : Obligations.HuffmanReadsCodes := by
  intro gr ch s pairs quads a b c kept hr hclean hinv
  dsimp only
  intro hpairs hcount hlines hquads hends hlast hroom hbits
  have hn : s.start.rs.Next (a ++ b ++ c) := ⟨hclean, hroom, hbits⟩
  have hring : s.start.rs.resv.avail + s.start.rs.resv.hist ≤ Config.resvBits := hinv.history
  have hstop : (s.part3Stop gr ch).toNat < 2 ^ 32 := (s.part3Stop gr ch).isLt
  have hpart : s.start.part3 gr ch =
      (Quantised.of kept fun j => (pairs ++ quads).getD j 0, s.start.rs.seek (s.part3Stop gr ch).toNat) := by
    rcases hends with ⟨rfl, hend, rfl⟩ | ⟨⟨v, w, x, y, hquad⟩, hfew, hbegin, hend, rfl⟩ | ⟨hfull, hend, rfl⟩ |
      ⟨rfl, rfl, hend, hback, rfl⟩
    · exact decodePart3_full hpairs hcount hquads hn (by rw [List.append_nil]; exact hend) hstop hlines (.inl rfl)
    · exact decodePart3_dropsQuad hpairs hcount hquads hquad hn hring hlast hbegin hend hfew
    · rw [← Nat.min_eq_right hfull]
      exact decodePart3_full hpairs hcount hquads hn hend hstop hlines (.inr hfull)
    · cases hquads
      rw [List.append_nil, List.append_nil] at hn hlast
      rw [List.append_nil]
      exact decodePart3_inPairs hpairs hcount hn hring hlast hend hback hlines
  obtain ⟨t, ht, hok, hrs, hkept, hvalues⟩ := exec_huffmanDecode_clean hr hclean hpart
  exact ⟨t, ht, hok, by rw [hrs]; rfl, by rw [hrs]; rfl, hkept, hvalues⟩

end Sys2Proof.Machine
end

section
/-! PROOF. REORDER (R320-R322): O38. -/

namespace Sys2Proof.Machine

/-- XR after REORDER: only the lines of a short block are moved. -/
def reordered (sfreq : Fin 9) (g : GranuleInfo) (xr : Lines Num) : Lines Num :=
  if g.short then reorderLines sfreq g xr else xr

/-- REORDER gives XR and STAGE of its channel their values, and changes nothing else. -/
theorem reorder_agrees (gr ch : Fin 2) (s : State) :
    (reorder gr ch s).Agrees (s.mapChan ch fun c =>
      { c with stage := .ro, xr := reordered s.head.fields.sfreq (s.info gr ch) (s.chan.get ch).xr }) := by
  rw [reorder]
  by_cases hshort : (s.info gr ch).short = true
  · have h := (State.storeXr_agrees ch
      (reorderLines s.head.fields.sfreq (s.info gr ch) (s.chan.get ch).xr) s).setStage ch .ro
    simp only [reordered, if_pos hshort]
    simp only [State.setStage, mapChan_mapChan] at h ⊢
    exact h
  · simp only [reordered, if_neg hshort]
    exact State.agrees_refl (s.setStage ch .ro)

/-- No short band ends past line 576, which is 3 * 192. -/
theorem sfbShort_le (sfreq : Fin 9) {b : Nat} (hb : b ≤ 13) : sfbShort sfreq b ≤ 192 := by
  rw [← sfbShort_top sfreq (Nat.le_refl 13)]
  exact sfbShort_monotone sfreq hb

section
variable {sfreq : Fin 9} {b : Nat}

/-- REORDER_MAP takes frequency `f` of window `w` in a short band from where the decoder put it, window by window. -/
theorem reorderMap_short {mixed : Bool} (hb : mixed = true → 3 ≤ b) {w f : Nat} (hw : w < 3)
    (hf : f < sfbShort sfreq (b + 1) - sfbShort sfreq b) :
    reorderMap sfreq mixed (3 * sfbShort sfreq b + 3 * f + w) =
      3 * sfbShort sfreq b + w * (sfbShort sfreq (b + 1) - sfbShort sfreq b) + f := by
  have hband : shortBand sfreq (3 * sfbShort sfreq b + 3 * f + w) = b := shortBand_eq (by omega) (by omega)
  have hoffset : 3 * sfbShort sfreq b + 3 * f + w - 3 * sfbShort sfreq b = 3 * f + w := by omega
  have hwindow : (3 * f + w) % 3 = w := by omega
  have hfrequency : (3 * f + w) / 3 = f := by omega
  have hpast : ¬(mixed = true ∧ 3 * sfbShort sfreq b + 3 * f + w < 3 * sfbShort sfreq 3) := by
    rintro ⟨hm, hlow⟩
    have := sfbShort_monotone sfreq (hb hm)
    omega
  simp only [reorderMap, if_neg hpast, hband, hoffset, hwindow, hfrequency]

/-- REORDER_MAP leaves the long lines of a mixed block. -/
theorem reorderMap_mixed {j : Nat} (hj : j < 3 * sfbShort sfreq 3) : reorderMap sfreq true j = j :=
  if_pos ⟨rfl, hj⟩

end

theorem short_of_mixed {g : GranuleInfo} (h : g.mixed = true) : g.short = true := by
  rw [GranuleInfo.mixed, Bool.and_eq_true] at h
  exact h.1

theorem lineAt_reordered {sfreq : Fin 9} {g : GranuleInfo} (h : g.short = true) (xr : Lines Num) {j : Nat}
    (hj : j < 576) : lineAt (reordered sfreq g xr) j = lineAt xr (reorderMap sfreq g.mixed j) := by
  rw [reordered, if_pos h]
  exact lineAt_tabulate _ hj

/-- Settles O38: line by line, the old line is that of REORDER_MAP, which is known on every short band and on the long
lines of a mixed block. -/
theorem reorderMovesLines : Obligations.ReorderMovesLines := by
  intro gr ch s hr
  obtain ⟨t, ht, hagree⟩ := command_granule hr (reorder_agrees gr ch s.start)
  refine ⟨reordered s.head.fields.sfreq (s.info gr ch) (s.chan.get ch).xr, t, ht, hagree, ?_⟩
  refine ⟨fun hlong => if_neg (by simp [hlong]), fun _ =>
    ⟨fun hshort b hb hmixed w hw f hf => ?_, fun hmixed j hj => ?_⟩⟩
  · have htop := sfbShort_le s.head.fields.sfreq (show b + 1 ≤ 13 from hb)
    rw [lineAt_reordered hshort _ (by omega), reorderMap_short hmixed hw hf]
  · have htop := sfbShort_le s.head.fields.sfreq (show 3 ≤ 13 by decide)
    rw [lineAt_reordered (short_of_mixed hmixed) _ (by omega), hmixed, reorderMap_mixed hj]

end Sys2Proof.Machine
end

section
/-! PROOF. STEREO (R340, R350): which state it leaves, line by line, and O39. -/

namespace Sys2Proof.Machine

/-! ### The state (R340, R350) -/

/-- A store of spectral lines keeps agreement, whatever a fault has made of the lines. -/
theorem State.Agrees.storeXr {t u : State} (h : t.Agrees u) (ch : Fin 2) {v w : Lines Num} (hv : u.clean → v = w) :
    (t.storeXr ch v).Agrees (u.mapChan ch fun c => { c with xr := w }) := by
  refine State.Agrees.trans (State.storeXr_agrees ch v t) ⟨fun hc => by rw [h.1 hc, hv hc], ?_⟩
  rw [h.2]
  match ch with
  | 0 => rfl
  | 1 => rfl

/-- XR[0] and XR[1] of granule `gr` as STEREO leaves them before the channel selection (R340). -/
def State.stereoLeft (gr : Fin 2) (s : State) : Lines Num :=
  if s.nch = 2 then
    tabulate 576 fun j => (stereoPair s.isOn s.msOn (s.rightChannel gr) s.chan.c1.lsf s.chan.c0.xr j).1
  else s.chan.c0.xr

@[inherit_doc State.stereoLeft]
def State.stereoRight (gr : Fin 2) (s : State) : Lines Num :=
  if s.nch = 2 then
    tabulate 576 fun j => (stereoPair s.isOn s.msOn (s.rightChannel gr) s.chan.c1.lsf s.chan.c0.xr j).2
  else s.chan.c1.xr

/-- XR[0] after the channel selection (R350) of lines `l` and `r`. -/
def State.selectedLeft (l r : Lines Num) (s : State) : Lines Num :=
  if s.nch = 2 ∧ s.cmdCtrl.chsel = .downmix then tabulate 576 fun j => average (lineAt l j) (lineAt r j) else l

/-- `s` with the lines `l` and `r`. -/
def State.withLines (l r : Lines Num) (s : State) : State :=
  { s with chan := ⟨{ s.chan.c0 with xr := l }, { s.chan.c1 with xr := r }⟩ }

theorem stereoLines_agrees (gr : Fin 2) (s : State) :
    (stereoLines gr s).Agrees (s.withLines (s.stereoLeft gr) (s.stereoRight gr)) := by
  have store (l r : Lines Num) : ((s.storeXr 0 l).storeXr 1 r).Agrees (s.withLines l r) :=
    (State.storeXr_agrees 0 l s).storeXr (v := r) 1 fun _ => rfl
  unfold stereoLines State.stereoLeft State.stereoRight
  split
  · exact store _ _
  · exact State.agrees_refl s

/-- STAGE after the channel selection (R350). -/
def State.selectStages (s : State) : State :=
  s.channels.foldl (fun t ch => t.setStage ch (if s.sel.contains ch then .st else .em)) s

theorem State.Agrees.selectStages {t u : State} (h : t.Agrees u) : t.selectStages.Agrees u.selectStages := by
  have hfold (f : Fin 2 → Stage) (l : List (Fin 2)) : ∀ {t u : State}, t.Agrees u →
      (l.foldl (fun s ch => s.setStage ch (f ch)) t).Agrees (l.foldl (fun s ch => s.setStage ch (f ch)) u) := by
    induction l with
    | nil => exact fun h => h
    | cons ch l ih => exact fun h => ih (h.setStage ch (f ch))
  have hchannels : t.channels = u.channels := by rw [h.2]; rfl
  have hsel : t.sel = u.sel := by rw [h.2]; rfl
  rw [State.selectStages, hchannels, hsel]
  exact hfold _ _ h

theorem selectStages_eq (s : State) : s.selectStages =
    { s with chan := {
        c0 := { s.chan.c0 with stage := if 0 ∈ s.sel then .st else .em }
        c1 := { s.chan.c1 with
          stage := if s.nch = 1 then s.chan.c1.stage else if 1 ∈ s.sel then .st else .em } } } := by
  rcases nch_cases s with h | h
  · simp [State.selectStages, State.channels, h, State.setStage, State.mapChan]
  · simp [State.selectStages, State.channels, h, State.setStage, State.mapChan]

/-- Where the downmix of R350 applies, it rounds the average of the channels into XR[0]. -/
theorem select_agrees {l r : Lines Num} {s t : State} (h : t.Agrees (s.withLines l r)) :
    (select t).Agrees (s.withLines (s.selectedLeft l r) r).selectStages := by
  have hcond : t.nch = 2 ∧ t.cmdCtrl.chsel = .downmix ↔ s.nch = 2 ∧ s.cmdCtrl.chsel = .downmix := by rw [h.2]; rfl
  refine State.Agrees.selectStages ?_
  by_cases hdown : s.nch = 2 ∧ s.cmdCtrl.chsel = .downmix
  · rw [if_pos (hcond.2 hdown), State.selectedLeft, if_pos hdown]
    exact h.storeXr 0 fun hc => by rw [h.1 hc]; rfl
  · rw [if_neg (hcond.not.2 hdown), State.selectedLeft, if_neg hdown]
    exact h

/-- STEREO gives XR and STAGE of both channels their values, and changes nothing else. -/
theorem stereo_agrees (gr : Fin 2) (s : State) :
    (stereo gr s).Agrees
      (s.withLines (s.selectedLeft (s.stereoLeft gr) (s.stereoRight gr)) (s.stereoRight gr)).selectStages :=
  select_agrees (stereoLines_agrees gr s)

/-- A STEREO that executes normally passes its checks (R421). -/
theorem State.readyStereo.guard_start {gr : Fin 2} {s : State} (h : s.readyStereo gr) :
    guardStereo gr s.start = none := by
  obtain ⟨-, hl, hgr, hst⟩ := h
  rw [start_guardStereo, guardStereo, thenCheck_none, thenCheck_none, guardLayer3_none, require_none, require_none]
  exact ⟨hl, decide_eq_true hgr, beforeStereo_iff.2 hst⟩

theorem average_rounds (a b : Num) : Rounds (average a b) fun val => (val a + val b) / 2 := by
  refine ⟨_, rfl, fun val hval => ?_⟩
  rw [Exact.real_quot, Exact.real_plus hval, Exact.real_ofNum hval, Exact.real_ofNum hval]
  norm_num [Exact.real]

/-- STEREO completes, with whatever holds of its lines before the channel selection. -/
theorem stereoRuns {gr : Fin 2} {s : State} {rel : Lines Num → Lines Num → Prop} (hr : s.readyStereo gr)
    (hrel : s.clean → rel (s.stereoLeft gr) (s.stereoRight gr)) : StereoRuns gr s rel := by
  obtain ⟨t, ht, hagree⟩ := command_ending (stereo gr) hr.1 hr.guard_start
  have hdone := (stereo_agrees gr s.start).finish .ok
  rw [selectStages_eq] at hdone
  refine ⟨s.stereoLeft gr, s.stereoRight gr, s.start.selectedLeft (s.stereoLeft gr) (s.stereoRight gr), t, ht,
    hagree.trans hdone, fun hc => ⟨hrel hc, fun hdown j hj => ?_, fun hdown => if_neg hdown⟩⟩
  have hmix : s.start.selectedLeft (s.stereoLeft gr) (s.stereoRight gr) =
      tabulate 576 fun j => average (lineAt (s.stereoLeft gr) j) (lineAt (s.stereoRight gr) j) := if_pos hdown
  rw [hmix, lineAt_tabulate _ hj]
  exact average_rounds _ _

/-! ### The lines (R340, R341) -/

/-- Both channels' values of a line (R340). -/
theorem stereo_line {gr : Fin 2} {s : State} (hn : s.nch = 2) {j : Nat} (hj : j < 576) :
    (lineAt (s.stereoLeft gr) j, lineAt (s.stereoRight gr) j) =
      stereoPair s.isOn s.msOn (s.rightChannel gr) s.chan.c1.lsf s.chan.c0.xr j := by
  rw [State.stereoLeft, if_pos hn, State.stereoRight, if_pos hn, lineAt_tabulate _ hj, lineAt_tabulate _ hj]

theorem msPair_rounds (a b : Num) :
    Rounds (msPair a b).1 (fun val => (val a + val b) / √2) ∧ Rounds (msPair a b).2 fun val => (val a - val b) / √2 := by
  refine ⟨⟨_, rfl, fun val hval => ?_⟩, ⟨_, rfl, fun val hval => ?_⟩⟩
  · rw [Exact.real_quot, Exact.real_plus hval, Exact.real_ofNum hval, Exact.real_ofNum hval, Exact.real_sqrtTwo]
  · rw [Exact.real_quot, Exact.real_minus hval, Exact.real_ofNum hval, Exact.real_ofNum hval, Exact.real_sqrtTwo]

/-- A line that is no legal intensity line (R340, R341). -/
theorem plainLine {gr : Fin 2} {s : State} (hn : s.nch = 2) {j : Nat} (hj : j < 576)
    (hi : s.isOn = true → legalIntensity (s.rightChannel gr) s.chan.c1.lsf j = none) :
    PlainLine s.msOn s.chan.c0.xr s.chan.c1.xr (s.stereoLeft gr) (s.stereoRight gr) j := by
  have hnone : (if s.isOn then legalIntensity (s.rightChannel gr) s.chan.c1.lsf j else none) = none := by
    split
    · next h => exact hi h
    · rfl
  have hline := stereo_line (gr := gr) hn hj
  rw [stereoPair, hnone] at hline
  cases hms : s.msOn with
  | false =>
    rw [hms] at hline
    exact Prod.mk.inj hline
  | true =>
    rw [hms] at hline
    obtain ⟨hl, hright⟩ := Prod.mk.inj hline
    rw [PlainLine, if_pos rfl, hl, hright]
    exact msPair_rounds _ _

theorem nch_of_joint {s : State} (h : s.head.fields.mode = 1) : s.nch = 2 := by
  rw [State.nch, Header.nch, if_neg (by rw [h]; decide)]

/-- STEREO of a frame with neither MS nor intensity changes no line. -/
theorem stereo_unchanged {gr : Fin 2} {s : State} (h : s.nch = 2 → s.isOn = false ∧ s.msOn = false) :
    s.stereoLeft gr = s.chan.c0.xr ∧ s.stereoRight gr = s.chan.c1.xr := by
  by_cases hn : s.nch = 2
  · obtain ⟨hi, hms⟩ := h hn
    have hline {j : Nat} (hj : j < 576) := plainLine (gr := gr) hn hj fun hon => absurd hon (by simp [hi])
    simp only [PlainLine, hms] at hline
    exact ⟨Lines.ext_lineAt fun j hj => (hline hj).1, Lines.ext_lineAt fun j hj => (hline hj).2⟩
  · exact ⟨if_neg hn, if_neg hn⟩

/-- Settles O39: without IS_ON no line is an intensity line, so that each is plain. -/
theorem stereoWithoutIntensity : Obligations.StereoWithoutIntensity := by
  refine fun gr s hr => ⟨fun hplain => stereoRuns hr fun _ => stereo_unchanged fun hn => ?_, fun hmode hext =>
    stereoRuns hr fun _ j hj => ?_⟩
  · rcases hplain with hmono | hmode | hext
    · omega
    · have hjoint : s.joint = false := decide_eq_false hmode
      simp [State.isOn, State.msOn, hjoint]
    · simp [State.isOn, State.msOn, hext]
  · have hms : s.msOn = true := by simp [State.msOn, State.joint, hmode, hext]
    have hoff : s.isOn = false := by simp [State.isOn, hext]
    have hline := plainLine (gr := gr) (nch_of_joint hmode) hj fun hon => absurd hon (by simp [hoff])
    rwa [hms] at hline

end Sys2Proof.Machine
end

section
/-! PROOF. Intensity stereo (R342-R346): which positions are legal and their gains, which lines are intensity lines, and
O40, O41, O42. -/

namespace Sys2Proof.Machine

/-! ### Legal positions (R247, R346) -/

/-- The part whose counts, with those before it, reach past `idx` is the one found. -/
theorem partOf_eq {n : List Nat} {part idx : Nat} (h1 : (n.take part).sum ≤ idx) (h2 : idx < (n.take (part + 1)).sum) :
    partOf n idx = part := by
  induction n generalizing part idx with
  | nil => simp at h2
  | cons c n ih =>
    cases part with
    | zero => simpa [partOf] using h2
    | succ part =>
      simp only [List.take_succ_cons, List.sum_cons] at h1 h2
      rw [partOf, if_neg (by omega), ih (part := part) (by omega) (by omega)]

/-- An index within the counts is in the part found. -/
theorem partOf_spec {n : List Nat} {idx : Nat} (h : idx < n.sum) :
    partOf n idx < n.length ∧ (n.take (partOf n idx)).sum ≤ idx ∧ idx < (n.take (partOf n idx + 1)).sum := by
  induction n generalizing idx with
  | nil => simp at h
  | cons c n ih =>
    rw [List.sum_cons] at h
    rw [partOf]
    split
    · next hc => simpa using hc
    · next hc =>
      obtain ⟨hlen, hle, hlt⟩ := ih (idx := idx - c) (by omega)
      simp only [List.length_cons, List.take_succ_cons, List.sum_cons]
      omega

theorem nrOfSfbBlock_length : ∀ bn btn, (nrOfSfbBlock bn btn).length = 4 := by decide

/-- A long block has 21 bands with a position, a short block 36, a mixed block 33 (R67). -/
theorem nrOfSfbBlock_sum : ∀ bn btn,
    (nrOfSfbBlock bn btn).sum = if btn = 0 then 21 else if btn = 1 then 36 else 33 := by
  decide

theorem slen_getD (i : LsfInfo) (k : Nat) : (i.slen.toList.map Fin.val).getD k 0 = (i.slen[k]?.getD 0).val := by
  rw [List.getD_eq_getElem?_getD, List.getElem?_map, Vector.getElem?_toList]
  cases i.slen[k]? <;> rfl

/-- The legality of a position (R346); of an LSF position, where its band has one. -/
theorem legalPosition_iff {v : Version} {i : LsfInfo} {x : Position}
    (h : v ≠ .mpeg1 → x.idx < (nrOfSfbBlock i.blockNum i.blockTypeNum).sum) :
    legalPosition v i x = true ↔ ¬IllegalPosition v i x.idx x.p := by
  unfold legalPosition IllegalPosition
  split
  · rw [decide_eq_true_eq]
    omega
  · next hv =>
    rw [decide_eq_true_eq, isMax, ← slen_getD]
    refine not_congr ⟨fun hp => ?_, ?_⟩
    · obtain ⟨hlen, hle, hlt⟩ := partOf_spec (h hv)
      rw [nrOfSfbBlock_length] at hlen
      exact ⟨_, hlen, hle, hlt, hp⟩
    · rintro ⟨part, -, hle, hlt, hp⟩
      rw [partOf_eq hle hlt]
      exact hp

/-! ### Gains (R346) -/

/-- `io^n` (R346). -/
theorem ioPower_real (val : Num → ℝ) (g1 : GranuleInfo) (n : Nat) :
    (ioPower g1 n).real val =
      (if g1.scalefacCompress.getLsbD 0 then (2 : ℝ) ^ (-(1 : ℝ) / 2) else (2 : ℝ) ^ (-(1 : ℝ) / 4)) ^ n := by
  have hpow (q : ℝ) : (2 : ℝ) ^ (-(n : ℝ) / q) = ((2 : ℝ) ^ (-(1 : ℝ) / q)) ^ n := by
    rw [← Real.rpow_natCast, ← Real.rpow_mul (by norm_num)]
    ring_nf
  have hodd : g1.scalefacCompress.getLsbD 0 = decide (g1.scalefacCompress.toNat % 2 = 1) := by
    rw [BitVec.getLsbD, Nat.testBit_zero]
  rw [ioPower, Exact.real_powTwo, hodd]
  by_cases h : g1.scalefacCompress.toNat % 2 = 0
  · simp [h, hpow]
  · simp [h, hpow]

theorem mpeg1Gains_real {val : Num → ℝ} (hval : Valuation val) (odd : Bool) (p : Nat) :
    ((mpeg1Gains p).1.real val, (mpeg1Gains p).2.real val) = intensityGains true odd p := by
  rw [mpeg1Gains]
  split
  · next hp =>
    have hangle : ((3 : Nat) : ℝ) * Real.pi / 12 = Real.pi / 4 := by push_cast; ring
    have hroot : √2 / 2 ≠ (0 : ℝ) := by positivity
    rw [hp, intensityGains, if_pos rfl, hangle, Real.sin_pi_div_four, Real.cos_pi_div_four, ← two_mul,
      div_mul_cancel_right₀ hroot]
    simp [Exact.real]
  · simp [Exact.real_plus hval, intensityGains, mul_comm]

theorem lsfGains_real (val : Num → ℝ) (g1 : GranuleInfo) (p : Nat) :
    ((lsfGains g1 p).1.real val, (lsfGains g1 p).2.real val) =
      intensityGains false (g1.scalefacCompress.getLsbD 0) p := by
  simp only [lsfGains, intensityGains]
  split
  · simp
  · split
    · simp [ioPower_real]
    · simp [ioPower_real]

theorem gains_real {val : Num → ℝ} (hval : Valuation val) (v : Version) (g1 : GranuleInfo) (p : Nat) :
    ((gains v g1 p).1.real val, (gains v g1 p).2.real val) =
      intensityGains (decide (v = .mpeg1)) (g1.scalefacCompress.getLsbD 0) p := by
  rw [gains]
  split
  · next hv => rw [decide_eq_true hv, mpeg1Gains_real hval]
  · next hv => rw [decide_eq_false hv, lsfGains_real]

theorem intensityPair_rounds (k : Exact × Exact) (a : Num) {r : ℝ × ℝ}
    (hk : ∀ val, Valuation val → (k.1.real val, k.2.real val) = r) :
    Rounds (intensityPair k a).1 (fun val => val a * r.1) ∧ Rounds (intensityPair k a).2 fun val => val a * r.2 := by
  refine ⟨⟨_, rfl, fun val hval => ?_⟩, ⟨_, rfl, fun val hval => ?_⟩⟩
  · rw [Exact.real_times, Exact.real_ofNum hval, ← hk val hval]
  · rw [Exact.real_times, Exact.real_ofNum hval, ← hk val hval]

/-! ### The intensity region (R343-R345) -/

theorem boundAbove_le {p : Nat → Bool} {n k : Nat} : boundAbove p n ≤ k ↔ ∀ m < n, k ≤ m → p m = false := by
  induction n with
  | zero => simp [boundAbove]
  | succ n ih =>
    rw [boundAbove]
    split
    · next hp =>
      refine ⟨fun hle m hm hk => by omega, fun hall => ?_⟩
      by_contra hlt
      simp [hall n (Nat.lt_succ_self n) (by omega)] at hp
    · next hp =>
      rw [ih]
      refine ⟨fun hall m hm hk => ?_, fun hall m hm hk => hall m (by omega) hk⟩
      rcases Nat.lt_succ_iff_lt_or_eq.1 hm with hlt | rfl
      · exact hall m hlt hk
      · simpa using hp

/-- Every line is in a band. -/
theorem exists_band {f : Nat → Nat} (hzero : f 0 = 0) {n j : Nat} (hj : j < f n) : ∃ b < n, f b ≤ j ∧ j < f (b + 1) := by
  induction n with
  | zero => omega
  | succ n ih =>
    rcases Nat.lt_or_ge j (f n) with hlt | hge
    · obtain ⟨b, hb, h⟩ := ih hlt
      exact ⟨b, by omega, h⟩
    · exact ⟨n, Nat.lt_succ_self n, hge, hj⟩

theorem sfbLong_zero (sfreq : Fin 9) : sfbLong sfreq 0 = 0 := by
  fin_cases sfreq <;> rfl

/-- The band of a line is below `b` where the line is. -/
theorem longBand_lt {sfreq : Fin 9} {j b : Nat} (hj : j < 576) : longBand sfreq j < b ↔ j < sfbLong sfreq b := by
  rw [← sfbLong_top sfreq (Nat.le_refl 22)] at hj
  obtain ⟨c, -, h1, h2⟩ := exists_band (sfbLong_zero sfreq) hj
  rw [longBand_eq h1 h2]
  refine ⟨fun hlt => Nat.lt_of_lt_of_le h2 (sfbLong_monotone sfreq hlt), fun hlt => ?_⟩
  by_contra hge
  have := sfbLong_monotone sfreq (Nat.not_lt.1 hge)
  omega

theorem nonzeroAt_eq_false {b : Lines Num} {j : Nat} : nonzeroAt b j = false ↔ lineAt b j = .zero := by
  simp [nonzeroAt]

/-- The bound of R343, of a scan of `n` lines, is at most band `bb` if the scan finds only zero lines from there on. -/
theorem longBound_le {sfreq : Fin 9} {b : Lines Num} {n bb : Nat} (hn : n ≤ 576) :
    longBound sfreq b n ≤ bb ↔ ∀ j < n, sfbLong sfreq bb ≤ j → lineAt b j = .zero := by
  have hbound : longBound sfreq b n ≤ bb ↔ boundAbove (nonzeroAt b) n ≤ sfbLong sfreq bb := by
    have htop : boundAbove (nonzeroAt b) n ≤ n := boundAbove_le.2 fun m hm hk => by omega
    rw [longBound]
    split
    · next h0 => simp [h0]
    · next top hsome =>
      rw [hsome] at htop ⊢
      exact longBand_lt (by omega)
  rw [hbound, boundAbove_le]
  simp only [nonzeroAt_eq_false]

theorem shortBandNonzero_eq_false {sfreq : Fin 9} {b : Lines Num} {w bb : Nat} :
    shortBandNonzero sfreq b w bb = false ↔ ∀ f, f < sfbShort sfreq (bb + 1) - sfbShort sfreq bb →
      lineAt b (3 * sfbShort sfreq bb + 3 * f + w) = .zero := by
  simp [shortBandNonzero, nonzeroAt_eq_false]

/-- The bound of R344 and R345 is at most band `bb` if the window is silent from there on. -/
theorem shortBound_le {sfreq : Fin 9} {b : Lines Num} {first w bb : Nat} (hfirst : first ≤ bb) :
    shortBound sfreq b first w ≤ bb ↔ SilentFrom sfreq b w bb := by
  rw [shortBound, Nat.max_le, boundAbove_le, SilentFrom]
  simp only [← shortBandNonzero_eq_false]
  constructor
  · rintro ⟨-, hall⟩ m hm hk
    simpa [Nat.le_trans hfirst hk] using hall m hm hk
  · exact fun hall => ⟨hfirst, fun m hm hk => by simp [hall m hm hk]⟩

/-- No window of a mixed block has a line in the short part (R345). -/
theorem mixedShortNonzero_eq_false {r : RightChannel} :
    mixedShortNonzero r = false ↔ ∀ w < 3, SilentFrom r.sfreq r.b w 3 := by
  simp [mixedShortNonzero, shortBound_le]

/-! ### The position of a line (R343-R345) -/

section
variable {r : RightChannel} {j bb w f : Nat}

/-- The position of a line of long band `bb`, by a scan of `n` lines (R343). -/
theorem longIntensity_eq (n : Nat) (h1 : sfbLong r.sfreq bb ≤ j) (h2 : j < sfbLong r.sfreq (bb + 1)) :
    longIntensity r n j = if longBound r.sfreq r.b n ≤ bb then some (longPosition r.scf bb) else none := by
  simp only [longIntensity, longBand_eq h1 h2]

/-- The position of a line of window `w` in short band `bb` (R344, R345). -/
theorem shortIntensity_eq (first : Nat) (hw : w < 3) (hf : f < sfbShort r.sfreq (bb + 1) - sfbShort r.sfreq bb) :
    shortIntensity r first (3 * sfbShort r.sfreq bb + 3 * f + w) =
      if shortBound r.sfreq r.b first w ≤ bb then some (shortPosition r.g1.mixed r.scf w bb) else none := by
  have hband : shortBand r.sfreq (3 * sfbShort r.sfreq bb + 3 * f + w) = bb := shortBand_eq (by omega) (by omega)
  have hwindow : lineWindow r.sfreq bb (3 * sfbShort r.sfreq bb + 3 * f + w) = w := by
    rw [lineWindow]
    omega
  simp only [shortIntensity, hband, hwindow]

theorem intensityPosition_long (hlong : r.g1.short = false) : intensityPosition r j = longIntensity r 576 j := by
  simp [intensityPosition, hlong]

theorem intensityPosition_short (hshort : r.g1.short = true) (hmixed : r.g1.mixed = false) :
    intensityPosition r j = shortIntensity r 0 j := by
  simp [intensityPosition, hshort, hmixed]

theorem intensityPosition_mixed_short (hmixed : r.g1.mixed = true) (hj : 36 ≤ j) :
    intensityPosition r j = shortIntensity r 3 j := by
  simp [intensityPosition, short_of_mixed hmixed, hmixed, hj]

/-- The long part of a mixed block is an intensity region only where the short part has no line (R345). -/
theorem intensityPosition_mixed_long (hmixed : r.g1.mixed = true) (hj : j < 36)
    (hband : longBand r.sfreq j < mixedLongBands r.version) :
    intensityPosition r j = if mixedShortNonzero r = false then longIntensity r 36 j else none := by
  simp only [intensityPosition, short_of_mixed hmixed, hmixed, if_true, if_neg (Nat.not_le.2 hj), if_pos hband]
  cases mixedShortNonzero r <;> rfl

end

/-! ### Intensity lines (R340, R346) -/

/-- A line whose position is `x` if `c` holds, and which otherwise is no intensity line. -/
theorem stereoLine {gr : Fin 2} {s : State} {c inRegion : Prop} [Decidable c] {x : Position} {j : Nat} (hn : s.nch = 2)
    (hon : s.isOn = true) (hj : j < 576)
    (hpos : intensityPosition (s.rightChannel gr) j = if c then some x else none) (hc : c ↔ inRegion)
    (hidx : s.head.fields.version ≠ .mpeg1 →
      x.idx < (nrOfSfbBlock s.chan.c1.lsf.blockNum s.chan.c1.lsf.blockTypeNum).sum) :
    StereoLine s gr inRegion x.p x.idx (s.stereoLeft gr) (s.stereoRight gr) j := by
  have hlegal := legalPosition_iff (x := x) hidx
  refine ⟨fun ⟨hin, hl⟩ => ?_, fun hnot => plainLine hn hj fun _ => ?_⟩
  · have hsome : legalIntensity (s.rightChannel gr) s.chan.c1.lsf j = some x := by
      rw [legalIntensity, hpos, if_pos (hc.2 hin)]
      exact Option.filter_some_pos (hlegal.2 hl)
    have hline := stereo_line (gr := gr) hn hj
    rw [stereoPair, hon, if_pos rfl, hsome] at hline
    obtain ⟨hleft, hright⟩ := Prod.mk.inj hline
    rw [IntensityLine, hleft, hright]
    exact intensityPair_rounds _ _ fun val hval => gains_real hval _ _ _
  · rw [legalIntensity, hpos]
    split
    · next h => exact Option.filter_some_neg (Bool.eq_false_iff.2 fun hl => hnot ⟨hc.1 h, hlegal.1 hl⟩)
    · rfl

theorem isOn_of_joint {s : State} (h : s.head.fields.mode = 1) (hext : s.head.fields.modeExt.getLsbD 0 = true) :
    s.isOn = true := by
  rw [State.isOn, State.joint, decide_eq_true h, hext]
  rfl

/-- Settles O40: the right channel is 0 from band `bb` on where the bound of R343 is at most `bb`. -/
theorem stereoIntensityLong : Obligations.StereoIntensityLong := by
  intro gr s hr hmode hext hlong htype
  refine stereoRuns hr fun _ j hj bb h1 h2 => ?_
  have hpos : intensityPosition (s.rightChannel gr) j = _ :=
    (intensityPosition_long hlong).trans (longIntensity_eq 576 h1 h2)
  refine stereoLine (nch_of_joint hmode) (isOn_of_joint hmode hext) hj hpos (longBound_le (Nat.le_refl 576)) fun hv => ?_
  rw [nrOfSfbBlock_sum, htype hv]
  show min bb 20 < 21
  omega

/-- A line of a short band is one of the 576. -/
theorem shortLine_lt {sfreq : Fin 9} {bb w f : Nat} (hbb : bb < 13) (hw : w < 3)
    (hf : f < sfbShort sfreq (bb + 1) - sfbShort sfreq bb) : 3 * sfbShort sfreq bb + 3 * f + w < 576 := by
  have := sfbShort_le sfreq (show bb + 1 ≤ 13 from hbb)
  omega

/-- The position of a line of window `w` in short band `bb`, with its flat index (R247, R344). -/
theorem shortPosition_pure (f : Scf) (w bb : Nat) :
    shortPosition false f w bb = { p := f.shortAt w (min bb 11), idx := 3 * min bb 11 + w } := rfl

@[inherit_doc shortPosition_pure]
theorem shortPosition_mixed (f : Scf) (w bb : Nat) :
    shortPosition true f w bb = { p := f.shortAt w (min bb 11), idx := 6 + 3 * (min bb 11 - 3) + w } := rfl

/-- Settles O41: window `w` is 0 from band `bb` on where its bound of R344 is at most `bb`. -/
theorem stereoIntensityShort : Obligations.StereoIntensityShort := by
  intro gr s hr hmode hext hshort hmixed htype
  refine stereoRuns hr fun _ bb hbb w hw f hf => ?_
  have hg : (s.rightChannel gr).g1.mixed = false := hmixed
  have hpos := shortIntensity_eq (r := s.rightChannel gr) 0 hw hf
  rw [← intensityPosition_short hshort hg, hg, shortPosition_pure] at hpos
  refine stereoLine (nch_of_joint hmode) (isOn_of_joint hmode hext) (shortLine_lt hbb hw hf) hpos
    (shortBound_le (Nat.zero_le bb)) fun hv => ?_
  rw [nrOfSfbBlock_sum, htype hv]
  show 3 * min bb 11 + w < 36
  omega

/-- The long bands of a mixed block end at line 36 (R345), but for the sampling rate at which R233 rejects it. -/
theorem sfbLong_mixedLongBands {h : Word} (hlegal : LegalHeader h) (h8 : (parseHeader h).sfreq ≠ 8) :
    sfbLong (parseHeader h).sfreq (mixedLongBands (parseHeader h).version) = 36 := by
  have htable : ∀ id sr : BitVec 2, id ≠ 1 → sr ≠ 3 → sfreqOf (versionOf id) sr ≠ 8 →
      sfbLong (sfreqOf (versionOf id) sr) (mixedLongBands (versionOf id)) = 36 := by decide
  obtain ⟨hrate, -, hid, -⟩ := hlegal
  exact htable _ _ hid hrate h8

theorem mixedLongBands_le (v : Version) : mixedLongBands v ≤ 8 := by
  cases v <;> decide

/-- The short bands of a mixed block begin at line 36 or above (R345). -/
theorem mixedLine_ge {sfreq : Fin 9} {bb : Nat} (hfirst : 3 ≤ bb) (w f : Nat) :
    36 ≤ 3 * sfbShort sfreq bb + 3 * f + w := by
  have hthree : ∀ sfreq : Fin 9, 12 ≤ sfbShort sfreq 3 := by decide
  have := hthree sfreq
  have := sfbShort_monotone sfreq hfirst
  omega

/-- Settles O42: the short part is that of a short block from band 3 on; a line of the long part is an intensity line
only where the short part is 0. -/
theorem stereoIntensityMixed : Obligations.StereoIntensityMixed := by
  intro gr s hr hinv hmode hext hmixed h8 htype
  have hg : (s.rightChannel gr).g1.mixed = true := hmixed
  have hsum (hv : s.head.fields.version ≠ .mpeg1) :
      (nrOfSfbBlock s.chan.c1.lsf.blockNum s.chan.c1.lsf.blockTypeNum).sum = 33 := by
    rw [nrOfSfbBlock_sum, htype hv]
    rfl
  refine stereoRuns hr fun hclean => ⟨fun bb hbb hfirst w hw f hf => ?_, fun j hj bb h1 h2 => ?_⟩
  · have hpos := shortIntensity_eq (r := s.rightChannel gr) 3 hw hf
    rw [← intensityPosition_mixed_short hg (mixedLine_ge hfirst w f), hg, shortPosition_mixed] at hpos
    refine stereoLine (nch_of_joint hmode) (isOn_of_joint hmode hext) (shortLine_lt hbb hw hf) hpos
      (shortBound_le hfirst) fun hv => ?_
    rw [hsum hv]
    show 6 + 3 * (min bb 11 - 3) + w < 33
    omega
  · have hknown : s.headerKnown := ⟨hr.2.1.1, hclean⟩
    have hbands : sfbLong s.head.fields.sfreq (mixedLongBands s.head.fields.version) = 36 := by
      rw [hinv.fields hknown] at h8 ⊢
      exact sfbLong_mixedLongBands (hinv.legal hknown) h8
    have hband : longBand s.head.fields.sfreq j < mixedLongBands s.head.fields.version := by
      rwa [longBand_lt (by omega), hbands]
    have hbb : min bb 20 = bb ∧ bb < 8 := by
      have := mixedLongBands_le s.head.fields.version
      rw [longBand_eq h1 h2] at hband
      omega
    have hpos := intensityPosition_mixed_long hg hj hband
    rw [longIntensity_eq 36 h1 h2, ← ite_and, longPosition, hbb.1] at hpos
    refine stereoLine (nch_of_joint hmode) (isOn_of_joint hmode hext) (by omega) hpos
      (and_congr mixedShortNonzero_eq_false (longBound_le (by decide))) fun hv => ?_
    rw [hsum hv]
    show bb < 33
    omega

end Sys2Proof.Machine
end

section
/-! PROOF. The granule commands on silence: lines that are 0 stay 0 from DEQUANTIZE to FREQ_INVERT (R12, R310-R390), and a
granule-channel whose side info is 0 has no part 2 and no part 3 (R240-R246, R285). -/

namespace Sys2Proof

/-! ### Zero in the exact expressions (R12) -/

namespace Exact

@[simp] theorem zero_times (a : Exact) : times .zero a = .zero := if_pos rfl

@[simp] theorem times_zero (a : Exact) : times a .zero = .zero := by
  unfold times
  split
  · rfl
  · exact if_pos rfl

@[simp] theorem zero_quot (a : Exact) : quot .zero a = .zero := if_pos rfl

@[simp] theorem zero_plus (a : Exact) : plus .zero a = a := if_pos rfl

@[simp] theorem minus_zero (a : Exact) : minus a .zero = a := if_pos rfl

theorem sum_zero {f : Nat → Exact} (h : ∀ k, f k = .zero) (n : Nat) : sum f n = .zero := by
  induction n with
  | zero => rfl
  | succ n ih => rw [sum, ih, h, zero_plus]

end Exact

namespace Machine

@[simp] theorem ofNum_zero : Exact.ofNum .zero = .zero := rfl

@[simp] theorem roundNum_zero : roundNum .zero = .zero := rfl

/-! ### Lines of 0 -/

@[simp] theorem lineAt_zeros (j : Nat) : lineAt Lines.zeros j = .zero := tabulate_const_getElem? 576 _ j

/-- Lines that are all 0. -/
theorem tabulate_eq_zeros {f : Nat → Num} (h : ∀ j, f j = .zero) : tabulate 576 f = Lines.zeros := by
  rw [funext h]
  rfl

/-- No quantised line, no line (R310). -/
theorem dequantLines_zeros {sfreq : Fin 9} {g : GranuleInfo} {c : Chan} (h : c.nonzero = 0) :
    dequantLines sfreq g c = Lines.zeros :=
  tabulate_eq_zeros fun j => if_pos (h ▸ Nat.zero_le j)

/-- Each reconstruction takes a pair of zeros to a pair of zeros (R340, R341, R346). -/
theorem stereoPair_zeros {isOn msOn : Bool} {r : RightChannel} {i : LsfInfo} (hb : r.b = Lines.zeros) (j : Nat) :
    stereoPair isOn msOn r i Lines.zeros j = (.zero, .zero) := by
  rw [stereoPair, hb, lineAt_zeros]
  split
  · simp [intensityPair]
  · cases msOn
    · rfl
    · simp [msPair]

theorem average_zeros : average .zero .zero = .zero := by simp [average]

theorem aliased_zeros (g : GranuleInfo) : aliased g Lines.zeros = Lines.zeros := by
  refine Lines.ext_lineAt fun j hj => ?_
  rw [lineAt_aliased g _ hj, aliasLine]
  simp

/-- Every output of every transform of zeros is 0 (R379). -/
theorem imdct_zeros (t : BitVec 2) (i : Nat) : imdct (fun _ => .zero) t i = .zero := by
  have hshort (w i : Nat) : shortImdct (fun _ => .zero) w i = .zero := Exact.sum_zero (fun k => Exact.zero_times _) 6
  have hshorts : shortImdcts (fun _ => .zero) i = .zero := by
    refine Exact.sum_zero (fun w => ?_) 3
    rw [hshort, Exact.times_zero, ite_self]
  have hlong : longImdct t (fun _ => .zero) i = .zero := by
    rw [longImdct, Exact.sum_zero (fun k => Exact.zero_times _) 18, Exact.times_zero]
  rw [imdct, hshorts, hlong, ite_self]

theorem subbandOut_zeros (g : GranuleInfo) (sb i : Nat) : subbandOut g Lines.zeros sb i = .zero := by
  rw [subbandOut]
  simp only [lineAt_zeros, ofNum_zero]
  exact imdct_zeros _ i

theorem hybridOut_zeros (g : GranuleInfo) : hybridOut g Lines.zeros Lines.zeros = Lines.zeros :=
  tabulate_eq_zeros fun j => by rw [subbandOut_zeros, lineAt_zeros]; rfl

theorem hybridTail_zeros (g : GranuleInfo) : hybridTail g Lines.zeros = Lines.zeros :=
  tabulate_eq_zeros fun j => by rw [subbandOut_zeros]; rfl

theorem invertLines_zeros : invertLines Lines.zeros = Lines.zeros :=
  tabulate_eq_zeros fun j => by rw [lineAt_zeros]; exact ite_self _

/-! ### A silent frame -/

/-- No fault is on record, the header is `hd`, and SEL is `sel`; the read cursor is at 0, and so is the side info of every
granule-channel of the frame. -/
structure Silent (hd : Header) (sel : List (Fin 2)) (s : State) : Prop where
  clean : s.clean
  layer3 : s.layer3Frame
  head : s.head.fields = hd
  sel : s.sel = sel
  tell : s.rs.resv.totbit = 0
  info : ∀ gr ch : Fin 2, s.hasOperands gr ch → s.info gr ch = .reset

/-- The state with channel `ch` changed by `f` and the part order `o`. -/
def State.reworked (ch : Fin 2) (o : PartOrder) (f : Chan → Chan) (s : State) : State :=
  { s with order := o, chan := s.chan.set ch (f (s.chan.get ch)) }

theorem State.reworked_reworked (ch : Fin 2) (o o' : PartOrder) (f g : Chan → Chan) (s : State) :
    (s.reworked ch o f).reworked ch o' g = s.reworked ch o' fun c => g (f c) := by
  simp [State.reworked]

theorem State.reworked_stageIs {ch : Fin 2} {o : PartOrder} {f : Chan → Chan} {s : State} {x : Stage} {gr : Fin 2}
    (h : (f (s.chan.get ch)).stage = x ∧ (f (s.chan.get ch)).grp = gr) : (s.reworked ch o f).stageIs x gr ch := by
  rw [State.stageIs, State.reworked, Two.get_set_same]
  exact h

/-- What the granule commands change of a state with an empty part 2 and part 3 leaves it silent. -/
theorem Silent.congr {hd : Header} {sel : List (Fin 2)} {s t : State} (h : Silent hd sel s)
    (ht : t = { s with order := t.order, result := t.result, chan := t.chan, env := t.env }) : Silent hd sel t := by
  rw [ht]
  exact ⟨h.clean, h.layer3, h.head, h.sel, h.tell, h.info⟩

theorem Silent.reworked {hd : Header} {sel : List (Fin 2)} {s : State} (h : Silent hd sel s) (ch : Fin 2)
    (o : PartOrder) (f : Chan → Chan) : Silent hd sel (s.reworked ch o f) := h.congr rfl

/-! ### Part 2 (R240-R246) -/

/-- Reads of no bits. -/
theorem RS.readMany_zero {ws : List Nat} (h : ∀ w ∈ ws, w = 0) (r : RS) : (r.readMany ws).2 = r := by
  induction ws with
  | nil => rfl
  | cons w ws ih =>
    obtain ⟨hw, hws⟩ := List.forall_mem_cons.1 h
    rw [RS.readMany, hw, RS.read_zero]
    exact ih hws

theorem readFactors_zero {g : GranuleInfo} {longs : Nat} {width : Nat → Nat} {shared : Nat → Bool} {old : Scf}
    (h : ∀ k, width k = 0) (r : RS) : (readFactors g longs width shared old r).2 = r := by
  refine RS.readMany_zero (fun w hw => ?_) r
  obtain ⟨k, -, rfl⟩ := List.mem_map.1 hw
  exact h k

theorem mpeg1Width_reset (shared : Nat → Bool) (k : Nat) : mpeg1Width .reset shared k = 0 := by
  rw [mpeg1Width_long rfl]
  split
  · rfl
  · exact ite_self 0

theorem lsfScale_zero (intensity : Bool) :
    (∀ w ∈ (lsfScale intensity 0).slens, w ≤ 0) ∧ (lsfScale intensity 0).preflag = false := by
  cases intensity <;> decide

section
variable {hd : Header} {sel : List (Fin 2)} {gr ch : Fin 2} {s : State} (hs : Silent hd sel s)
  (ho : s.hasOperands gr ch)
include hs ho

/-- The block of granule 0, from which an LSF frame takes its scale factors (R245). -/
theorem Silent.info_first : s.info 0 ch = .reset := hs.info 0 ch ⟨by have := ho.1; simp; omega, ho.2⟩

theorem Silent.lsfSideInfo : s.lsfSideInfo ch = s.si := by
  have hpre : (s.lsfScale ch).preflag = false := by
    rw [State.lsfScale, hs.info_first ho]
    exact (lsfScale_zero _).2
  have hblock : ({ s.info 0 ch with preflag := (s.lsfScale ch).preflag } : GranuleInfo) = s.info 0 ch := by
    rw [hpre, hs.info_first ho]
    rfl
  rw [State.lsfSideInfo, hblock, State.info, Two.set_get, Two.set_get]

/-- No factor has a bit. -/
theorem readScalefactors_silent : ∃ lsf x, readScalefactors gr ch s =
    s.reworked ch { nextGc := s.order.nextGc, partOpen := true } (Chan.withFactors gr s.rs.resv.totbit lsf x) := by
  by_cases hv : s.head.fields.version = .mpeg1
  · have hagree := readScalefactors_mpeg1_agrees (gr := gr) (ch := ch) hv
    dsimp only at hagree
    rw [hs.info gr ch ho, readFactors_zero (mpeg1Width_reset _)] at hagree
    exact ⟨_, _, hagree.1 hs.clean⟩
  · have hwidth (k : Nat) : s.lsfWidth ch k = 0 := by
      refine Nat.le_zero.1 (Machine.lsfWidth_le _ ?_ k)
      rw [State.lsfScale, hs.info_first ho]
      exact (lsfScale_zero _).1
    have hagree := readScalefactors_lsf_agrees (gr := gr) (ch := ch) hv hs.clean
    dsimp only at hagree
    rw [readFactors_zero hwidth, hs.lsfSideInfo ho] at hagree
    exact ⟨_, _, hagree.1 hs.clean⟩

end

/-! ### Part 3 (R285) -/

/-- Part 3 of no bits, with no pairs. -/
theorem decodePart3_reset (sfreq : Fin 9) {r : RS} (h : r.tell = 0) :
    (decodePart3 sfreq .reset 0 r).1.nonzero = 0 ∧ (decodePart3 sfreq .reset 0 r).2 = r := by
  have hbig : bigValues (pairTable sfreq .reset) GranuleInfo.reset.bigValues.toNat 0 r = ([], r) := rfl
  have hquads : count1 (quadCodebook GranuleInfo.reset.count1TableSelect) 0 145 ([] : List Int).length r = ([], r) :=
    if_neg fun hlt => Nat.not_lt_zero _ hlt.1
  rw [decodePart3_within hbig hquads (Nat.le_of_eq h), stuffing_done (Nat.zero_le _)]
  exact ⟨rfl, rfl⟩

theorem huffmanDecode_silent {hd : Header} {sel : List (Fin 2)} {gr ch : Fin 2} {s : State} (hs : Silent hd sel s)
    (ho : s.hasOperands gr ch) (hstart : (s.chan.get ch).part2Start = 0) :
    ∃ stop is, huffmanDecode gr ch s =
      s.reworked ch { nextGc := s.order.nextGc + 1, partOpen := false } fun c =>
        { c with stage := .huf, part23End := stop, nonzero := 0, is := is } := by
  have hstop : (s.part3Stop gr ch).toNat = 0 := by
    rw [State.part3Stop, hstart, hs.info gr ch ho]
    rfl
  obtain ⟨hnone, hrs⟩ := decodePart3_reset s.head.fields.sfreq (r := s.rs) (by rw [RS.tell, hs.tell]; rfl)
  have hpart3 : s.part3 gr ch = decodePart3 s.head.fields.sfreq .reset 0 s.rs := by
    rw [State.part3, hstop, hs.info gr ch ho]
  have hagree := huffmanDecode_agrees gr ch s
  rw [hpart3, hrs, State.withPart3, hnone] at hagree
  exact ⟨_, _, hagree.1 hs.clean⟩

/-! ### Granule-channels and granules (R420, R421) -/

/-- A stage of DECODE_FRAME whose checks pass, before another. -/
theorem thenStage_runPlain {guard : State → Option Err} {s : State} (h : guard s = none) (body : State → State)
    (b : State → State × Err) : thenStage (runPlain guard body) b s = b (body s) := by
  rw [thenStage, runPlain, runStage, h]
  exact if_pos rfl

theorem runPlain_runs {guard : State → Option Err} {s : State} (h : guard s = none) (body : State → State) :
    runPlain guard body s = (body s, .ok) := by
  rw [runPlain, runStage, h]

theorem dequantize_silent {gr ch : Fin 2} {s : State} (hc : s.clean) (hn : (s.chan.get ch).nonzero = 0) :
    dequantize gr ch s = s.reworked ch s.order fun c => { c with stage := .dq, xr := Lines.zeros } := by
  rw [(dequantize_agrees gr ch s).1 hc, dequantLines_zeros hn]
  rfl

/-- REORDER moves no line of a long block (R321). -/
theorem reorder_long {gr ch : Fin 2} {s : State} (h : (s.info gr ch).short = false) :
    reorder gr ch s = s.reworked ch s.order fun c => { c with stage := .ro } := by
  simp only [reorder, h, Bool.false_eq_true, if_false]
  rfl

theorem antialias_silent {gr ch : Fin 2} {s : State} (hc : s.clean) (hx : (s.chan.get ch).xr = Lines.zeros) :
    antialias gr ch s = s.reworked ch s.order fun c => { c with stage := .aa, xr := Lines.zeros } := by
  rw [(antialias_agrees gr ch s).1 hc, hx, aliased_zeros]
  rfl

theorem hybrid_silent {gr ch : Fin 2} {s : State} (hc : s.clean) (hx : (s.chan.get ch).xr = Lines.zeros)
    (hp : (s.chan.get ch).prev = Lines.zeros) :
    hybrid gr ch s =
      s.reworked ch s.order fun c => { c with stage := .hy, hout := Lines.zeros, prev := Lines.zeros } := by
  rw [hybrid, hx, hp, hybridOut_zeros, hybridTail_zeros, State.storeHout_clean ch _ hc,
    State.storePrev_clean ch _ (by exact hc), State.setStage, mapChan_mapChan, mapChan_mapChan]
  rfl

theorem freqInvert_silent {ch : Fin 2} {s : State} (hc : s.clean) (hh : (s.chan.get ch).hout = Lines.zeros) :
    freqInvert ch s = s.reworked ch s.order fun c => { c with stage := .fi, hout := Lines.zeros } := by
  rw [freqInvert, hh, invertLines_zeros, State.storeHout_clean ch _ hc, State.setStage, mapChan_mapChan]
  rfl

section
variable {hd : Header} {sel : List (Fin 2)} {gr ch : Fin 2} {s : State} (hs : Silent hd sel s)
  (ho : s.hasOperands gr ch)
include hs ho

theorem Silent.guardStage {x : Stage} (hx : s.stageIs x gr ch) : guardStage x gr ch s = none :=
  guardStage_none.2 ⟨⟨hs.layer3, ho⟩, hx⟩

/-- So it is after changes to its channel that leave STAGE and GRP as the check needs them. -/
theorem Silent.guardStage_reworked {x : Stage} {o : PartOrder} {f : Chan → Chan}
    (hx : (f (s.chan.get ch)).stage = x ∧ (f (s.chan.get ch)).grp = gr) :
    Machine.guardStage x gr ch (s.reworked ch o f) = none :=
  (hs.reworked ch o f).guardStage ho (State.reworked_stageIs hx)

/-- READ_SCALEFACTORS to REORDER leave a granule-channel with lines that are all 0. -/
theorem runFront_silent (hb : s.beforeScalefactors gr ch) :
    ∃ f : Chan → Chan,
      runFront gr ch s = (s.reworked ch { nextGc := s.order.nextGc + 1, partOpen := false } f, .ok) ∧
      ∀ c, (f c).stage = .ro ∧ (f c).grp = gr ∧ (f c).xr = Lines.zeros ∧ (f c).prev = c.prev := by
  have hsf : guardScalefactors gr ch s = none := by
    rw [guardScalefactors, thenCheck_none, guardGranule_none, require_none]
    exact ⟨⟨hs.layer3, ho⟩, beforeScalefactors_iff.2 hb⟩
  have hget {o : PartOrder} {f : Chan → Chan} : (s.reworked ch o f).chan.get ch = f (s.chan.get ch) :=
    Two.get_set_same _ _ _
  obtain ⟨lsf, x, h1⟩ := readScalefactors_silent hs ho
  obtain ⟨stop, is, h2⟩ := huffmanDecode_silent (gr := gr) (ch := ch)
    (hs.reworked ch { nextGc := s.order.nextGc, partOpen := true } (Chan.withFactors gr s.rs.resv.totbit lsf x)) ho
    (by rw [hget]; exact hs.tell)
  rw [runFront, thenStage_runPlain hsf, h1, thenStage_runPlain, h2, State.reworked_reworked, thenStage_runPlain,
    dequantize_silent, State.reworked_reworked, runPlain_runs, reorder_long, State.reworked_reworked]
  · exact ⟨_, rfl, fun c => ⟨rfl, rfl, rfl, rfl⟩⟩
  · exact (hs.info gr ch ho).symm ▸ rfl
  · exact hs.guardStage_reworked ho ⟨rfl, rfl⟩
  · exact hs.clean
  · rw [hget]
  · exact hs.guardStage_reworked ho ⟨rfl, rfl⟩
  · exact hs.guardStage_reworked ho ⟨rfl, rfl⟩

/-- ANTIALIAS to FREQ_INVERT leave a granule-channel whose lines and tails are 0 with an output that is 0. -/
theorem runBack_silent (hst : s.stageIs .st gr ch) (hx : (s.chan.get ch).xr = Lines.zeros)
    (hp : (s.chan.get ch).prev = Lines.zeros) :
    ∃ f : Chan → Chan, runBack gr ch s = (s.reworked ch s.order f, .ok) ∧
      ∀ c, (f c).stage = .fi ∧ (f c).grp = c.grp ∧ (f c).hout = Lines.zeros ∧ (f c).prev = Lines.zeros := by
  have hget {o : PartOrder} {f : Chan → Chan} : (s.reworked ch o f).chan.get ch = f (s.chan.get ch) :=
    Two.get_set_same _ _ _
  obtain ⟨-, hgrp⟩ := id hst
  rw [runBack, thenStage_runPlain (hs.guardStage ho hst), antialias_silent hs.clean hx, thenStage_runPlain,
    hybrid_silent, State.reworked_reworked, thenStage_runPlain, freqInvert_silent, State.reworked_reworked,
    runPlain_runs]
  · exact ⟨_, rfl, fun c => ⟨rfl, rfl, rfl, rfl⟩⟩
  · exact hs.guardStage_reworked ho ⟨rfl, hgrp⟩
  · exact hs.clean
  · rw [hget]
  · exact hs.guardStage_reworked ho ⟨rfl, hgrp⟩
  · exact hs.clean
  · rw [hget]
  · rw [hget]; exact hp
  · exact hs.guardStage_reworked ho ⟨rfl, hgrp⟩

end

/-- STEREO of zeros, with or without the downmix of R350, leaves zeros: it changes the stages only. -/
theorem stereo_silent {gr : Fin 2} {s : State} (hc : s.clean)
    (hx : ∀ ch : Fin 2, ch.val < s.nch → (s.chan.get ch).xr = Lines.zeros) : stereo gr s = s.selectStages := by
  have h0 : s.chan.c0.xr = Lines.zeros := hx 0 (by rcases nch_cases s with h | h <;> rw [h] <;> decide)
  have h1 (hn : s.nch = 2) : s.chan.c1.xr = Lines.zeros := hx 1 (by rw [hn]; decide)
  have hpair (hn : s.nch = 2) (j : Nat) :
      stereoPair s.isOn s.msOn (s.rightChannel gr) s.chan.c1.lsf s.chan.c0.xr j = (.zero, .zero) := by
    rw [h0]
    exact stereoPair_zeros (h1 hn) j
  have hleft : s.stereoLeft gr = s.chan.c0.xr := by
    unfold State.stereoLeft
    split
    · next hn => rw [h0]; exact tabulate_eq_zeros fun j => by rw [← h0, hpair hn]
    · rfl
  have hright : s.stereoRight gr = s.chan.c1.xr := by
    unfold State.stereoRight
    split
    · next hn => rw [h1 hn]; exact tabulate_eq_zeros fun j => by rw [hpair hn]
    · rfl
  have hselect : s.selectedLeft s.chan.c0.xr s.chan.c1.xr = s.chan.c0.xr := by
    unfold State.selectedLeft
    split
    · next hn =>
      rw [h0]
      refine tabulate_eq_zeros fun j => ?_
      rw [h1 hn.1, lineAt_zeros, average_zeros]
    · rfl
  have hagree := stereo_agrees gr s
  rw [hleft, hright, hselect] at hagree
  exact hagree.1 (by rw [selectStages_eq]; exact hc)

end Machine

end Sys2Proof
end

section
/-! PROOF. The granule loop of DECODE_FRAME on a silent frame (R420): job by job, as triples of what holds before, what is
sent, and what holds after. -/

namespace Sys2Proof.Machine

/-! ### Jobs in a row -/

/-- `s` with `words` sent and the items that the granule loop writes as in `t`. -/
def State.played (words : List OutWord) (s t : State) : State :=
  { s with
    order := t.order
    result := t.result
    chan := t.chan
    env := { s.env with sink := s.env.sink - words.length, out := s.env.out ++ words } }

/-- From a state that meets `P` and whose sink has room, the jobs send `words` and lead to a state that meets `Q`. -/
def Plays (jobs : List Job) (words : List OutWord) (P Q : State → Prop) : Prop :=
  ∀ s, P s → words.length ≤ s.env.sink →
    ∃ t, Q t ∧ t = s.played words t ∧ ∀ rest n, runJobs (jobs ++ rest) n s = runJobs rest (n + words.length) t

section
variable {P Q R : State → Prop} {jobs jobs' : List Job} {words words' : List OutWord}

theorem State.played_nil (s : State) : s = s.played [] s := by simp [State.played]

theorem Plays.none (h : ∀ s, P s → Q s) : Plays [] [] P Q := fun s hp _ => ⟨s, h s hp, s.played_nil, fun _ _ => rfl⟩

theorem Plays.trans (h : Plays jobs words P Q) (h' : Plays jobs' words' Q R) :
    Plays (jobs ++ jobs') (words ++ words') P R := fun s hp hroom => by
  rw [List.length_append] at hroom
  obtain ⟨t, hq, ht, hrun⟩ := h s hp (by omega)
  have hsink : t.env.sink = s.env.sink - words.length := by rw [ht]; rfl
  obtain ⟨u, hr, hu, hrun'⟩ := h' t hq (by omega)
  refine ⟨u, hr, ?_, fun rest n => ?_⟩
  · rw [ht] at hu
    rw [hu]
    simp only [State.played, List.length_append, List.append_assoc, Nat.sub_sub]
  · rw [List.append_assoc, hrun, hrun', List.length_append, Nat.add_assoc]

end

/-! ### The states between the jobs -/

/-- `k` granule-channels of granule `gr` have lines of 0, and the next is due (R421). -/
structure AtFront (hd : Header) (sel : List (Fin 2)) (gr : Fin 2) (k : Nat) (s : State) : Prop where
  silent : Silent hd sel s
  order : s.order = { nextGc := BitVec.ofNat 3 (gr.val * hd.nch + k), partOpen := false }
  tails : ∀ ch, (s.chan.get ch).prev = Lines.zeros
  done : ∀ ch : Fin 2, ch.val < k → s.stageIs .ro gr ch ∧ (s.chan.get ch).xr = Lines.zeros
  left : ∀ ch : Fin 2, k ≤ ch.val → ch.val < hd.nch →
    (gr = 0 → (s.chan.get ch).stage = .md) ∧ (gr = 1 → s.stageIs .em 0 ch)

/-- The channels `l` of granule `gr` have lines of 0 still to be sent. -/
structure AtBack (hd : Header) (sel : List (Fin 2)) (gr : Fin 2) (l : List (Fin 2)) (s : State) : Prop where
  silent : Silent hd sel s
  order : s.order = { nextGc := BitVec.ofNat 3 (gr.val * hd.nch + hd.nch), partOpen := false }
  tails : ∀ ch, (s.chan.get ch).prev = Lines.zeros
  left : ∀ ch ∈ l, s.stageIs .st gr ch ∧ (s.chan.get ch).xr = Lines.zeros
  done : ∀ ch : Fin 2, ch.val < hd.nch → ch ∉ l → s.stageIs .em gr ch

/-- The 576 words of a silent granule-channel (R392). -/
def silentWords (ch : Fin 2) : List OutWord := (emitWords ch Lines.zeros).map .sample

theorem silentWords_length (ch : Fin 2) : (silentWords ch).length = 576 := by
  rw [silentWords, List.length_map, emitWords_length]

theorem State.reworked_get (ch c : Fin 2) (o : PartOrder) (f : Chan → Chan) (s : State) :
    (s.reworked ch o f).chan.get c = if c = ch then f (s.chan.get ch) else s.chan.get c :=
  Two.get_set _ _ _ _

theorem Header.nch_eq_one_or_two (hd : Header) : hd.nch = 1 ∨ hd.nch = 2 := ite_eq_or_eq _ _ _

theorem Header.ngr_eq_one_or_two (hd : Header) : hd.ngr = 1 ∨ hd.ngr = 2 := by
  unfold Header.ngr
  split <;> simp

theorem Header.nch_le (hd : Header) : hd.nch ≤ 2 := by
  rcases hd.nch_eq_one_or_two with h | h <;> omega

section
variable {hd : Header} {sel : List (Fin 2)} {gr ch : Fin 2}

theorem Silent.hasOperands {s : State} (hs : Silent hd sel s) (hgr : gr.val < hd.ngr) (hch : ch.val < hd.nch) :
    s.hasOperands gr ch := by
  rw [State.hasOperands, State.ngr, State.nch, hs.head]
  exact ⟨hgr, hch⟩

/-- READ_SCALEFACTORS to REORDER of the granule-channel that is due. -/
theorem front_plays (hgr : gr.val < hd.ngr) (hch : ch.val < hd.nch) :
    Plays [.front gr ch] [] (AtFront hd sel gr ch.val) (AtFront hd sel gr (ch.val + 1)) := fun s h _ => by
  have ho := h.silent.hasOperands hgr hch
  have hnext : s.order.nextGc.toNat = gr.val * s.nch + ch.val := by
    have hle : gr.val * hd.nch ≤ 1 * 2 := Nat.mul_le_mul (Nat.le_of_lt_succ gr.isLt) hd.nch_le
    rw [h.order, State.nch, h.silent.head, BitVec.toNat_ofNat]
    exact Nat.mod_eq_of_lt (by omega)
  have hb : s.beforeScalefactors gr ch := by
    refine ⟨(h.left ch le_rfl hch).1, fun h1 => ⟨?_, (h.left ch le_rfl hch).2 h1⟩, by rw [h.order], hnext⟩
    have hngr := ho.1
    rw [h1] at hngr
    rcases ngr_cases s with h2 | h2
    · rw [h2] at hngr; exact absurd hngr (by decide)
    · exact h2
  obtain ⟨f, hf, hchan⟩ := runFront_silent h.silent ho hb
  refine ⟨s.reworked ch { nextGc := s.order.nextGc + 1, partOpen := false } f, ?_, ?_, fun rest n => ?_⟩
  · refine ⟨h.silent.reworked ch _ f, ?_, fun c => ?_, fun c hc => ?_, fun c hc hn => ?_⟩
    · have hsucc : BitVec.ofNat 3 (gr.val * hd.nch + (ch.val + 1)) = BitVec.ofNat 3 (gr.val * hd.nch + ch.val) + 1 := by
        rw [← Nat.add_assoc, BitVec.ofNat_add]
        rfl
      rw [hsucc, State.reworked, h.order]
    · rw [State.reworked_get]
      split
      · rw [(hchan _).2.2.2]; exact h.tails ch
      · exact h.tails c
    · rw [State.stageIs, State.reworked_get]
      split
      · exact ⟨⟨(hchan _).1, (hchan _).2.1⟩, (hchan _).2.2.1⟩
      · next hne => exact h.done c (by omega)
    · have hne : c ≠ ch := by omega
      rw [State.stageIs, State.reworked_get, if_neg hne]
      exact h.left c (by omega) hn
  · simp [State.played, State.reworked]
  · rw [List.singleton_append, runJobs_front, hf]
    rfl

/-- STAGE after the channel selection (R350). -/
theorem selectStages_get (s : State) (c : Fin 2) :
    s.selectStages.chan.get c = { s.chan.get c with
      stage := if c.val < s.nch then (if c ∈ s.sel then .st else .em) else (s.chan.get c).stage } := by
  rw [selectStages_eq]
  match c with
  | 0 => rcases nch_cases s with h | h <;> simp [h]
  | 1 => rcases nch_cases s with h | h <;> simp [h]

/-- STEREO of the granule. -/
theorem stereo_plays (hgr : gr.val < hd.ngr) (hsel : ∀ ch ∈ sel, ch.val < hd.nch) :
    Plays [.stereo gr] [] (AtFront hd sel gr hd.nch) (AtBack hd sel gr sel) := fun s h _ => by
  have hn : s.nch = hd.nch := by rw [State.nch, h.silent.head]
  have hguard : guardStereo gr s = none := by
    rw [guardStereo, thenCheck_none, thenCheck_none, guardLayer3_none, require_none, require_none, State.ngr,
      h.silent.head]
    exact ⟨h.silent.layer3, decide_eq_true hgr, beforeStereo_iff.2 fun ch hch => (h.done ch (hn ▸ hch)).1⟩
  have hrun := runPlain_runs hguard (stereo gr)
  rw [stereo_silent h.silent.clean fun ch hch => (h.done ch (hn ▸ hch)).2] at hrun
  have hframe : s.selectStages = { s with chan := s.selectStages.chan } := by rw [selectStages_eq]
  have hget (c : Fin 2) (hc : c.val < hd.nch) :
      s.selectStages.chan.get c = { s.chan.get c with stage := if c ∈ sel then .st else .em } := by
    rw [selectStages_get, if_pos (hn ▸ hc), h.silent.sel]
  refine ⟨s.selectStages,
    ⟨h.silent.congr (by rw [hframe]), ?_, fun c => ?_, fun c hc => ?_, fun c hc hnot => ?_⟩, ?_, fun rest n => ?_⟩
  · rw [hframe]
    exact h.order
  · rw [selectStages_get]
    exact h.tails c
  · obtain ⟨⟨-, hgrp⟩, hx⟩ := h.done c (hsel c hc)
    rw [State.stageIs, hget c (hsel c hc), if_pos hc]
    exact ⟨⟨rfl, hgrp⟩, hx⟩
  · obtain ⟨⟨-, hgrp⟩, -⟩ := h.done c hc
    rw [State.stageIs, hget c hc, if_neg hnot]
    exact ⟨rfl, hgrp⟩
  · rw [hframe]
    simp [State.played]
  · rw [List.singleton_append, runJobs_stereo, hrun]
    rfl

/-- After EMIT of an output of channel `ch` that is 0. -/
def State.emitted (ch : Fin 2) (s : State) : State :=
  { s.reworked ch s.order fun c => { c with stage := .em } with
    result := 576
    env := { s.env with sink := s.env.sink - 576, out := s.env.out ++ silentWords ch } }

theorem emitEnd_sent {ws : List Sample} (hw : ws.length = 576) {s : State} (hc : s.clean) :
    emitEnd ch (s.sent ws) = { s.reworked ch s.order fun c => { c with stage := .em } with
      result := 576
      env := { s.env with sink := s.env.sink - 576, out := s.env.out ++ ws.map .sample } } := by
  rw [← hw]
  exact State.answer_clean 576 (s := (s.sent ws).setStage ch .em) hc

theorem emitThen_silent {s : State} (hc : s.clean) (hh : (s.chan.get ch).hout = Lines.zeros) (hroom : 576 ≤ s.env.sink)
    (jobs : List Job) (n : Nat) : emitThen ch jobs n s = runJobs jobs (n + 576) (s.emitted ch) := by
  rw [emitThen, hh, sendFrom_done (by rw [emitWords_length]; exact hroom), emitEnd_sent (emitWords_length _ _) hc]
  rfl

/-- ANTIALIAS to EMIT of a selected channel. -/
theorem back_plays {l : List (Fin 2)} (hgr : gr.val < hd.ngr) (hch : ch.val < hd.nch) (hl : ch ∉ l) :
    Plays [.back gr ch] (silentWords ch) (AtBack hd sel gr (ch :: l)) (AtBack hd sel gr l) := fun s h hroom => by
  rw [silentWords_length] at hroom
  obtain ⟨hst, hx⟩ := h.left ch List.mem_cons_self
  obtain ⟨f, hf, hchan⟩ := runBack_silent h.silent (h.silent.hasOperands hgr hch) hst hx (h.tails ch)
  obtain ⟨-, hgrp, hhout, hprev⟩ := hchan (s.chan.get ch)
  have hsame : (s.reworked ch s.order f).chan.get ch = f (s.chan.get ch) := by rw [State.reworked_get, if_pos rfl]
  have hget (c : Fin 2) : ((s.reworked ch s.order f).emitted ch).chan.get c =
      if c = ch then { f (s.chan.get ch) with stage := .em } else s.chan.get c := by
    rw [State.emitted, State.reworked_get, hsame, State.reworked_get]
    split <;> rfl
  have hu := h.silent.reworked ch s.order f
  refine ⟨(s.reworked ch s.order f).emitted ch,
    ⟨hu.congr rfl, h.order, fun c => ?_, fun c hc => ?_, fun c hc hnot => ?_⟩, ?_, fun rest n => ?_⟩
  · rw [hget]
    split
    · exact hprev
    · exact h.tails c
  · rw [State.stageIs, hget, if_neg (ne_of_mem_of_not_mem hc hl)]
    exact h.left c (List.mem_cons_of_mem _ hc)
  · rw [State.stageIs, hget]
    split
    · exact ⟨rfl, hgrp.trans hst.2⟩
    · next hne => exact h.done c hc (List.not_mem_cons_of_ne_of_not_mem hne hnot)
  · rw [State.played, silentWords_length, State.emitted, State.reworked_reworked]
    rfl
  · rw [List.singleton_append, runJobs_back, hf, silentWords_length,
      ← emitThen_silent hu.clean (by rw [hsame, hhout]) hroom, stageThen, if_pos rfl]

/-- The front jobs of a granule. -/
theorem fronts_plays (hgr : gr.val < hd.ngr) {chs : List (Fin 2)} (hchs : chs = if hd.nch = 1 then [0] else [0, 1]) :
    Plays (chs.map (.front gr)) [] (AtFront hd sel gr 0) (AtFront hd sel gr hd.nch) := by
  rcases hd.nch_eq_one_or_two with hn | hn
  · rw [hchs, if_pos hn]
    have h0 := front_plays (sel := sel) (ch := 0) hgr (by rw [hn]; decide)
    rw [hn]
    exact h0
  · rw [hchs, if_neg (by rw [hn]; decide)]
    have h0 := front_plays (sel := sel) (ch := 0) hgr (by rw [hn]; decide)
    have h1 := front_plays (sel := sel) (ch := 1) hgr (by rw [hn]; decide)
    rw [hn]
    exact h0.trans h1

/-- The back jobs of a granule. -/
theorem backs_plays (hgr : gr.val < hd.ngr) {l : List (Fin 2)} (hnodup : l.Nodup) (hl : ∀ ch ∈ l, ch.val < hd.nch) :
    Plays (l.map (.back gr)) (l.flatMap silentWords) (AtBack hd sel gr l) (AtBack hd sel gr []) := by
  induction l with
  | nil => exact .none fun _ h => h
  | cons ch l ih =>
    obtain ⟨hnot, hnodup⟩ := List.nodup_cons.1 hnodup
    obtain ⟨hch, hl⟩ := List.forall_mem_cons.1 hl
    exact (back_plays hgr hch hnot).trans (ih hnodup hl)

/-- The jobs of a granule. -/
theorem granule_plays (hgr : gr.val < hd.ngr) {chs : List (Fin 2)} (hchs : chs = if hd.nch = 1 then [0] else [0, 1])
    (hnodup : sel.Nodup) (hsel : ∀ ch ∈ sel, ch.val < hd.nch) :
    Plays (chs.map (.front gr) ++ .stereo gr :: sel.map (.back gr)) (sel.flatMap silentWords)
      (AtFront hd sel gr 0) (AtBack hd sel gr []) :=
  (fronts_plays hgr hchs).trans ((stereo_plays hgr hsel).trans (backs_plays hgr hnodup hsel))

/-- After granule 0 granule 1 is due. -/
theorem AtBack.next {s : State} (h : AtBack hd sel 0 [] s) : AtFront hd sel 1 0 s :=
  ⟨h.silent, by rw [h.order]; simp, h.tails, fun _ hc => absurd hc (Nat.not_lt_zero _),
    fun ch _ hn => ⟨nofun, fun _ => h.done ch hn List.not_mem_nil⟩⟩

/-- The jobs of a frame. -/
theorem frame_plays {grs chs : List (Fin 2)} (hgrs : grs = if hd.ngr = 1 then [0] else [0, 1])
    (hchs : chs = if hd.nch = 1 then [0] else [0, 1]) (hnodup : sel.Nodup) (hsel : ∀ ch ∈ sel, ch.val < hd.nch) :
    Plays (frameJobs grs chs sel) ((List.range hd.ngr).flatMap fun _ => sel.flatMap silentWords)
      (AtFront hd sel 0 0) (Silent hd sel) := by
  have hend {gr : Fin 2} : Plays [] [] (AtBack hd sel gr []) (Silent hd sel) := .none fun _ h => h.silent
  have hfirst : Plays [] [] (AtBack hd sel 0 []) (AtFront hd sel 1 0) := .none fun _ h => h.next
  have h0 (h : 0 < hd.ngr) := granule_plays (gr := 0) h hchs hnodup hsel
  have h1 (h : 1 < hd.ngr) := granule_plays (gr := 1) h hchs hnodup hsel
  rcases hd.ngr_eq_one_or_two with hn | hn
  · rw [hgrs, if_pos hn, hn]
    exact (h0 (by omega)).trans hend
  · rw [hgrs, if_neg (by omega), hn]
    exact (h0 (by omega)).trans ((hfirst.trans (h1 (by omega))).trans hend)

end

/-! ### The channels of the output (R350) -/

theorem State.sel_nodup (s : State) : s.sel.Nodup := by
  unfold State.sel
  split
  · simp
  · split <;> simp

theorem State.sel_lt_nch (s : State) : ∀ ch ∈ s.sel, ch.val < s.nch := by
  unfold State.sel
  split
  · next hn => rw [hn]; decide
  · next hn =>
    rw [(nch_cases s).resolve_left hn]
    exact fun ch _ => ch.isLt

theorem State.sel_length (s : State) : 0 < s.sel.length ∧ s.sel.length ≤ 2 := by
  unfold State.sel
  split
  · decide
  · split <;> decide

/-- The words of a silent frame. -/
theorem frameWords_length (n : Nat) (l : List (Fin 2)) :
    ((List.range n).flatMap fun _ => l.flatMap silentWords).length = 576 * n * l.length := by
  simp [List.length_flatMap, silentWords_length]
  ring

/-- The granule loop of a silent frame. -/
theorem frameGranules_silent {s : State} (h : AtFront s.head.fields s.sel 0 0 s) (hroom : 2304 ≤ s.env.sink) :
    ∃ t order chan, frameGranules s = .ended t .ok ∧ t = { s with
      order := order
      result := BitVec.ofNat 32 (576 * s.ngr * s.sel.length)
      chan := chan
      env := { s.env with
        sink := s.env.sink - 576 * s.ngr * s.sel.length
        out := s.env.out ++ ((List.range s.ngr).flatMap fun _ => s.sel.flatMap silentWords) ++ [.frameEnd] } } := by
  obtain ⟨hpos, htwo⟩ := s.sel_length
  have hlen := frameWords_length s.ngr s.sel
  have hwords : 0 < 576 * s.ngr * s.sel.length ∧ 576 * s.ngr * s.sel.length ≤ 2304 := by
    rcases ngr_cases s with hn | hn <;> rw [hn] <;> omega
  obtain ⟨t, ht, hst, hrun⟩ := frame_plays (grs := s.granules) (chs := s.channels) rfl rfl s.sel_nodup s.sel_lt_nch
    s h (by rw [← State.ngr, hlen]; omega)
  refine ⟨_, t.order, t.chan, ?_, rfl⟩
  rw [← State.ngr] at hrun hst
  have hend := hrun [] 0
  rw [List.append_nil, hlen, Nat.zero_add, runJobs, frameEnd, if_pos hwords.1,
    State.answer_clean _ (by exact ht.clean)] at hend
  rw [frameGranules, hend, hst]
  simp [State.played, State.strobe, hlen]

end Sys2Proof.Machine
end

section
/-! PROOF. READ_SIDE_INFO and LOAD_MAIN_DATA on a frame whose side-info bytes are 0 (R208-R212, R231-R233), and O48. -/

namespace Sys2Proof.Machine

/-! ### A side info whose bits are 0 -/

theorem gather_false {f : Nat → Bool} {n : Nat} (h : ∀ i < n, f i = false) : gather f n = 0 := by
  induction n with
  | zero => rfl
  | succ n ih => rw [gather, ih fun i hi => h i (by omega), h n (by omega)]; rfl

/-- A field inside a run of bits that are 0. -/
theorem FrameBuf.field_zero {fb : FrameBuf} {a n : Nat} (h : ∀ i < n, fb.cells.bit (a + i) = false) {b w : Nat}
    (hlo : a ≤ b) (hhi : b + w ≤ a + n) : fb.field b w = 0 := gather_false fun i hi => by
  rw [show b + i = a + (b + i - a) by omega]
  exact h _ (by omega)

/-- A block whose bits are 0 (R121). -/
theorem FrameBuf.block_zero {fb : FrameBuf} {mpeg1 : Bool} {a : Nat}
    (h : ∀ i < blockWidth mpeg1, fb.cells.bit (a + i) = false) : fb.block mpeg1 a = .reset := by
  have hfield {b w : Nat} (hlo : a ≤ b) (hhi : b + w ≤ a + blockWidth mpeg1) : fb.field b w = 0 :=
    FrameBuf.field_zero h hlo hhi
  rw [FrameBuf.block_eq]
  unfold FrameBuf.plainFields blockWidth at *
  cases mpeg1 <;> simp (disch := grind) [hfield, GranuleInfo.reset]

/-- The bits of the side info are 0. -/
def State.zeroSideInfo (s : State) : Prop :=
  ∀ i < 8 * sideinfoBytes s.head.fields, s.fb.cells.bit (s.sideInfoStart + i) = false

theorem sideInfoBlock_zero {s : State} (hz : s.zeroSideInfo) {gr ch : Fin 2} (ho : s.hasOperands gr ch) :
    s.sideInfoBlock gr ch = .reset := by
  obtain ⟨hgr, hch⟩ := ho
  have hsum := sideInfoWidths_sum s
  have hidx : s.nch * gr.val + ch.val + 1 ≤ s.ngr * s.nch := by
    have hrow : s.nch * (gr.val + 1) ≤ s.nch * s.ngr := Nat.mul_le_mul_left _ hgr
    rw [Nat.mul_succ] at hrow
    rw [Nat.mul_comm s.ngr]
    omega
  have hplace := Nat.mul_le_mul_left s.sideInfoWidths.2.2.2 hidx
  rw [Nat.mul_succ] at hplace
  refine FrameBuf.block_zero fun i hi => ?_
  rw [← sideInfoWidths_blockWidth] at hi
  simp only [Nat.add_assoc]
  exact hz _ (by omega)

/-- R233 finds nothing in blocks of 0. -/
theorem invalidCode_reset (sfreq : Fin 9) {gs : List GranuleInfo} (h : ∀ g ∈ gs, g = .reset) :
    invalidCode sfreq gs = none := by
  have hany {p : GranuleInfo → Bool} (hp : p .reset = false) : gs.any p = false :=
    List.any_eq_false.2 fun g hg => by rw [h g hg, hp]; exact Bool.false_ne_true
  have htable : badTable sfreq .reset = false := by revert sfreq; decide
  rw [invalidCode, hany rfl, hany rfl, hany htable, hany rfl]
  rfl

/-- READ_SIDE_INFO accepts it, but for a CRC (R172). -/
theorem readSideInfo_zero {s : State} (hc : s.clean) (hpos : s.fb.bitpos = s.sideInfoStart)
    (hroom : s.fb.bitpos + 8 * sideinfoBytes s.head.fields ≤ 8 * s.fb.len) (hz : s.zeroSideInfo)
    (hcrc : s.head.fields.prot = true ∨ s.cmdCtrl.crcStrict = false) :
    ∃ si, readSideInfo s = ((s.sideInfoTaken si).setStages .si, .ok) ∧ si.mainDataBegin = 0 ∧
      ∀ gr ch : Fin 2, s.hasOperands gr ch → (si.gc.get gr).get ch = .reset := by
  obtain ⟨si, htake, htaken⟩ := takeSideInfo_eq hc hpos hroom
  obtain ⟨-, -, hmem⟩ := granuleChannels_spec s
  have hsum := sideInfoWidths_sum s
  have hblocks : ∀ g ∈ (s.sideInfoTaken si).granuleChannels.map fun p => (s.sideInfoTaken si).info p.1 p.2,
      g = .reset := by
    rw [sideInfoTaken_blocks htaken]
    intro g hg
    obtain ⟨⟨gr, ch⟩, hp, rfl⟩ := List.mem_map.1 hg
    exact sideInfoBlock_zero hz ((hmem gr ch).1.1 hp)
  have hwrong : ((s.sideInfoTaken si).crcMismatch && (s.sideInfoTaken si).cmdCtrl.crcStrict) = false := by
    rw [sideInfoTaken_crcMismatch, State.sideInfoWrong]
    rcases hcrc with h | h
    · rw [h]; rfl
    · exact (congrArg _ h).trans (Bool.and_false _)
  have hnone : (s.sideInfoTaken si).rejection = none := by
    rw [State.rejection, invalidCode_reset _ hblocks]
    exact if_neg (by rw [hwrong]; exact Bool.false_ne_true)
  refine ⟨si, ?_, ?_, fun gr ch ho => ?_⟩
  · rcases readSideInfo_cases s with ⟨e, hrej, -⟩ | ⟨-, hbody⟩
    · rw [htake, hnone] at hrej
      cases hrej
    · rw [hbody, htake]
  · rw [htaken.mainDataBegin, FrameBuf.field_zero hz le_rfl (by omega)]
    rfl
  · rw [htaken.blocks gr ch]
    refine (if_pos ho).trans ?_
    exact sideInfoBlock_zero hz ho

/-! ### Main data from an empty reservoir -/

/-- LOAD_MAIN_DATA at the start of the reservoir discards nothing and leaves the read cursor there. -/
theorem loadMainData_first {s : State} (hc : s.clean) (htell : s.rs.resv.totbit = 0) (havail : s.rs.resv.avail = 0)
    (hstart : s.book.frameStart = 0) (hbegin : s.si.mainDataBegin = 0)
    (hfb : s.fb.bitpos + 8 * s.head.slots ≤ 8 * s.fb.len) (hslots : s.head.slots ≤ 4096) :
    loadMainData s =
      ({ s with
          fb := s.copied.fb
          rs := s.loadedRs
          book := { frameStart := BitVec.ofNat 32 s.head.slots, mainDataEnd := 0, discard := 0 }
          order := { nextGc := 0, partOpen := false }
          chan := s.enterMd.chan }, .ok) ∧
    s.loadedRs.log = s.rs.log ∧ s.loadedRs.resv.totbit = 0 := by
  have hmde : s.newMainDataEnd = 0 := by rw [newMainDataEnd_eq, htell]; rfl
  have hdiscard : s.newDiscard = 0 := by rw [State.newDiscard, hmde, hstart, hbegin]; rfl
  have hguard : s.wrapGuard = false := by rw [State.wrapGuard, hmde]; rfl
  refine ⟨?_, ?_, ?_⟩
  · rw [loadMainData_load (by rw [hdiscard]; decide), hguard, hmde, hdiscard, State.newFrameStart, hstart, zero_add]
    rfl
  · refine loadedRs_log_clean hc hfb (by omega) ?_
    rw [hdiscard, htell]
    exact Nat.zero_le _
  · rw [loadedRs_totbit, hguard, hstart, hbegin]
    rfl

/-! ### The two stages of DECODE_FRAME before its granules -/

theorem runStage_runs {guard : State → Option Err} {s : State} (h : guard s = none) (body : State → State × Err) :
    runStage guard body s = body s := by rw [runStage, h]

theorem thenStage_ok {a : State → State × Err} {s t : State} (h : a s = (t, .ok)) (b : State → State × Err) :
    thenStage a b s = b t := by
  rw [thenStage, h]
  exact if_pos rfl

/-- STAGE and GRP of the channels of the frame (R208). -/
theorem enterMd_get (s : State) (ch : Fin 2) :
    s.enterMd.chan.get ch =
      if ch.val < s.nch then { s.chan.get ch with stage := .md, grp := 0 } else s.chan.get ch := by
  rw [enterMd_chan_eq]
  match ch with
  | 0 => rcases nch_cases s with hn | hn <;> rw [hn] <;> rfl
  | 1 => rcases nch_cases s with hn | hn <;> rw [hn] <;> rfl

/-- A state as Accept leaves it (R157): no fault is on record, the frame is Layer III, and no bit of its body has been
read but those of a CRC word. -/
structure Accepted (s : State) : Prop where
  clean : s.clean
  layer3 : s.layer3Frame
  idle : s.chan.c0.stage = .idle
  pos : s.fb.bitpos = s.sideInfoStart
  slots : s.sideInfoStart + 8 * sideinfoBytes s.head.fields + 8 * s.head.slots ≤ 8 * s.fb.len

/-- READ_SIDE_INFO and LOAD_MAIN_DATA lead to the first granule-channel. -/
theorem frameStages_silent {s : State} (h : Accepted s) (hz : s.zeroSideInfo)
    (hcrc : s.head.fields.prot = true ∨ s.cmdCtrl.crcStrict = false) (hslots : s.head.slots ≤ 4096)
    (htell : s.rs.resv.totbit = 0) (havail : s.rs.resv.avail = 0) (hstart : s.book.frameStart = 0)
    (htails : ∀ ch, (s.chan.get ch).prev = Lines.zeros) :
    ∃ t, frameStages s = (t, .ok) ∧ AtFront s.head.fields s.sel 0 0 t ∧ t.rs.log = s.rs.log ∧
      t.book.frameStart = BitVec.ofNat 32 s.head.slots ∧
      t = { s with
        si := t.si, fb := t.fb, crc := t.crc, status := t.status, rs := t.rs, book := t.book, order := t.order
        chan := t.chan } := by
  obtain ⟨hc, hlayer, hidle, hpos, hroom⟩ := h
  obtain ⟨si, hread, hbegin, hblocks⟩ := readSideInfo_zero hc hpos (by omega) hz hcrc
  obtain ⟨hload, hlog, htell'⟩ := loadMainData_first (s := (s.sideInfoTaken si).setStages .si) hc htell havail hstart
    hbegin (by rw [setStages_frame, State.sideInfoTaken]; dsimp only; omega) hslots
  have hrun : frameStages s = loadMainData ((s.sideInfoTaken si).setStages .si) := by
    rw [frameStages, thenStage_ok ((runStage_runs (guardSideInfo_none.2 ⟨hlayer, hidle, hpos⟩) _).trans hread),
      runStage_runs ((guardMainData_none (s := (s.sideInfoTaken si).setStages .si)).2 ⟨hlayer, rfl⟩)]
  refine ⟨_, hrun.trans hload, ⟨⟨(congrArg FaultLog.tainted hlog).trans hc, hlayer, rfl, rfl, htell', hblocks⟩, ?_,
    fun ch => ?_, fun _ hlt => absurd hlt (Nat.not_lt_zero _), fun ch _ hn => ⟨fun _ => ?_, nofun⟩⟩, hlog, rfl, rfl⟩
  · simp
  · show ((State.enterMd _).chan.get ch).prev = _
    rw [enterMd_get]
    split <;> exact (congrArg Chan.prev (setStages_chan .si ch _)).trans (htails ch)
  · show ((State.enterMd _).chan.get ch).stage = _
    rw [enterMd_get]
    exact congrArg Chan.stage (if_pos hn)

/-- The words of a silent granule-channel, as R392 orders them. -/
theorem silentWords_eq (ch : Fin 2) : silentWords ch = (List.range 576).map fun i => .sample {
    ch := ch, ss := BitVec.ofNat 5 (i / 32), sb := BitVec.ofNat 5 (i % 32), value := .zero } := by
  simp [silentWords, emitWords]

/-! ### The frame and its room -/

/-- A Layer III frame has room for a CRC word and the side info (R160, R161). -/
theorem sideinfoBytes_le_frameSize {h : Word} (hl : LegalHeader h) (h3 : (parseHeader h).layer = 3) :
    sideinfoBytes (parseHeader h) + 2 ≤ frameSize (parseHeader h) := by
  obtain ⟨hsr, hlayer, hid, h0, h15, -⟩ := hl
  have hne {n : Nat} {x k : BitVec n} (h : x ≠ k) : x.toNat ≠ k.toNat := BitVec.toNat_inj.not.2 h
  have hsize := frameSize_add_four (hd := parseHeader h) (id := h.extractLsb' 19 2) (l := h.extractLsb' 17 2) rfl rfl
    (hne hsr) (hne hlayer) (hne hid) (hne h0) (hne h15)
  obtain ⟨hpos, hhz⟩ := sampleRateHz_le (h.extractLsb' 19 2) (h.extractLsb' 10 2) (hne hid) (hne hsr)
  have hkbps := bitrateKbps_ge (h.extractLsb' 19 2) (h.extractLsb' 17 2) (h.extractLsb' 12 4) (hne hid) (hne hlayer)
    (hne h0) (hne h15)
  have hquot : 48 ≤ 144 * (1000 * bitrateKbps (parseHeader h).version (parseHeader h).layer (parseHeader h).brIdx) /
    sampleRateHz (parseHeader h).version (parseHeader h).srIdx := (frameSize_quotients hpos hhz hkbps).2
  have hone : (h.extractLsb' 17 2).toNat = 1 := (layerOf_table _).2.1.1 h3
  have hmpeg1 : (parseHeader h).version = .mpeg1 ↔ (h.extractLsb' 19 2).toNat = 3 := (versionOf_table _).2.2.2
  rw [if_neg (by omega)] at hsize
  unfold sideinfoBytes
  by_cases hv : (parseHeader h).version = .mpeg1
  · rw [if_pos (hmpeg1.1 hv)] at hsize
    rw [if_pos hv]
    split <;> omega
  · rw [if_neg (hmpeg1.not.1 hv)] at hsize
    rw [if_neg hv]
    split <;> omega

/-- The slots of the frame are what is left of its body (R161). -/
theorem slotCount_add {hd : Header} (h3 : hd.layer = 3) {n : Nat} (hn : sideinfoBytes hd + 2 ≤ n) :
    slotCount hd n + sideinfoBytes hd + (if hd.prot then 0 else 2) = n := by
  rw [slotCount, if_pos h3]
  split <;> omega

/-- The bits of the side info are those of its bytes. -/
theorem zeroSideInfo_of_load {s : State} {fb : FrameBuf} {body : List Byte} {off : Nat} (hwf : fb.cells.wf = true)
    (hcells : s.fb.cells = (fb.load body).cells) (hoff : s.sideInfoStart = 8 * off)
    (hroom : off + sideinfoBytes s.head.fields ≤ body.length)
    (hz : ∀ i < sideinfoBytes s.head.fields, body.getD (off + i) 0 = 0) : s.zeroSideInfo := fun i hi => by
  rw [Memory.bit, hcells, FrameBuf.load_get hwf, if_pos (by omega), show (s.sideInfoStart + i) / 8 = off + i / 8 by omega,
    hz _ (by omega)]
  exact BitVec.getMsbD_zero

/-- The bytes that come before the side info are those of the CRC word. -/
theorem sideInfoStart_eq (s : State) : s.sideInfoStart = 8 * if s.head.fields.prot then 0 else 2 := by
  rw [State.sideInfoStart]
  split <;> rfl

/-- What SYNC leaves of a Layer III frame whose side-info bytes are 0. -/
theorem accept_silent {s : State} {h : Word} {body : List Byte} (hc : s.clean) (hidle : s.chan.c0.stage = .idle)
    (hwf : s.fb.cells.wf = true) (hl : LegalHeader h) (h3 : (parseHeader h).layer = 3)
    (hbody : body.length = frameSize (parseHeader h))
    (hz : ∀ i < sideinfoBytes (parseHeader h), body.getD ((if (parseHeader h).prot then 0 else 2) + i) 0 = 0) :
    Accepted (accept h body s) ∧ (accept h body s).zeroSideInfo ∧ (accept h body s).head.slots ≤ 4096 := by
  have hroom := hbody ▸ sideinfoBytes_le_frameSize hl h3
  have hslots := slotCount_add h3 hroom
  have hmax : body.length ≤ Config.frameBufBytes := hbody ▸ hl.2.2.2.2.2
  rw [accept_clean hc h (hbody ▸ two_le_frameSize hl)]
  refine ⟨⟨hc, ⟨rfl, decide_eq_true h3⟩, hidle, rfl, ?_⟩,
    zeroSideInfo_of_load hwf rfl (sideInfoStart_eq _) ?_ hz, ?_⟩
  · rw [sideInfoStart_eq]
    dsimp only [FrameBuf.load]
    omega
  · dsimp only
    omega
  · dsimp only
    rw [Config.frameBufBytes] at hmax
    omega

/-- The frame's stages and granules, from Accept on. -/
theorem frameBody_silent {s : State} (h : Accepted s) (h3 : s.head.fields.layer = 3) (hz : s.zeroSideInfo)
    (hcrc : s.head.fields.prot = true ∨ s.cmdCtrl.crcStrict = false) (hslots : s.head.slots ≤ 4096)
    (htell : s.rs.resv.totbit = 0) (havail : s.rs.resv.avail = 0) (hstart : s.book.frameStart = 0)
    (htails : ∀ ch, (s.chan.get ch).prev = Lines.zeros) (hsink : 2304 ≤ s.env.sink) :
    ∃ t, frameBody s = .ended t .ok ∧ t.rs.log = s.rs.log ∧ t.rs.resv.totbit = 0 ∧
      t.book.frameStart = BitVec.ofNat 32 s.head.slots ∧ t.stream = s.stream ∧
      t.result = BitVec.ofNat 32 (576 * s.ngr * s.sel.length) ∧
      t.env.out = s.env.out ++ ((List.range s.ngr).flatMap fun _ => s.sel.flatMap silentWords) ++ [.frameEnd] := by
  obtain ⟨u, hstages, hfront, hlog, hfirst, hu⟩ :=
    frameStages_silent h hz hcrc hslots htell havail hstart htails
  have hhead : u.head = s.head := by rw [hu]
  have hsel : u.sel = s.sel := by rw [hu]; rfl
  have henv : u.env = s.env := by rw [hu]
  have hngr : u.ngr = s.ngr := by rw [State.ngr, hhead]; rfl
  have hstream : u.stream = s.stream := by rw [hu]; rfl
  obtain ⟨t, order, chan, hrun, ht⟩ := frameGranules_silent (by rw [hhead, hsel]; exact hfront) (by rw [henv]; exact hsink)
  refine ⟨t, ?_, ?_, ?_, ?_, ?_, ?_, ?_⟩
  · rw [frameBody_eq, if_neg (not_not.2 h3), hstages, stageThen, if_pos rfl, hrun]
  · rw [ht, ← hlog]
  · rw [ht]
    exact hfront.silent.tell
  · rw [ht, ← hfirst]
  · rw [ht, ← hstream]
    rfl
  · rw [ht, ← hngr, ← hsel]
  · rw [ht, ← hngr, ← hsel, ← henv]

/-- DECODE_FRAME of a frame that is next in the stream, from its Accept on. -/
theorem exec_decodeFrame_accepts {s : State} {h : Word} {body : List Byte} {k : InStream} (hs : s.live)
    (hf : s.hasFrame h body k) :
    exec .decodeFrame s =
      .next (complete (frameBody (accept h body ((syncStart s.start).withStream k)))) := by
  obtain ⟨phase, hrun⟩ := hf.run s.resync
  rw [exec_runs (i := .decodeFrame) nofun hs rfl, commandRun]
  beta_reduce
  rw [syncFrom_of_run (s := syncStart s.start) hrun, syncStop]
  rfl

/-- Settles O48: SYNC accepts the frame, its side info is 0, and 0 it is from part 2 to the words. -/
theorem silentFrameDecodes : Obligations.SilentFrameDecodes := by
  intro h body k s hs hc hstore h3 hcrc hz hf htell havail hstart htails hsink
  obtain ⟨-, hlegal, hbody⟩ := hf.1
  have hprev (ch : Fin 2) : (s.chan.get ch).prev = Lines.zeros :=
    Lines.ext_lineAt fun j _ => (htails ch j).trans (lineAt_zeros j).symm
  have hrun := exec_decodeFrame_accepts hs hf
  have huc : ((syncStart s.start).withStream k).clean := hc
  obtain ⟨hacc, hzero, hmax⟩ := accept_silent huc rfl hstore.fbCells.1 hlegal h3 hbody hz
  have haccept := accept_clean huc h (hbody ▸ two_le_frameSize hlegal)
  generalize accept h body ((syncStart s.start).withStream k) = v at *
  obtain ⟨t, hbodyRun, hlog, htell', hfirst, hstream, hresult, hout⟩ :=
    frameBody_silent hacc (by rw [haccept]; exact h3) hzero (by rw [haccept]; exact hcrc) hmax
      (by rw [haccept]; exact htell) (by rw [haccept]; exact havail) (by rw [haccept]; exact hstart)
      (fun ch => by rw [haccept]; exact (congrArg Chan.prev (syncStart_chan s.start ch)).trans (hprev ch))
      (by rw [haccept]; exact hsink)
  have htc : t.clean := by rw [State.clean, hlog]; exact hacc.clean
  rw [hbodyRun, complete_clean htc] at hrun
  have hfresh : t.rs.log = s.freshLog := by rw [hlog, haccept]; rfl
  have herr : (t.finish .ok).status.err = .ok := by
    rw [State.finish_status, hfresh]
    rfl
  refine ⟨_, hrun, rfl, herr, hfresh, ?_, hresult.trans ?_, hout.trans ?_, hfirst.trans ?_, htell'⟩
  · refine Eq.trans hstream ?_
    rw [haccept]
    rfl
  · rw [haccept]
    rfl
  · rw [haccept, funext silentWords_eq]
    rfl
  · rw [haccept]

end Sys2Proof.Machine
end

section
/-! PROOF. HYBRID (R378-R383) and FREQ_INVERT (R390): O44, O45. -/

namespace Sys2Proof.Machine

/-! ### The state -/

/-- A store of a channel's values leaves its value, but for what a fault leaves unspecified (R438, R478). -/
theorem storeOrFree_agrees {α : Type} {f : α → Chan → Chan}
    (hf : ∀ v w c, f v c = (f v c).withValuesOf (f w c)) (v : α) (free : Nat → α) (ch : Fin 2) (s : State) :
    (State.storeOrFree v free (fun v => State.mapChan ch (f v)) s).Agrees (s.mapChan ch (f v)) := by
  unfold State.storeOrFree
  refine ⟨fun hc => if_neg (by rw [show s.rs.log.tainted = false from hc]; decide), ?_⟩
  split
  · generalize free s.rs.log.draws = w
    refine (congrArg (fun c => { s.drawn with chan := s.chan.set ch c }) (hf w v (s.chan.get ch))).trans ?_
    match ch with
    | 0 => rfl
    | 1 => rfl
  · rfl

theorem State.storeHout_agrees (ch : Fin 2) (v : Lines Num) (s : State) :
    (s.storeHout ch v).Agrees (s.mapChan ch fun c => { c with hout := v }) :=
  storeOrFree_agrees (f := fun v c => { c with hout := v }) (fun _ _ _ => rfl) v freeLines ch s

theorem State.storePrev_agrees (ch : Fin 2) (v : Lines Num) (s : State) :
    (s.storePrev ch v).Agrees (s.mapChan ch fun c => { c with prev := v }) :=
  storeOrFree_agrees (f := fun v c => { c with prev := v }) (fun _ _ _ => rfl) v freeLines ch s

/-- The same tail in states that agree. -/
theorem State.Agrees.withPrev {t u : State} (h : t.Agrees u) (ch : Fin 2) (v : Lines Num) :
    (t.mapChan ch fun c => { c with prev := v }).Agrees (u.mapChan ch fun c => { c with prev := v }) := by
  refine ⟨fun hu => by rw [h.1 hu], ?_⟩
  rw [h.2]
  match ch with
  | 0 => rfl
  | 1 => rfl

/-- HYBRID gives HOUT, PREV and STAGE of its channel their values, and changes nothing else. -/
theorem hybrid_agrees (gr ch : Fin 2) (s : State) :
    (hybrid gr ch s).Agrees (s.mapChan ch fun c =>
      { c with
        stage := .hy
        hout := hybridOut (s.info gr ch) (s.chan.get ch).xr (s.chan.get ch).prev
        prev := hybridTail (s.info gr ch) (s.chan.get ch).xr }) := by
  rw [hybrid]
  generalize hybridOut (s.info gr ch) (s.chan.get ch).xr (s.chan.get ch).prev = out
  generalize hybridTail (s.info gr ch) (s.chan.get ch).xr = tail
  have hout := (State.storeHout_agrees ch out s).withPrev ch tail
  have h := ((State.storePrev_agrees ch tail (s.storeHout ch out)).trans hout).setStage ch .hy
  simp only [State.setStage, mapChan_mapChan] at h
  exact h

/-- FREQ_INVERT gives HOUT and STAGE of its channel their values, and changes nothing else. -/
theorem freqInvert_agrees (ch : Fin 2) (s : State) :
    (freqInvert ch s).Agrees (s.mapChan ch fun c =>
      { c with stage := .fi, hout := invertLines (s.chan.get ch).hout }) := by
  have h := (State.storeHout_agrees ch (invertLines (s.chan.get ch).hout) s).setStage ch .fi
  simp only [State.setStage, mapChan_mapChan] at h
  exact h

/-! ### FREQ_INVERT (R390) -/

/-- Subband and slot of a line (R8). -/
theorem line_subband_slot (sb : Nat) {i : Nat} (hi : i < 18) : (18 * sb + i) / 18 = sb ∧ (18 * sb + i) % 18 = i := by
  omega

/-- Settles O45: slot and subband of a line are its remainder and quotient by 18. -/
theorem freqInvertNegates : Obligations.FreqInvertNegates := by
  intro gr ch s hr
  obtain ⟨t, ht, hagree⟩ := command_granule hr (freqInvert_agrees ch s.start)
  refine ⟨invertLines (s.chan.get ch).hout, t, ht, hagree, fun _ sb hsb i hi => ?_⟩
  obtain ⟨hdiv, hmod⟩ := line_subband_slot sb hi
  rw [invertLines, lineAt_tabulate _ (by omega), hdiv, hmod]

/-! ### The windows (R378) -/

/-- IMDCT_WIN is the table of R378, row by row; the shifted index of a short slope is that of the reals from its start
on. -/
theorem imdctWin_real (val : Num → ℝ) (t : BitVec 2) (i : Nat) : (imdctWin t i).real val = windowReal t.toNat i := by
  have hlong (r : ℝ) : Real.pi * (2 * r + 1) / 72 = Real.pi / 36 * (r + 2⁻¹) := by ring
  have hshort (r : ℝ) : Real.pi * (2 * r + 1) / 24 = Real.pi / 12 * (r + 2⁻¹) := by ring
  have htypes : ∀ t : BitVec 2, t = 0 ∨ t = 1 ∨ t = 2 ∨ t = 3 := by decide
  rcases htypes t with rfl | rfl | rfl | rfl
  · simp [imdctWin, windowReal, apply_ite (Exact.real val), hlong]
  · rcases Nat.lt_or_ge i 18 with h | h
    · simp [imdctWin, windowReal, h, hlong]
    · simp [imdctWin, windowReal, apply_ite (Exact.real val), hlong, hshort, Nat.cast_sub h]
  · simp [imdctWin, windowReal, apply_ite (Exact.real val), hshort]
  · rcases Nat.lt_or_ge i 6 with h | h
    · simp [imdctWin, windowReal, h]
    · simp [imdctWin, windowReal, apply_ite (Exact.real val), hlong, hshort, Nat.cast_sub h]

/-! ### The transforms (R379) -/

section
variable {val : Num → ℝ} (hval : Valuation val) (x : Nat → Exact)
include hval

/-- A direct sum of `n` terms with the angles `π / q * (2 i + p) * (2 k + 1)`. -/
theorem cosineSum_real (n p q i : Nat) :
    (Exact.sum (fun k => Exact.times (x k) (Exact.cosine ((2 * i + p) * (2 * k + 1)) q)) n).real val =
      ∑ k ∈ Finset.range n, (x k).real val * Real.cos (Real.pi / q * (2 * (i : ℝ) + p) * (2 * k + 1)) := by
  rw [Exact.real_sum hval]
  refine Finset.sum_congr rfl fun k _ => ?_
  rw [Exact.real_times, Exact.real_cosine]
  congr 2
  push_cast
  ring

theorem longImdct_real (t : BitVec 2) (i : Nat) :
    (longImdct t x i).real val = windowReal t.toNat i *
      ∑ k ∈ Finset.range 18, (x k).real val * Real.cos (Real.pi / 72 * (2 * (i : ℝ) + 19) * (2 * k + 1)) := by
  rw [longImdct, Exact.real_times, imdctWin_real, cosineSum_real hval]
  simp only [Nat.cast_ofNat]

theorem shortImdct_real (w i : Nat) :
    (shortImdct x w i).real val =
      ∑ k ∈ Finset.range 6, (x (3 * k + w)).real val * Real.cos (Real.pi / 24 * (2 * (i : ℝ) + 7) * (2 * k + 1)) := by
  rw [shortImdct, cosineSum_real hval fun k => x (3 * k + w)]
  simp only [Nat.cast_ofNat]

theorem shortImdcts_real (m : Nat) :
    (shortImdcts x m).real val = imdctReal (fun k => (x k).real val) 2 m := by
  rw [shortImdcts, Exact.real_sum hval, imdctReal, if_pos rfl]
  refine Finset.sum_congr rfl fun w _ => ?_
  rw [apply_ite (Exact.real val), Exact.real_times, imdctWin_real, shortImdct_real hval]
  rfl

theorem imdct_real (t : BitVec 2) (i : Nat) :
    (imdct x t i).real val = imdctReal (fun k => (x k).real val) t.toNat i := by
  rw [imdct]
  split
  · next h =>
    subst h
    exact shortImdcts_real hval x i
  · next h =>
    have hlong : t.toNat ≠ 2 := fun h2 => h (BitVec.eq_of_toNat_eq h2)
    rw [longImdct_real hval, imdctReal, if_neg hlong]

end

/-! ### The lines (R380-R382) -/

theorem subbandType_toNat (g : GranuleInfo) (sb : Nat) :
    (subbandType g sb).toNat = if g.mixed = true ∧ sb < 2 then 0 else g.blockType.toNat := by
  rw [subbandType, apply_ite BitVec.toNat]
  rfl

theorem subbandOut_real {val : Num → ℝ} (hval : Valuation val) (g : GranuleInfo) (xr : Lines Num) (sb i : Nat) :
    (subbandOut g xr sb i).real val = imdctReal (fun m => val (lineAt xr (18 * sb + m)))
      (if g.mixed = true ∧ sb < 2 then 0 else g.blockType.toNat) i := by
  rw [subbandOut, imdct_real hval, subbandType_toNat]
  simp only [Exact.real_ofNum hval]

section
variable {sb i : Nat} (hsb : sb < 32) (hi : i < 18) (g : GranuleInfo) (xr : Lines Num)
include hsb hi

theorem lineAt_hybridOut (prev : Lines Num) :
    lineAt (hybridOut g xr prev) (18 * sb + i) =
      roundNum (Exact.plus (subbandOut g xr sb i) (Exact.ofNum (lineAt prev (18 * sb + i)))) := by
  obtain ⟨hdiv, hmod⟩ := line_subband_slot sb hi
  rw [hybridOut, lineAt_tabulate _ (by omega), hdiv, hmod]

theorem lineAt_hybridTail :
    lineAt (hybridTail g xr) (18 * sb + i) = roundNum (subbandOut g xr sb (18 + i)) := by
  obtain ⟨hdiv, hmod⟩ := line_subband_slot sb hi
  rw [hybridTail, lineAt_tabulate _ (by omega), hdiv, hmod]

end

/-- Settles O44: each line is rounded once from an exact value, which is the direct sum of R379 term by term. -/
theorem hybridTransforms : Obligations.HybridTransforms := by
  intro gr ch s hr
  obtain ⟨t, ht, hagree⟩ := command_granule hr (hybrid_agrees gr ch s.start)
  refine ⟨_, _, t, ht, hagree, fun _ sb hsb i hi => ⟨⟨_, lineAt_hybridOut hsb hi _ _ _, fun val hval => ?_⟩,
    _, lineAt_hybridTail hsb hi _ _, fun val hval => subbandOut_real hval _ _ _ _⟩⟩
  rw [Exact.real_plus hval, Exact.real_ofNum hval, subbandOut_real hval]
  rfl

end Sys2Proof.Machine
end

section
/-! PROOF. The output of DECODE_FRAME (R393): the words it has sent and those that its wait and its jobs can still send
never grow together: O52. -/

namespace Sys2Proof.Machine

/-! ### Counting -/

theorem sampleCount_append (l m : List OutWord) : sampleCount (l ++ m) = sampleCount l + sampleCount m := by
  simp [sampleCount]

theorem sampleCount_samples (ws : List Sample) : sampleCount (ws.map .sample) = ws.length := by
  simp [sampleCount, List.filter_map, Function.comp_def]

/-- The words that a job sends. -/
def Job.words : Job → Nat
  | .front _ _ => 0
  | .stereo _ => 0
  | .back _ _ => 576

/-- The words that jobs send. -/
def jobWords (jobs : List Job) : Nat := (jobs.map Job.words).sum

/-- The words that a waiting command can still send: of a scan those of the frame it may find. -/
def Progress.words : Progress → Nat
  | .sync _ frame => if frame then 2304 else 0
  | .emit _ left none => left.length
  | .emit _ left (some (jobs, _)) => left.length + jobWords jobs

/-- The words sent and those that the command in progress can still send. -/
def State.words (s : State) : Nat := sampleCount s.env.out + (s.held.map Progress.words).getD 0

/-- From any state `run` sends at most `n` words, waits included. -/
def SendsAtMost (n : Nat) (run : State → Ran) : Prop :=
  ∀ s, (complete (run s)).words ≤ sampleCount s.env.out + n

theorem frameJobs_words (grs chs sel : List (Fin 2)) :
    jobWords (frameJobs grs chs sel) = grs.length * (sel.length * 576) := by
  simp [jobWords, frameJobs, List.flatMap_def, List.sum_flatten, Function.comp_def, Job.words]

theorem State.granules_length (s : State) : s.granules.length ≤ 2 := by
  unfold State.granules
  split <;> decide

/-- The jobs of a frame send at most 2304 words (R393). -/
theorem frameJobs_words_le (s : State) : jobWords (frameJobs s.granules s.channels s.sel) ≤ 2304 := by
  rw [frameJobs_words]
  have hsel := Nat.mul_le_mul_right 576 s.sel_length.2
  exact Nat.mul_le_mul s.granules_length hsel

/-! ### What the stages keep -/

/-- A stage leaves the item `item` of the state. -/
def Fixes {α : Type} (item : State → α) (f : State → State × Err) : Prop := ∀ s, item (f s).1 = item s

section
variable {α : Type} {item : State → α}

theorem Fixes.runStage {f : State → State × Err} (hf : Fixes item f) (g : State → Option Err) :
    Fixes item (runStage g f) := fun s => by
  unfold Machine.runStage
  split
  · rfl
  · exact hf s

theorem Fixes.runPlain {f : State → State} (hf : ∀ s, item (f s) = item s) (g : State → Option Err) :
    Fixes item (runPlain g f) := Fixes.runStage (f := fun s => (f s, .ok)) hf g

theorem Fixes.thenStage {f g : State → State × Err} (hf : Fixes item f) (hg : Fixes item g) :
    Fixes item (thenStage f g) := fun s => by
  unfold Machine.thenStage
  dsimp only
  split
  · exact (hg _).trans (hf s)
  · exact hf s

end

/-- A granule command past Huffman decoding. -/
theorem env_of_chanFrame {s t : State} (h : t = s.chanFrame t) : t.env = s.env := by
  rw [h]; rfl

theorem readSideInfo_env : Fixes State.env readSideInfo := fun s => by
  rcases readSideInfo_cases s with ⟨e, -, h⟩ | ⟨-, h⟩ <;> rw [h] <;> rfl

theorem loadMainData_env : Fixes State.env loadMainData := fun s => by
  by_cases h : s.newDiscard.toInt < 0
  · rw [loadMainData_skip h]
  · rw [loadMainData_load h]

theorem frameStages_env : Fixes State.env frameStages :=
  (readSideInfo_env.runStage _).thenStage (loadMainData_env.runStage _)

theorem runFront_env (gr ch : Fin 2) : Fixes State.env (runFront gr ch) := by
  have hscalefactors : ∀ s, (readScalefactors gr ch s).env = s.env := fun s => by rw [readScalefactors_frame]
  have hhuffman : ∀ s, (huffmanDecode gr ch s).env = s.env := fun s => by rw [huffmanDecode_frame]
  exact (Fixes.runPlain hscalefactors _).thenStage ((Fixes.runPlain hhuffman _).thenStage
    ((Fixes.runPlain (fun s => env_of_chanFrame (dequantize_frame gr ch s)) _).thenStage
      (Fixes.runPlain (fun s => env_of_chanFrame (reorder_frame gr ch s)) _)))

theorem runBack_env (gr ch : Fin 2) : Fixes State.env (runBack gr ch) :=
  (Fixes.runPlain (fun s => env_of_chanFrame (antialias_frame gr ch s)) _).thenStage
    ((Fixes.runPlain (fun s => env_of_chanFrame (hybrid_frame gr ch s)) _).thenStage
      ((Fixes.runPlain (fun s => env_of_chanFrame (freqInvert_frame ch s)) _).thenStage
        (Fixes.runPlain (fun _ => rfl) _)))

/-! ### The parts of DECODE_FRAME -/

theorem complete_ended_words (s : State) (e : Err) : (complete (.ended s e)).words = sampleCount s.env.out := by
  simp [complete, State.words]

theorem SendsAtMost.mono {run : State → Ran} {m n : Nat} (h : SendsAtMost m run) (hle : m ≤ n) : SendsAtMost n run :=
  fun s => (h s).trans (Nat.add_le_add_left hle _)

theorem SendsAtMost.stageThen {n : Nat} {k : State → Ran} (hk : SendsAtMost n k) {f : State → State × Err}
    (hf : Fixes State.env f) : SendsAtMost n fun s => stageThen k (f s) := fun s => by
  dsimp only
  rw [← hf s, Machine.stageThen]
  split
  · exact hk _
  · rw [complete_ended_words]
    exact Nat.le_add_right _ _

/-- The words that are left and what comes after them. -/
theorem sendFrom_sends {ch : Fin 2} {frame : Option (List Job × Nat)} {andThen : State → Ran} {n : Nat}
    (hthen : SendsAtMost n andThen) (ws : List Sample)
    (hframe : ∀ left, (Progress.emit ch left frame).words = left.length + n) :
    SendsAtMost (ws.length + n) (sendFrom ch frame andThen ws) := fun s => by
  have hsent (l : List Sample) : sampleCount (s.sent l).env.out = sampleCount s.env.out + l.length := by
    rw [State.sent, sampleCount_append, sampleCount_samples]
  rcases Nat.lt_or_ge s.env.sink ws.length with h | h
  · have hleft : (ws.take s.env.sink).length + (ws.drop s.env.sink).length = ws.length := by
      rw [← List.length_append, List.take_append_drop]
    rw [sendFrom_waits h]
    show sampleCount (s.sent (ws.take s.env.sink)).env.out + (Progress.emit ch (ws.drop s.env.sink) frame).words ≤ _
    rw [hsent, hframe]
    omega
  · rw [sendFrom_done h]
    have hrest := hthen (emitEnd ch (s.sent ws))
    rw [emitEnd, State.answer_env, show ((s.sent ws).setStage ch .em).env = (s.sent ws).env from rfl, hsent] at hrest
    rwa [← Nat.add_assoc]

theorem frameEnd_sends (n : Nat) : SendsAtMost 0 (frameEnd n) := fun s => by
  rw [frameEnd, complete_ended_words, State.answer_env]
  split
  · exact (sampleCount_append s.env.out [.frameEnd]).le
  · exact le_rfl

theorem runJobs_sends (jobs : List Job) (n : Nat) : SendsAtMost (jobWords jobs) (runJobs jobs n) := by
  induction jobs generalizing n with
  | nil => exact frameEnd_sends n
  | cons j jobs ih =>
    have hwords : jobWords (j :: jobs) = j.words + jobWords jobs := List.sum_cons
    rw [hwords]
    cases j with
    | front gr ch =>
      rw [funext (runJobs_front gr ch jobs n)]
      exact ((ih n).stageThen (runFront_env gr ch)).mono (Nat.le_add_left _ _)
    | stereo gr =>
      rw [funext (runJobs_stereo gr jobs n)]
      have hstereo := Fixes.runPlain (fun s => env_of_chanFrame (stereo_frame gr s)) (guardStereo gr)
      exact ((ih n).stageThen hstereo).mono (Nat.le_add_left _ _)
    | back gr ch =>
      rw [funext (runJobs_back gr ch jobs n)]
      have hemit : SendsAtMost (576 + jobWords jobs) (emitThen ch jobs n) := fun s => by
        rw [← emitWords_length ch (s.chan.get ch).hout]
        exact sendFrom_sends (ih (n + 576)) _ (fun _ => rfl) s
      exact hemit.stageThen (runBack_env gr ch)

theorem frameBody_sends : SendsAtMost 2304 frameBody := fun s => by
  rw [frameBody_eq]
  split
  · rw [complete_ended_words]
    exact Nat.le_add_right _ _
  · have hgranules : SendsAtMost 2304 frameGranules := fun u => (runJobs_sends _ 0).mono (frameJobs_words_le u) u
    exact hgranules.stageThen frameStages_env s

/-- A scan sends nothing. -/
theorem syncFrom_sends {frame : Bool} {andThen : State → Ran} {p : SyncPhase}
    (hthen : SendsAtMost (Progress.sync p frame).words andThen) :
    SendsAtMost (Progress.sync p frame).words (syncFrom frame andThen p) := fun s => by
  rw [syncFrom_of_run rfl]
  cases Scan.run s.ref (s.scan p).fuel (s.scan p) with
  | accept h body sc => exact hthen (accept h body (s.withScan sc))
  | ended sc | failed sc =>
    rw [syncStop, complete_ended_words]
    exact Nat.le_add_right _ _
  | waits sc | go sc => exact le_rfl

/-! ### Waits (R427) -/

/-- A command goes on with no more words than it had to send where it waited. -/
theorem resume_sends (p : Progress) : SendsAtMost p.words (resume p) := by
  match p with
  | .sync phase false =>
    refine syncFrom_sends (p := phase) fun s => ?_
    rw [syncEnd, complete_ended_words, State.answer_env]
    exact Nat.le_add_right _ _
  | .sync phase true => exact syncFrom_sends (p := phase) frameBody_sends
  | .emit ch left none =>
    exact sendFrom_sends (n := 0) (fun s => (complete_ended_words s .ok).le) left fun _ => rfl
  | .emit ch left (some (jobs, n)) => exact sendFrom_sends (runJobs_sends jobs (n + 576)) left fun _ => rfl

theorem proceed_words (s : State) : (proceed s).words ≤ s.words := by
  unfold proceed
  split
  · exact le_rfl
  · next p hp =>
    refine (resume_sends p s).trans ?_
    rw [State.words, hp]
    exact le_rfl

/-- A write does not reach the ports while a command is in progress (R426). -/
theorem hostWrite_env {off : BitVec 8} {width : Width} {w : Word} {s t : State} (hb : s.busy = true)
    (ht : hostWrite off width w s = .next t) : t.env = s.env := by
  unfold hostWrite writeCmd hostWriteRegister at ht
  rw [if_pos hb] at ht
  split at ht
  · split at ht
    · cases ht; rfl
    · cases ht
      split <;> rfl
  · cases ht; rfl

theorem event_words {e : Event} {s t : State} (hb : s.busy = true) (ht : event e s = .next t) : t.words ≤ s.words := by
  cases e with
  | write off width w =>
    rw [State.words, hostWrite_env hb ht, hostWrite_held hb ht]
    exact le_rfl
  | read off width =>
    obtain ⟨v, k, hread⟩ := hostRead_frame off width s
    cases ht
    rw [hread]
    exact le_rfl
  | present l | reposition l | sinkReady n =>
    cases ht
    exact proceed_words _
  | powerOnReset =>
    cases ht
    exact Nat.add_le_add_left (Nat.zero_le _) _

theorem whileBusy_words (events : List Event) (s : State) : (whileBusy events s).words ≤ s.words := by
  induction events generalizing s with
  | nil => exact le_rfl
  | cons e events ih =>
    unfold whileBusy
    split
    · next hb =>
      split
      · next t ht => exact (ih t).trans (event_words hb ht)
      · exact le_rfl
      · exact le_rfl
    · exact le_rfl

theorem exec_decodeFrame_words {s t : State} (ht : exec .decodeFrame s = .next t) :
    t.words ≤ sampleCount s.env.out + 2304 := by
  rw [exec, execDecodeFrame] at ht
  rcases command_cases noGuard (fun s => syncFrom true frameBody .begin (syncStart s)) s with
    ⟨e, he⟩ | ⟨-, -, he⟩
  · rw [he] at ht
    cases ht
    exact Nat.add_le_add_left (Nat.zero_le _) _
  · rw [he] at ht
    cases ht
    exact syncFrom_sends (frame := true) (p := .begin) frameBody_sends (syncStart s.start)

/-- Settles O52: the words sent and still to be sent are at most 2304 more than before, and no event of a wait makes
them more. -/
theorem frameOutputBound : Obligations.FrameOutputBound := by
  intro s t events ht
  calc sampleCount (whileBusy events t).env.out
    _ ≤ (whileBusy events t).words := Nat.le_add_right _ _
    _ ≤ t.words := whileBusy_words events t
    _ ≤ sampleCount s.env.out + 2304 := exec_decodeFrame_words ht

end Sys2Proof.Machine
end

section
/-! PROOF. NOP and RESET_STREAM (R410, R411), and an idle block (R450): O12, O15, O16. -/

namespace Sys2Proof.Machine

/-- After FATAL every command but NOP ends with FATAL_IO and no other effect (R428). -/
theorem exec_fatal {i : Instr} (hi : i ≠ .nop) {s : State} (hf : s.status.fatal = true) :
    exec i s = .next (s.endedWith .fatalIo) := by
  rw [exec_eq_command hi, command_fatal _ _ hf]

/-- Settles O15: NOP runs whatever STATUS holds. -/
theorem nopCompletes : Obligations.NopCompletes :=
  ⟨rfl, fun s => ⟨s.endedWith .ok, rfl, rfl, rfl, rfl, rfl, rfl, rfl⟩⟩

/-- RESET_STREAM whose checks pass (R411). After it no fault is on record, so that its end leaves what its rule gives. -/
theorem exec_resetStream {s : State} (hs : s.live) :
    exec .resetStream s = .next ((resetStream s.start).finish .ok) := by
  rw [exec_runs (i := .resetStream) nofun hs rfl, commandRun, ending,
    complete_clean (s := resetStream s.start) rfl]

/-- R411 of a channel. -/
theorem resetStream_chan (s : State) (ch : Fin 2) : (resetStream s).chan.get ch = (s.chan.get ch).clear := by
  match ch with
  | 0 => rfl
  | 1 => rfl

/-- Settles O16: with FATAL = 0 its rule runs, with FATAL = 1 R428 ends it. -/
theorem resetStreamCompletes : Obligations.ResetStreamCompletes := by
  refine ⟨rfl, fun s hs => ⟨_, exec_resetStream hs, rfl, fun ch => ?_⟩, fun s hf => exec_fatal (i := .resetStream) nofun hf⟩
  have hchan : ((resetStream s.start).finish .ok).chan.get ch = (s.chan.get ch).clear := resetStream_chan s.start ch
  rw [hchan]
  exact ⟨rfl, fun j => lineAt_zeros j⟩

/-! ### An idle block -/

/-- With no command in progress there is nothing to go on with (R450). -/
theorem proceed_idle {s : State} (hb : s.busy = false) : proceed s = s := by
  have hheld : s.held = none := Option.isNone_iff_eq_none.1 (by rw [← Option.not_isSome]; exact congrArg not hb)
  rw [proceed, hheld]

/-- A read of an idle block draws no free value: only the word returned changes (R88, R90). -/
theorem hostRead_idle {s : State} (hb : s.busy = false) (off : BitVec 8) (width : Width) :
    ∃ w, hostRead off width s = s.returns w := by
  by_cases hal : width = .w32 ∧ off.toNat % 4 = 0
  · obtain ⟨rfl, hoff⟩ := hal
    exact ⟨_, hostRead_register hoff (.inl hb)⟩
  · exact ⟨0, (access_undefined hal 0 s).2⟩

/-- Settles O12. -/
theorem idleKeepsState : Obligations.IdleKeepsState := by
  intro s hb
  have hport (v : Env) : proceed { s with env := v } = { s with env := v } := proceed_idle hb
  refine ⟨fun hhost => ?_, fun l => ⟨_, congrArg _ (hport _)⟩, fun l => ⟨_, congrArg _ (hport _)⟩,
    fun n => ⟨_, congrArg _ (hport _)⟩, fun off width => ?_⟩
  · rw [step, hhost]
    exact congrArg _ (proceed_idle hb)
  · obtain ⟨w, hw⟩ := hostRead_idle hb off width
    exact ⟨_, congrArg _ hw⟩

end Sys2Proof.Machine
end

section
/-! PROOF. The state after reset meets the invariants (R461): O14. -/

namespace Sys2Proof.Machine

/-- With no command in progress nothing is said of a scan. -/
theorem holds_of_idle {R : State → Prop} {S : SyncPhase → State → Prop} {s : State} (h : R s) (hs : s.held = none) :
    Holds R S s :=
  Holds.of_not_scanning h fun _ _ hp => absurd (hs ▸ hp) nofun

/-- Settles O14: every store is empty, no channel is at SF, HDR_VALID = 0 and no command is in progress. -/
theorem resetMeetsInvariants : Obligations.ResetMeetsInvariants := by
  refine ⟨storageInv_iff.2 (holds_of_idle ?_ rfl), pushbackInv_iff.2 (holds_of_idle (Nat.zero_le _) rfl),
    quantInv_iff.2 (powerOn_quantOk State.reset), orderInv_iff.2 (holds_of_idle ?_ rfl),
    headerInv_iff.2 (holds_of_idle (.of_invalid rfl) rfl), ⟨nofun, nofun, nofun⟩, waitInv_of_idle rfl⟩
  · exact ⟨⟨⟨rfl, nofun⟩, Nat.zero_le _, rfl, fun _ => rfl⟩, ⟨rfl, nofun⟩, Nat.zero_le _, Nat.zero_le _⟩
  · refine .of_unopened (Nat.zero_le _) fun ch => ?_
    match ch with
    | 0 => nofun
    | 1 => nofun

end Sys2Proof.Machine
end

section
/-! PROOF. What only SYNC, DECODE_FRAME and RESET_STREAM can change (R425, R411, R36, R37, R41, R44): O53. -/

namespace Sys2Proof.Machine

/-- The items that no part of a command writes, but SYNC's scan and acceptance, RESET_STREAM and the life cycle
(R425). -/
def State.control (s : State) :=
  (s.ctrl, s.cmdCtrl, s.head, s.ref, s.pb, s.inEof, s.resync, s.held,
    (s.status.done, s.status.eos, s.status.fatal, s.status.overrun, s.status.err),
    (s.status.nch2, s.status.hdrValid, s.status.layer3, s.status.lsf))

theorem answer_control (w : Word) (s : State) : (s.answer w).control = s.control := by simp [State.control]

theorem control_of_chanFrame {s t : State} (h : t = s.chanFrame t) : t.control = s.control := by
  rw [h]; rfl

theorem readSideInfo_control : Fixes State.control readSideInfo := fun s => by
  rcases readSideInfo_cases s with ⟨e, -, h⟩ | ⟨-, h⟩ <;> rw [h] <;> rfl

theorem loadMainData_control : Fixes State.control loadMainData := fun s => by
  by_cases h : s.newDiscard.toInt < 0
  · rw [loadMainData_skip h]; rfl
  · rw [loadMainData_load h]; rfl

theorem readScalefactors_control (gr ch : Fin 2) (s : State) : (readScalefactors gr ch s).control = s.control := by
  rw [readScalefactors_frame]; rfl

theorem huffmanDecode_control (gr ch : Fin 2) (s : State) : (huffmanDecode gr ch s).control = s.control := by
  rw [huffmanDecode_frame]; rfl

theorem rbReadBits_control (n : Nat) (s : State) : (rbReadBits n s).control = s.control := by
  rw [rbReadBits_sameButReservoir n s]; rfl

theorem emitEnd_control (ch : Fin 2) (s : State) : (emitEnd ch s).control = s.control :=
  answer_control 576 (s.setStage ch .em)

theorem sendFrom_control (ch : Fin 2) (ws : List Sample) (s : State) :
    (sendFrom ch none ended ws s).state.control = s.control := by
  rcases Nat.lt_or_ge s.env.sink ws.length with h | h
  · rw [sendFrom_waits h]; rfl
  · rw [sendFrom_done h]; exact emitEnd_control ch (s.sent ws)

/-- R425, of every command but the three that write them. -/
theorem commandRun_control {i : Instr} (hsync : i ≠ .sync) (hframe : i ≠ .decodeFrame) (hreset : i ≠ .resetStream)
    (s : State) : (commandRun i s).state.control = s.control := by
  cases i with
  | sync => exact absurd rfl hsync
  | decodeFrame => exact absurd rfl hframe
  | resetStream => exact absurd rfl hreset
  | nop | rbPutByte _ | rbRewindBits _ | rbRewindBytes _ => rfl
  | readSideInfo => exact readSideInfo_control s
  | loadMainData => exact loadMainData_control s
  | rbReadBits imm => exact rbReadBits_control imm.toNat s
  | rbTell => exact answer_control _ s
  | readScalefactors gr ch => exact readScalefactors_control gr ch s
  | huffmanDecode gr ch => exact huffmanDecode_control gr ch s
  | dequantize gr ch => exact control_of_chanFrame (dequantize_frame gr ch s)
  | reorder gr ch => exact control_of_chanFrame (reorder_frame gr ch s)
  | stereo gr => exact control_of_chanFrame (stereo_frame gr s)
  | antialias gr ch => exact control_of_chanFrame (antialias_frame gr ch s)
  | hybrid gr ch => exact control_of_chanFrame (hybrid_frame gr ch s)
  | freqInvert gr ch => exact control_of_chanFrame (freqInvert_frame ch s)
  | emit gr ch => exact sendFrom_control ch (emitWords ch (s.chan.get ch).hout) s

/-! ### What stays at a command's end (R438) -/

/-- The header state, with what a fault leaves unspecified free; the strict reference and RESYNC_COUNT. -/
def HeaderKept (s t : State) : Prop :=
  (t.clean → t.head = s.head) ∧
    (t.head.fields.version = s.head.fields.version ∧ t.head.fields.layer = s.head.fields.layer ∧
      t.head.fields.prot = s.head.fields.prot ∧ t.head.fields.mode = s.head.fields.mode) ∧
    t.ref = s.ref ∧ t.resync = s.resync

/-- The STATUS bits of the header, PB and IN_EOF. -/
def State.intake (s : State) :=
  (s.status.hdrValid, s.status.layer3, s.status.lsf, s.status.nch2, s.pb, s.inEof)

theorem headerKept_of_eq {s t : State} (hhead : t.head = s.head) (href : t.ref = s.ref) (hresync : t.resync = s.resync) :
    HeaderKept s t := by
  rw [HeaderKept, hhead]
  exact ⟨fun _ => rfl, ⟨rfl, rfl, rfl, rfl⟩, href, hresync⟩

/-- A command's end keeps them, whatever a fault leaves unspecified. -/
theorem complete_headerKept (r : Ran) : HeaderKept r.state (complete r) := by
  cases r with
  | waiting p s => exact headerKept_of_eq rfl rfl rfl
  | ended s e =>
    refine ⟨fun hc => ?_, ⟨s.settle_version, s.settle_layer, s.settle_prot, s.settle_mode⟩, s.settle_ref, s.settle_resync⟩
    have hs : s.clean := (complete_agrees s e).clean_iff.1 hc
    rw [complete_clean hs]
    rfl

theorem complete_intake (r : Ran) : (complete r).intake = r.state.intake := by
  cases r with
  | waiting p s => rfl
  | ended s e => simp [complete, State.intake, Ran.state, State.finish]

/-- Every command but SYNC and DECODE_FRAME keeps the header state, the reference and RESYNC_COUNT. -/
theorem exec_headerKept {i : Instr} {s t : State} (ht : exec i s = .next t) (hsync : i ≠ .sync)
    (hframe : i ≠ .decodeFrame) : HeaderKept s t ∧ (i ≠ .resetStream → t.intake = s.intake) := by
  by_cases hi : i = .nop
  · subst hi; cases ht; exact ⟨headerKept_of_eq rfl rfl rfl, fun _ => rfl⟩
  rw [exec_eq_command hi] at ht
  rcases command_cases (commandGuard i) (commandRun i) s with ⟨e, he⟩ | ⟨-, -, he⟩
  · rw [he] at ht
    cases ht
    exact ⟨headerKept_of_eq rfl rfl rfl, fun _ => rfl⟩
  rw [he] at ht
  cases ht
  by_cases hreset : i = .resetStream
  · subst hreset
    exact ⟨complete_headerKept _, fun h => absurd rfl h⟩
  have hc := commandRun_control hsync hframe hreset s.start
  simp only [State.control, Prod.mk.injEq] at hc
  obtain ⟨-, -, hhead, href, hpb, hinEof, hresync, -, -, hnch2, hhdr, hlayer3, hlsf⟩ := hc
  obtain ⟨hkept, hfields, hkref, hkresync⟩ := complete_headerKept (commandRun i s.start)
  rw [hhead] at hkept hfields
  refine ⟨⟨hkept, hfields, hkref.trans href, hkresync.trans hresync⟩, fun _ => ?_⟩
  rw [complete_intake, State.intake, hhdr, hlayer3, hlsf, hnch2, hpb, hinEof]
  rfl

/-- Settles O53: CTRL is written by no command at all, the rest by SYNC's parts and RESET_STREAM only. -/
theorem whatCommandsCannotChange : Obligations.WhatCommandsCannotChange := by
  intro i s t ht
  refine ⟨congrArg Prod.fst (exec_irqInputs ht), fun hsync hframe => ?_⟩
  obtain ⟨⟨hhead, hfields, href, hresync⟩, hintake⟩ := exec_headerKept ht hsync hframe
  refine ⟨hhead, hfields, href, hresync, fun hreset => ?_⟩
  have hin := hintake hreset
  simp only [State.intake, Prod.mk.injEq] at hin
  exact hin

end Sys2Proof.Machine
end

section
/-! SUPPORT. What the parts of a step do to the life-cycle bits and the fault log, said once (R425, R430, R438), and
what is to be shown of an invariant that speaks of them only. -/

namespace Sys2Proof.Machine

/-- The life-cycle bits that only a command's start and end, a scan's failure and the host write. -/
def State.cycle (s : State) := (s.status.done, s.status.fatal, s.status.overrun, s.status.err)

/-- From `s` to `t` those bits stay, and no fault is recorded without FAULT. -/
structure State.Going (s t : State) : Prop where
  cycle : t.cycle = s.cycle
  fault : (s.rs.log.tainted = true → s.rs.log.sticky = true) → t.rs.log.tainted = true → t.rs.log.sticky = true

theorem State.Going.of_cycle {s t : State} (hc : t.cycle = s.cycle) (hl : s.rs.log.Later t.rs.log) : s.Going t :=
  ⟨hc, hl.2.2⟩

theorem State.Going.bits {s t : State} (h : s.Going t) :
    t.status.done = s.status.done ∧ t.status.fatal = s.status.fatal ∧ t.status.overrun = s.status.overrun ∧
      t.status.err = s.status.err := by
  simpa [State.cycle] using h.cycle

theorem State.Going.of_control {s t : State} (hc : t.control = s.control) (hl : s.rs.log.Later t.rs.log) :
    s.Going t := by
  refine .of_cycle ?_ hl
  simp only [State.control, Prod.mk.injEq] at hc
  obtain ⟨-, -, -, -, -, -, -, -, ⟨hdone, -, hfatal, hoverrun, herr⟩, -⟩ := hc
  simp only [State.cycle, hdone, hfatal, hoverrun, herr]

theorem settle_going (s : State) : s.Going s.settle :=
  .of_cycle (by simp [State.cycle]) (settle_mild s).log

theorem resetStream_going (s : State) : s.Going (resetStream s) := ⟨rfl, fun _ => nofun⟩

theorem accept_going (h : Word) (body : List Byte) (sc : Scan) (s : State) :
    s.Going (accept h body (s.withScan sc)) :=
  .of_cycle rfl (accept_later h body (s.withScan sc)).2

/-- An invariant `P` of which `R` holds inside a command, where `R` speaks of the life-cycle bits and of FAULT only,
and `W` holds of the words that EMIT has left. -/
structure CycleInvariant (P R : State → Prop) (W : List Sample → Prop) : Prop where
  going : ∀ {s t}, s.Going t → R s → R t
  stop : ∀ s e, P s → P (s.endedWith e)
  start : ∀ s, P s → s.live → R s.start
  finish : ∀ s e, R s → P (s.finish e)
  fails : ∀ s, R s → P ({ s with status := { s.status with fatal := true } }.settle.finish .fatalIo)
  world : ∀ s v, P s → P { s with env := v }
  ctrl : ∀ s c, P s → P { s with ctrl := c }
  drawn : ∀ s, P s → P s.drawn
  overrun : ∀ s, P s → P { s with status := { s.status with overrun := true } }
  scanWait : ∀ s p f, R s → P { s with held := some (.sync p f) }
  scanResume : ∀ s p f, P s → s.held = some (.sync p f) → R s
  emitWait : ∀ s ch ws f, R s → W ws → ws ≠ [] → P { s with held := some (.emit ch ws f) }
  emitResume : ∀ s ch ws f, P s → s.held = some (.emit ch ws f) → R s ∧ W ws
  emitWords : ∀ ch hout, W (emitWords ch hout)
  emitDrop : ∀ ws k, W ws → W (ws.drop k)

/-- Such an invariant is kept by every part of a step. -/
theorem CycleInvariant.keeps {P R : State → Prop} {W : List Sample → Prop} (k : CycleInvariant P R W) :
    Keeps P R (fun _ => R) W where
  stop := k.stop
  start := k.start
  finish := k.finish
  world := k.world
  port s _ := k.going (.of_cycle rfl s.rs.log.later_refl)
  result s _ := k.going (.of_cycle rfl s.rs.log.later_refl)
  answer s w := k.going (.of_control (answer_control w s) (answer_mild w s).log)
  settle s := k.going (settle_going s)
  skipped s := k.going (.of_cycle rfl s.rs.log.later_refl)
  ctrl := k.ctrl
  drawn := k.drawn
  overrun s h _ := k.overrun s h
  scanStart s := k.going (.of_cycle rfl s.rs.log.later_refl)
  scanGo _ s _ h _ := k.going (s := s) (.of_cycle rfl s.rs.log.later_refl) h
  scanAccept _ s hd body sc h _ := k.going (accept_going hd body sc s) h
  scanEnd _ s sc h _ := by
    have hgo : s.Going { s.withScan sc with status := { s.status with eos := true } } :=
      .of_cycle rfl s.rs.log.later_refl
    exact k.finish _ _ (k.going (settle_going _) (k.going hgo h))
  scanFail _ s sc h _ := by
    have hgo : s.Going (s.withScan sc) := .of_cycle rfl s.rs.log.later_refl
    exact k.fails _ (k.going hgo h)
  scanWait p s f h := k.scanWait s p f h
  scanResume p s f h hp := k.scanResume s p f h hp
  emitWait := k.emitWait
  emitResume := k.emitResume
  emitWords := k.emitWords
  emitDrop := k.emitDrop
  emitEnd s ch := k.going (.of_control (emitEnd_control ch s) (emitEnd_mild ch s).log)
  reset s := k.going (resetStream_going s)
  put s b := k.going (.of_control rfl (put_mild b s).log)
  read s n := k.going (.of_control rfl (read_mild n s).log)
  rewind s n := k.going (.of_control rfl (rewind_mild n s).log)
  sideInfo s h _ := k.going (.of_control (readSideInfo_control s) (readSideInfo_mild s).log) h
  mainData s h _ := k.going (.of_control (loadMainData_control s) (loadMainData_calm s).log) h
  scalefactors s gr ch h _ :=
    k.going (.of_control (readScalefactors_control gr ch s) (readScalefactors_calm gr ch s).log) h
  huffman s gr ch h _ := k.going (.of_control (huffmanDecode_control gr ch s) (huffmanDecode_calm gr ch s).log) h
  dequantize s gr ch h _ :=
    k.going (.of_control (control_of_chanFrame (dequantize_frame gr ch s)) (dequantize_mild gr ch s).log) h
  reorder s gr ch h _ :=
    k.going (.of_control (control_of_chanFrame (reorder_frame gr ch s)) (reorder_mild gr ch s).log) h
  stereo s gr h _ := k.going (.of_control (control_of_chanFrame (stereo_frame gr s)) (stereo_mild gr s).log) h
  antialias s gr ch h _ :=
    k.going (.of_control (control_of_chanFrame (antialias_frame gr ch s)) (antialias_mild gr ch s).log) h
  hybrid s gr ch h _ :=
    k.going (.of_control (control_of_chanFrame (hybrid_frame gr ch s)) (hybrid_mild gr ch s).log) h
  freqInvert s _ ch h _ :=
    k.going (.of_control (control_of_chanFrame (freqInvert_frame ch s)) (freqInvert_mild ch s).log) h

end Sys2Proof.Machine
end

section
/-! PROOF. OVERRUN and FATAL are sticky (R426, R428): O6, O7. -/

namespace Sys2Proof.Machine

/-- OVERRUN is 1 where `o` is, and FATAL is 1 where `f` is. -/
def Latched (o f : Bool) (s : State) : Prop :=
  (o = true → s.status.overrun = true) ∧ (f = true → s.status.fatal = true)

/-- No part of a step but power-on reset clears them. -/
theorem latched_cycleInvariant (o f : Bool) : CycleInvariant (Latched o f) (Latched o f) fun _ => True where
  going hgo h := by
    obtain ⟨-, hfatal, hoverrun, -⟩ := hgo.bits
    rw [Latched, hfatal, hoverrun]
    exact h
  stop _ _ h := h
  start _ h _ := h
  finish _ _ h := h
  fails s h := by
    refine ⟨fun ho => ?_, fun _ => ?_⟩
    · simp [State.finish, h.1 ho]
    · simp [State.finish]
  world _ _ h := h
  ctrl _ _ h := h
  drawn _ h := h
  overrun _ h := ⟨fun _ => rfl, h.2⟩
  scanWait _ _ _ h := h
  scanResume _ _ _ h _ := h
  emitWait _ _ _ _ h _ _ := h
  emitResume _ _ _ _ h _ := ⟨h, trivial⟩
  emitWords _ _ := trivial
  emitDrop _ _ _ := trivial

/-- Settles O6. -/
theorem commandWhileBusy : Obligations.CommandWhileBusy := by
  refine ⟨fun w s hb => hostWrite_cmd_busy hb w, fun s t ho hr ht => ?_⟩
  exact ((latched_cycleInvariant true false).keeps.step_running hr ⟨fun _ => ho, nofun⟩ ht).1 rfl

/-- The step of power-on reset (R461). -/
theorem step_powerOn {s t : State} (hr : s.env.host.head? = some .powerOnReset) (ht : step s = .next t) :
    ∃ u, t = powerOn u := by
  unfold step at ht
  split at ht
  · next he => rw [he] at hr; cases hr
  · next e _ he =>
    rw [he] at hr
    cases hr
    cases ht
    exact ⟨_, rfl⟩

/-- Settles O7. -/
theorem fatalLocksOut : Obligations.FatalLocksOut := by
  refine ⟨fun i s hf hi => exec_fatal hi hf, fun s _ => execNop_eq s, fun s t hf hr ht => ?_, fun s t hr ht => ?_⟩
  · exact ((latched_cycleInvariant false true).keeps.step_running hr ⟨nofun, fun _ => hf⟩ ht).2 rfl
  · obtain ⟨u, rfl⟩ := step_powerOn hr ht
    rfl

end Sys2Proof.Machine
end

section
/-! PROOF. The relations between BUSY, DONE, ERR, FATAL and FAULT (R425, R427, R430, R438): O59. -/

namespace Sys2Proof.Machine

/-- Inside a command DONE = 0, ERR = 0 and FATAL = 0, and after a fault FAULT = 1. -/
structure Underway (s : State) : Prop where
  done : s.status.done = false
  err : s.status.err = .ok
  fatal : s.status.fatal = false
  fault : s.rs.log.tainted = true → s.rs.log.sticky = true

/-- With no command in progress the invariant speaks of the fault log alone. -/
theorem lifeInv_of_idle {s : State} (hs : s.held = none) (hf : s.rs.log.tainted = true → s.rs.log.sticky = true) :
    LifeInv s where
  waiting hb := by rw [State.busy, hs] at hb; cases hb
  words _ _ _ hp := by rw [hs] at hp; cases hp
  fault := hf

/-- While a command waits it is under way. -/
theorem LifeInv.underway {s : State} (h : LifeInv s) {p : Progress} (hp : s.held = some p) : Underway s := by
  obtain ⟨hdone, herr, hfatal⟩ := h.waiting (by rw [State.busy, hp]; rfl)
  exact ⟨hdone, herr, hfatal, h.fault⟩

theorem lifeInv_cycleInvariant : CycleInvariant LifeInv Underway fun ws => ws.length ≤ 576 where
  going hgo h := by
    obtain ⟨hdone, hfatal, -, herr⟩ := hgo.bits
    exact ⟨hdone.trans h.done, herr.trans h.err, hfatal.trans h.fatal, hgo.fault h.fault⟩
  stop _ _ h := lifeInv_of_idle rfl h.fault
  start _ h hl := ⟨rfl, rfl, hl, h.fault⟩
  finish _ _ h := lifeInv_of_idle rfl h.fault
  fails s h := lifeInv_of_idle rfl (by simpa [State.finish] using h.fault)
  world _ _ h := ⟨h.waiting, h.words, h.fault⟩
  ctrl _ _ h := ⟨h.waiting, h.words, h.fault⟩
  drawn _ h := ⟨h.waiting, h.words, h.fault⟩
  overrun _ h := ⟨h.waiting, h.words, h.fault⟩
  scanWait _ _ _ h := ⟨fun _ => ⟨h.done, h.err, h.fatal⟩, nofun, h.fault⟩
  scanResume _ _ _ h hp := h.underway hp
  emitWait s ch ws f h hw hne := by
    refine ⟨fun _ => ⟨h.done, h.err, h.fatal⟩, fun _ l _ hp => ?_, h.fault⟩
    cases hp
    exact ⟨hne, hw⟩
  emitResume _ ch ws f h hp := ⟨h.underway hp, (h.words ch ws f hp).2⟩
  emitWords ch hout := (emitWords_length ch hout).le
  emitDrop ws k h := by rw [List.length_drop]; exact (Nat.sub_le _ _).trans h

/-- Settles O59. -/
theorem stepKeepsLifeCycle : Obligations.StepKeepsLifeCycle := fun _ _ =>
  lifeInv_cycleInvariant.keeps.step fun _ => lifeInv_of_idle rfl nofun

end Sys2Proof.Machine
end

section
/-! PROOF. DECODE_FRAME of a frame of Layer I or II (R420, R422): O51. -/

namespace Sys2Proof.Machine

/-- R422: the frame is left where SYNC accepted it. -/
theorem frameBody_otherLayer {s : State} (h : s.head.fields.layer ≠ 3) :
    frameBody s = .ended { s with status := { s.status with skipped := true } } .notLayer3 := by
  rw [frameBody_eq, if_pos h]

/-- A frame of another layer has no main data (R160). -/
theorem slotCount_otherLayer {hd : Header} (h : hd.layer ≠ 3) (n : Nat) : slotCount hd n = 0 := if_neg h

/-- Settles O51. -/
theorem otherLayersAreSkipped : Obligations.OtherLayersAreSkipped := by
  intro h body k s hs hc hstore h3 hf
  obtain ⟨-, hlegal, hbody⟩ := hf.1
  have htwo : 2 ≤ body.length := hbody ▸ two_le_frameSize hlegal
  refine ⟨_, exec_decodeFrame_accepts hs hf, ?_⟩
  rw [frameBody_otherLayer (show (parseHeader h).layer ≠ 3 from h3), accept_clean (by exact hc) h htwo,
    complete_clean (by exact hc), slotCount_otherLayer h3, decide_eq_false h3]
  exact ⟨rfl, syncStart_chan s.start⟩

end Sys2Proof.Machine
end

section
/-! PROOF. The effects of DECODE_FRAME's commands do not see RESULT (R35, R420). -/

namespace Sys2Proof.Machine

/-- The state with RESULT = `r`. -/
def State.withResult (r : Word) (s : State) : State := { s with result := r }

/-- `f` neither reads nor writes RESULT. -/
def ResultFree (f : State → State) : Prop := ∀ r s, f (s.withResult r) = (f s).withResult r

/-- The same of an effect that may raise a code. -/
def RaiseResultFree (f : State → State × Err) : Prop := ∀ r s, f (s.withResult r) = ((f s).1.withResult r, (f s).2)

theorem ResultFree.comp {f g : State → State} (hf : ResultFree f) (hg : ResultFree g) :
    ResultFree fun s => g (f s) := fun r s => by
  dsimp only
  rw [hf, hg]

theorem ResultFree.ite {c : State → Prop} [DecidablePred c] {f g : State → State}
    (hc : ∀ r s, c (s.withResult r) ↔ c s) (hf : ResultFree f) (hg : ResultFree g) :
    ResultFree fun s => if c s then f s else g s := fun r s => by
  dsimp only
  rw [if_congr (hc r s) (hf r s) (hg r s)]
  split <;> rfl

section
variable (r : Word) (s : State) (ch : Fin 2)

theorem State.withResult_rs : (s.withResult r).rs = s.rs := rfl
@[simp] theorem mapChan_withResult (f : Chan → Chan) :
    (s.withResult r).mapChan ch f = (s.mapChan ch f).withResult r := rfl
@[simp] theorem setStage_withResult (x : Stage) : (s.withResult r).setStage ch x = (s.setStage ch x).withResult r := rfl
@[simp] theorem withRs_withResult (q : RS) : (s.withResult r).withRs q = (s.withRs q).withResult r := rfl

end

theorem storeOrFree_resultFree {α : Type} (x : α) (free : Nat → α) {store : α → State → State}
    (h : ∀ v, ResultFree (store v)) : ResultFree (State.storeOrFree x free store) := fun r s => by
  unfold State.storeOrFree
  rw [State.withResult_rs]
  split
  · exact h _ r s.drawn
  · exact h _ r s

section
variable (r : Word) (s : State) (ch : Fin 2)

@[simp] theorem storeQuantised_withResult (v : Quantised) :
    (s.withResult r).storeQuantised ch v = (s.storeQuantised ch v).withResult r :=
  storeOrFree_resultFree v _ (fun _ _ _ => rfl) r s

@[simp] theorem storeScf_withResult (v : Scf) : (s.withResult r).storeScf ch v = (s.storeScf ch v).withResult r :=
  storeOrFree_resultFree v _ (fun _ _ _ => rfl) r s

@[simp] theorem storeLsf_withResult (v : LsfInfo) : (s.withResult r).storeLsf ch v = (s.storeLsf ch v).withResult r :=
  storeOrFree_resultFree v _ (fun _ _ _ => rfl) r s

@[simp] theorem storeXr_withResult (v : Lines Num) : (s.withResult r).storeXr ch v = (s.storeXr ch v).withResult r :=
  storeOrFree_resultFree v _ (fun _ _ _ => rfl) r s

@[simp] theorem storeHout_withResult (v : Lines Num) :
    (s.withResult r).storeHout ch v = (s.storeHout ch v).withResult r :=
  storeOrFree_resultFree v _ (fun _ _ _ => rfl) r s

@[simp] theorem storePrev_withResult (v : Lines Num) :
    (s.withResult r).storePrev ch v = (s.storePrev ch v).withResult r :=
  storeOrFree_resultFree v _ (fun _ _ _ => rfl) r s

theorem settle_withResult : (s.withResult r).settle = s.settle.withResult r := by
  unfold State.settle
  rw [State.withResult_rs]
  split <;> rfl

end

/-! ### The commands -/

theorem dequantize_resultFree (gr ch : Fin 2) : ResultFree (dequantize gr ch) := fun r s => by
  unfold dequantize
  rw [storeXr_withResult, setStage_withResult]
  rfl

theorem reorder_resultFree (gr ch : Fin 2) : ResultFree (reorder gr ch) := fun r s => by
  unfold reorder
  dsimp only
  rw [show (s.withResult r).info gr ch = s.info gr ch from rfl]
  split
  · rw [storeXr_withResult, setStage_withResult]
    rfl
  · rfl

theorem antialias_resultFree (gr ch : Fin 2) : ResultFree (antialias gr ch) := fun r s => by
  unfold antialias
  dsimp only
  rw [show (s.withResult r).info gr ch = s.info gr ch from rfl]
  split
  · rfl
  · rw [storeXr_withResult, setStage_withResult]
    rfl

theorem hybrid_resultFree (gr ch : Fin 2) : ResultFree (hybrid gr ch) := fun r s => by
  unfold hybrid
  dsimp only
  rw [storeHout_withResult, storePrev_withResult, setStage_withResult]
  rfl

theorem freqInvert_resultFree (ch : Fin 2) : ResultFree (freqInvert ch) := fun r s => by
  unfold freqInvert
  rw [storeHout_withResult, setStage_withResult]
  rfl

theorem stereoLines_resultFree (gr : Fin 2) : ResultFree (stereoLines gr) :=
  ResultFree.ite (fun _ _ => Iff.rfl)
    (fun r s => by dsimp only; rw [storeXr_withResult, storeXr_withResult]; rfl) fun _ _ => rfl

theorem foldl_resultFree {f : Fin 2 → State → State} (hf : ∀ ch, ResultFree (f ch)) (l : List (Fin 2)) :
    ResultFree fun s => l.foldl (fun s ch => f ch s) s := fun r s => by
  induction l generalizing s with
  | nil => rfl
  | cons ch l ih =>
    simp only [List.foldl_cons, hf ch r s]
    exact ih (f ch s)

theorem select_resultFree : ResultFree select := by
  have hdownmix : ResultFree fun s => if s.nch = 2 ∧ s.cmdCtrl.chsel = .downmix then
      s.storeXr 0 (tabulate 576 fun j => average (lineAt s.chan.c0.xr j) (lineAt s.chan.c1.xr j)) else s :=
    ResultFree.ite (fun _ _ => Iff.rfl) (fun r s => storeXr_withResult r s 0 _) fun _ _ => rfl
  have hstages : ResultFree fun s =>
      s.channels.foldl (fun t ch => t.setStage ch (if s.sel.contains ch then .st else .em)) s := fun r s =>
    foldl_resultFree (f := fun ch t => t.setStage ch (if s.sel.contains ch then .st else .em)) (fun _ _ _ => rfl)
      s.channels r s
  exact hdownmix.comp hstages

theorem stereo_resultFree (gr : Fin 2) : ResultFree (stereo gr) := (stereoLines_resultFree gr).comp select_resultFree

theorem readScfMpeg1_resultFree (gr ch : Fin 2) : ResultFree (readScfMpeg1 gr ch) := fun r s => by
  unfold readScfMpeg1
  exact storeScf_withResult r (s.withRs _) ch _

theorem getLsfScaleData_resultFree (ch : Fin 2) : ResultFree (getLsfScaleData ch) := fun r s => by
  unfold getLsfScaleData
  exact storeLsf_withResult r { s with si := _ } ch _

theorem readScfLsf_resultFree (ch : Fin 2) : ResultFree (readScfLsf ch) := fun r s => by
  unfold readScfLsf
  rw [getLsfScaleData_resultFree]
  exact storeScf_withResult r ((getLsfScaleData ch s).withRs _) ch _

theorem readScalefactors_resultFree (gr ch : Fin 2) : ResultFree (readScalefactors gr ch) := by
  have hopen : ResultFree fun s => State.mapChan ch (fun c => { c with grp := gr, part2Start := s.rs.resv.totbit })
      { s with order := { s.order with partOpen := true } } := fun _ _ => rfl
  have hread : ResultFree fun s =>
      if s.head.fields.version = .mpeg1 then readScfMpeg1 gr ch s else readScfLsf ch s :=
    ResultFree.ite (fun _ _ => Iff.rfl) (readScfMpeg1_resultFree gr ch) (readScfLsf_resultFree ch)
  exact (hopen.comp hread).comp fun r s => setStage_withResult r s ch .sf

theorem huffmanDecode_resultFree (gr ch : Fin 2) : ResultFree (huffmanDecode gr ch) := fun r s => by
  unfold huffmanDecode
  dsimp only
  rw [withRs_withResult, mapChan_withResult, storeQuantised_withResult]
  rfl

theorem readSideInfo_resultFree : RaiseResultFree readSideInfo := fun r s => by
  have htake : takeSideInfo (s.withResult r) = (takeSideInfo s).withResult r := rfl
  unfold readSideInfo
  dsimp only
  rw [htake, show ((takeSideInfo s).withResult r).rejection = (takeSideInfo s).rejection from rfl]
  split <;> rfl

theorem loadMainData_resultFree : RaiseResultFree loadMainData := fun r s => by
  by_cases h : s.newDiscard.toInt < 0
  · rw [loadMainData_skip h, loadMainData_skip (s := s.withResult r) h]
    rfl
  · rw [loadMainData_load h, loadMainData_load (s := s.withResult r) h, enterMd_chan_eq, enterMd_chan_eq]
    rfl

end Sys2Proof.Machine
end

section
/-! PROOF. DECODE_FRAME after its SYNC as its commands one after the other (R420). -/

namespace Sys2Proof.Machine

/-- The code that a command's rule raised. -/
def Ran.raised : Ran → Err
  | .ended _ e => e
  | .waiting _ _ => .ok

/-- A command's checks after FATAL, and its effects. -/
def commandStage (i : Instr) : State → State × Err :=
  runStage (commandGuard i) fun s => ((commandRun i s).state, (commandRun i s).raised)

/-- The commands one after the other, up to the first that raises a code. -/
def runStages : List Instr → State → State × Err
  | [] => fun s => (s, .ok)
  | i :: l => thenStage (commandStage i) (runStages l)

/-! ### The codes of the checks (R433) -/

/-- A code that a check of R104 or R421 answers. -/
def Err.ofCheck (e : Err) : Prop := e = .notLayer3 ∨ e = .badOperand ∨ e = .sequence

theorem Err.ofCheck.ne_ok {e : Err} (h : e.ofCheck) : e ≠ .ok := by
  rcases h with rfl | rfl | rfl <;> decide

theorem Err.ofCheck.ne_fatalIo {e : Err} (h : e.ofCheck) : e ≠ .fatalIo := by
  rcases h with rfl | rfl | rfl <;> decide

theorem require_mem {c : Bool} {x e : Err} (hx : x.ofCheck) (h : e ∈ require c x) : e.ofCheck := by
  cases c
  · cases h; exact hx
  · cases h

theorem thenCheck_mem {a b : Option Err} (ha : ∀ e ∈ a, e.ofCheck) (hb : ∀ e ∈ b, e.ofCheck) :
    ∀ e ∈ thenCheck a b, e.ofCheck := by
  cases a with
  | none => exact hb
  | some x => exact ha

theorem guardLayer3_mem (s : State) : ∀ e ∈ guardLayer3 s, e.ofCheck := fun e h => by
  rw [guardLayer3] at h
  split at h
  · cases h
  · cases h; exact .inl rfl

theorem guardGranule_mem (gr ch : Fin 2) (s : State) : ∀ e ∈ guardGranule gr ch s, e.ofCheck :=
  thenCheck_mem (guardLayer3_mem s) fun _ => require_mem (.inr (.inl rfl))

theorem guardStage_mem (x : Stage) (gr ch : Fin 2) (s : State) : ∀ e ∈ guardStage x gr ch s, e.ofCheck :=
  thenCheck_mem (guardGranule_mem gr ch s) fun _ => require_mem (.inr (.inr rfl))

/-- A check answers a code of its own, never OK. -/
theorem commandGuard_mem (i : Instr) (s : State) : ∀ e ∈ commandGuard i s, e.ofCheck := by
  have hsequence {c : Bool} : ∀ e ∈ require c .sequence, e.ofCheck := fun _ => require_mem (.inr (.inr rfl))
  cases i with
  | nop | resetStream | decodeFrame | sync | rbPutByte | rbReadBits | rbRewindBits | rbRewindBytes | rbTell =>
    exact fun _ h => nomatch h
  | readSideInfo | loadMainData => exact thenCheck_mem (guardLayer3_mem s) hsequence
  | readScalefactors gr ch => exact thenCheck_mem (guardGranule_mem gr ch s) hsequence
  | stereo gr =>
    exact thenCheck_mem (guardLayer3_mem s) (thenCheck_mem (fun _ => require_mem (.inr (.inl rfl))) hsequence)
  | huffmanDecode gr ch | dequantize gr ch | reorder gr ch | antialias gr ch | hybrid gr ch | freqInvert gr ch
    | emit gr ch => exact guardStage_mem _ gr ch s

/-! ### Stages in a row -/

theorem thenStage_nothing (f : State → State × Err) : thenStage f (fun s => (s, .ok)) = f := by
  funext s
  rw [thenStage]
  split
  · next h => rw [← h]
  · rfl

theorem thenStage_assoc (f g h : State → State × Err) :
    thenStage (thenStage f g) h = thenStage f (thenStage g h) := by
  funext s
  simp only [thenStage]
  by_cases hf : (f s).2 = .ok
  · simp only [if_pos hf]
  · simp only [if_neg hf]

theorem runStages_append (l l' : List Instr) : runStages (l ++ l') = thenStage (runStages l) (runStages l') := by
  induction l with
  | nil => rfl
  | cons i l ih => rw [List.cons_append, runStages, runStages, ih, thenStage_assoc]

/-- A stage's check by itself, before its effects. -/
theorem thenStage_check {g : State → Option Err} (hg : ∀ s, ∀ e ∈ g s, e.ofCheck) (f : State → State × Err) :
    thenStage (runPlain g id) f = runStage g f := by
  funext s
  cases hs : g s with
  | none => rw [thenStage_runPlain hs, id, runStage_runs hs]
  | some e =>
    rw [thenStage, runPlain, runStage, hs, runStage, hs]
    exact if_neg (hg s e hs).ne_ok

theorem stageThen_thenStage (k : State → Ran) (f g : State → State × Err) (s : State) :
    stageThen k (thenStage f g s) = stageThen (fun t => stageThen k (g t)) (f s) := by
  rw [thenStage, stageThen]
  by_cases h : (f s).2 = .ok
  · rw [if_pos h]
    exact (if_pos h).symm
  · rw [if_neg h, if_neg h]
    exact (if_neg h).symm

theorem stageThen_ok (k : State → Ran) (t : State) {e : Err} (h : e = .ok) : stageThen k (t, e) = k t := if_pos h

theorem stageThen_congr {k k' : State → Ran} {r : State × Err} (h : k r.1 = k' r.1) :
    stageThen k r = stageThen k' r := by
  rw [stageThen, stageThen, h]

/-! ### The jobs of DECODE_FRAME -/

/-- The commands of a job. -/
def Job.commands : Job → List Instr
  | .front gr ch => [.readScalefactors gr ch, .huffmanDecode gr ch, .dequantize gr ch, .reorder gr ch]
  | .stereo gr => [.stereo gr]
  | .back gr ch => [.antialias gr ch, .hybrid gr ch, .freqInvert gr ch, .emit gr ch]

theorem runStages_front (gr ch : Fin 2) : runStages (Job.front gr ch).commands = runFront gr ch := by
  rw [Job.commands, runStages, runStages, runStages, runStages, runStages, thenStage_nothing]
  rfl

theorem runStages_stereo (gr : Fin 2) :
    runStages (Job.stereo gr).commands = runPlain (guardStereo gr) (stereo gr) := by
  rw [Job.commands, runStages, runStages, thenStage_nothing]
  rfl

theorem runStages_back (gr ch : Fin 2) :
    runStages (Job.back gr ch).commands =
      thenStage (runBack gr ch) fun s => ((commandRun (.emit gr ch) s).state, (commandRun (.emit gr ch) s).raised) := by
  rw [Job.commands, runStages, runStages, runStages, runStages, runStages, thenStage_nothing, runBack,
    thenStage_assoc, thenStage_assoc, thenStage_assoc, thenStage_check (guardStage_mem .fi gr ch)]
  rfl

/-- EMIT where the sink has room, by itself, with any RESULT, and in DECODE_FRAME. -/
theorem emit_room {ch : Fin 2} {s : State} (h : 576 ≤ s.env.sink) (gr : Fin 2) :
    ∃ ws : List Sample, ws.length = 576 ∧
      (∀ r, commandRun (.emit gr ch) (s.withResult r) = .ended (emitEnd ch ((s.sent ws).withResult r)) .ok) ∧
      ∀ jobs n, emitThen ch jobs n s = runJobs jobs (n + 576) (emitEnd ch (s.sent ws)) := by
  have hlen := emitWords_length ch (s.chan.get ch).hout
  simp only [emitThen, commandRun, show ∀ r, (s.withResult r).chan = s.chan from fun _ => rfl]
  generalize emitWords ch (s.chan.get ch).hout = ws at *
  exact ⟨ws, hlen, fun r => sendFrom_done (s := s.withResult r) (hlen ▸ h), fun _ _ => sendFrom_done (hlen ▸ h)⟩

theorem emitEnd_sink (ch : Fin 2) {ws : List Sample} (hlen : ws.length = 576) (s : State) :
    (emitEnd ch (s.sent ws)).env.sink = s.env.sink - 576 := by
  rw [emitEnd, State.answer_env, ← hlen]
  rfl

/-- The jobs are their commands, then the end of the frame, where the sink has room for what they send. -/
theorem runJobs_eq_runStages (jobs : List Job) (n : Nat) {s : State} (hroom : jobWords jobs ≤ s.env.sink) :
    runJobs jobs n s = stageThen (frameEnd (n + jobWords jobs)) (runStages (jobs.flatMap Job.commands) s) := by
  induction jobs generalizing n s with
  | nil => rw [runJobs]; rfl
  | cons j jobs ih =>
    have hwords : jobWords (j :: jobs) = j.words + jobWords jobs := List.sum_cons
    rw [hwords] at hroom ⊢
    rw [List.flatMap_cons, runStages_append, stageThen_thenStage]
    cases j with
    | front gr ch =>
      rw [runJobs_front, runStages_front, Job.words, Nat.zero_add]
      exact stageThen_congr (ih n (by rw [runFront_env]; exact Nat.le_of_add_left_le hroom))
    | stereo gr =>
      have henv : Fixes State.env (runPlain (guardStereo gr) (stereo gr)) :=
        Fixes.runPlain (fun s => env_of_chanFrame (stereo_frame gr s)) _
      rw [runJobs_stereo, runStages_stereo, Job.words, Nat.zero_add]
      exact stageThen_congr (ih n (by rw [henv]; exact Nat.le_of_add_left_le hroom))
    | back gr ch =>
      rw [Job.words] at hroom
      have hsink : 576 + jobWords jobs ≤ (runBack gr ch s).1.env.sink := by rw [runBack_env]; exact hroom
      obtain ⟨ws, hlen, hrun, hemit⟩ := emit_room (Nat.le_of_add_right_le hsink) gr
      have hleft : jobWords jobs ≤ (emitEnd ch ((runBack gr ch s).1.sent ws)).env.sink :=
        emitEnd_sink ch hlen _ ▸ Nat.le_sub_of_add_le' hsink
      rw [runJobs_back, runStages_back, stageThen_thenStage, Job.words, ← Nat.add_assoc]
      refine stageThen_congr ?_
      have hrun : commandRun (.emit gr ch) (runBack gr ch s).1 = _ := hrun (runBack gr ch s).1.result
      rw [hemit, hrun, ih (n + 576) hleft]
      rfl

end Sys2Proof.Machine
end

section
/-! PROOF. The codes that a command of DECODE_FRAME leaves on record (R201, R430): where there is a fault, the first is
one of 0x20-0x24. -/

namespace Sys2Proof.Machine

/-- The code of a fault (R431): 0x20-0x24. -/
abbrev Err.ofFault (e : Err) : Prop :=
  e ∈ [Err.resvOverread, .resvOverrewind, .resvOverflow, .huffmanInvalid, .frameBufOverread]

/-- No fault is on record, or the first is named by its code. -/
def FaultLog.Coded (l : FaultLog) : Prop :=
  (l.tainted = false ∧ l.first = none) ∨ ∃ e, e.ofFault ∧ l.first = some e

theorem FaultLog.Coded.record {l : FaultLog} (h : l.Coded) {e : Err} (he : e.ofFault) : (l.record e).Coded := by
  rcases h with ⟨-, hnone⟩ | ⟨x, hx, hsome⟩
  · exact .inr ⟨e, he, by rw [FaultLog.record_first, hnone]; rfl⟩
  · exact .inr ⟨x, hx, by rw [FaultLog.record_first, hsome]; rfl⟩

theorem FaultLog.Coded.recordIf {l : FaultLog} (h : l.Coded) {e : Err} (he : e.ofFault) (c : Bool) :
    (l.recordIf c e).Coded := by
  cases c
  · exact h
  · exact h.record he

theorem FaultLog.Coded.drawn {l : FaultLog} (h : l.Coded) : l.drawn.Coded := h

/-- FbRead (R214). -/
theorem FaultLog.Coded.fbRead {l : FaultLog} (h : l.Coded) (n : Nat) (fb : FrameBuf) : (fb.read n l).2.2.Coded := by
  have hlog := h.recordIf (e := .frameBufOverread) (by decide) (decide (8 * fb.len < fb.bitpos + n))
  rcases FrameBuf.read_log n fb l with e | e <;> rw [e]
  · exact hlog
  · exact hlog.drawn

/-! ### The reservoir -/

/-- The same of the reservoir's log. -/
def RS.Coded (r : RS) : Prop := r.log.Coded

namespace RS.Coded
variable {r : RS} (h : r.Coded)
include h

theorem read (n : Nat) : (r.read n).2.Coded := by
  have hlog := FaultLog.Coded.recordIf h (e := .resvOverread) (by decide) (decide (r.resv.avail < n))
  rw [RS.Coded]
  rcases RS.read_log n r with e | e <;> rw [e]
  · exact hlog
  · exact hlog.drawn

theorem rewind (n : Nat) : (r.rewind n).Coded := FaultLog.Coded.recordIf h (by decide) _

theorem put (b : Byte) : (r.put b).Coded := FaultLog.Coded.recordIf h (by decide) _

/-- An invalid walk (R280). -/
theorem invalid : RS.Coded { r with log := r.log.record .huffmanInvalid } := FaultLog.Coded.record h (by decide)

theorem putMany (l : List Byte) : (r.putMany l).Coded := by
  induction l generalizing r with
  | nil => exact h
  | cons b l ih => exact ih (h.put b)

theorem readMany (ws : List Nat) : (r.readMany ws).2.Coded := by
  induction ws generalizing r with
  | nil => exact h
  | cons w ws ih => exact ih (h.read w)

theorem skipBytes (n : Nat) : (r.skipBytes n).Coded := by
  induction n generalizing r with
  | zero => exact h
  | succ n ih => exact ih (h.read 8)

theorem flush : (flush r).1.Coded := by
  unfold Machine.flush
  dsimp only
  split
  · exact h.read _
  · exact h

/-! ### HUFFMAN_DECODE (R280-R287) -/

theorem huffWalk {σ : Type} (book : Codebook σ) (z : σ) (fuel : Nat) (pre : List Bool) :
    (huffWalk book z fuel pre r).2.Coded := by
  induction fuel generalizing pre r with
  | zero => exact h.invalid
  | succ fuel ih =>
    have hread := h.read 1
    unfold Machine.huffWalk
    dsimp only
    split
    · exact hread
    · split
      · exact hread.invalid
      · exact ih hread _

theorem readEscape (bits x : Nat) : (readEscape bits x r).2.Coded := by
  unfold Machine.readEscape
  split
  · exact h.read bits
  · exact h

theorem readSign (x : Nat) : (readSign x r).2.Coded := by
  unfold Machine.readSign
  split
  · exact h
  · exact h.read 1

theorem huffPair (t : Nat) : (huffPair t r).2.Coded := by
  have hsym : (if t = 0 then ((0, 0), r) else huffSym (bigCodebook t) (0, 0) r).2.Coded := by
    split
    · exact h
    · exact h.huffWalk _ _ _ _
  exact (((hsym.readEscape _ _).readSign _).readEscape _ _).readSign _

theorem bigValues (table : Nat → Nat) (n i : Nat) : (bigValues table n i r).2.Coded := by
  induction n generalizing i r with
  | zero => exact h
  | succ n ih => exact ih (h.huffPair _) _

theorem huffQuad (book : Codebook Quad) : (huffQuad book r).2.Coded :=
  ((((h.huffWalk _ _ _ _).readSign _).readSign _).readSign _).readSign _

theorem count1 (book : Codebook Quad) (stop fuel index : Nat) : (count1 book stop fuel index r).2.Coded := by
  induction fuel generalizing index r with
  | zero => exact h
  | succ fuel ih =>
    unfold Machine.count1
    split
    · exact ih (h.huffQuad book) _
    · exact h

theorem stuffing (stop fuel : Nat) : (stuffing stop fuel r).Coded := by
  induction fuel generalizing r with
  | zero => exact h
  | succ fuel ih =>
    unfold Machine.stuffing
    split
    · exact ih (h.read _)
    · exact h

theorem decodePart3 (sfreq : Fin 9) (g : GranuleInfo) (stop : Nat) : (decodePart3 sfreq g stop r).2.Coded := by
  unfold Machine.decodePart3
  dsimp only
  refine stuffing ?_ _ _
  have hquads := (h.bigValues (pairTable sfreq g) g.bigValues.toNat 0).count1
    (quadCodebook g.count1TableSelect) stop 145
  split
  · exact (hquads _).rewind _
  · exact hquads _

end RS.Coded

/-! ### The commands -/

/-- Stores of a granule command change the count of draws alone. -/
theorem coded_of_chanFrame {s t : State} (h : t = s.chanFrame t) (hs : s.rs.Coded) : t.rs.Coded := by
  rw [chanFrame_rs h]
  exact hs

theorem answer_coded (w : Word) {s : State} (h : s.rs.Coded) : (s.answer w).rs.Coded := by
  rw [State.answer_frame]
  exact h

theorem huffmanDecode_coded (gr ch : Fin 2) {s : State} (h : s.rs.Coded) : (huffmanDecode gr ch s).rs.Coded := by
  unfold huffmanDecode
  dsimp only
  rw [State.setStage_rs]
  show (State.storeQuantised ch _ _).rs.Coded
  exact coded_of_chanFrame (storeQuantised_frame ch _ _) (h.decodePart3 _ _ _ : RS.Coded _)

theorem readScalefactors_coded (gr ch : Fin 2) {s : State} (h : s.rs.Coded) : (readScalefactors gr ch s).rs.Coded := by
  unfold readScalefactors
  dsimp only
  rw [State.setStage_rs]
  split
  · exact coded_of_chanFrame (storeScf_frame ch _ _) (RS.Coded.readMany h _)
  · refine coded_of_chanFrame (storeScf_frame ch _ _) (RS.Coded.readMany ?_ _)
    exact coded_of_chanFrame (storeLsf_frame ch _ _) h

theorem copySlots_coded (n : Nat) {c : Copy} (h : c.rs.Coded) : (Copy.slots n c).rs.Coded := by
  induction n generalizing c with
  | zero => exact h
  | succ n ih => exact ih (RS.Coded.put (r := { c.rs with log := _ }) (FaultLog.Coded.fbRead h 8 c.fb) _)

theorem loadMainData_coded {s : State} (h : s.rs.Coded) : (loadMainData s).1.rs.Coded := by
  have hcopied : s.copied.rs.Coded := copySlots_coded s.head.slots h
  by_cases hd : s.newDiscard.toInt < 0
  · rw [loadMainData_skip hd]
    exact hcopied.flush
  · rw [loadMainData_load hd]
    have hflush : RS.Coded { (flush s.copied.rs).1 with
        resv := if s.wrapGuard then (flush s.copied.rs).1.resv.renormalise else (flush s.copied.rs).1.resv } :=
      hcopied.flush
    exact hflush.skipBytes _

end Sys2Proof.Machine
end

section
/-! PROOF. A command of DECODE_FRAME, issued by the host, does what it does in the frame (R420). -/

namespace Sys2Proof.Machine

/-- The granule commands of DECODE_FRAME. -/
def IsGranuleStep : Instr → Prop
  | .readScalefactors _ _ | .huffmanDecode _ _ | .dequantize _ _ | .reorder _ _ | .stereo _ | .antialias _ _
  | .hybrid _ _ | .freqInvert _ _ | .emit _ _ => True
  | _ => False

/-- The commands of DECODE_FRAME after its SYNC. -/
def IsFrameStep (i : Instr) : Prop := i = .readSideInfo ∨ i = .loadMainData ∨ IsGranuleStep i

/-- The words that a command sends. -/
def stepWords : Instr → Nat
  | .emit _ _ => 576
  | _ => 0

/-- A code that ends the frame (R433): rejected or skipped. -/
abbrev Err.ofStop (e : Err) : Prop := e ∈ [Err.sideinfoInvalid, .unsupported, .crcReject, .frameSkipped]

theorem Err.ofStop.ne_ok {e : Err} (h : e.ofStop) : e ≠ .ok := by
  rintro rfl
  exact absurd h (by decide)

theorem Err.ofStop.ne_fatalIo {e : Err} (h : e.ofStop) : e ≠ .fatalIo := by
  rintro rfl
  exact absurd h (by decide)

theorem invalidCode_ofStop (sfreq : Fin 9) (gs : List GranuleInfo) : ∀ e ∈ invalidCode sfreq gs, e.ofStop := by
  intro e h
  unfold invalidCode at h
  split_ifs at h <;> cases h <;> decide

/-- R233's codes. -/
theorem rejection_ofStop (s : State) : ∀ e ∈ s.rejection, e.ofStop := by
  intro e h
  unfold State.rejection at h
  split at h
  · next x hx => cases h; exact invalidCode_ofStop _ _ _ hx
  · split at h
    · cases h; decide
    · cases h

/-! ### The effects of one command -/

/-- From `s` to `t` the sink has taken `n` words; the rest of the world stays. -/
def Sends (n : Nat) (s t : State) : Prop := ∃ ws : List Sample, ws.length = n ∧ t.env = (s.sent ws).env

/-- Where nothing is sent. -/
theorem Sends.of_env {s t : State} (h : t.env = s.env) : Sends 0 s t := ⟨[], rfl, by simp [State.sent, h]⟩

theorem Sends.sink {n : Nat} {s t : State} (h : Sends n s t) : t.env.sink = s.env.sink - n := by
  obtain ⟨ws, rfl, henv⟩ := h
  rw [henv]
  rfl

theorem Sends.out {s t : State} (h : Sends 0 s t) : t.env.out = s.env.out := by
  obtain ⟨ws, hlen, henv⟩ := h
  rw [henv, List.length_eq_zero_iff.1 hlen]
  exact List.append_nil _

theorem Sends.trans {m n : Nat} {s t u : State} (h : Sends m s t) (h' : Sends n t u) : Sends (m + n) s u := by
  obtain ⟨ws, rfl, henv⟩ := h
  obtain ⟨ws', rfl, henv'⟩ := h'
  refine ⟨ws ++ ws', List.length_append, ?_⟩
  rw [henv', State.sent, henv]
  simp [State.sent, Nat.sub_sub]

/-- With room at the sink the effects of `i` on `s` end in `t` with the code `e`: the same whatever RESULT is, and
what they leave. -/
structure Ends (i : Instr) (s t : State) (e : Err) : Prop where
  run : commandRun i s = .ended t e
  again : s.clean → ∀ r, ∃ r', commandRun i (s.withResult r) = .ended (t.withResult r') e
  control : t.control = s.control
  outcome : (e = .ok ∧ t.status.skipped = s.status.skipped) ∨
    (e.ofStop ∧ t.status.skipped = true ∧ ¬ IsGranuleStep i)
  sends : Sends (stepWords i) s t
  coded : i ≠ .readSideInfo → s.rs.Coded → t.rs.Coded

/-- The parts of the state that a granule command other than EMIT writes. -/
def State.granuleFrame (s t : State) : State := { s with si := t.si, rs := t.rs, order := t.order, chan := t.chan }

/-- A granule command other than EMIT. -/
theorem Ends.of_plain {i : Instr} {f : State → State} (hi : commandRun i = ending f) (hw : stepWords i = 0)
    (hfree : ResultFree f) {s : State} (hframe : f s = s.granuleFrame (f s)) (hcoded : s.rs.Coded → (f s).rs.Coded) :
    Ends i s (f s) .ok where
  run := by rw [hi]; rfl
  again _ r := ⟨r, by rw [hi, ending, hfree]⟩
  control := by rw [hframe]; rfl
  outcome := .inl ⟨rfl, by rw [hframe]; rfl⟩
  sends := hw ▸ .of_env (by rw [hframe]; rfl)
  coded _ := hcoded

/-- A granule command past Huffman decoding. -/
theorem Ends.of_chanFrame {i : Instr} {f : State → State} (hi : commandRun i = ending f) (hw : stepWords i = 0)
    (hfree : ResultFree f) {s : State} (hframe : f s = s.chanFrame (f s)) : Ends i s (f s) .ok :=
  .of_plain hi hw hfree (by rw [hframe]; rfl) (coded_of_chanFrame hframe)

theorem readSideInfo_ends (s : State) : Ends .readSideInfo s (readSideInfo s).1 (readSideInfo s).2 where
  run := rfl
  again _ r := ⟨r, by dsimp only [commandRun]; rw [readSideInfo_resultFree]⟩
  control := readSideInfo_control s
  outcome := by
    rcases readSideInfo_cases s with ⟨e, hrej, h⟩ | ⟨-, h⟩ <;> rw [h]
    · exact .inr ⟨rejection_ofStop _ e hrej, rfl, id⟩
    · exact .inl ⟨rfl, rfl⟩
  sends := .of_env (readSideInfo_env s)
  coded h := absurd rfl h

theorem loadMainData_ends (s : State) : Ends .loadMainData s (loadMainData s).1 (loadMainData s).2 where
  run := rfl
  again _ r := ⟨r, by dsimp only [commandRun]; rw [loadMainData_resultFree]⟩
  control := loadMainData_control s
  outcome := by
    by_cases h : s.newDiscard.toInt < 0
    · rw [loadMainData_skip h]
      exact .inr ⟨(by decide : Err.frameSkipped.ofStop), rfl, id⟩
    · rw [loadMainData_load h]
      exact .inl ⟨rfl, rfl⟩
  sends := .of_env (loadMainData_env s)
  coded _ := loadMainData_coded

theorem emit_ends (gr ch : Fin 2) {s : State} (hroom : 576 ≤ s.env.sink) :
    ∃ ws : List Sample, ws.length = 576 ∧ Ends (.emit gr ch) s (emitEnd ch (s.sent ws)) .ok := by
  obtain ⟨ws, hlen, hrun, -⟩ := emit_room (ch := ch) hroom gr
  refine ⟨ws, hlen, hrun s.result, fun hc r => ⟨576, ?_⟩, emitEnd_control ch _, .inl ⟨rfl, ?_⟩, ⟨ws, hlen, ?_⟩, ?_⟩
  · rw [hrun]
    have hclean : ((s.sent ws).setStage ch .em).clean := hc
    rw [emitEnd, emitEnd, setStage_withResult, State.answer_clean _ hclean, State.answer_clean _ (by exact hclean)]
    rfl
  · rw [emitEnd, State.answer_status]
    rfl
  · rw [emitEnd, State.answer_env]
    rfl
  · exact fun _ h => answer_coded _ h

/-- Every command of DECODE_FRAME ends where the sink has room. -/
theorem commandRun_ends {i : Instr} (hi : IsFrameStep i) {s : State} (hroom : stepWords i ≤ s.env.sink) :
    ∃ t e, Ends i s t e := by
  obtain rfl | rfl | hi := hi
  · exact ⟨_, _, readSideInfo_ends s⟩
  · exact ⟨_, _, loadMainData_ends s⟩
  cases i with
  | nop | resetStream | decodeFrame | sync | readSideInfo | loadMainData | rbPutByte | rbReadBits | rbRewindBits
    | rbRewindBytes | rbTell => exact hi.elim
  | readScalefactors gr ch =>
    exact ⟨_, _, .of_plain rfl rfl (readScalefactors_resultFree gr ch) (by rw [readScalefactors_frame]; rfl)
      (readScalefactors_coded gr ch)⟩
  | huffmanDecode gr ch =>
    exact ⟨_, _, .of_plain rfl rfl (huffmanDecode_resultFree gr ch) (by rw [huffmanDecode_frame]; rfl)
      (huffmanDecode_coded gr ch)⟩
  | dequantize gr ch => exact ⟨_, _, .of_chanFrame rfl rfl (dequantize_resultFree gr ch) (dequantize_frame gr ch s)⟩
  | reorder gr ch => exact ⟨_, _, .of_chanFrame rfl rfl (reorder_resultFree gr ch) (reorder_frame gr ch s)⟩
  | stereo gr => exact ⟨_, _, .of_chanFrame rfl rfl (stereo_resultFree gr) (stereo_frame gr s)⟩
  | antialias gr ch => exact ⟨_, _, .of_chanFrame rfl rfl (antialias_resultFree gr ch) (antialias_frame gr ch s)⟩
  | hybrid gr ch => exact ⟨_, _, .of_chanFrame rfl rfl (hybrid_resultFree gr ch) (hybrid_frame gr ch s)⟩
  | freqInvert gr ch => exact ⟨_, _, .of_chanFrame rfl rfl (freqInvert_resultFree ch) (freqInvert_frame ch s)⟩
  | emit gr ch =>
    obtain ⟨ws, -, h⟩ := emit_ends gr ch hroom
    exact ⟨_, _, h⟩

/-- A command's stage: a check stops it, or its effects end. -/
theorem commandStage_cases {i : Instr} (hi : IsFrameStep i) {s : State} (hroom : stepWords i ≤ s.env.sink) :
    (∃ e, e.ofCheck ∧ commandGuard i s = some e ∧ commandStage i s = (s, e)) ∨
    ∃ t e, commandGuard i s = none ∧ Ends i s t e ∧ commandStage i s = (t, e) := by
  cases hg : commandGuard i s with
  | some e => exact .inl ⟨e, commandGuard_mem i s e hg, rfl, by rw [commandStage, runStage, hg]⟩
  | none =>
    obtain ⟨t, e, h⟩ := commandRun_ends hi hroom
    refine .inr ⟨t, e, rfl, h, ?_⟩
    rw [commandStage, runStage_runs hg, h.run]
    rfl

/-- What a stage that raises nothing keeps. -/
theorem commandStage_ok {i : Instr} (hi : IsFrameStep i) {s t : State} (hroom : stepWords i ≤ s.env.sink)
    (h : commandStage i s = (t, .ok)) : t.control = s.control ∧ Sends (stepWords i) s t := by
  rcases commandStage_cases hi hroom with ⟨e, he, -, h'⟩ | ⟨u, e, -, hend, h'⟩ <;> rw [h'] at h <;> cases h
  · exact absurd rfl he.ne_ok
  · exact ⟨hend.control, hend.sends⟩

/-- But for READ_SIDE_INFO a fault that a stage records has its code. -/
theorem commandStage_coded {i : Instr} (hi : IsFrameStep i) (hread : i ≠ .readSideInfo) {s : State}
    (hroom : stepWords i ≤ s.env.sink) (hs : s.rs.Coded) : (commandStage i s).1.rs.Coded := by
  rcases commandStage_cases hi hroom with ⟨e, -, -, h⟩ | ⟨t, e, -, hend, h⟩ <;> rw [h]
  · exact hs
  · exact hend.coded hread hs

/-! ### The command issued by the host -/

/-- A state between the commands of a frame: as `start` leaves it, no fault on record and no command held. -/
structure Fresh (s : State) : Prop where
  ctrl : s.cmdCtrl = s.ctrl
  done : s.status.done = false
  eos : s.status.eos = false
  skipped : s.status.skipped = false
  fatal : s.status.fatal = false
  err : s.status.err = .ok
  clean : s.clean
  first : s.rs.log.first = none
  idle : s.held = none

theorem Fresh.coded {s : State} (h : Fresh s) : s.rs.Coded := .inl ⟨h.clean, h.first⟩

/-- The end of a command that left the state so, with RESULT = `r`. -/
def State.rest (r : Word) (s : State) : State := (s.finish .ok).withResult r

/-- Bits that are written as they are. -/
theorem status_rewritten {x : Status} {done eos skipped : Bool} {err : Err} (hdone : x.done = done) (heos : x.eos = eos)
    (hskipped : x.skipped = skipped) (herr : x.err = err) :
    { x with done := done, eos := eos, skipped := skipped, err := err } = x := by
  subst hdone heos hskipped herr
  rfl

theorem log_rewritten {x : RS} (h : x.log.first = none) : { x with log := { x.log with first := none } } = x := by
  rw [← h]

theorem state_rewritten {x : State} {c : Ctrl} {p : Option Progress} (hc : x.cmdCtrl = c) (hp : x.held = p) :
    { x with cmdCtrl := c, held := p } = x := by
  subst hc hp
  rfl

/-- The next command starts where the frame goes on, but for RESULT (R35). -/
theorem Fresh.start_rest {s : State} (h : Fresh s) (r : Word) : (s.rest r).start = s.withResult 0 := by
  have hstart : (s.rest r).start = { s with
      cmdCtrl := s.ctrl
      result := 0
      held := none
      status := { s.status with done := false, eos := false, skipped := false, err := .ok }
      rs := { s.rs with log := { s.rs.log with first := none } } } := rfl
  rw [hstart, status_rewritten h.done h.eos h.skipped h.err, log_rewritten h.first]
  exact state_rewritten (x := s.withResult 0) h.ctrl h.idle

theorem Fresh.live {s : State} (h : Fresh s) (r : Word) : (s.rest r).live := h.fatal

/-- What a stage that recorded nothing and raised nothing leaves. -/
theorem Fresh.of_control {s t : State} (h : Fresh s) (hc : t.control = s.control)
    (hskipped : t.status.skipped = s.status.skipped) (hclean : t.clean) (hfirst : t.rs.log.first = none) :
    Fresh t := by
  simp only [State.control, Prod.mk.injEq] at hc
  obtain ⟨hctrl, hcmd, -, -, -, -, -, hheld, ⟨hdone, heos, hfatal, -, herr⟩, -⟩ := hc
  exact {
    ctrl := by rw [hctrl, hcmd, h.ctrl], done := hdone.trans h.done, eos := heos.trans h.eos
    skipped := hskipped.trans h.skipped, fatal := hfatal.trans h.fatal, err := herr.trans h.err
    clean := hclean, first := hfirst, idle := hheld.trans h.idle }

theorem commandGuard_withResult (i : Instr) (r : Word) (s : State) :
    commandGuard i (s.withResult r) = commandGuard i s := by
  cases i with
  | _ => rfl

theorem IsFrameStep.ne_nop {i : Instr} (hi : IsFrameStep i) : i ≠ .nop := by
  rintro rfl
  obtain h | h | h := hi
  · cases h
  · cases h
  · exact h

/-- A command of the frame, issued by the host, ends as its stage, but for RESULT. -/
theorem exec_commandStage {i : Instr} (hi : IsFrameStep i) {s : State} (hs : Fresh s)
    (hroom : stepWords i ≤ s.env.sink) (r : Word) :
    ∃ r', exec i (s.rest r) =
      .next (complete (.ended ((commandStage i s).1.withResult r') (commandStage i s).2)) := by
  have hstart := hs.start_rest r
  have hguard : commandGuard i (s.rest r).start = commandGuard i s := by rw [hstart, commandGuard_withResult]
  rw [exec_eq_command hi.ne_nop]
  rcases commandStage_cases hi hroom with ⟨e, -, hg, h⟩ | ⟨t, e, hg, hend, h⟩ <;> rw [h]
  · refine ⟨0, ?_⟩
    rw [command_check _ (hs.live r) (hguard.trans hg), ← start_finish, hstart, complete_clean (by exact hs.clean)]
  · obtain ⟨r', hrun⟩ := hend.again hs.clean 0
    exact ⟨r', by rw [command_runs _ (hs.live r) (hguard.trans hg), hstart, hrun]⟩

theorem complete_withResult (r : Word) (s : State) {e : Err} (he : e ≠ .ok) :
    complete (.ended (s.withResult r) e) = complete (.ended s e) := by
  simp only [complete, settle_withResult, State.finish, if_neg he]
  rfl

/-- The code that it ends with. -/
theorem complete_err (s : State) (e : Err) : (complete (.ended s e)).status.err = finalErr e s.rs.log.first := by
  rw [complete, State.finish_status, State.settle_log_first]

theorem finalErr_eq_ok {s : State} (hs : s.rs.Coded) {e : Err} (he : e ≠ .fatalIo)
    (h : finalErr e s.rs.log.first = .ok) : e = .ok ∧ s.clean ∧ s.rs.log.first = none := by
  rcases hs with ⟨hclean, hnone⟩ | ⟨x, hx, hsome⟩
  · rw [hnone, finalErr_none] at h
    exact ⟨h, hclean, hnone⟩
  · rw [hsome, finalErr, if_neg he] at h
    cases h
    exact absurd hx (by decide)

end Sys2Proof.Machine
end

section
/-! PROOF. How SYNC ends, and that DECODE_FRAME goes on from there (R420). -/

namespace Sys2Proof.Machine

/-- A scan that runs from a legal candidate on accepts a legal header with the body that its rule gives. -/
theorem Scan.run_accept {ref : SyncRef} {fuel : Nat} {sc sc' : Scan} {h : Word} {body : List Byte}
    (hp : sc.phase.Legal) (hr : Scan.run ref fuel sc = .accept h body sc') :
    LegalHeader h ∧ body.length = frameSize (parseHeader h) := by
  induction fuel generalizing sc with
  | zero => cases hr
  | succ fuel ih =>
    rw [Scan.run] at hr
    cases hn : sc.next ref with
    | go sc1 => rw [hn] at hr; exact ih (Scan.next_legal hp hn) hr
    | ended sc1 | failed sc1 | waits sc1 => rw [hn] at hr; cases hr
    | accept h1 body1 sc1 =>
      rw [hn] at hr
      cases hr
      obtain ⟨rev, hphase⟩ := Scan.next_accept_phase hn
      rw [hphase] at hp
      exact hp

/-- Accept leaves a Layer III frame with its body unread but for a CRC word (R157). -/
theorem accept_accepted {s : State} {h : Word} {body : List Byte} (hc : s.clean) (hidle : s.chan.c0.stage = .idle)
    (hl : LegalHeader h) (h3 : (parseHeader h).layer = 3) (hbody : body.length = frameSize (parseHeader h)) :
    Accepted (accept h body s) := by
  have hslots := slotCount_add h3 (hbody ▸ sideinfoBytes_le_frameSize hl h3)
  rw [accept_clean hc h (hbody ▸ two_le_frameSize hl)]
  refine ⟨hc, ⟨rfl, decide_eq_true h3⟩, hidle, rfl, ?_⟩
  rw [sideInfoStart_eq]
  dsimp only [FrameBuf.load]
  omega

/-- Which command is held does not matter to an accepted frame. -/
theorem Accepted.unheld {s : State} (h : Accepted s) : Accepted { s with held := none } :=
  ⟨h.clean, h.layer3, h.idle, h.pos, h.slots⟩

/-- SYNC that ends has accepted a frame, from which DECODE_FRAME goes on, or both end the same way. -/
theorem exec_sync_done {s u : State} (hs : s.live) (hc : s.clean) (hu : exec .sync s = .next u)
    (hidle : u.busy = false) :
    (∃ a : State, Fresh a ∧ (a.head.fields.layer = 3 → Accepted a) ∧ a.env.out = s.env.out ∧
      u = a.rest a.head.hdr ∧ exec .decodeFrame s = .next (complete (frameBody a))) ∨
    (exec .decodeFrame s = .next u ∧ u.result = 0 ∧ u.env.out = s.env.out ∧ u.status.err ≠ .ok) := by
  have hframe : exec .decodeFrame s = .next (complete (syncFrom true frameBody .begin (syncStart s.start))) :=
    exec_runs (i := .decodeFrame) nofun hs rfl
  rw [exec_sync_runs hs, syncFrom_of_run rfl] at hu
  rw [syncFrom_of_run rfl] at hframe
  cases hu
  rw [hframe]
  cases hrun : Scan.run (syncStart s.start).ref ((syncStart s.start).scan .begin).fuel
      ((syncStart s.start).scan .begin) with
  | waits sc | go sc =>
    rw [hrun] at hidle
    cases hidle
  | ended sc | failed sc =>
    refine .inr ⟨rfl, rfl, ?_, ?_⟩
    · rw [syncStop, complete_clean (by exact hc)]
      rfl
    · rw [syncStop, complete_clean (by exact hc)]
      exact nofun
  | accept h body sc =>
    obtain ⟨hlegal, hbody⟩ := Scan.run_accept (sc := (syncStart s.start).scan .begin) trivial hrun
    have hclean : ((syncStart s.start).withScan sc).clean := hc
    have haccept := accept_clean hclean h (hbody ▸ two_le_frameSize hlegal)
    have haccepted := accept_accepted hclean rfl hlegal (hbody := hbody)
    have hheld := frameBody_resumes.heldFree none (accept h body ((syncStart s.start).withScan sc))
    refine .inl ⟨{ accept h body ((syncStart s.start).withScan sc) with held := none }, ?_, fun h3 => ?_, ?_, ?_, ?_⟩
    · rw [haccept]
      exact ⟨rfl, rfl, rfl, rfl, hs, rfl, hc, rfl, rfl⟩
    · exact (haccepted h3).unheld
    · rw [haccept]
      rfl
    · have hcleaned : (accept h body ((syncStart s.start).withScan sc)).clean := by rw [haccept]; exact hc
      rw [syncStop, syncEnd, State.answer_clean _ hcleaned, complete_clean (by exact hcleaned)]
      rfl
    · rw [hheld]
      rfl

end Sys2Proof.Machine
end

section
/-! PROOF. DECODE_FRAME is its commands (R420): O49. -/

namespace Sys2Proof.Machine

/-- The words that commands send. -/
def stepsWords (l : List Instr) : Nat := (l.map stepWords).sum

theorem stepsWords_append (l l' : List Instr) : stepsWords (l ++ l') = stepsWords l + stepsWords l' := by
  rw [stepsWords, List.map_append, List.sum_append]
  rfl

theorem stepsWords_job (j : Job) : stepsWords j.commands = j.words := by
  cases j <;> simp [stepsWords, Job.commands, stepWords, Job.words]

theorem stepsWords_jobs (jobs : List Job) : stepsWords (jobs.flatMap Job.commands) = jobWords jobs := by
  induction jobs with
  | nil => rfl
  | cons j jobs ih =>
    rw [List.flatMap_cons, stepsWords_append, ih, stepsWords_job]
    exact List.sum_cons.symm

/-! ### The commands of a frame -/

theorem isGranuleStep_of_mem_job {j : Job} {i : Instr} (h : i ∈ j.commands) : IsGranuleStep i := by
  cases j with
  | front gr ch | back gr ch =>
    simp only [Job.commands, List.mem_cons, List.not_mem_nil, or_false] at h
    obtain rfl | rfl | rfl | rfl := h <;> trivial
  | stereo gr =>
    cases List.mem_singleton.1 h
    trivial

theorem isGranuleStep_of_mem_jobs {jobs : List Job} {i : Instr} (h : i ∈ jobs.flatMap Job.commands) :
    IsGranuleStep i := by
  obtain ⟨j, -, hi⟩ := List.mem_flatMap.1 h
  exact isGranuleStep_of_mem_job hi

/-- The jobs of the granule loop from `s` on (R420). -/
def State.jobs (s : State) : List Job := frameJobs s.granules s.channels s.sel

/-- The commands of DECODE_FRAME after its SYNC, as READ_SIDE_INFO, LOAD_MAIN_DATA and the jobs of its granules. -/
def State.frameSteps (s : State) : List Instr :=
  .readSideInfo :: .loadMainData :: s.jobs.flatMap Job.commands

theorem frameCommands_eq (s : State) : frameCommands s.ngr s.nch s.sel = s.frameSteps := by
  have hgranules : (([0, 1] : List (Fin 2)).filter fun gr => decide (gr.val < s.ngr)) = s.granules := by
    unfold State.granules
    rcases ngr_cases s with h | h <;> rw [h] <;> rfl
  have hchannels : (([0, 1] : List (Fin 2)).filter fun ch => decide (ch.val < s.nch)) = s.channels := by
    unfold State.channels
    rcases nch_cases s with h | h <;> rw [h] <;> rfl
  rw [frameCommands, hgranules, hchannels, State.frameSteps, State.jobs, frameJobs, List.flatMap_assoc]
  simp only [List.flatMap_append, List.flatMap_cons, List.flatMap_map, Job.commands, List.singleton_append]

theorem jobs_words (s : State) : jobWords s.jobs = 576 * s.ngr * s.sel.length := by
  have hlen : s.granules.length = s.ngr := by
    unfold State.granules
    rcases ngr_cases s with h | h <;> rw [h] <;> rfl
  rw [State.jobs, frameJobs_words, hlen, Nat.mul_comm s.sel.length, ← Nat.mul_assoc, Nat.mul_comm s.ngr]

theorem frameSteps_words (s : State) : stepsWords s.frameSteps = jobWords s.jobs := by
  rw [← stepsWords_jobs, State.frameSteps, stepsWords, List.map_cons, List.map_cons, List.sum_cons, List.sum_cons]
  exact (Nat.zero_add _).trans (Nat.zero_add _)

/-- The items that the jobs of the granule loop are taken from. -/
theorem jobs_of_control {s t : State} (h : t.control = s.control) : t.jobs = s.jobs := by
  simp only [State.control, Prod.mk.injEq] at h
  obtain ⟨-, hcmd, hhead, -⟩ := h
  simp only [State.jobs, State.granules, State.channels, State.sel, State.ngr, State.nch, hcmd, hhead]
  rfl

/-- DECODE_FRAME of a Layer III frame is its commands, then its end, where the sink has room. -/
theorem frameBody_eq_runStages {s : State} (h3 : s.head.fields.layer = 3) (hroom : jobWords s.jobs ≤ s.env.sink) :
    frameBody s = stageThen (frameEnd (jobWords s.jobs)) (runStages s.frameSteps s) := by
  have hstages : frameStages = runStages [.readSideInfo, .loadMainData] := by
    rw [runStages, runStages, runStages, thenStage_nothing]
    rfl
  have hcontrol : (frameStages s).1.control = s.control :=
    ((readSideInfo_control).runStage guardSideInfo).thenStage (loadMainData_control.runStage guardMainData) s
  have hsteps : runStages s.frameSteps = thenStage frameStages (runStages (s.jobs.flatMap Job.commands)) := by
    rw [hstages, ← runStages_append]
    rfl
  rw [frameBody_eq, if_neg (not_not.2 h3), hsteps, stageThen_thenStage]
  refine stageThen_congr ?_
  rw [frameGranules, ← State.jobs, jobs_of_control hcontrol,
    runJobs_eq_runStages s.jobs 0 (by rw [frameStages_env]; exact hroom), Nat.zero_add]

/-! ### Command by command -/

/-- A command of the frame, issued by the host: its code, the state where it raises one, and the state between the
commands where it ends with OK. -/
theorem exec_step {i : Instr} (hi : IsFrameStep i) {s : State} (hs : Fresh s) (hroom : stepWords i ≤ s.env.sink)
    (hcoded : (commandStage i s).1.rs.Coded) (r : Word) :
    ∃ w, exec i (s.rest r) = .next w ∧
      w.status.err = finalErr (commandStage i s).2 (commandStage i s).1.rs.log.first ∧
      w.status.skipped = (commandStage i s).1.status.skipped ∧
      ((commandStage i s).2 ≠ .ok → w = complete (.ended (commandStage i s).1 (commandStage i s).2)) ∧
      (w.status.err = .ok → ∃ t r', commandStage i s = (t, .ok) ∧ Fresh t ∧ w = t.rest r') := by
  obtain ⟨r', hexec⟩ := exec_commandStage hi hs hroom r
  have herr := complete_err ((commandStage i s).1.withResult r') (commandStage i s).2
  refine ⟨_, hexec, herr, ?_, fun he => complete_withResult r' _ he, fun hok => ?_⟩
  · simp only [complete, State.finish_status, State.settle_status]
    rfl
  · rw [herr] at hok
    rcases commandStage_cases hi hroom with ⟨e, he, -, h⟩ | ⟨t, e, -, hend, h⟩
    · rw [h] at hok hcoded
      obtain ⟨rfl, -⟩ := finalErr_eq_ok hcoded he.ne_fatalIo hok
      exact absurd rfl he.ne_ok
    · rw [h] at hok hcoded ⊢
      have hne : e ≠ .fatalIo := by
        rcases hend.outcome with ⟨rfl, -⟩ | ⟨he, -⟩
        · decide
        · exact he.ne_fatalIo
      obtain ⟨rfl, hclean, hfirst⟩ := finalErr_eq_ok hcoded hne hok
      have hskipped : t.status.skipped = s.status.skipped := by
        rcases hend.outcome with ⟨-, h⟩ | ⟨he, -⟩
        · exact h
        · exact absurd rfl he.ne_ok
      refine ⟨t, r', rfl, hs.of_control hend.control hskipped hclean hfirst, ?_⟩
      rw [complete_clean (s := t.withResult r') hclean]
      rfl

/-- What stages in a row that raise nothing keep. -/
theorem runStages_ok {l : List Instr} (hl : ∀ i ∈ l, IsFrameStep i) {s t : State} (hroom : stepsWords l ≤ s.env.sink)
    (h : runStages l s = (t, .ok)) : t.control = s.control ∧ Sends (stepsWords l) s t := by
  induction l generalizing s with
  | nil =>
    cases h
    exact ⟨rfl, .of_env rfl⟩
  | cons i l ih =>
    obtain ⟨hi, hl⟩ := List.forall_mem_cons.1 hl
    have hwords : stepsWords (i :: l) = stepWords i + stepsWords l := List.sum_cons
    rw [hwords] at hroom ⊢
    rw [runStages, thenStage] at h
    split at h
    · next hstage =>
      have hstage : commandStage i s = ((commandStage i s).1, .ok) := by rw [← hstage]
      obtain ⟨hcontrol, hsends⟩ := commandStage_ok hi (Nat.le_of_add_right_le hroom) hstage
      obtain ⟨hcontrol', hsends'⟩ := ih hl (hsends.sink ▸ Nat.le_sub_of_add_le' hroom) h
      exact ⟨hcontrol'.trans hcontrol, hsends.trans hsends'⟩
    · next hstage => exact absurd (congrArg Prod.snd h) hstage

/-- Commands of the frame that all end with OK leave the state that their stages reach. -/
theorem runCommands_eq_runStages {l : List Instr} {s : State} (hl : ∀ i ∈ l, IsFrameStep i)
    (hread : .readSideInfo ∉ l.tail) (hs : Fresh s) (hroom : stepsWords l ≤ s.env.sink)
    (hcoded : ∀ i ∈ l.head?, (commandStage i s).1.rs.Coded) (r : Word)
    (hok : ∀ n ≤ l.length, (runCommands (l.take n) (s.rest r)).2.status.err = .ok) :
    ∃ t r', runStages l s = (t, .ok) ∧ Fresh t ∧ (runCommands l (s.rest r)).2 = t.rest r' := by
  induction l generalizing s r with
  | nil => exact ⟨s, r, rfl, hs, rfl⟩
  | cons i l ih =>
    obtain ⟨hi, hl⟩ := List.forall_mem_cons.1 hl
    have hwords : stepsWords (i :: l) = stepWords i + stepsWords l := List.sum_cons
    rw [hwords] at hroom
    have hroomi := Nat.le_of_add_right_le hroom
    obtain ⟨w, hexec, -, -, -, hstep⟩ := exec_step hi hs hroomi (hcoded i rfl) r
    have hcons (l : List Instr) : (runCommands (i :: l) (s.rest r)).2 = (runCommands l w).2 := by
      rw [runCommands_cons hexec]
    have hw := hok 1 (by simp)
    rw [List.take_succ_cons, hcons] at hw
    obtain ⟨t, r', hstage, ht, rfl⟩ := hstep hw
    have hroom' : stepsWords l ≤ t.env.sink :=
      (commandStage_ok hi hroomi hstage).2.sink ▸ Nat.le_sub_of_add_le' hroom
    have hcoded' : ∀ j ∈ l.head?, (commandStage j t).1.rs.Coded := fun j hj => by
      have hmem := List.mem_of_mem_head? hj
      have hle : stepWords j ≤ stepsWords l := List.single_le_sum (by simp) _ (List.mem_map_of_mem hmem)
      exact commandStage_coded (hl j hmem) (fun h => hread (h ▸ hmem)) (hle.trans hroom') ht.coded
    obtain ⟨y, q, hrun, hy, hcommands⟩ :=
      ih hl (fun h => hread (List.mem_of_mem_tail h)) ht hroom' hcoded' r' fun n hn => by
        have h := hok (n + 1) (by simpa using hn)
        rwa [List.take_succ_cons, hcons] at h
    refine ⟨y, q, ?_, hy, (hcons l).trans hcommands⟩
    rw [runStages, thenStage_ok hstage, hrun]

/-! ### READ_SIDE_INFO of an accepted frame (R231) -/

/-- Its check passes. -/
theorem Accepted.readSideInfo_stage {s : State} (h : Accepted s) : commandStage .readSideInfo s = readSideInfo s :=
  runStage_runs (guardSideInfo_none.2 ⟨h.layer3, h.idle, h.pos⟩) _

/-- Its reads stay inside the body. -/
theorem Accepted.takeSideInfo_rs {s : State} (h : Accepted s) : (takeSideInfo s).rs = s.rs := by
  have hslots := h.slots
  obtain ⟨si, htake, -⟩ := takeSideInfo_eq h.clean h.pos (by rw [h.pos]; omega)
  rw [htake]
  rfl

theorem Accepted.readSideInfo_coded {s : State} (h : Accepted s) (hs : s.rs.Coded) :
    (commandStage .readSideInfo s).1.rs.Coded := by
  have htake : (takeSideInfo s).rs.Coded := h.takeSideInfo_rs.symm ▸ hs
  rw [h.readSideInfo_stage]
  rcases readSideInfo_cases s with ⟨e, -, hrun⟩ | ⟨-, hrun⟩ <;> rw [hrun]
  · exact htake.putMany _
  · exact htake

/-! ### The frame -/

theorem frameSteps_isFrameStep (s : State) : ∀ i ∈ s.frameSteps, IsFrameStep i := fun i hi => by
  obtain rfl | rfl | hi := List.mem_cons.1 hi |>.imp_right List.mem_cons.1
  · exact .inl rfl
  · exact .inr (.inl rfl)
  · exact .inr (.inr (isGranuleStep_of_mem_jobs hi))

theorem readSideInfo_notMem_tail (s : State) : .readSideInfo ∉ s.frameSteps.tail := fun h => by
  obtain h | h := List.mem_cons.1 h
  · cases h
  · exact isGranuleStep_of_mem_jobs h

/-- SEL of a frame is that of the commands that the host issues after SYNC. -/
theorem Fresh.willSelect_rest {s : State} (h : Fresh s) (r : Word) : (s.rest r).willSelect = s.sel := by
  rw [State.sel, h.ctrl]
  rfl

theorem Fresh.frameCommands_rest {s : State} (h : Fresh s) (r : Word) :
    frameCommands (s.rest r).ngr (s.rest r).nch (s.rest r).willSelect = s.frameSteps := by
  rw [h.willSelect_rest, ← frameCommands_eq]
  rfl

theorem Fresh.jobWords_rest {s : State} (h : Fresh s) (r : Word) :
    576 * (s.rest r).ngr * (s.rest r).willSelect.length = jobWords s.jobs := by
  rw [h.willSelect_rest, jobs_words]
  rfl

/-- The end of a frame that sent words and recorded no fault. -/
theorem complete_frameEnd_clean {s : State} (hc : s.clean) {n : Nat} (hn : 0 < n) :
    complete (frameEnd n s) = { s.finish .ok with
      result := BitVec.ofNat 32 n
      env := { s.env with out := s.env.out ++ [.frameEnd] } } := by
  rw [frameEnd, if_pos hn, State.answer_clean _ (by exact hc), complete_clean (by exact hc)]
  rfl

theorem jobs_words_pos (s : State) : 0 < jobWords s.jobs := by
  have hsel := s.sel_length.1
  rw [jobs_words]
  rcases ngr_cases s with h | h <;> rw [h] <;> omega

/-- Settles O49. -/
theorem decodeFrameIsItsCommands : Obligations.DecodeFrameIsItsCommands := by
  intro s u hs hc hu hidle herr h3 hroom
  rcases exec_sync_done hs hc hu hidle with ⟨a, ha, haccepted, -, rfl, hframe⟩ | ⟨-, -, -, hne⟩
  · intro commands t hok
    have hcommands : commands = a.frameSteps := ha.frameCommands_rest a.head.hdr
    have h3 : a.head.fields.layer = 3 := h3
    have hroom : jobWords a.jobs ≤ a.env.sink := (frameJobs_words_le a).trans hroom
    obtain ⟨y, r', hrun, hy, ht⟩ := runCommands_eq_runStages (frameSteps_isFrameStep a) (readSideInfo_notMem_tail a) ha
      (frameSteps_words a ▸ hroom) (fun i hi => by cases hi; exact (haccepted h3).readSideInfo_coded ha.coded)
      a.head.hdr (hcommands ▸ hok)
    have ht : t = y.rest r' := by rw [← ht, ← hcommands]
    rw [hframe, frameBody_eq_runStages h3 hroom, hrun, stageThen_ok _ _ rfl,
      complete_frameEnd_clean hy.clean (jobs_words_pos a), ht, ha.jobWords_rest]
    rfl
  · exact absurd herr hne

end Sys2Proof.Machine
end

section
/-! PROOF. After a LOAD_MAIN_DATA that ends with OK every check of the granule commands of the frame passes, whatever
faults they record (R421, R430). -/

namespace Sys2Proof.Machine

/-- STAGE and GRP of a channel. -/
def State.place (s : State) (ch : Fin 2) : Stage × Fin 2 := ((s.chan.get ch).stage, (s.chan.get ch).grp)

/-- From `s` to `t` channel `ch` has reached `x` of granule `gr`, NEXT_GC and PART_OPEN are `o`, and `n` words have been
sent. -/
structure Moves (n : Nat) (gr ch : Fin 2) (x : Stage) (o : PartOrder) (s t : State) : Prop where
  control : t.control = s.control
  sends : Sends n s t
  order : t.order = o
  place : ∀ c, t.place c = if c = ch then (x, gr) else s.place c

section
variable {n m : Nat} {gr ch : Fin 2} {x y : Stage} {o p : PartOrder} {s t u : State}

theorem Moves.here (h : Moves n gr ch x o s t) : t.place ch = (x, gr) := (h.place ch).trans (if_pos rfl)

theorem Moves.trans (h : Moves n gr ch x o s t) (h' : Moves m gr ch y p t u) : Moves (n + m) gr ch y p s u where
  control := h'.control.trans h.control
  sends := h.sends.trans h'.sends
  order := h'.order
  place c := by
    rw [h'.place, h.place]
    split <;> rfl

theorem place_of_chan {c : Fin 2} {d : Chan} (h : t.chan.get c = if c = ch then d else s.chan.get c)
    (hstage : d.stage = x) (hgrp : d.grp = gr) : t.place c = if c = ch then (x, gr) else s.place c := by
  rw [State.place, h, ← hstage, ← hgrp]
  split <;> rfl

theorem order_of_chanFrame (h : t = s.chanFrame t) : t.order = s.order := by
  rw [h]
  rfl

/-- A granule command past Huffman decoding. -/
theorem Moves.of_chanFrame (hframe : t = s.chanFrame t)
    (hplace : ∀ c, t.place c = if c = ch then (x, gr) else s.place c) :
    Moves 0 gr ch x s.order s t where
  control := control_of_chanFrame hframe
  sends := .of_env (env_of_chanFrame hframe)
  order := order_of_chanFrame hframe
  place := hplace

/-! ### The commands of one channel -/

theorem readScalefactors_moves (gr ch : Fin 2) (s : State) :
    Moves 0 gr ch .sf { s.order with partOpen := true } s (readScalefactors gr ch s) where
  control := readScalefactors_control gr ch s
  sends := .of_env (by rw [readScalefactors_frame])
  order := by rw [readScalefactors_frame]
  place c := by
    obtain ⟨p, v, w, h⟩ := readScalefactors_chan gr ch c s
    exact place_of_chan h rfl rfl

theorem huffmanDecode_moves (h : s.place ch = (x, gr)) :
    Moves 0 gr ch .huf { nextGc := s.order.nextGc + 1, partOpen := false } s (huffmanDecode gr ch s) where
  control := huffmanDecode_control gr ch s
  sends := .of_env (by rw [huffmanDecode_frame])
  order := by rw [huffmanDecode_frame]
  place c := by
    obtain ⟨p, q, stop, -, hchan⟩ := huffmanDecode_chan gr ch c s
    exact place_of_chan hchan rfl (congrArg Prod.snd h)

theorem dequantize_moves (h : s.place ch = (x, gr)) : Moves 0 gr ch .dq s.order s (dequantize gr ch s) :=
  .of_chanFrame (dequantize_frame gr ch s) fun c => by
    obtain ⟨v, hchan⟩ := dequantize_chan gr ch c s
    exact place_of_chan hchan rfl (congrArg Prod.snd h)

theorem reorder_moves (h : s.place ch = (x, gr)) : Moves 0 gr ch .ro s.order s (reorder gr ch s) :=
  .of_chanFrame (reorder_frame gr ch s) fun c => by
    obtain ⟨v, hchan⟩ := reorder_chan gr ch c s
    exact place_of_chan hchan rfl (congrArg Prod.snd h)

theorem antialias_moves (h : s.place ch = (x, gr)) : Moves 0 gr ch .aa s.order s (antialias gr ch s) :=
  .of_chanFrame (antialias_frame gr ch s) fun c => by
    obtain ⟨v, hchan⟩ := antialias_chan gr ch c s
    exact place_of_chan hchan rfl (congrArg Prod.snd h)

theorem hybrid_moves (h : s.place ch = (x, gr)) : Moves 0 gr ch .hy s.order s (hybrid gr ch s) :=
  .of_chanFrame (hybrid_frame gr ch s) fun c => by
    obtain ⟨v, w, hchan⟩ := hybrid_chan gr ch c s
    exact place_of_chan hchan rfl (congrArg Prod.snd h)

theorem freqInvert_moves (h : s.place ch = (x, gr)) : Moves 0 gr ch .fi s.order s (freqInvert ch s) :=
  .of_chanFrame (freqInvert_frame ch s) fun c => by
    obtain ⟨v, hchan⟩ := freqInvert_chan ch c s
    exact place_of_chan hchan rfl (congrArg Prod.snd h)

/-- EMIT where the sink has room. -/
theorem emit_moves (h : s.place ch = (x, gr)) (hroom : 576 ≤ s.env.sink) :
    ∃ t, commandRun (.emit gr ch) s = .ended t .ok ∧ Moves 576 gr ch .em s.order s t := by
  obtain ⟨ws, -, hend⟩ := emit_ends gr ch hroom
  refine ⟨_, hend.run, hend.control, hend.sends, ?_, fun c => ?_⟩
  · rw [emitEnd, State.answer_order]
    rfl
  · have hchan : (emitEnd ch (s.sent ws)).chan.get c =
        if c = ch then { s.chan.get ch with stage := .em } else s.chan.get c := by
      rw [emitEnd, State.answer_chan, setStage_chan]
      rfl
    exact place_of_chan hchan rfl (congrArg Prod.snd h)

/-! ### The checks of one channel -/

theorem guardGranule_of_control (h : t.control = s.control) : guardGranule gr ch t = guardGranule gr ch s := by
  simp only [State.control, Prod.mk.injEq] at h
  obtain ⟨-, -, hhead, -, -, -, -, -, -, -, hhdr, hlayer3, -⟩ := h
  rw [guardGranule, guardGranule, guardLayer3, guardLayer3, State.ngr, State.nch, hhead, hhdr, hlayer3]
  rfl

theorem guardStage_of_place (hg : guardGranule gr ch s = none) (h : s.place ch = (x, gr)) :
    guardStage x gr ch s = none := by
  obtain ⟨hstage, hgrp⟩ := Prod.mk.inj h
  rw [guardStage, hg, thenCheck_none, require_none, at_iff]
  exact ⟨rfl, hstage, hgrp⟩

/-- The stage that `ch` has reached is what the check of its next command asks for. -/
theorem Moves.guard (h : Moves n gr ch x o s t) (hg : guardGranule gr ch s = none) : guardStage x gr ch t = none :=
  guardStage_of_place ((guardGranule_of_control h.control).trans hg) h.here

/-- READ_SCALEFACTORS to REORDER of the channel that is due. -/
theorem front_moves (hg : guardGranule gr ch s = none) (hready : s.readyForPart2 gr ch = true) :
    ∃ t, runStages (Job.front gr ch).commands s = (t, .ok) ∧
      Moves 0 gr ch .ro { nextGc := s.order.nextGc + 1, partOpen := false } s t := by
  have hscalefactors : guardScalefactors gr ch s = none := by
    rw [guardScalefactors, hg, thenCheck_none, require_none]
    exact ⟨rfl, hready⟩
  have h1 := readScalefactors_moves gr ch s
  have h2 := h1.trans (huffmanDecode_moves h1.here)
  have h3 := h2.trans (dequantize_moves h2.here)
  have h4 := h3.trans (reorder_moves h3.here)
  rw [h3.order, h2.order, h1.order] at h4
  refine ⟨_, ?_, h4⟩
  rw [runStages_front, runFront, thenStage_runPlain hscalefactors, thenStage_runPlain (h1.guard hg),
    thenStage_runPlain (h2.guard hg), runPlain_runs (h3.guard hg)]

/-- ANTIALIAS to EMIT of a selected channel. -/
theorem back_moves (hg : guardGranule gr ch s = none) (h : s.place ch = (.st, gr)) (hroom : 576 ≤ s.env.sink) :
    ∃ t, runStages (Job.back gr ch).commands s = (t, .ok) ∧ Moves 576 gr ch .em s.order s t := by
  have h1 := antialias_moves h
  have h2 := h1.trans (hybrid_moves h1.here)
  have h3 := h2.trans (freqInvert_moves h2.here)
  obtain ⟨t, hrun, h4⟩ := emit_moves h3.here (by rw [h3.sends.sink]; exact hroom)
  have h5 := h3.trans h4
  rw [h3.order, h2.order, h1.order] at h5
  refine ⟨t, ?_, h5⟩
  rw [runStages_back, runBack, thenStage_assoc, thenStage_runPlain (guardStage_of_place hg h), thenStage_assoc,
    thenStage_runPlain (h1.guard hg), thenStage_assoc, thenStage_runPlain (h2.guard hg),
    thenStage_runPlain (h3.guard hg), id, hrun]
  rfl

end

end Sys2Proof.Machine
end

section
/-! PROOF. The granule loop of a frame from where LOAD_MAIN_DATA leaves it (R421). -/

namespace Sys2Proof.Machine

/-- From a state that meets `P` and whose sink has room the commands of the jobs raise nothing and lead to one that
meets `Q`. -/
def Passes (jobs : List Job) (P Q : State → Prop) : Prop :=
  ∀ s, P s → jobWords jobs ≤ s.env.sink → ∃ t, runStages (jobs.flatMap Job.commands) s = (t, .ok) ∧ Q t

section
variable {P Q R : State → Prop} {jobs jobs' : List Job}

theorem Passes.none (h : ∀ s, P s → Q s) : Passes [] P Q := fun s hp _ => ⟨s, rfl, h s hp⟩

theorem jobs_isFrameStep (jobs : List Job) : ∀ i ∈ jobs.flatMap Job.commands, IsFrameStep i := fun _ hi =>
  .inr (.inr (isGranuleStep_of_mem_jobs hi))

theorem Passes.trans (h : Passes jobs P Q) (h' : Passes jobs' Q R) : Passes (jobs ++ jobs') P R := fun s hp hroom => by
  have hwords : jobWords (jobs ++ jobs') = jobWords jobs + jobWords jobs' := by
    rw [jobWords, List.map_append, List.sum_append]
    rfl
  rw [hwords] at hroom
  have hroom₁ := Nat.le_of_add_right_le hroom
  obtain ⟨t, hrun, hq⟩ := h s hp hroom₁
  have hsends := (runStages_ok (jobs_isFrameStep jobs) (stepsWords_jobs jobs ▸ hroom₁) hrun).2
  rw [stepsWords_jobs] at hsends
  obtain ⟨u, hrun', hr⟩ := h' t hq (hsends.sink ▸ Nat.le_sub_of_add_le' hroom)
  exact ⟨u, by rw [List.flatMap_append, runStages_append, thenStage_ok hrun, hrun'], hr⟩

/-- One job. -/
theorem Passes.of_job {j : Job}
    (h : ∀ s, P s → j.words ≤ s.env.sink → ∃ t, runStages j.commands s = (t, .ok) ∧ Q t) : Passes [j] P Q :=
  fun s hp hroom => by
    obtain ⟨t, hrun, hq⟩ := h s hp hroom
    exact ⟨t, by rw [List.flatMap_singleton, hrun], hq⟩

end

/-! ### The states between the jobs of the frame of `a` -/

/-- `k` granule-channels of granule `gr` are reordered, and the next is due (R421). -/
structure FrontDue (a : State) (gr : Fin 2) (k : Nat) (s : State) : Prop where
  control : s.control = a.control
  order : s.order = { nextGc := BitVec.ofNat 3 (gr.val * a.nch + k), partOpen := false }
  done : ∀ ch : Fin 2, ch.val < k → s.place ch = (.ro, gr)
  left : ∀ ch : Fin 2, k ≤ ch.val → ch.val < a.nch →
    (gr = 0 → (s.place ch).1 = .md) ∧ (gr = 1 → s.place ch = (.em, 0))

/-- The channels `l` of granule `gr` are still to be sent. -/
structure BackDue (a : State) (gr : Fin 2) (l : List (Fin 2)) (s : State) : Prop where
  control : s.control = a.control
  order : s.order = { nextGc := BitVec.ofNat 3 (gr.val * a.nch + a.nch), partOpen := false }
  left : ∀ ch ∈ l, s.place ch = (.st, gr)
  done : ∀ ch : Fin 2, ch.val < a.nch → ch ∉ l → s.place ch = (.em, gr)

/-- What the checks read of the header. -/
theorem operands_of_control {s t : State} (h : t.control = s.control) :
    t.nch = s.nch ∧ t.ngr = s.ngr ∧ t.sel = s.sel ∧ (t.layer3Frame ↔ s.layer3Frame) := by
  simp only [State.control, Prod.mk.injEq] at h
  obtain ⟨-, hcmd, hhead, -, -, -, -, -, -, -, hhdr, hlayer3, -⟩ := h
  refine ⟨by rw [State.nch, hhead]; rfl, by rw [State.ngr, hhead]; rfl, ?_, ?_⟩
  · simp only [State.sel, State.nch, hcmd, hhead]
    rfl
  · rw [State.layer3Frame, hhdr, hlayer3]
    rfl

section
variable {a : State} (h3 : a.layer3Frame) {gr ch : Fin 2} (hgr : gr.val < a.ngr)
include h3 hgr

theorem guardGranule_of_control_eq {s : State} (hc : s.control = a.control) (hch : ch.val < a.nch) :
    guardGranule gr ch s = none :=
  (guardGranule_of_control hc).trans (guardGranule_none.2 ⟨h3, hgr, hch⟩)

theorem front_passes (hch : ch.val < a.nch) :
    Passes [.front gr ch] (FrontDue a gr ch.val) (FrontDue a gr (ch.val + 1)) := .of_job fun s h _ => by
  obtain ⟨hnch, hngr, -, -⟩ := operands_of_control h.control
  obtain ⟨hfirst, hsecond⟩ := h.left ch le_rfl hch
  have hnext : s.order.nextGc.toNat = gr.val * s.nch + ch.val := by
    have hle : gr.val * a.nch ≤ 1 * 2 := Nat.mul_le_mul (Nat.le_of_lt_succ gr.isLt) a.head.fields.nch_le
    rw [h.order, hnch, BitVec.toNat_ofNat]
    exact Nat.mod_eq_of_lt (by omega)
  have hready : s.readyForPart2 gr ch = true := by
    refine beforeScalefactors_iff.2 ⟨hfirst, fun h1 => ?_, by rw [h.order], hnext⟩
    obtain ⟨hstage, hgrp⟩ := Prod.mk.inj (hsecond h1)
    refine ⟨?_, hstage, hgrp⟩
    rw [h1] at hgr
    rcases ngr_cases s with h2 | h2
    · rw [← hngr, h2] at hgr; exact absurd hgr (by decide)
    · exact h2
  obtain ⟨t, hrun, hmoves⟩ := front_moves (guardGranule_of_control_eq h3 hgr h.control hch) hready
  refine ⟨t, hrun, hmoves.control.trans h.control, ?_, fun c hc => ?_, fun c hc hn => ?_⟩
  · have hsucc : BitVec.ofNat 3 (gr.val * a.nch + (ch.val + 1)) = BitVec.ofNat 3 (gr.val * a.nch + ch.val) + 1 := by
      rw [← Nat.add_assoc, BitVec.ofNat_add]
      rfl
    rw [hmoves.order, h.order, hsucc]
  · rw [hmoves.place]
    split
    · rfl
    · next hne => exact h.done c (by omega)
  · rw [hmoves.place, if_neg (by omega)]
    exact h.left c (by omega) hn

/-- STEREO of the granule. -/
theorem stereo_passes : Passes [.stereo gr] (FrontDue a gr a.nch) (BackDue a gr a.sel) := .of_job fun s h _ => by
  obtain ⟨hnch, hngr, hsel, hlayer3⟩ := operands_of_control h.control
  have hguard : guardStereo gr s = none := by
    rw [guardStereo, thenCheck_none, thenCheck_none, guardLayer3_none, require_none, require_none, hngr]
    exact ⟨hlayer3.2 h3, decide_eq_true hgr, beforeStereo_iff.2 fun ch hch => Prod.mk.inj (h.done ch (hnch ▸ hch))⟩
  have hplace (c : Fin 2) (hc : c.val < a.nch) : (stereo gr s).place c = (if c ∈ a.sel then .st else .em, gr) := by
    have hgrp : ((stereo gr s).chan.get c).grp = (s.chan.get c).grp := by rw [stereo_chan gr c s]
    have hpart : (s.chan.get c).grp = gr := congrArg Prod.snd (h.done c hc)
    rw [State.place, stereo_stage, hgrp, hpart, if_pos (hnch ▸ hc), hsel]
  have hframe := stereo_frame gr s
  refine ⟨stereo gr s, by rw [runStages_stereo, runPlain_runs hguard],
    (control_of_chanFrame hframe).trans h.control, (order_of_chanFrame hframe).trans h.order, fun c hc => ?_,
    fun c hc hnot => ?_⟩
  · rw [hplace c (a.sel_lt_nch c hc), if_pos hc]
  · rw [hplace c hc, if_neg hnot]

/-- ANTIALIAS to EMIT of a selected channel. -/
theorem back_passes {l : List (Fin 2)} (hch : ch.val < a.nch) (hl : ch ∉ l) :
    Passes [.back gr ch] (BackDue a gr (ch :: l)) (BackDue a gr l) := .of_job fun s h hroom => by
  obtain ⟨t, hrun, hmoves⟩ :=
    back_moves (guardGranule_of_control_eq h3 hgr h.control hch) (h.left ch List.mem_cons_self) hroom
  refine ⟨t, hrun, hmoves.control.trans h.control, hmoves.order.trans h.order, fun c hc => ?_, fun c hc hnot => ?_⟩
  · rw [hmoves.place, if_neg (ne_of_mem_of_not_mem hc hl)]
    exact h.left c (List.mem_cons_of_mem _ hc)
  · rw [hmoves.place]
    split
    · rfl
    · next hne => exact h.done c hc (List.not_mem_cons_of_ne_of_not_mem hne hnot)

/-- The front jobs of a granule. -/
theorem fronts_passes : Passes (a.channels.map (.front gr)) (FrontDue a gr 0) (FrontDue a gr a.nch) := by
  rcases nch_cases a with hn | hn
  · have h0 := front_passes (ch := 0) h3 hgr (by rw [hn]; decide)
    rw [State.channels, if_pos hn, hn]
    exact h0
  · have h0 := front_passes (ch := 0) h3 hgr (by rw [hn]; decide)
    have h1 := front_passes (ch := 1) h3 hgr (by rw [hn]; decide)
    rw [State.channels, if_neg (by rw [hn]; decide), hn]
    exact h0.trans h1

/-- The back jobs of a granule. -/
theorem backs_passes {l : List (Fin 2)} (hnodup : l.Nodup) (hl : ∀ ch ∈ l, ch.val < a.nch) :
    Passes (l.map (.back gr)) (BackDue a gr l) (BackDue a gr []) := by
  induction l with
  | nil => exact .none fun _ h => h
  | cons ch l ih =>
    obtain ⟨hnot, hnodup⟩ := List.nodup_cons.1 hnodup
    obtain ⟨hch, hl⟩ := List.forall_mem_cons.1 hl
    exact (back_passes h3 hgr hch hnot).trans (ih hnodup hl)

/-- The jobs of a granule. -/
theorem granule_passes : Passes (a.channels.map (.front gr) ++ .stereo gr :: a.sel.map (.back gr))
    (FrontDue a gr 0) (BackDue a gr []) :=
  (fronts_passes h3 hgr).trans ((stereo_passes h3 hgr).trans (backs_passes h3 hgr a.sel_nodup a.sel_lt_nch))

end

/-- After granule 0 granule 1 is due. -/
theorem BackDue.next {a s : State} (h : BackDue a 0 [] s) : FrontDue a 1 0 s :=
  ⟨h.control, by rw [h.order]; simp, fun _ hc => absurd hc (Nat.not_lt_zero _),
    fun ch _ hn => ⟨nofun, fun _ => h.done ch hn List.not_mem_nil⟩⟩

/-- The jobs of a frame. -/
theorem jobs_passes {a : State} (h3 : a.layer3Frame) : Passes a.jobs (FrontDue a 0 0) fun _ => True := by
  have hend {gr : Fin 2} : Passes [] (BackDue a gr []) fun _ => True := .none fun _ _ => trivial
  have hnext : Passes [] (BackDue a 0 []) (FrontDue a 1 0) := .none fun _ h => h.next
  have h0 (h : 0 < a.ngr) := granule_passes (gr := 0) h3 h
  have h1 (h : 1 < a.ngr) := granule_passes (gr := 1) h3 h
  rcases ngr_cases a with hn | hn
  · rw [State.jobs, State.granules, if_pos hn]
    exact (h0 (by omega)).trans hend
  · rw [State.jobs, State.granules, if_neg (by omega)]
    exact (h0 (by omega)).trans ((hnext.trans (h1 (by omega))).trans hend)

/-- LOAD_MAIN_DATA that ends with OK leads to the first granule-channel (R208). -/
theorem loadMainData_frontDue {s t : State} (h : commandStage .loadMainData s = (t, .ok)) :
    t.layer3Frame ∧ FrontDue t 0 0 t := by
  have hstage : commandStage .loadMainData s = runStage guardMainData loadMainData s := rfl
  rw [hstage] at h
  cases hg : guardMainData s with
  | some e =>
    rw [runStage, hg] at h
    exact absurd (congrArg Prod.snd h) (commandGuard_mem .loadMainData s e hg).ne_ok
  | none =>
    rw [runStage_runs hg] at h
    by_cases hd : s.newDiscard.toInt < 0
    · rw [loadMainData_skip hd] at h
      cases h
    · rw [loadMainData_load hd] at h
      cases h
      refine ⟨(guardMainData_none.1 hg).1, rfl, ?_, fun _ hc => absurd hc (Nat.not_lt_zero _), fun ch _ hch =>
        ⟨fun _ => ?_, nofun⟩⟩
      · have hzero (n : Nat) : BitVec.ofNat 3 ((0 : Fin 2).val * n + 0) = 0 := by simp
        exact congrArg (PartOrder.mk · false) (hzero _).symm
      · have hget := (enterMd_get s ch).trans (if_pos hch)
        exact congrArg Chan.stage hget

end Sys2Proof.Machine
end

section
/-! PROOF. How DECODE_FRAME ends otherwise (R420, R430): O50. -/

namespace Sys2Proof.Machine

/-! ### The first fault stays on record (R430) -/

theorem FaultLog.recordIf_first {l : FaultLog} {x : Err} (h : l.first = some x) (c : Bool) (e : Err) :
    (l.recordIf c e).first = some x := by
  cases c
  · exact h
  · rw [FaultLog.recordIf_true, FaultLog.record_first, h]
    rfl

theorem RS.closed_first (x : Err) : RS.Closed fun r => r.log.first = some x where
  read r n h := by
    rcases RS.read_log n r with e | e <;> rw [e]
    · exact FaultLog.recordIf_first h _ _
    · exact FaultLog.recordIf_first h (decide (r.resv.avail < n)) .resvOverread
  rewind r n h := FaultLog.recordIf_first h _ _
  record r e h := FaultLog.recordIf_first h true e

theorem first_of_chanFrame {s t : State} (h : t = s.chanFrame t) {x : Err} (hx : s.rs.log.first = some x) :
    t.rs.log.first = some x := by
  rw [chanFrame_rs h]
  exact hx

theorem sendFrom_first (ch : Fin 2) (ws : List Sample) {s : State} {x : Err} (h : s.rs.log.first = some x) :
    (sendFrom ch none ended ws s).state.rs.log.first = some x := by
  rcases Nat.lt_or_ge s.env.sink ws.length with hlt | hle
  · rw [sendFrom_waits hlt]
    exact h
  · rw [sendFrom_done hle]
    exact (State.answer_log_first 576 ((s.sent ws).setStage ch .em)).trans h

theorem commandRun_first {i : Instr} (hi : IsGranuleStep i) {s : State} {x : Err} (h : s.rs.log.first = some x) :
    (commandRun i s).state.rs.log.first = some x := by
  cases i with
  | nop | resetStream | decodeFrame | sync | readSideInfo | loadMainData | rbPutByte | rbReadBits | rbRewindBits
    | rbRewindBytes | rbTell => exact hi.elim
  | readScalefactors gr ch => exact (RS.closed_first x).readScalefactors (fun _ _ h => h) gr ch h
  | huffmanDecode gr ch => exact (RS.closed_first x).huffmanDecode (fun _ _ h => h) gr ch h
  | dequantize gr ch => exact first_of_chanFrame (dequantize_frame gr ch s) h
  | reorder gr ch => exact first_of_chanFrame (reorder_frame gr ch s) h
  | stereo gr =>
    have hrun : (commandRun (.stereo gr) s).state = stereo gr s := rfl
    rw [hrun]
    exact first_of_chanFrame (stereo_frame gr s) h
  | antialias gr ch => exact first_of_chanFrame (antialias_frame gr ch s) h
  | hybrid gr ch => exact first_of_chanFrame (hybrid_frame gr ch s) h
  | freqInvert gr ch => exact first_of_chanFrame (freqInvert_frame ch s) h
  | emit gr ch =>
    have hrun : commandRun (.emit gr ch) s = sendFrom ch none ended (emitWords ch (s.chan.get ch).hout) s := rfl
    rw [hrun]
    exact sendFrom_first ch _ h

theorem runStages_first {l : List Instr} (hl : ∀ i ∈ l, IsGranuleStep i) {s : State} {x : Err}
    (h : s.rs.log.first = some x) : (runStages l s).1.rs.log.first = some x := by
  induction l generalizing s with
  | nil => exact h
  | cons i l ih =>
    obtain ⟨hi, hl⟩ := List.forall_mem_cons.1 hl
    have hstage : (commandStage i s).1.rs.log.first = some x := by
      unfold commandStage runStage
      split
      · exact h
      · exact commandRun_first hi h
    rw [runStages, thenStage]
    split
    · exact ih hl hstage
    · exact hstage

/-! ### The command that ends or taints the frame -/

theorem Err.ofCheck.not_ofStop {e : Err} (h : e.ofCheck) : ¬e.ofStop := by
  rcases h with rfl | rfl | rfl <;> decide

theorem Err.ofCheck.not_ofFault {e : Err} (h : e.ofCheck) : ¬e.ofFault := by
  rcases h with rfl | rfl | rfl <;> decide

theorem Err.ofFault.not_ofStop {e : Err} (h : e.ofFault) : ¬e.ofStop := by
  revert h
  cases e <;> decide

/-- READ_SIDE_INFO and LOAD_MAIN_DATA send nothing. -/
theorem stepWords_eq_zero {i : Instr} (hi : IsFrameStep i) (h : ¬IsGranuleStep i) : stepWords i = 0 := by
  obtain rfl | rfl | hi := hi
  · rfl
  · rfl
  · exact absurd hi h

section
variable {i : Instr} (hi : IsFrameStep i) {s : State} (hs : Fresh s) (hroom : stepWords i ≤ s.env.sink)
  (hcoded : (commandStage i s).1.rs.Coded)
include hi hs hroom hcoded

/-- A code of rejection or skip is raised, not recorded: by READ_SIDE_INFO or LOAD_MAIN_DATA, which send nothing. -/
theorem commandStage_stops (h : (finalErr (commandStage i s).2 (commandStage i s).1.rs.log.first).ofStop) :
    (commandStage i s).2 ≠ .ok ∧ ¬IsGranuleStep i ∧ (commandStage i s).1.env.out = s.env.out := by
  rcases commandStage_cases hi hroom with ⟨e, he, -, hrun⟩ | ⟨t, e, -, hend, hrun⟩ <;> rw [hrun] at h hcoded ⊢
  · rw [hs.first, finalErr_none] at h
    exact absurd h he.not_ofStop
  · rcases hend.outcome with ⟨rfl, -⟩ | ⟨he, -, hnot⟩
    · rw [finalErr_ok] at h
      rcases hcoded with ⟨-, hfirst⟩ | ⟨x, hx, hfirst⟩ <;> rw [hfirst] at h
      · exact absurd rfl h.ne_ok
      · exact absurd h hx.not_ofStop
    · exact ⟨he.ne_ok, hnot, Sends.out (stepWords_eq_zero hi hnot ▸ hend.sends)⟩

/-- A fault in a frame that is not skipped is recorded, and nothing is raised. -/
theorem commandStage_faults (h : (finalErr (commandStage i s).2 (commandStage i s).1.rs.log.first).ofFault)
    (hskipped : (commandStage i s).1.status.skipped = false) :
    ∃ t, commandStage i s = (t, .ok) ∧
      t.rs.log.first = some (finalErr (commandStage i s).2 (commandStage i s).1.rs.log.first) := by
  rcases commandStage_cases hi hroom with ⟨e, he, -, hrun⟩ | ⟨t, e, -, hend, hrun⟩ <;>
    rw [hrun] at h hcoded hskipped ⊢
  · rw [hs.first, finalErr_none] at h
    exact absurd h he.not_ofFault
  · rcases hend.outcome with ⟨rfl, -⟩ | ⟨-, hskip, -⟩
    · rcases hcoded with ⟨-, hfirst⟩ | ⟨x, hx, hfirst⟩
      · rw [hfirst] at h
        exact absurd h (by decide : ¬Err.ok.ofFault)
      · exact ⟨t, rfl, by rw [hfirst, finalErr_ok]; rfl⟩
    · exact absurd (hskip.symm.trans hskipped) nofun

end

/-! ### Up to that command -/

theorem thenStage_eq_ok {f g : State → State × Err} {s t : State} (h : thenStage f g s = (t, .ok)) :
    ∃ u, f s = (u, .ok) ∧ g u = (t, .ok) := by
  rw [thenStage] at h
  split at h
  · next hf => exact ⟨(f s).1, by rw [← hf], h⟩
  · next hf => exact absurd (congrArg Prod.snd h) hf

/-- READ_SIDE_INFO that takes an accepted frame records nothing. -/
theorem Accepted.readSideInfo_rs {s t : State} (h : Accepted s) (hrun : commandStage .readSideInfo s = (t, .ok)) :
    t.rs = s.rs := by
  rw [h.readSideInfo_stage] at hrun
  rcases readSideInfo_cases s with ⟨e, hrej, hbody⟩ | ⟨-, hbody⟩ <;> rw [hbody] at hrun <;> cases hrun
  · exact absurd rfl (rejection_ofStop _ _ hrej).ne_ok
  · exact h.takeSideInfo_rs

/-- Once LOAD_MAIN_DATA has ended with OK, no check of the frame's further commands fails. -/
theorem runStages_rest {a t : State} (hroom : jobWords a.jobs ≤ a.env.sink) {g l : List Instr}
    (hsplit : a.jobs.flatMap Job.commands = g ++ l)
    (hrun : runStages (.readSideInfo :: .loadMainData :: g) a = (t, .ok)) : ∃ d, runStages l t = (d, .ok) := by
  rw [runStages] at hrun
  obtain ⟨p, hread, hrun⟩ := thenStage_eq_ok hrun
  rw [runStages] at hrun
  obtain ⟨q, hload, hrun⟩ := thenStage_eq_ok hrun
  obtain ⟨hpc, hps⟩ := commandStage_ok (.inl rfl) (Nat.zero_le _) hread
  obtain ⟨hqc, hqs⟩ := commandStage_ok (.inr (.inl rfl)) (Nat.zero_le _) hload
  obtain ⟨hlayer3, hdue⟩ := loadMainData_frontDue hload
  have hjobs : q.jobs = a.jobs := jobs_of_control (hqc.trans hpc)
  have hsink : q.env.sink = a.env.sink := (hps.trans hqs).sink
  obtain ⟨d, hd, -⟩ := jobs_passes hlayer3 q hdue (by rw [hjobs, hsink]; exact hroom)
  rw [hjobs, hsplit, runStages_append, thenStage_ok hrun] at hd
  exact ⟨d, hd⟩

section
variable {a : State} (ha : Fresh a) (haccepted : Accepted a) (hroom : jobWords a.jobs ≤ a.env.sink)
  {l₁ l₂ : List Instr} {i : Instr} (hsplit : a.frameSteps = l₁ ++ i :: l₂)
include hsplit

theorem isFrameStep_of_split : (∀ j ∈ l₁, IsFrameStep j) ∧ IsFrameStep i := by
  have hall := frameSteps_isFrameStep a
  rw [hsplit] at hall
  exact ⟨fun j hj => hall j (List.mem_append_left _ hj), hall i (by simp)⟩

/-- Before READ_SIDE_INFO and LOAD_MAIN_DATA nothing is sent. -/
theorem stepsWords_before (hi : ¬IsGranuleStep i) : stepsWords l₁ = 0 := by
  rcases l₁ with - | ⟨j, - | ⟨k, l⟩⟩
  · rfl
  · cases (List.cons.inj hsplit).1
    rfl
  · have hmem : i ∈ a.jobs.flatMap Job.commands := by
      rw [(List.cons.inj (List.cons.inj hsplit).2).2]
      simp
    exact absurd (isGranuleStep_of_mem_jobs hmem) hi

theorem ne_readSideInfo_of_split (hne : l₁ ≠ []) : i ≠ .readSideInfo := by
  rintro rfl
  refine readSideInfo_notMem_tail a ?_
  rw [hsplit, List.tail_append_of_ne_nil hne]
  simp

/-- From the second command on LOAD_MAIN_DATA has been reached. -/
theorem split_after_load (hne : l₁ ≠ []) : ∃ g, l₁ ++ [i] = .readSideInfo :: .loadMainData :: g ∧
    a.jobs.flatMap Job.commands = g ++ l₂ := by
  rcases l₁ with - | ⟨j, - | ⟨k, l⟩⟩
  · exact absurd rfl hne
  · cases hsplit
    exact ⟨[], rfl, rfl⟩
  · obtain ⟨rfl, htail⟩ := List.cons.inj hsplit
    obtain ⟨rfl, hrest⟩ := List.cons.inj htail
    exact ⟨l ++ [i], rfl, hrest.trans (List.append_cons l i l₂)⟩

include ha haccepted hroom

/-- Where the commands before `i` end with OK, `i` finds the state that their stages reach, and ends as its stage. -/
theorem runCommands_upTo (r : Word)
    (hok : ∀ m ≤ l₁.length, (runCommands (l₁.take m) (a.rest r)).2.status.err = .ok) :
    ∃ s w, runStages l₁ a = (s, .ok) ∧ Fresh s ∧ stepWords i ≤ s.env.sink ∧ (commandStage i s).1.rs.Coded ∧
      (runCommands (l₁ ++ [i]) (a.rest r)).2 = w ∧
      w.status.err = finalErr (commandStage i s).2 (commandStage i s).1.rs.log.first ∧
      w.status.skipped = (commandStage i s).1.status.skipped ∧
      ((commandStage i s).2 ≠ .ok → w = complete (.ended (commandStage i s).1 (commandStage i s).2)) := by
  obtain ⟨hl, hi⟩ := isFrameStep_of_split hsplit
  have hread : .readSideInfo ∉ l₁.tail := fun h => by
    refine readSideInfo_notMem_tail a ?_
    rw [hsplit, List.tail_append_of_ne_nil (List.ne_nil_of_mem (List.mem_of_mem_tail h))]
    exact List.mem_append_left _ h
  have hwords : stepsWords l₁ + stepWords i ≤ a.env.sink := by
    have hsum : stepsWords (i :: l₂) = stepWords i + stepsWords l₂ := List.sum_cons
    rw [← frameSteps_words, hsplit, stepsWords_append, hsum] at hroom
    omega
  have hfirst : ∀ j ∈ l₁.head?, (commandStage j a).1.rs.Coded := fun j hj => by
    cases l₁ with
    | nil => cases hj
    | cons k l =>
      cases hj
      cases (List.cons.inj hsplit).1
      exact haccepted.readSideInfo_coded ha.coded
  have hroom₁ := Nat.le_of_add_right_le hwords
  obtain ⟨s, q, hrun, hs, hcommands⟩ := runCommands_eq_runStages hl hread ha hroom₁ hfirst r hok
  have hroomi : stepWords i ≤ s.env.sink :=
    (runStages_ok hl hroom₁ hrun).2.sink ▸ Nat.le_sub_of_add_le' hwords
  have hcoded : (commandStage i s).1.rs.Coded := by
    by_cases hnil : l₁ = []
    · subst hnil
      cases hrun
      cases (List.cons.inj hsplit).1
      exact haccepted.readSideInfo_coded ha.coded
    · exact commandStage_coded hi (ne_readSideInfo_of_split hsplit hnil) hroomi hs.coded
  obtain ⟨w, hexec, herr, hskipped, hstop, -⟩ := exec_step hi hs hroomi hcoded q
  refine ⟨s, w, hrun, hs, hroomi, hcoded, ?_, herr, hskipped, hstop⟩
  rw [runCommands_append, hcommands, runCommands_cons hexec]
  rfl

variable (h3 : a.head.fields.layer = 3)
include h3

/-- A rejected or skipped frame ends where its command ends. -/
theorem frameBody_stops (r : Word)
    (hok : ∀ m ≤ l₁.length, (runCommands (l₁.take m) (a.rest r)).2.status.err = .ok)
    (hstop : (runCommands (l₁ ++ [i]) (a.rest r)).2.status.err.ofStop) :
    complete (frameBody a) = (runCommands (l₁ ++ [i]) (a.rest r)).2 ∧
      (runCommands (l₁ ++ [i]) (a.rest r)).2.result = 0 ∧
      (runCommands (l₁ ++ [i]) (a.rest r)).2.env.out = a.env.out := by
  obtain ⟨hl, hi⟩ := isFrameStep_of_split hsplit
  obtain ⟨s, w, hrun, hs, hroomi, hcoded, hw, herr, -, hends⟩ :=
    runCommands_upTo ha haccepted hroom hsplit r hok
  rw [hw] at hstop ⊢
  rw [herr] at hstop
  obtain ⟨hraised, hnot, hout⟩ := commandStage_stops hi hs hroomi hcoded hstop
  have hbefore := stepsWords_before hsplit hnot
  have hsends := (runStages_ok hl (by rw [hbefore]; exact Nat.zero_le _) hrun).2
  rw [hbefore] at hsends
  rw [hends hraised]
  refine ⟨?_, ?_, ?_⟩
  · rw [frameBody_eq_runStages h3 hroom, hsplit, runStages_append, thenStage_ok hrun, runStages, thenStage,
      if_neg hraised, stageThen, if_neg hraised]
  · rw [complete, State.finish]
    exact if_neg hraised
  · rw [complete, State.finish, State.settle_env, hout, hsends.out]

/-- A frame in which a fault is recorded, and which is not skipped, is sent to its end. -/
theorem frameBody_faults (r : Word)
    (hok : ∀ m ≤ l₁.length, (runCommands (l₁.take m) (a.rest r)).2.status.err = .ok)
    (hfault : (runCommands (l₁ ++ [i]) (a.rest r)).2.status.err.ofFault)
    (hskipped : (runCommands (l₁ ++ [i]) (a.rest r)).2.status.skipped = false) :
    ∃ d, frameBody a = frameEnd (jobWords a.jobs) d ∧ Sends (jobWords a.jobs) a d ∧
      d.rs.log.first = some (runCommands (l₁ ++ [i]) (a.rest r)).2.status.err := by
  obtain ⟨hl, hi⟩ := isFrameStep_of_split hsplit
  obtain ⟨s, w, hrun, hs, hroomi, hcoded, hw, herr, hskip, -⟩ :=
    runCommands_upTo ha haccepted hroom hsplit r hok
  rw [hw] at hfault hskipped ⊢
  rw [herr] at hfault ⊢
  rw [hskip] at hskipped
  obtain ⟨t, hstage, hfirst⟩ := commandStage_faults hi hs hroomi hcoded hfault hskipped
  have hupTo : runStages (l₁ ++ [i]) a = (t, .ok) := by
    rw [runStages_append, thenStage_ok hrun, runStages, runStages, thenStage_nothing, hstage]
  have hne : l₁ ≠ [] := by
    rintro rfl
    cases hrun
    cases (List.cons.inj hsplit).1
    rw [haccepted.readSideInfo_rs hstage, ha.first] at hfirst
    cases hfirst
  obtain ⟨g, hg, hgl⟩ := split_after_load hsplit hne
  obtain ⟨d, hd⟩ := runStages_rest hroom hgl (hg ▸ hupTo)
  have hall : runStages a.frameSteps a = (d, .ok) := by
    rw [hsplit, List.append_cons, runStages_append, thenStage_ok hupTo, hd]
  have hgranule : ∀ j ∈ l₂, IsGranuleStep j := fun j hj =>
    isGranuleStep_of_mem_jobs (hgl ▸ List.mem_append_right g hj)
  have hlast := runStages_first hgranule hfirst
  rw [hd] at hlast
  refine ⟨d, ?_, ?_, hlast⟩
  · rw [frameBody_eq_runStages h3 hroom, hall, stageThen_ok _ _ rfl]
  · have hsends := (runStages_ok (frameSteps_isFrameStep a) (frameSteps_words a ▸ hroom) hall).2
    rwa [frameSteps_words] at hsends

end

/-- The end of a frame in which words were sent and a fault was recorded. -/
theorem complete_frameEnd_fault {a d : State} {n : Nat} (hn : 0 < n) (hsends : Sends n a d) {e : Err}
    (hfirst : d.rs.log.first = some e) :
    ∃ words : List Sample, (complete (frameEnd n d)).busy = false ∧ (complete (frameEnd n d)).status.err = e ∧
      words.length = n ∧ (complete (frameEnd n d)).env.out = a.env.out ++ words.map .sample ++ [.frameEnd] := by
  obtain ⟨ws, hlen, henv⟩ := hsends
  refine ⟨ws, rfl, ?_, hlen, ?_⟩
  · rw [frameEnd, complete_err, State.answer_log_first, if_pos hn, State.strobe, hfirst]
    rfl
  · rw [frameEnd, complete, State.finish, State.settle_env, State.answer_env, if_pos hn, State.strobe, henv]
    rfl

/-- Settles O50. -/
theorem decodeFrameEndings : Obligations.DecodeFrameEndings := by
  intro s u hs hc hu hidle
  rcases exec_sync_done hs hc hu hidle with ⟨a, ha, haccepted, hout, rfl, hframe⟩ | ⟨hframe, hresult, hout, hne⟩
  · have herr : (a.rest a.head.hdr).status.err = .ok := by
      show finalErr .ok a.rs.log.first = .ok
      rw [ha.first, finalErr_none]
    refine ⟨fun h => ?_, fun _ h3 hroom => ?_⟩
    · rw [herr] at h
      rcases h with h | h <;> cases h
    · have h3 : a.head.fields.layer = 3 := h3
      have hroom : jobWords a.jobs ≤ a.env.sink := (frameJobs_words_le a).trans hroom
      rw [ha.frameCommands_rest, ha.jobWords_rest]
      intro commands n hn hok w
      have hsplit : a.frameSteps = commands.take n ++ commands[n] :: commands.drop (n + 1) := by
        rw [← List.drop_eq_getElem_cons hn, List.take_append_drop]
      have hw : w = (runCommands (commands.take n ++ [commands[n]]) (a.rest a.head.hdr)).2 := by
        rw [← List.take_succ_eq_append_getElem hn]
      have hprefix : ∀ m ≤ (commands.take n).length,
          (runCommands ((commands.take n).take m) (a.rest a.head.hdr)).2.status.err = .ok := fun m hm => by
        have hmn : m ≤ n := hm.trans (List.length_take_le n commands)
        rw [List.take_take, Nat.min_eq_left hmn]
        exact hok m hmn
      rw [hframe, hw]
      refine ⟨fun hstop => ?_, fun hfault hskipped => ?_⟩
      · obtain ⟨hend, hresult, hsent⟩ := frameBody_stops ha (haccepted h3) hroom hsplit h3 a.head.hdr hprefix hstop
        exact ⟨congrArg _ hend, hresult, hsent.trans hout⟩
      · obtain ⟨d, hbody, hsends, hfirst⟩ :=
          frameBody_faults ha (haccepted h3) hroom hsplit h3 a.head.hdr hprefix hfault hskipped
        obtain ⟨words, hbusy, hcode, hlen, hsent⟩ := complete_frameEnd_fault (jobs_words_pos a) hsends hfirst
        exact ⟨_, words, by rw [hbody], hbusy, hcode, hlen, hsent.trans (by rw [hout])⟩
  · exact ⟨fun _ => ⟨hframe, hresult, hout⟩, fun h => absurd h hne⟩

end Sys2Proof.Machine
end
